-- ==== Sys2Proof/Word.lean ====
section
/-! DEFINITION. The word types of the KClmtr DSP block: bytes, 64-bit words, binary64 patterns, host addresses and
complex values (spec 00_scope.md R8 to R11, 20_memory.md R60). -/

namespace Sys2Proof

/-- `u8` of R8: one byte. -/
abbrev Byte := BitVec 8

/-- One 64-bit register or memory word (R22, R60). -/
abbrev Word := BitVec 64

/-- An IEEE-754 binary64 bit pattern, its sign in bit 63 (R9, R61). -/
abbrev F64 := BitVec 64

/-- A byte address of the host port, ADDR_W = 18 bits wide (R6, R60). -/
abbrev Addr := BitVec 18

/-- A complex value: the pair `(re, im)` of f64 of R10. -/
structure Cplx where
  re : F64
  im : F64
deriving DecidableEq, Repr, Inhabited

end Sys2Proof
end

