-- ==== Sys2Proof/Syntax.lean ====
section
/-! DEFINITION. The commands of the block: one constructor for each row of spec/opcode_table.json (30_encoding.md R85). -/

namespace Sys2Proof

/-- A command of the opcode map (R85). `len` is the LEN field, the operand byte count the host states (R82); `s` is the
stage number, IMM[3:0] (R84). -/
inductive Instr where
  /-- NOP (R102) -/
  | nop
  /-- KFDEC.M (R113) -/
  | kfdecM (len : Nat)
  /-- KFDEC.B (R114) -/
  | kfdecB (len : Nat)
  /-- KFENC.M (R116) -/
  | kfencM
  /-- KFENC.B (R117) -/
  | kfencB
  /-- XFDEC (R123) -/
  | xfdec (len : Nat)
  /-- RNGDEC (R125) -/
  | rngdec (len : Nat)
  /-- ERRTOK (R127) -/
  | errtok (len : Nat)
  /-- BCPUSH (R149) -/
  | bcpush
  /-- BCCLR (R150) -/
  | bcclr
  /-- RPCLR (R172) -/
  | rpclr
  /-- RPPUSH (R173) -/
  | rppush
  /-- LOAD (R174) -/
  | load
  /-- WIN (R175) -/
  | win
  /-- FFT.F (R181) -/
  | fftF
  /-- FFT.I (R181) -/
  | fftI
  /-- MAG (R183) -/
  | mag
  /-- NORM (R184) -/
  | norm
  /-- PEAKS (R201) -/
  | peaks
  /-- BITREV (R178) -/
  | bitrev
  /-- STAGE.F (R180) -/
  | stageF (s : Nat)
  /-- STAGE.I (R180) -/
  | stageI (s : Nat)
deriving DecidableEq, Repr

end Sys2Proof
end

