-- ==== Sys2Proof/WellFormed.lean ====
section
/-! DEFINITION. Which commands have an encoding: LEN and the stage number are 4-bit fields (30_encoding.md R82, R84, R90). -/

namespace Sys2Proof

/-- R82 and R90: LEN is a 4-bit unsigned count, n in 0..15. -/
def lenFits (len : Nat) : Bool := len < 16

/-- R84 and R90: the stage number is IMM[3:0], n in 0..15. -/
def stageFits (s : Nat) : Bool := s < 16

/-- The commands that a command word can hold. -/
def Instr.wellFormed : Instr → Bool
  | .kfdecM len => lenFits len
  | .kfdecB len => lenFits len
  | .xfdec len => lenFits len
  | .rngdec len => lenFits len
  | .errtok len => lenFits len
  | .stageF s => stageFits s
  | .stageI s => stageFits s
  | .nop => true
  | .kfencM => true
  | .kfencB => true
  | .bcpush => true
  | .bcclr => true
  | .rpclr => true
  | .rppush => true
  | .load => true
  | .win => true
  | .fftF => true
  | .fftI => true
  | .mag => true
  | .norm => true
  | .peaks => true
  | .bitrev => true

end Sys2Proof
end

