-- ==== Sys2Proof/Decode.lean ====
section
/-! DEFINITION. The command decoder and encoder of 30_encoding.md (R80 to R90). -/

namespace Sys2Proof

/-! ### The fields of a command word (R81) -/

/-- OP, bits [31:24]. -/
def opField (w : BitVec 32) : BitVec 8 := w.extractLsb' 24 8

/-- LEN, bits [23:20], an unsigned byte count (R82). -/
def lenField (w : BitVec 32) : Nat := (w.extractLsb' 20 4).toNat

/-- MOD, bits [19:16] (R83). -/
def modField (w : BitVec 32) : BitVec 4 := w.extractLsb' 16 4

/-- IMM, bits [15:0] (R84). -/
def immField (w : BitVec 32) : BitVec 16 := w.extractLsb' 0 16

/-- The stage number, IMM[3:0], zero-extended (R84). -/
def stageField (w : BitVec 32) : Nat := (w.extractLsb' 0 4).toNat

/-! ### The opcode map (R85) -/

/-- One row of R85: the bits the decoder fixes, their values, and the command that the other bits complete. -/
structure OpcodeRow where
  pat : BitVec 32
  mask : BitVec 32
  build : BitVec 32 → Instr

/-- A row whose word has no free bit. -/
def fixedRow (pat : BitVec 32) (i : Instr) : OpcodeRow := ⟨pat, 0xFFFFFFFF#32, fun _ => i⟩

/-- A row whose LEN field is free (R82). -/
def lenRow (pat : BitVec 32) (build : Nat → Instr) : OpcodeRow := ⟨pat, 0xFF0FFFFF#32, fun w => build (lenField w)⟩

/-- A row whose stage number is free (R84). -/
def stageRow (pat : BitVec 32) (build : Nat → Instr) : OpcodeRow := ⟨pat, 0xFFFFFFF0#32, fun w => build (stageField w)⟩

/-- The opcode map of R85, in its order. -/
def opcodeRows : List OpcodeRow :=
  [ fixedRow 0x00000000#32 .nop,
    lenRow 0x10000000#32 .kfdecM,
    lenRow 0x10010000#32 .kfdecB,
    fixedRow 0x11000000#32 .kfencM,
    fixedRow 0x11010000#32 .kfencB,
    lenRow 0x12000000#32 .xfdec,
    lenRow 0x13000000#32 .rngdec,
    lenRow 0x14000000#32 .errtok,
    fixedRow 0x20000000#32 .bcpush,
    fixedRow 0x21000000#32 .bcclr,
    fixedRow 0x30000000#32 .rpclr,
    fixedRow 0x31000000#32 .rppush,
    fixedRow 0x32000000#32 .load,
    fixedRow 0x33000000#32 .win,
    fixedRow 0x34000000#32 .fftF,
    fixedRow 0x34010000#32 .fftI,
    fixedRow 0x35000000#32 .mag,
    fixedRow 0x36000000#32 .norm,
    fixedRow 0x37000000#32 .peaks,
    fixedRow 0x38000000#32 .bitrev,
    stageRow 0x39000000#32 .stageF,
    stageRow 0x39010000#32 .stageI ]

/-- R86: the word agrees with the row on every bit the row fixes. -/
def OpcodeRow.hits (r : OpcodeRow) (w : BitVec 32) : Bool := (w &&& r.mask) == r.pat

/-! ### Decoding (R86, R87) -/

/-- Why a CMD value is illegal: the cases of R87. All of them raise ILLEGAL_CMD (R221). -/
inductive IllegalReason where
  /-- c[63:32] ≠ 0 -/
  | upperBitsSet
  /-- an opcode of R87's reserved list -/
  | reservedOpcode
  /-- a MOD bit set that R83 wants 0 -/
  | reservedMod
  /-- LEN ≠ 0 outside the decoding codec commands (R82) -/
  | lenNotZero
  /-- IMM ≠ 0 outside STAGE, or IMM[15:4] ≠ 0 in STAGE (R84) -/
  | immNotZero
deriving DecidableEq, Repr

/-- The opcodes of the map that take a LEN field: KFDEC, XFDEC, RNGDEC, ERRTOK (R82). -/
def takesLen (op : BitVec 8) : Bool := op == 0x10#8 || op == 0x12#8 || op == 0x13#8 || op == 0x14#8

/-- The opcodes of the map that use MOD[0]: KFDEC, KFENC, FFT, STAGE (R83). -/
def takesMod (op : BitVec 8) : Bool := op == 0x10#8 || op == 0x11#8 || op == 0x34#8 || op == 0x39#8

/-- The opcodes that R87 does not reserve. OP = 0x00 is used by the one word of NOP (R88). -/
def opcodeUsed (op : BitVec 8) : Bool :=
  op == 0x00#8 || (0x10#8 ≤ op && op ≤ 0x14#8) || (0x20#8 ≤ op && op ≤ 0x21#8) || (0x30#8 ≤ op && op ≤ 0x39#8)

/-- The name of what is wrong with a word that no row of R85 matches (R87). -/
def illegalReason (w : BitVec 32) : IllegalReason :=
  if !opcodeUsed (opField w) then .reservedOpcode
  else if modField w &&& 0xE#4 ≠ 0#4 then .reservedMod
  else if !takesMod (opField w) && modField w ≠ 0#4 then .reservedMod
  else if !takesLen (opField w) && lenField w ≠ 0 then .lenNotZero
  else .immNotZero

/-- R86: the decoder, on any 64-bit CMD value. It reads nothing but the value. -/
def decode (c : Word) : Except IllegalReason Instr :=
  if c.extractLsb' 32 32 ≠ 0#32 then .error .upperBitsSet
  else
    match opcodeRows.find? (·.hits (c.extractLsb' 0 32)) with
    | some r => .ok (r.build (c.extractLsb' 0 32))
    | none => .error (illegalReason (c.extractLsb' 0 32))

/-- R86: the CMD value is legal. -/
def legalCmd (c : Word) : Bool :=
  match decode c with
  | .ok _ => true
  | .error _ => false

/-! ### Encoding (R81, R85, R90) -/

/-- The four fields of a command word put together (R81). -/
def cmdWord (op : BitVec 8) (len : Nat) (mod : BitVec 4) (imm : BitVec 16) : BitVec 32 :=
  op ++ BitVec.ofNat 4 len ++ mod ++ imm

/-- The command word of a command (R85, R90). -/
def encode32 : Instr → BitVec 32
  | .nop => cmdWord 0x00 0 0 0
  | .kfdecM len => cmdWord 0x10 len 0 0
  | .kfdecB len => cmdWord 0x10 len 1 0
  | .kfencM => cmdWord 0x11 0 0 0
  | .kfencB => cmdWord 0x11 0 1 0
  | .xfdec len => cmdWord 0x12 len 0 0
  | .rngdec len => cmdWord 0x13 len 0 0
  | .errtok len => cmdWord 0x14 len 0 0
  | .bcpush => cmdWord 0x20 0 0 0
  | .bcclr => cmdWord 0x21 0 0 0
  | .rpclr => cmdWord 0x30 0 0 0
  | .rppush => cmdWord 0x31 0 0 0
  | .load => cmdWord 0x32 0 0 0
  | .win => cmdWord 0x33 0 0 0
  | .fftF => cmdWord 0x34 0 0 0
  | .fftI => cmdWord 0x34 0 1 0
  | .mag => cmdWord 0x35 0 0 0
  | .norm => cmdWord 0x36 0 0 0
  | .peaks => cmdWord 0x37 0 0 0
  | .bitrev => cmdWord 0x38 0 0 0
  | .stageF s => cmdWord 0x39 0 0 (0#12 ++ BitVec.ofNat 4 s)
  | .stageI s => cmdWord 0x39 0 1 (0#12 ++ BitVec.ofNat 4 s)

/-- The 64-bit value a host writes to CMD for a command: its word in bits [31:0], zeros above (R80, R89). -/
def encode (i : Instr) : Word := 0#32 ++ encode32 i

/-- The instruction the decoder reads from a table row's bits, numbered as spec/opcode_table.json numbers them: a command
is one 32-bit word carried in one 64-bit CMD value, and every bit above `nbits` is 0 (R89). -/
def decodeTableWord (nbits w : Nat) : Option Instr :=
  match decode (BitVec.ofNat 64 (w % 2 ^ nbits)) with
  | .ok i => some i
  | .error _ => none

end Sys2Proof
end

