-- ==== Sys2Proof/Config.lean ====
section
/-! DEFINITION. The implementation parameters of spec 00_scope.md R6: the fixed ones as numbers, the ones marked OPEN as
constants without a body (R7: a model must not read an OPEN parameter as one fixed value), and the model's free values
for what the spec leaves unspecified (93_implementation_defined.md I1, I2, I3). -/

namespace Sys2Proof

/-! ### Fixed parameters (R6) -/

/-- log2 of the smallest FFT size (R6). -/
def Config.nMinLog2 : Nat := 6

/-- log2 of the largest FFT size (R6). -/
def Config.nMaxLog2 : Nat := 11

/-- The largest FFT size, 2048 (R6). -/
def Config.nMax : Nat := 2 ^ Config.nMaxLog2

/-- The samples of one ripple push (R6). -/
def Config.burst : Nat := 32

/-- The largest box-car window (R6, D13). -/
def Config.maxavgMax : Nat := 256

/-- The largest peak count (R6, D13). -/
def Config.kMax : Nat := 64

/-- The binary64 value nearest 2π (R6, D29, I26). -/
def Config.twoPi : F64 := 0x401921FB54442D18#64

/-! ### OPEN parameters (R6, R7): no body -/

/-- `SIN64`, the binary64 sine (R6, I5). OPEN. -/
opaque Config.sin64 : F64 → F64

/-- `COS64`, the binary64 cosine (R6, I5). OPEN. -/
opaque Config.cos64 : F64 → F64

/-- A layout of the 8-byte extended float (R121), bit 8i+b being bit b of byte i. The bits of the exponent and the bytes of
the mantissa are listed most significant first. The value of an exponent E other than 0 and 2047 is ±m·2^(E − 1022), with
m = `fraction M`/2^25 in [0, 2) for the mantissa M: the offset −1022 is R121's, and whether there is a hidden bit and where
the point stands is the layout's. What the exponents 0 and 2047 give is the layout's too (91_not_in_source.md N6). That a
sign bit of 1 means minus in that value is the model's choice (assumption log 17). -/
structure Config.XfLayout where
  sign : Fin 64
  exponent : Vector (Fin 64) 11
  mantissa : Vector (Fin 8) 3
  fraction : BitVec 24 → BitVec 26
  atZero : Bool → BitVec 24 → F64
  atTop : Bool → BitVec 24 → F64

/-- The constraints of R121 that the shape of a layout leaves open: the exponent has 11 different bits in exactly two bytes,
the mantissa three different bytes. -/
def Config.XfLayout.admissible (l : Config.XfLayout) : Bool :=
  decide l.exponent.toList.Nodup && (l.exponent.toList.map (fun p => p.val / 8)).dedup.length == 2 &&
  decide l.mantissa.toList.Nodup

/-- The reference layout (R122): sign B7[7], E = B7[6:0] : B6[7:4], M = B5 : B4 : B3, the value
±(2^24 + M)/2^25·2^(E − 1022), ±0.0 for E = 0 and ±infinity for E = 2047. -/
def Config.xfReference : Config.XfLayout :=
  { sign := 63
    exponent := #v[62, 61, 60, 59, 58, 57, 56, 55, 54, 53, 52]
    mantissa := #v[5, 4, 3]
    fraction := fun m => 1#2 ++ m
    atZero := fun neg _ => BitVec.ofBool neg ++ 0#63
    atTop := fun neg _ => BitVec.ofBool neg ++ 2047#11 ++ 0#52 }

/-- An admissible layout (R121). The reference layout is only what shows that there is one. -/
structure Config.XfParam where
  layout : Config.XfLayout := Config.xfReference
  admissible : layout.admissible = true := by decide
deriving Inhabited

/-- `XF_LAYOUT`, the layout of the extended float (R121, I4). OPEN: any admissible layout (assumption log 7). -/
opaque Config.xfLayout : Config.XfParam

/-- `ERR_TOKEN_MAP` on the codes below 0x80 (R128, I6). OPEN. The fourth law of R128 (nothing above 0x7F is mapped) is put
in by `Machine.errToken`, which alone reads this constant. -/
opaque Config.errTokenMap : Byte → Option (Fin 64)

/-! ### Free values -/

/-- The binary64 operations that can make a NaN (R9). -/
inductive Config.NanOp where
  | add | sub | mul | div | sqrt
deriving DecidableEq, Repr

/-- The bits an arithmetic operation takes its NaN result's sign and payload from (I2: any value that is a NaN), as a free
function of the operation and its operands. Assumption log 2. -/
opaque Config.nanBits : Config.NanOp → F64 → F64 → BitVec 64

/-- How many host turns a command or a reset sequence lasts (R264, I3: finite, unspecified), for each use of the free-value
counter. Assumption log 3. -/
opaque Config.duration : Nat → Nat

/-- What a read that the spec gives an unspecified value returns (R252, R261, I1), for each use of the free-value counter.
Assumption log 4. -/
opaque Config.freeRead : Nat → Word

end Sys2Proof
end

