-- ==== Sys2Proof/Machine/State.lean ====
section
/-! DEFINITION. The state of the block (10_state.md R20 to R56), the reasons a step can stop, and the state after reset
(70_reset_and_hazards.md R253). -/

namespace Sys2Proof.Machine

/-- Why the machine stops with a fault: it never does. Every command value, every host access and every operand has an
outcome that goes on (R65: a bus error sets BERR; R86, R222: an illegal or faulted command completes with an ERRCODE; R265:
no command can wedge the engine), so there is no constructor. The block's own fault codes are `FaultCode`. -/
inductive Fault : Type
deriving DecidableEq, Repr

/-- Why the machine refuses to go on. -/
inductive Refusal where
  /-- Raised by `exec` alone, for an instruction that has no meaning yet. Safe: nothing can be proved of its effect. No arm
  raises it in this model. -/
  | notModelled (mnemonic : String)
deriving DecidableEq, Repr

/-- The fault codes of R221 that a command can raise. -/
inductive FaultCode where
  /-- 0x01: the CMD value is not legal (R86) -/
  | illegalCmd
  /-- 0x02: a configuration register is out of range at execution (R143, R171, R180, R200) -/
  | badConfig
  /-- 0x03: NORM found SERIES[0] = ±0.0 (R184) -/
  | dcZero
deriving DecidableEq, Repr

/-- The engine state of R56. The progress of RUN and of RESET is the number of host turns left before the engine completes
(R264: finite, unspecified). A command's intermediate values are hidden and do not survive completion, and its effect
appears all at once (R57), so they are no part of the state between two steps. -/
inductive Engine where
  | idle
  | run (cmd : Word) (left : Nat)
  | reset (left : Nat)
deriving DecidableEq, Repr

/-- What the outside world does to the block, one at a time (R13, R60, R250). -/
inductive HostEvent where
  /-- `MemRead(addr, 8)` -/
  | read (addr : Addr)
  /-- `MemWrite(addr, 8, data)` -/
  | write (addr : Addr) (data : Word)
  /-- The WAIT loop of R91: read STATUS until BUSY = 0. -/
  | wait
  /-- The platform's reset input (R250). -/
  | powerOn
deriving DecidableEq, Repr

/-- One tri-stimulus sample `(y0, y1, y2)`: a value for each channel (R140). The same shape serves the three-channel
results mean[3], min[3] and max[3] of R39. -/
structure Sample where
  y0 : F64
  y1 : F64
  y2 : F64
deriving DecidableEq, Repr, Inhabited

/-- CTRL (R25): the interrupt enables. SRST always reads 0 and every other bit is reserved. -/
structure Ctrl where
  ieDone : Bool
  ieErr : Bool
deriving DecidableEq, Repr

/-- STATUS (R26) without BUSY, which is the engine state seen from outside (R56). -/
structure Status where
  done : Bool
  err : Bool
  ovr : Bool
  haz : Bool
  berr : Bool
  errcode : BitVec 8
deriving DecidableEq, Repr

/-- The box-car configuration registers BC_CFG (AUTO, TCH), BC_MAXAVG, BC_SENS, BC_SPEED and BC_TOL (R32 to R35). -/
structure BcConfig where
  auto : Bool
  tch : BitVec 2
  maxavg : BitVec 16
  sens : F64
  speed : F64
  tol : F64
deriving DecidableEq, Repr

/-- The box-car result registers BC_MEAN0..2, BC_MIN0..2, BC_MAX0..2, BC_COUNT and BC_EXIT (R38 to R40). -/
structure BcResult where
  mean : Sample
  mn : Sample
  mx : Sample
  count : BitVec 16
  exit : BitVec 2
deriving DecidableEq, Repr

/-- The state of the block (R20). A register holds its field at the field's width; its reserved bits read 0 and ignore
writes (R66), so they are not stored. ID and CAP are constants (R23, R24) and the twiddle table is one too (R55). -/
structure State where
  /-- CTRL at 0x010 (R25) -/
  ctrl : Ctrl
  /-- STATUS at 0x018 (R26) -/
  status : Status
  /-- CMD at 0x020: the last accepted command word (R29) -/
  cmd : Word
  /-- ERRMASK at 0x028, bits [3:0] (R27) -/
  errmask : BitVec 4
  /-- ERRSTICKY at 0x030, bits [3:0] (R28) -/
  errsticky : BitVec 4
  /-- OPA at 0x040 (R30) -/
  opa : Word
  /-- OPB at 0x048 (R30) -/
  opb : Word
  /-- OPC at 0x050 (R30) -/
  opc : Word
  /-- RES0 at 0x058 (R31) -/
  res0 : Word
  /-- BC_CFG, BC_MAXAVG, BC_SENS, BC_SPEED, BC_TOL at 0x060 to 0x080 (R32 to R35) -/
  bcCfg : BcConfig
  /-- BC_FILL at 0x088, bits [15:0] (R36) -/
  bcFill : BitVec 16
  /-- BC_WPTR at 0x090, bits [15:0] (R37) -/
  bcWptr : BitVec 16
  /-- BC_COUNT, BC_MEAN, BC_MIN, BC_MAX, BC_EXIT at 0x098 to 0x0E8 (R38 to R40) -/
  bcRes : BcResult
  /-- FFT_CFG at 0x100: LOG2N, bits [3:0] (R41) -/
  fftCfg : BitVec 4
  /-- RP_FILL at 0x108, bits [11:0] (R42) -/
  rpFill : BitVec 12
  /-- PK_K at 0x110, bits [7:0] (R43) -/
  pkK : BitVec 8
  /-- PK_COUNT at 0x118, bits [7:0] (R44) -/
  pkCount : BitVec 8
  /-- FS at 0x120 (R45) -/
  fs : F64
  /-- RIPPLE, BURSTBUF, WORK, SERIES, PEAK and RING (R49 to R54), at the byte addresses of the host port (R62) -/
  mem : List Host.Cell
  /-- the engine state (R56) -/
  engine : Engine
  /-- `cmask`, the running command's condition mask, hidden (R56, R100) -/
  cmask : BitVec 4
  /-- The model's own: the host events that are still to come, the first at the head. -/
  inbox : List HostEvent
  /-- The model's own: the values the host's reads have returned, the newest at the head. -/
  replies : List Word
  /-- The model's own: the durations the environment has fixed for the next commands and reset sequences (R264); when the
  list is empty a duration is free. -/
  delays : List Nat
  /-- The model's own: how many free values have been used. -/
  freeIdx : Nat
deriving DecidableEq, Repr

/-- The reset value of CTRL (R25). -/
def Ctrl.reset : Ctrl := { ieDone := false, ieErr := false }

/-- The reset value of STATUS (R26). -/
def Status.reset : Status := { done := false, err := false, ovr := false, haz := false, berr := false, errcode := 0 }

/-- The reset values of the box-car configuration (R32 to R35): AUTO = 0, TCH = 1, maxAvg = 1, 1.0, 1.0, 0.03. -/
def BcConfig.reset : BcConfig :=
  { auto := false, tch := 1, maxavg := 1, sens := 0x3FF0000000000000, speed := 0x3FF0000000000000,
    tol := 0x3F9EB851EB851EB8 }

/-- A sample of zeros. -/
def Sample.zero : Sample := ⟨0, 0, 0⟩

/-- The reset values of the box-car results (R38 to R40): zeros. -/
def BcResult.reset : BcResult := { mean := Sample.zero, mn := Sample.zero, mx := Sample.zero, count := 0, exit := 0 }

/-- The machine right after reset (R253): every register at its value of R47, every memory zero, the engine IDLE. The
model's own fields are empty and the free-value counter is 0 (assumption log 1). -/
def State.reset : State :=
  { ctrl := Ctrl.reset
    status := Status.reset
    cmd := 0
    errmask := 0
    errsticky := 0
    opa := 0
    opb := 0
    opc := 0
    res0 := 0
    bcCfg := BcConfig.reset
    bcFill := 0
    bcWptr := 0
    bcRes := BcResult.reset
    fftCfg := 6
    rpFill := 0
    pkK := 1
    pkCount := 0
    fs := 0x3FF0000000000000
    mem := []
    engine := .idle
    cmask := 0
    inbox := []
    replies := []
    delays := []
    freeIdx := 0 }

end Sys2Proof.Machine
end

