-- ==== Sys2Proof/Machine/Flags.lean ====
section
/-! DEFINITION. The flags of the block (10_state.md R48): the condition bits of ERRMASK and ERRSTICKY, the bits of STATUS,
and the interrupt line they drive. -/

namespace Sys2Proof.Machine

/-! ### Condition bits (R27, R224) -/

/-- Bit 0, PARSE_FAIL: a codec operand had the wrong length. -/
def parseFail : BitVec 4 := 0x1#4

/-- Bit 1, LOW_LIGHT: needs more averaging. -/
def lowLight : BitVec 4 := 0x2#4

/-- Bit 2, INSUFFICIENT_DATA: the ripple buffer is not full at LOAD. -/
def insufficientData : BitVec 4 := 0x4#4

/-- Bit 3, BAD_VALUE: a value cannot be represented in the target format. -/
def badValue : BitVec 4 := 0x8#4

/-- `flag(BIT)` of R10: set a bit of the command's condition mask. -/
def State.flag (bit : BitVec 4) (s : State) : State := { s with cmask := s.cmask ||| bit }

/-- `flag(BIT)` under a condition. -/
def State.flagIf (c : Bool) (bit : BitVec 4) (s : State) : State := if c then s.flag bit else s

/-! ### Fault codes (R221) -/

/-- The number of a fault code in STATUS.ERRCODE. -/
def FaultCode.number : FaultCode → BitVec 8
  | .illegalCmd => 0x01
  | .badConfig => 0x02
  | .dcZero => 0x03

/-! ### STATUS (R26) -/

/-- R56: STATUS.BUSY = 1 exactly when the engine is not IDLE. -/
def State.busy (s : State) : Bool :=
  match s.engine with
  | .idle => false
  | .run _ _ => true
  | .reset _ => true

/-- STATUS as the host reads it: BUSY, DONE, ERR, OVR, HAZ, BERR in bits 0 to 5, ERRCODE in [15:8], zeros elsewhere. -/
def State.statusWord (s : State) : Word :=
  0#48 ++ s.status.errcode ++ 0#2 ++ BitVec.ofBool s.status.berr ++ BitVec.ofBool s.status.haz ++
  BitVec.ofBool s.status.ovr ++ BitVec.ofBool s.status.err ++ BitVec.ofBool s.status.done ++ BitVec.ofBool s.busy

/-- A host write of `v` to STATUS: it clears the W1C bits written as 1 and touches nothing else (R26). -/
def Status.writeOneToClear (v : Word) (st : Status) : Status :=
  { st with
    done := st.done && !v.getLsbD 1
    err := st.err && !v.getLsbD 2
    ovr := st.ovr && !v.getLsbD 3
    haz := st.haz && !v.getLsbD 4
    berr := st.berr && !v.getLsbD 5 }

/-- R260, R225: STATUS.OVR is set. -/
def State.setOvr (s : State) : State := { s with status := { s.status with ovr := true } }

/-- R261, R225: STATUS.HAZ is set. -/
def State.setHaz (s : State) : State := { s with status := { s.status with haz := true } }

/-- R65, R225: STATUS.BERR is set. -/
def State.setBerr (s : State) : State := { s with status := { s.status with berr := true } }

/-! ### The interrupt (R230) -/

/-- The level-sensitive output `irq`. -/
def State.irq (s : State) : Bool :=
  (s.status.done && s.ctrl.ieDone) ||
  ((s.status.err || s.status.ovr || s.status.haz || s.status.berr) && s.ctrl.ieErr)

end Sys2Proof.Machine
end

