-- ==== Sys2Proof/Machine/Float.lean ====
section
/-! DEFINITION. IEEE-754 binary64 arithmetic on bit patterns (00_scope.md R9, D3): round to nearest, ties to even,
subnormals kept, nothing fused. Each operation computes the exact result on integers and rounds once, in `fround`. -/

namespace Sys2Proof.Machine

/-! ### The parts of a pattern -/

/-- The sign bit, bit 63 (R61). -/
def fsign (x : F64) : Bool := x.getLsbD 63

/-- The biased exponent field, bits [62:52]. -/
def fexp (x : F64) : Nat := (x.extractLsb' 52 11).toNat

/-- The fraction field, bits [51:0]. -/
def ffrac (x : F64) : Nat := (x.extractLsb' 0 52).toNat

def fIsNaN (x : F64) : Bool := fexp x == 2047 && ffrac x != 0

def fIsInf (x : F64) : Bool := fexp x == 2047 && ffrac x == 0

/-- +0.0 or −0.0. -/
def fIsZero (x : F64) : Bool := fexp x == 0 && ffrac x == 0

def fIsFinite (x : F64) : Bool := fexp x != 2047

/-- R9: `−x` flips the sign bit. -/
def fneg (x : F64) : F64 := x ^^^ 0x8000000000000000#64

/-- R9: `|x|` clears the sign bit. -/
def fabs (x : F64) : F64 := x &&& 0x7FFFFFFFFFFFFFFF#64

/-- The integer significand of a finite value: |x| = `fmant x · 2^(fscale x)`. -/
def fmant (x : F64) : Nat := if fexp x = 0 then ffrac x else 2 ^ 52 + ffrac x

/-- The exponent that goes with `fmant`. -/
def fscale (x : F64) : Int := if fexp x = 0 then -1074 else (fexp x : Int) - 1075

/-! ### Rounding -/

/-- `m·2^k` rounded to an integer, ties to even. -/
def rneShift (m : Nat) (k : Int) : Nat :=
  match k with
  | .ofNat n => m * 2 ^ n
  | .negSucc n =>
    let q := m / 2 ^ (n + 1)
    let r := m % 2 ^ (n + 1)
    if 2 ^ (n + 1) < 2 * r ∨ (2 ^ (n + 1) = 2 * r ∧ q % 2 = 1) then q + 1 else q

/-- The pattern with the given sign and magnitude bits. -/
def fpack (neg : Bool) (mag : Nat) : F64 := BitVec.ofNat 64 ((if neg then 2 ^ 63 else 0) + mag)

/-- The magnitude bits of an infinity. -/
def infMag : Nat := 2047 * 2 ^ 52

def fzero : F64 := 0#64

/-- 1.0 -/
def fone : F64 := 0x3FF0000000000000#64

/-- The value `±m·2^e` rounded once to binary64 (R9). The last place is 2^q, where q keeps 53 significant bits but is
never below −1074; a significand that reaches 2^52 carries into the exponent field by itself, and a magnitude past the
largest finite one is an infinity. This is also `ldexp(m, e)` of R9. -/
def fround (neg : Bool) (m : Nat) (e : Int) : F64 :=
  if m = 0 then fpack neg 0
  else
    let q : Int := max ((Nat.log2 m : Int) + e - 52) (-1074)
    fpack neg (min ((q + 1074).toNat * 2 ^ 52 + rneShift m (e - q)) infMag)

/-- R9: conversion of an integer to f64. -/
def fofNat (n : Nat) : F64 := fround false n 0

/-- A NaN result: any value that is a NaN (I2), its sign and fraction a free value (assumption log 2). -/
def fnan (op : Config.NanOp) (a b : F64) : F64 :=
  let v := Config.nanBits op a b ||| 0x7FF0000000000000#64
  if ffrac v = 0 then v ||| 1#64 else v

/-! ### Arithmetic (R9) -/

/-- The signed significand of a finite value. -/
def fsigned (x : F64) : Int := if fsign x then -(fmant x : Int) else (fmant x : Int)

/-- The sum of two finite values: the exact sum on the smaller exponent, rounded once. An exact zero sum is −0.0 only when
both operands are negative. -/
def fsumFinite (a b : F64) : F64 :=
  let e := min (fscale a) (fscale b)
  let t := fsigned a * 2 ^ (fscale a - e).toNat + fsigned b * 2 ^ (fscale b - e).toNat
  fround (if t = 0 then fsign a && fsign b else decide (t < 0)) t.natAbs e

/-- The sum of two values that are no NaN; `nan` is the result of inf − inf. -/
def fsum (nan : F64) (a b : F64) : F64 :=
  if fIsInf a then if fIsInf b && (fsign a != fsign b) then nan else a
  else if fIsInf b then b
  else fsumFinite a b

/-- `a + b` -/
def fadd (a b : F64) : F64 :=
  if fIsNaN a || fIsNaN b then fnan .add a b else fsum (fnan .add a b) a b

/-- `a − b` -/
def fsub (a b : F64) : F64 :=
  if fIsNaN a || fIsNaN b then fnan .sub a b else fsum (fnan .sub a b) a (fneg b)

/-- `a × b` -/
def fmul (a b : F64) : F64 :=
  let neg := fsign a != fsign b
  if fIsNaN a || fIsNaN b then fnan .mul a b
  else if fIsInf a || fIsInf b then if fIsZero a || fIsZero b then fnan .mul a b else fpack neg infMag
  else fround neg (fmant a * fmant b) (fscale a + fscale b)

/-- How far `fdiv` shifts the dividend's significand: the quotient then has at least 57 bits, and a last bit that only says
that a remainder is left cannot reach the rounding position. -/
def divShift : Nat := 110

/-- `a / b` -/
def fdiv (a b : F64) : F64 :=
  let neg := fsign a != fsign b
  if fIsNaN a || fIsNaN b then fnan .div a b
  else if fIsInf a then if fIsInf b then fnan .div a b else fpack neg infMag
  else if fIsInf b then fpack neg 0
  else if fIsZero b then if fIsZero a then fnan .div a b else fpack neg infMag
  else
    let n := fmant a * 2 ^ divShift
    let sticky := if n % fmant b = 0 then 0 else 1
    fround neg (2 * (n / fmant b) + sticky) (fscale a - fscale b - divShift - 1)

/-- The integer square root of `m`, found bit by bit from bit `n − 1` down; `r` holds the bits found so far. -/
def isqrtFrom : Nat → Nat → Nat → Nat
  | 0, _, r => r
  | n + 1, m, r => isqrtFrom n m (if (r + 2 ^ n) * (r + 2 ^ n) ≤ m then r + 2 ^ n else r)

/-- The integer square root of a number below 2^168. -/
def isqrt (m : Nat) : Nat := isqrtFrom 84 m 0

/-- `sqrt(x)`, correctly rounded (R9, R183). -/
def fsqrt (x : F64) : F64 :=
  if fIsNaN x then fnan .sqrt x x
  else if fIsZero x then x
  else if fsign x then fnan .sqrt x x
  else if fIsInf x then x
  else
    let k : Nat := if fscale x % 2 = 0 then 110 else 111
    let n := fmant x * 2 ^ k
    let r := isqrt n
    let sticky := if r * r = n then 0 else 1
    fround false (2 * r + sticky) ((fscale x - k) / 2 - 1)

/-! ### Comparison (R9): false with a NaN operand; +0.0 equals −0.0 -/

/-- The position of a value that is no NaN in the order of the reals. -/
def fkey (x : F64) : Int :=
  if fsign x then -((x.extractLsb' 0 63).toNat : Int) else ((x.extractLsb' 0 63).toNat : Int)

/-- `a < b` -/
def flt (a b : F64) : Bool := !fIsNaN a && !fIsNaN b && decide (fkey a < fkey b)

/-- `a > b` -/
def fgt (a b : F64) : Bool := flt b a

/-- `a = b` as values. -/
def feq (a b : F64) : Bool := !fIsNaN a && !fIsNaN b && decide (fkey a = fkey b)

end Sys2Proof.Machine
end

