-- ==== Sys2Proof/Machine/Memory.lean ====
section
/-! DEFINITION. Byte memory as a list of cells in one canonical form, and the block's address map (20_memory.md R61, R62,
R67). An unlisted byte reads as 0: every memory of the block but the constant twiddle table holds zeros after reset
(70_reset_and_hazards.md R252, R253). -/

namespace Sys2Proof.Machine

/-! ### Cells -/

/-- What a byte that no cell lists reads as: the reset contents, all zeros (R253). -/
def unlistedByte : Byte := 0#8

/-- One byte of memory. -/
def readByte : List Host.Cell → Nat → Byte
  | [], _ => unlistedByte
  | (k, b) :: m, a => if k = a then b else readByte m a

/-- The cells of a run of bytes that starts at `base`; a byte equal to what an unlisted address reads as gets none. -/
def cellsOf : Nat → List Byte → List Host.Cell
  | _, [] => []
  | base, b :: bs => if b = unlistedByte then cellsOf (base + 1) bs else (base, b) :: cellsOf (base + 1) bs

/-- A run of bytes stored at `base`: the cells below it, its own, the cells above it. -/
def writeBytes (m : List Host.Cell) (base : Nat) (bs : List Byte) : List Host.Cell :=
  m.filter (fun c => Nat.blt c.1 base) ++ cellsOf base bs ++ m.filter (fun c => Nat.ble (base + bs.length) c.1)

/-- The cells from address `lo` on are in canonical form: addresses strictly rising, no cell that an unlisted byte would
stand for as well. -/
def canonicalFrom : Nat → List Host.Cell → Bool
  | _, [] => true
  | lo, (a, b) :: m => Nat.ble lo a && b != unlistedByte && canonicalFrom (a + 1) m

/-- The canonical form of memory. -/
def canonical (m : List Host.Cell) : Bool := canonicalFrom 0 m

/-! ### Words (R61: little-endian) -/

/-- R61: byte i of a word is bits [8i+7 : 8i]. -/
def wordByte (v : Word) (i : Nat) : Byte := v.extractLsb' (8 * i) 8

/-- The bytes of a word, byte 0 first. -/
def wordBytes (v : Word) : List Byte := (List.range 8).map (wordByte v)

/-- One 64-bit word of memory. -/
def readWord (m : List Host.Cell) (a : Nat) : Word :=
  readByte m (a + 7) ++ readByte m (a + 6) ++ readByte m (a + 5) ++ readByte m (a + 4) ++
  readByte m (a + 3) ++ readByte m (a + 2) ++ readByte m (a + 1) ++ readByte m a

/-- Words stored one after another from `base` on. -/
def writeWords (m : List Host.Cell) (base : Nat) (vs : List Word) : List Host.Cell :=
  writeBytes m base (vs.flatMap wordBytes)

/-- One 64-bit word stored. -/
def writeWord (m : List Host.Cell) (a : Nat) (v : Word) : List Host.Cell := writeWords m a [v]

/-- `n` words from `base` on. -/
def readWords (m : List Host.Cell) (base n : Nat) : List Word := (List.range n).map (fun i => readWord m (base + 8 * i))

/-- `n` complex elements from `base` on: re, then im 8 bytes above it (R62). -/
def readCplx (m : List Host.Cell) (base n : Nat) : List Cplx :=
  (List.range n).map (fun i => ⟨readWord m (base + 16 * i), readWord m (base + 16 * i + 8)⟩)

/-- Complex elements stored one after another from `base` on. -/
def writeCplx (m : List Host.Cell) (base : Nat) (cs : List Cplx) : List Host.Cell :=
  writeWords m base (cs.flatMap (fun c => [c.re, c.im]))

/-! ### The windows of R62 -/

def burstBase : Nat := 0x01000
def peakBase : Nat := 0x02000
def seriesBase : Nat := 0x04000
def rippleBase : Nat := 0x08000
def workBase : Nat := 0x10000
def twForwardBase : Nat := 0x20000
def twInverseBase : Nat := 0x28000
def ringBase : Nat := 0x30000

/-- The bytes from `base` up to, not including, `base + len`. -/
def inWindow (base len a : Nat) : Bool := Nat.ble base a && Nat.blt a (base + len)

/-- R62: the reserved word at offset +24 of a 32-byte RING slot or PEAK entry. -/
def isReservedWord (a : Nat) : Bool := Nat.ble 24 (a % 32)

/-- The bytes that hold a memory element: BURSTBUF, PEAK, SERIES, RIPPLE, WORK and RING without the reserved words (R49 to
R54, R62). -/
def isStorage (a : Nat) : Bool :=
  inWindow burstBase 0x100 a || (inWindow peakBase 0x800 a && !isReservedWord a) || inWindow seriesBase 0x2000 a ||
  inWindow rippleBase 0x4000 a || inWindow workBase 0x8000 a || (inWindow ringBase 0x2000 a && !isReservedWord a)

/-- The address of ring element `RING[r][c]` (R62). -/
def ringAddr (r c : Nat) : Nat := ringBase + 32 * r + 8 * c

/-- The address of field `f` of `PEAK[p]`: 0 VALUE, 1 FREQ, 2 BIN (R67). -/
def peakAddr (p f : Nat) : Nat := peakBase + 32 * p + 8 * f

end Sys2Proof.Machine
end

