-- ==== Sys2Proof/Machine/Operands.lean ====
section
/-! DEFINITION. The operand forms of the commands: bytes of OPA (41_codec.md R110), K-float fields (R112), the box-car
sample and configuration (42_boxcar.md R140 to R142), the FFT size and its memories (43_fft.md R170). -/

namespace Sys2Proof.Machine

/-! ### Codec operands -/

/-- R110: `byte(OPA, i)`. -/
def State.opaByte (s : State) (i : Nat) : Byte := wordByte s.opa i

/-- The fields of a K-float (R112): sign, 15-bit fraction, two's-complement exponent. -/
structure KFloat where
  neg : Bool
  frac : Nat
  exp : Int
deriving DecidableEq, Repr

/-- R112: byte 0 bit 7 is the sign, the low 7 bits of byte 0 above byte 1 are the fraction, byte 2 is the exponent. -/
def kfloatOf (b0 b1 b2 : Byte) : KFloat :=
  { neg := b0.getLsbD 7
    frac := ((b0.extractLsb' 0 7) ++ b1).toNat
    exp := b2.toInt }

/-- The K-float in OPA bytes 0 to 2 (R112). -/
def State.opaKFloat (s : State) : KFloat := kfloatOf (s.opaByte 0) (s.opaByte 1) (s.opaByte 2)

/-! ### Samples and the box-car ring -/

/-- Channel `t` of a sample (R141). TCH = 3 names no channel and is refused before any use (R143). -/
def Sample.channel (y : Sample) (t : BitVec 2) : F64 :=
  if t = 0 then y.y0 else if t = 1 then y.y1 else y.y2

/-- An operation on each channel. -/
def Sample.map (f : F64 → F64) (y : Sample) : Sample := ⟨f y.y0, f y.y1, f y.y2⟩

/-- An operation on each channel of two samples. -/
def Sample.zip (f : F64 → F64 → F64) (x y : Sample) : Sample := ⟨f x.y0 y.y0, f x.y1 y.y1, f x.y2 y.y2⟩

/-- R142: the sample a BCPUSH pushes. -/
def State.operandSample (s : State) : Sample := ⟨s.opa, s.opb, s.opc⟩

/-- R140: maxAvg. -/
def State.maxAvg (s : State) : Nat := s.bcCfg.maxavg.toNat

/-- `RING[r]` (R54, R62). -/
def readRing (m : List Host.Cell) (r : Nat) : Sample :=
  ⟨readWord m (ringAddr r 0), readWord m (ringAddr r 1), readWord m (ringAddr r 2)⟩

/-- `RING[r] <- x` (R144). -/
def writeRing (m : List Host.Cell) (r : Nat) (x : Sample) : List Host.Cell :=
  writeWords m (ringAddr r 0) [x.y0, x.y1, x.y2]

/-- R140: the slot of the k-th newest sample, `(wptr − 1 − k) mod maxAvg`. -/
def ringSlot (wptr maxAvg k : Nat) : Nat := (((wptr : Int) - 1 - k) % maxAvg).toNat

/-- The valid samples of the ring, the newest first (R140). -/
def newestFirst (m : List Host.Cell) (wptr fill maxAvg : Nat) : List Sample :=
  (List.range fill).map (fun k => readRing m (ringSlot wptr maxAvg k))

/-! ### FFT operands -/

/-- R170: LOG2N. -/
def State.log2n (s : State) : Nat := s.fftCfg.toNat

/-- R170: N = 2^LOG2N. -/
def State.fftSize (s : State) : Nat := 2 ^ s.log2n

/-- R170: the series length L = N/2. -/
def State.seriesLen (s : State) : Nat := s.fftSize / 2

/-- R171: 6 ≤ LOG2N ≤ 11. -/
def State.sizeOk (s : State) : Bool := Nat.ble Config.nMinLog2 s.log2n && Nat.ble s.log2n Config.nMaxLog2

/-- R200: 1 ≤ K ≤ K_MAX. -/
def State.peakCountOk (s : State) : Bool := Nat.ble 1 s.pkK.toNat && Nat.ble s.pkK.toNat Config.kMax

/-- WORK[0..N−1]. -/
def State.workBuf (s : State) : List Cplx := readCplx s.mem workBase s.fftSize

/-- RIPPLE[0..N−1]. -/
def State.rippleBuf (s : State) : List F64 := readWords s.mem rippleBase s.fftSize

/-- BURSTBUF[0..31]. -/
def State.burstBuf (s : State) : List F64 := readWords s.mem burstBase Config.burst

/-- SERIES[0..L−1]. -/
def State.seriesBuf (s : State) : List F64 := readWords s.mem seriesBase s.seriesLen

end Sys2Proof.Machine
end

