-- ==== Sys2Proof/Machine/Ops.lean ====
section
/-! DEFINITION. The life cycle of a command: acceptance (40_control.md R100), completion (R101) and the raising of a fault
(60_exceptions.md R222), which is the block's only exception entry (R220, R227: nothing else is saved and control goes
nowhere; R228: there is no return). Also the free values a step draws. -/

namespace Sys2Proof.Machine

/-! ### Free values -/

/-- The duration of the next command or reset sequence (R264): the environment's, or a free value. -/
def State.nextDelay (s : State) : Nat := s.delays.headD (Config.duration s.freeIdx)

/-- The state after `nextDelay` has been drawn. -/
def State.drawDelay (s : State) : State := { s with delays := s.delays.tail, freeIdx := s.freeIdx + 1 }

/-- The value of the next unspecified read (R252, R261). -/
def State.nextRead (s : State) : Word := Config.freeRead s.freeIdx

/-! ### Completion (R101) and faults (R222) -/

/-- R101, the command did not fault: its condition mask goes to ERRMASK and, by OR, to ERRSTICKY, ERRCODE is 0, DONE is set,
the engine is IDLE. `cmask` does not survive (R56). -/
def State.completeOk (s : State) : State :=
  { s with
    errmask := s.cmask
    errsticky := s.errsticky ||| s.cmask
    status := { s.status with errcode := 0, done := true }
    engine := .idle
    cmask := 0 }

/-- R101 and R222, the command raised a fault: ERRMASK is 0, ERRSTICKY unchanged, ERRCODE the fault's code, ERR and DONE
set, the engine IDLE; nothing else changes. This is the block's exception entry. -/
def State.raiseFault (code : FaultCode) (s : State) : State :=
  { s with
    errmask := 0
    status := { s.status with errcode := code.number, done := true, err := true }
    engine := .idle
    cmask := 0 }

/-- R101: the completion of a command on `s` whose rule ended in `r`: in a state, or by `raise Fault(code)`, which discards
every write of the rule. -/
def State.finish (s : State) (r : Except FaultCode State) : State :=
  match r with
  | .ok t => t.completeOk
  | .error code => s.raiseFault code

/-- A command from start to completion: `cmask <- 0` (R100), its rule, its completion (R101), in one atomic step (R57). -/
def runCommand (rule : State → Except FaultCode State) (s : State) : Host.Outcome State Fault Refusal :=
  .next (s.finish (rule { s with cmask := 0 }))

/-! ### Acceptance (R100) -/

/-- R100: a CMD value is accepted. A legal command runs for the drawn duration (R264); an illegal one completes at once. -/
def State.accept (c : Word) (s : State) : State :=
  if legalCmd c then { s.drawDelay with cmd := c, engine := .run c s.nextDelay, cmask := 0 }
  else { s with cmd := c, engine := .run c 0, cmask := 0 }

/-! ### Memory effects of commands -/

/-- R171: the size check that nine commands make first. -/
def withSize (s : State) (rule : Except FaultCode State) : Except FaultCode State :=
  if s.sizeOk then rule else .error .badConfig

/-- WORK[0..] <- cs. -/
def State.storeWork (cs : List Cplx) (s : State) : State := { s with mem := writeCplx s.mem workBase cs }

/-- SERIES[0..] <- vs. -/
def State.storeSeries (vs : List F64) (s : State) : State := { s with mem := writeWords s.mem seriesBase vs }

/-- RIPPLE[0..] <- vs. -/
def State.storeRipple (vs : List F64) (s : State) : State := { s with mem := writeWords s.mem rippleBase vs }

end Sys2Proof.Machine
end

