-- ==== Sys2Proof/Machine/Boxcar.lean ====
section
/-! DEFINITION. The box-car averager commands (42_boxcar.md). -/

namespace Sys2Proof.Machine

/-- The running values of the fold of R145: the sums, the envelope, the count folded so far, the exit code. -/
structure Fold where
  sum : Sample
  mn : Sample
  mx : Sample
  n : Nat
  exit : BitVec 2
deriving DecidableEq, Repr

/-- The fold before the first sample (R145): sums +0.0, n = 0, exit 0 (exhausted). The envelope is set by the first sample. -/
def Fold.start : Fold := { sum := Sample.zero, mn := Sample.zero, mx := Sample.zero, n := 0, exit := 0 }

/-- The divergence guard of R145, after the first two samples: `|y[t] − m| > BC_TOL × |m|` with m the running mean of the
test channel. -/
def diverges (cfg : BcConfig) (a : Fold) (y : Sample) : Bool :=
  let m := fdiv (a.sum.channel cfg.tch) (fofNat a.n)
  Nat.ble 2 a.n && fgt (fabs (fsub (y.channel cfg.tch) m)) (fmul cfg.tol (fabs m))

/-- One sample folded (R145): sums, minima, maxima, count. -/
def Fold.add (a : Fold) (y : Sample) : Fold :=
  { a with
    sum := a.sum.zip fadd y
    mn := if a.n = 0 then y else y.zip (fun v old => if flt v old then v else old) a.mn
    mx := if a.n = 0 then y else y.zip (fun v old => if fgt v old then v else old) a.mx
    n := a.n + 1 }

/-- The threshold of R146: `(SENS × SPEED) × ((3.0 × n) / (n + 1.0))`. -/
def autoThreshold (cfg : BcConfig) (n : Nat) : F64 :=
  fmul (fmul cfg.sens cfg.speed) (fdiv (fmul (fofNat 3) (fofNat n)) (fadd (fofNat n) fone))

/-- The auto threshold test of R146, right after a fold. -/
def crosses (cfg : BcConfig) (a : Fold) : Bool :=
  cfg.auto && fgt (a.sum.channel cfg.tch) (autoThreshold cfg a.n)

/-- The walk of R145 and R146 over the valid samples, the newest first. -/
def foldSamples (cfg : BcConfig) : List Sample → Fold → Fold
  | [], a => a
  | y :: ys, a =>
    if diverges cfg a y then { a with exit := 1 }
    else if crosses cfg (a.add y) then { a.add y with exit := 2 }
    else foldSamples cfg ys (a.add y)

/-- The outputs of R148. -/
def Fold.result (a : Fold) : BcResult :=
  { mean := a.sum.map (fun v => fdiv v (fofNat a.n))
    mn := a.mn
    mx := a.mx
    count := BitVec.ofNat 16 a.n
    exit := a.exit }

/-- R143: maxAvg in 1..MAXAVG_MAX, then TCH ≠ 3. -/
def State.boxcarOk (s : State) : Bool :=
  (Nat.ble 1 s.maxAvg && Nat.ble s.maxAvg Config.maxavgMax) && s.bcCfg.tch != 3#2

/-- R144: the new sample goes into the ring first. -/
def State.ringPush (s : State) : State :=
  { s with
    mem := writeRing s.mem s.bcWptr.toNat s.operandSample
    bcWptr := BitVec.ofNat 16 ((s.bcWptr.toNat + 1) % s.maxAvg)
    bcFill := BitVec.ofNat 16 (min (s.bcFill.toNat + 1) s.maxAvg) }

/-- The valid samples of the ring, the newest first (R140). -/
def State.ringSamples (s : State) : List Sample := newestFirst s.mem s.bcWptr.toNat s.bcFill.toNat s.maxAvg

/-- The fold over the ring (R145). -/
def State.boxcarFold (s : State) : Fold := foldSamples s.bcCfg s.ringSamples Fold.start

/-- The outputs of a fold written (R148) and the low-light flag (R147). -/
def State.boxcarReport (a : Fold) (s : State) : State :=
  State.flagIf (a.exit != 2#2) lowLight { s with bcRes := a.result }

/-- The rule of BCPUSH (R149): the check of R143, the ring write of R144, the fold, the outputs. -/
def bcpushRule (s : State) : Except FaultCode State :=
  if s.boxcarOk then .ok (s.ringPush.boxcarReport s.ringPush.boxcarFold) else .error .badConfig

/-- BCPUSH (R149). -/
def execBcpush (s : State) : Host.Outcome State Fault Refusal := runCommand bcpushRule s

/-- Every element of the ring zero (R150). -/
def clearRing (m : List Host.Cell) : List Host.Cell :=
  (List.range Config.maxavgMax).foldl (fun m r => writeRing m r Sample.zero) m

/-- BCCLR (R150): the ring zeroed, its pointers 0; the result registers keep their values. -/
def execBcclr (s : State) : Host.Outcome State Fault Refusal :=
  runCommand (fun u => .ok { u with mem := clearRing u.mem, bcWptr := 0, bcFill := 0 }) s

end Sys2Proof.Machine
end

