-- ==== Sys2Proof/Machine/Codec.lean ====
section
/-! DEFINITION. The binary codec commands (41_codec.md). -/

namespace Sys2Proof.Machine

/-- The length check of R111 before a decoding codec command: on a mismatch PARSE_FAIL is flagged and RES0 is 0. -/
def withLength (expected len : Nat) (s : State) (rule : State) : Except FaultCode State :=
  if len = expected then .ok rule else .ok { s.flag parseFail with res0 := 0 }

/-! ### K-float (R112 to R118) -/

/-- The value of a K-float over the divisor 2^F (R113, R114): `ldexp(f, e − F)`, negated when s = 1. -/
def kfdec (F : Nat) (k : KFloat) : F64 := fround k.neg k.frac (k.exp - F)

/-- The rule of KFDEC for the divisor 2^F. -/
def kfdecRule (F len : Nat) (s : State) : Except FaultCode State :=
  withLength 3 len s { s with res0 := kfdec F s.opaKFloat }

/-- KFDEC.M (R113). -/
def execKfdecM (len : Nat) (s : State) : Host.Outcome State Fault Refusal := runCommand (kfdecRule 16 len) s

/-- KFDEC.B (R114). -/
def execKfdecB (len : Nat) (s : State) : Host.Outcome State Fault Refusal := runCommand (kfdecRule 15 len) s

/-- The three bytes of a K-float, byte 0 in the low bits (R115). -/
def kfBytes (neg : Bool) (f : Nat) (e : Int) : BitVec 24 :=
  BitVec.ofInt 8 e ++ BitVec.ofNat 8 f ++ (BitVec.ofBool neg ++ BitVec.ofNat 7 (f / 256))

/-- `SAT(s)` of R115: the largest magnitude with the given sign. -/
def kfSat (neg : Bool) : BitVec 24 := kfBytes neg 0x7FFF 127

/-- The exponent of the normalised fraction, `p + 1 + (F − 15)` with p = floor(log2 |x|) (R115). -/
def kfExponent (F : Nat) (x : F64) : Int := (Nat.log2 (fmant x) : Int) + fscale x + 1 + ((F : Int) - 15)

/-- A rounded fraction and its exponent as bytes, with the BAD_VALUE verdict (R115). -/
def kfAssemble (neg : Bool) (f : Nat) (e : Int) : BitVec 24 × Bool :=
  if e > 127 then (kfSat neg, true)
  else if f = 0 then (0, false)
  else (kfBytes neg f e, false)

/-- `kfenc(x, F)` for a finite non-zero x whose exponent is `e` (R115): gradual underflow below −128, one rounding, the
carry out of the fraction. -/
def kfencFinite (F : Nat) (x : F64) (e : Int) : BitVec 24 × Bool :=
  let f := rneShift (fmant x) (fscale x + F - e)
  if f = 2 ^ 15 then kfAssemble (fsign x) (2 ^ 14) (e + 1) else kfAssemble (fsign x) f e

/-- `kfenc(x, F)` (R115): the bytes and whether BAD_VALUE is flagged. -/
def kfenc (F : Nat) (x : F64) : BitVec 24 × Bool :=
  if fIsNaN x then (0, true)
  else if fIsZero x then (0, false)
  else if fIsInf x then (kfSat (fsign x), true)
  else if kfExponent F x > 127 then (kfSat (fsign x), true)
  else kfencFinite F x (max (kfExponent F x) (-128))

/-- The rule of KFENC for the divisor 2^F (R115). -/
def kfencRule (F : Nat) (s : State) : Except FaultCode State :=
  .ok (State.flagIf (kfenc F s.opa).2 badValue { s with res0 := 0#40 ++ (kfenc F s.opa).1 })

/-- KFENC.M (R116). -/
def execKfencM (s : State) : Host.Outcome State Fault Refusal := runCommand (kfencRule 16) s

/-- KFENC.B (R117). -/
def execKfencB (s : State) : Host.Outcome State Fault Refusal := runCommand (kfencRule 15) s

/-! ### Extended float (R120 to R123) -/

/-- The bits of a word at the listed positions, the first one the most significant. -/
def gatherBits (v : Word) (ps : List (Fin 64)) : Nat :=
  ps.foldl (fun acc p => 2 * acc + (v.getLsbD p.val).toNat) 0

/-- The exponent field of an operand under a layout (R121). -/
def xfExponent (l : Config.XfLayout) (v : Word) : BitVec 11 := BitVec.ofNat 11 (gatherBits v l.exponent.toList)

/-- The mantissa field of an operand under a layout (R121): its three bytes. -/
def xfMantissa (l : Config.XfLayout) (v : Word) : BitVec 24 :=
  wordByte v l.mantissa[0].val ++ wordByte v l.mantissa[1].val ++ wordByte v l.mantissa[2].val

/-- The value formula of a layout on its fields (R121): `ldexp(fraction(M), E − 1022 − 25)`, but for the two exponents that
the layout treats on its own. DESIGN CHOICE, unsafe (assumption log 17): under every layout a sign bit of 1 makes that value
negative; R121 asks for one sign bit and does not say which value means negative. -/
def xfValue (l : Config.XfLayout) (neg : Bool) (e : BitVec 11) (m : BitVec 24) : F64 :=
  if e = 0 then l.atZero neg m
  else if e = 2047 then l.atTop neg m
  else fround neg (l.fraction m).toNat ((e.toNat : Int) - 1022 - 25)

/-- `XF_LAYOUT.decode` (R121, R123), with the BAD_VALUE verdict of R224: the value is a NaN or an infinity. -/
def xfDecode (l : Config.XfLayout) (v : Word) : F64 × Bool :=
  let x := xfValue l (v.getLsbD l.sign.val) (xfExponent l v) (xfMantissa l v)
  (x, !fIsFinite x)

/-- The rule of XFDEC under a layout (R123). -/
def xfdecRule (l : Config.XfLayout) (len : Nat) (s : State) : Except FaultCode State :=
  withLength 8 len s (State.flagIf (xfDecode l s.opa).2 badValue { s with res0 := (xfDecode l s.opa).1 })

/-- XFDEC (R123), under the OPEN layout. -/
def execXfdec (len : Nat) (s : State) : Host.Outcome State Fault Refusal := runCommand (xfdecRule Config.xfLayout.layout len) s

/-! ### Range byte (R125, R126) -/

/-- Digit c of the range byte: the c-th base-3 digit of b[4:0], each taken mod 3 (R125). -/
def rangeDigit (b : Byte) (c : Nat) : Nat := (b.extractLsb' 0 5).toNat / 3 ^ c % 3

/-- `r_c = d_c + 1 + 3·b[5 + c]` (R125). -/
def rangeOf (b : Byte) (c : Nat) : Nat := rangeDigit b c + 1 + 3 * (b.getLsbD (5 + c)).toNat

/-- The result word of RNGDEC: r0, r1, r2 in bytes 0 to 2, the raw flags b[7:5] in bits [26:24] (R125). -/
def rangeWord (b : Byte) : Word :=
  0#37 ++ b.extractLsb' 5 3 ++ BitVec.ofNat 8 (rangeOf b 2) ++ BitVec.ofNat 8 (rangeOf b 1) ++ BitVec.ofNat 8 (rangeOf b 0)

/-- RNGDEC (R125). -/
def execRngdec (len : Nat) (s : State) : Host.Outcome State Fault Refusal :=
  runCommand (fun u => withLength 1 len u { u with res0 := rangeWord (u.opaByte 0) }) s

/-! ### Error token (R127, R128) -/

/-- `ERR_TOKEN_MAP` with its fourth law: no code from 0x80 on is mapped (R128). -/
def errToken (map : Byte → Option (Fin 64)) (t : Byte) : Option (Fin 64) := if t.getLsbD 7 then none else map t

/-- The result word of ERRTOK: no error, or exactly one bit (R127). -/
def errTokenWord (map : Byte → Option (Fin 64)) (t : Byte) : Word :=
  match errToken map t with
  | none => 0
  | some k => 1#64 <<< k.val

/-- The rule of ERRTOK under a map (R127). -/
def errtokRule (map : Byte → Option (Fin 64)) (len : Nat) (s : State) : Except FaultCode State :=
  withLength 1 len s { s with res0 := errTokenWord map (s.opaByte 0) }

/-- ERRTOK (R127), under the OPEN map. -/
def execErrtok (len : Nat) (s : State) : Host.Outcome State Fault Refusal :=
  runCommand (errtokRule Config.errTokenMap len) s

end Sys2Proof.Machine
end

