-- ==== Sys2Proof/Machine/Control.lean ====
section
/-! DEFINITION. The control command (40_control.md). -/

namespace Sys2Proof.Machine

/-- NOP (R102): `skip`, then completion. -/
def execNop (s : State) : Host.Outcome State Fault Refusal := runCommand .ok s

end Sys2Proof.Machine
end

