-- ==== Sys2Proof/Machine/Fft.lean ====
section
/-! DEFINITION. The FFT engine's commands up to the transform (43_fft.md R170 to R181): the ripple buffer, the window, the
twiddle table, bit reversal, the butterfly stages and the full transform. -/

namespace Sys2Proof.Machine

/-! ### Ripple buffer (R172 to R174) -/

/-- RPCLR (R172): the whole ripple buffer zero, whatever N is. -/
def execRpclr (s : State) : Host.Outcome State Fault Refusal :=
  runCommand (fun u => .ok { u.storeRipple (List.replicate Config.nMax fzero) with rpFill := 0 }) s

/-- The ripple window after a push (R173): shifted left by 32, the burst at the tail. -/
def pushBurst (ripple burst : List F64) : List F64 := ripple.drop Config.burst ++ burst

/-- The rule of RPPUSH (R173). -/
def rppushRule (s : State) : Except FaultCode State :=
  withSize s (.ok { s.storeRipple (pushBurst s.rippleBuf s.burstBuf) with
    rpFill := BitVec.ofNat 12 (min (s.rpFill.toNat + Config.burst) s.fftSize) })

/-- RPPUSH (R173). -/
def execRppush (s : State) : Host.Outcome State Fault Refusal := runCommand rppushRule s

/-- The rule of LOAD (R174): the real series as complex values; INSUFFICIENT_DATA while the buffer is not full. -/
def loadRule (s : State) : Except FaultCode State :=
  withSize s (.ok (State.flagIf (Nat.blt s.rpFill.toNat s.fftSize) insufficientData
    (s.storeWork (s.rippleBuf.map (fun v => ⟨v, fzero⟩)))))

/-- LOAD (R174). -/
def execLoad (s : State) : Host.Outcome State Fault Refusal := runCommand loadRule s

/-! ### Window (R175) -/

/-- 0.5 -/
def fhalf : F64 := 0x3FE0000000000000#64

/-- The window value of index i at size n (R175): `0.5 − (0.5 × COS64((TWO_PI × i) / n))`. -/
def winCoeff (cos : F64 → F64) (n i : Nat) : F64 :=
  fsub fhalf (fmul fhalf (cos (fdiv (fmul Config.twoPi (fofNat i)) (fofNat n))))

/-- The window applied to one element (R175). -/
def winScale (w : F64) (z : Cplx) : Cplx := ⟨fmul z.re w, fmul z.im w⟩

/-- The window applied to the buffer (R175). -/
def applyWindow (cos : F64 → F64) (buf : List Cplx) : List Cplx :=
  buf.mapIdx (fun i z => winScale (winCoeff cos buf.length i) z)

/-- The rule of WIN under a cosine (R175). -/
def winRule (cos : F64 → F64) (s : State) : Except FaultCode State :=
  withSize s (.ok (s.storeWork (applyWindow cos s.workBuf)))

/-- WIN (R175), under the OPEN cosine. -/
def execWin (s : State) : Host.Outcome State Fault Refusal := runCommand (winRule Config.cos64) s

/-! ### Twiddle table (R176) -/

/-- The direction of a transform, MOD[0] (R83). -/
inductive Dir where
  | forward
  | inverse
deriving DecidableEq, Repr

/-- σ of R176: −1.0 forward, +1.0 inverse. -/
def Dir.sigma : Dir → F64
  | .forward => 0xBFF0000000000000#64
  | .inverse => fone

/-- θ of stage s (R176): `(σ × TWO_PI) / 2^s`. -/
def twTheta (d : Dir) (s : Nat) : F64 := fdiv (fmul d.sigma Config.twoPi) (fofNat (2 ^ s))

/-- `wpr` of stage s (R176): `(−2.0 × wt) × wt` with `wt = SIN64(0.5 × θ)`. -/
def twWpr (sin : F64 → F64) (d : Dir) (s : Nat) : F64 :=
  fmul (fmul 0xC000000000000000#64 (sin (fmul fhalf (twTheta d s)))) (sin (fmul fhalf (twTheta d s)))

/-- `wpi` of stage s (R176): `SIN64(θ)`. -/
def twWpi (sin : F64 → F64) (d : Dir) (s : Nat) : F64 := sin (twTheta d s)

/-- One step of the trigonometric recurrence (R176). -/
def twNext (wpr wpi : F64) (w : Cplx) : Cplx :=
  ⟨fadd (fsub (fmul w.re wpr) (fmul w.im wpi)) w.re, fadd (fadd (fmul w.im wpr) (fmul w.re wpi)) w.im⟩

/-- The first `n` values of the recurrence from `w` on. -/
def twList (wpr wpi : F64) : Nat → Cplx → List Cplx
  | 0, _ => []
  | n + 1, w => w :: twList wpr wpi n (twNext wpr wpi w)

/-- The 2^(s−1) entries of stage s (R176), j = 0 first: the recurrence restarted at (1.0, 0.0). -/
def twStage (sin : F64 → F64) (d : Dir) (s : Nat) : List Cplx :=
  twList (twWpr sin d s) (twWpi sin d s) (2 ^ (s - 1)) ⟨fone, fzero⟩

/-- A complex zero, what an index past the end of a buffer gives; no command uses one. -/
def czero : Cplx := ⟨fzero, fzero⟩

/-- `TW[d][i]` (R55, R176): with half the greatest power of two not above i + 1, half = 2^(s−1), it is entry
`i − (half − 1)` of stage s. -/
def twEntry (sin : F64 → F64) (d : Dir) (i : Nat) : Cplx :=
  (twStage sin d (Nat.log2 (i + 1) + 1)).getD (i + 1 - 2 ^ Nat.log2 (i + 1)) czero

/-! ### Bit reversal (R178) -/

/-- `rev_n(i)`: the low n bits of i reversed. -/
def revBits : Nat → Nat → Nat
  | 0, _ => 0
  | n + 1, i => 2 ^ n * (i % 2) + revBits n (i / 2)

/-- Two elements exchanged; the patterns are moved, not computed. -/
def swapAt (buf : List Cplx) (i r : Nat) : List Cplx := (buf.set i (buf.getD r czero)).set r (buf.getD i czero)

/-- The permutation of R178 on a buffer of 2^log2n elements, as its pseudocode runs it. -/
def bitrev (log2n : Nat) (buf : List Cplx) : List Cplx :=
  (List.range (2 ^ log2n)).foldl
    (fun buf i => if i < revBits log2n i then swapAt buf i (revBits log2n i) else buf) buf

/-- The rule of BITREV (R178). -/
def bitrevRule (s : State) : Except FaultCode State :=
  withSize s (.ok (s.storeWork (bitrev s.log2n s.workBuf)))

/-- BITREV (R178). -/
def execBitrev (s : State) : Host.Outcome State Fault Refusal := runCommand bitrevRule s

/-! ### Butterflies (R179, R180) -/

/-- `w·y` as R179 writes it: (w.re × y.re − w.im × y.im, w.re × y.im + w.im × y.re). -/
def twMul (w y : Cplx) : Cplx :=
  ⟨fsub (fmul w.re y.re) (fmul w.im y.im), fadd (fmul w.re y.im) (fmul w.im y.re)⟩

/-- Componentwise sum. -/
def cadd (x t : Cplx) : Cplx := ⟨fadd x.re t.re, fadd x.im t.im⟩

/-- Componentwise difference. -/
def csub (x t : Cplx) : Cplx := ⟨fsub x.re t.re, fsub x.im t.im⟩

/-- `bfly(a, b, w)` of R179. -/
def bfly (w : Cplx) (a b : Nat) (buf : List Cplx) : List Cplx :=
  let x := buf.getD a czero
  let t := twMul w (buf.getD b czero)
  (buf.set b (csub x t)).set a (cadd x t)

/-- The inner loop of R180: the butterflies of offset j, one in each block of 2^s elements. -/
def stageOffset (s j : Nat) (w : Cplx) (buf : List Cplx) : List Cplx :=
  (List.range (buf.length / 2 ^ s)).foldl (fun buf q => bfly w (q * 2 ^ s + j) (q * 2 ^ s + j + 2 ^ (s - 1)) buf) buf

/-- The body of STAGE for stage s with the twiddles `tw` of that stage (R180). -/
def stageBody (s : Nat) (tw : List Cplx) (buf : List Cplx) : List Cplx :=
  (List.range (2 ^ (s - 1))).foldl (fun buf j => stageOffset s j (tw.getD j czero) buf) buf

/-- The rule of STAGE under a sine (R180): the size check, then the stage check. -/
def stageRule (sin : F64 → F64) (d : Dir) (n : Nat) (s : State) : Except FaultCode State :=
  withSize s
    (if 1 ≤ n ∧ n ≤ s.log2n then .ok (s.storeWork (stageBody n (twStage sin d n) s.workBuf)) else .error .badConfig)

/-- STAGE.F (R180), under the OPEN sine. -/
def execStageF (n : Nat) (s : State) : Host.Outcome State Fault Refusal :=
  runCommand (stageRule Config.sin64 .forward n) s

/-- STAGE.I (R180), under the OPEN sine. -/
def execStageI (n : Nat) (s : State) : Host.Outcome State Fault Refusal :=
  runCommand (stageRule Config.sin64 .inverse n) s

/-! ### The full transform (R181) -/

/-- The body of FFT: bit reversal, then stages 1 to log2n (R181). -/
def fftBody (sin : F64 → F64) (d : Dir) (log2n : Nat) (buf : List Cplx) : List Cplx :=
  (List.range log2n).foldl (fun buf k => stageBody (k + 1) (twStage sin d (k + 1)) buf) (bitrev log2n buf)

/-- The rule of FFT under a sine (R181). -/
def fftRule (sin : F64 → F64) (d : Dir) (s : State) : Except FaultCode State :=
  withSize s (.ok (s.storeWork (fftBody sin d s.log2n s.workBuf)))

/-- FFT.F (R181), under the OPEN sine. -/
def execFftF (s : State) : Host.Outcome State Fault Refusal := runCommand (fftRule Config.sin64 .forward) s

/-- FFT.I (R181), under the OPEN sine. -/
def execFftI (s : State) : Host.Outcome State Fault Refusal := runCommand (fftRule Config.sin64 .inverse) s

end Sys2Proof.Machine
end

