-- ==== Sys2Proof/Machine/Spectrum.lean ====
section
/-! DEFINITION. The commands on the amplitude series (43_fft.md R183 to R202): magnitude, normalisation by the DC bin, and
top-K peak extraction. -/

namespace Sys2Proof.Machine

/-! ### Magnitude (R183) -/

/-- `sqrt((re × re) + (im × im))`. -/
def magnitude (z : Cplx) : F64 := fsqrt (fadd (fmul z.re z.re) (fmul z.im z.im))

/-- The rule of MAG (R183). -/
def magRule (s : State) : Except FaultCode State :=
  withSize s (.ok (s.storeSeries ((readCplx s.mem workBase s.seriesLen).map magnitude)))

/-- MAG (R183). -/
def execMag (s : State) : Host.Outcome State Fault Refusal := runCommand magRule s

/-! ### Normalisation (R184) -/

/-- The series divided by its DC bin, which becomes 1.0 (R184). -/
def normalise (d : F64) (series : List F64) : List F64 :=
  series.mapIdx (fun k v => if k = 0 then fone else fdiv v d)

/-- The rule of NORM (R184): the size check, then DC_ZERO for a DC bin of ±0.0. -/
def normRule (s : State) : Except FaultCode State :=
  withSize s
    (let d := readWord s.mem seriesBase
     if feq d fzero then .error .dcZero else .ok (s.storeSeries (normalise d s.seriesBuf)))

/-- NORM (R184). -/
def execNorm (s : State) : Host.Outcome State Fault Refusal := runCommand normRule s

/-! ### Peaks (R200, R201) -/

/-- One entry of the peak table (R53). -/
structure Peak where
  value : F64
  freq : F64
  bin : Nat
deriving DecidableEq, Repr

/-- An element of a series; an index past the end is not used by R200. -/
def binAt (series : List F64) (k : Nat) : F64 := series.getD k fzero

/-- `isPeak(k)` of R200, for k in 1..L−1 with L the length of the series. -/
def isPeak (series : List F64) (k : Nat) : Bool :=
  if k + 1 < series.length then
    fgt (binAt series k) (binAt series (k - 1)) && fgt (binAt series k) (binAt series (k + 1))
  else fgt (binAt series k) (binAt series (k - 1))

/-- The entry of bin k (R201): FREQ is `(k × FS) / N`. -/
def peakOf (fs : F64) (n : Nat) (series : List F64) (k : Nat) : Peak :=
  { value := binAt series k, freq := fdiv (fmul (fofNat k) fs) (fofNat n), bin := k }

/-- The insertion of R201: before the first entry with a strictly smaller value, or at the end; a table that would hold
more than K entries drops its last. -/
def insertPeak (K : Nat) (table : List Peak) (e : Peak) : List Peak :=
  (table.takeWhile (fun t => !fgt e.value t.value) ++ e :: table.dropWhile (fun t => !fgt e.value t.value)).take K

/-- The scan of R201: bins 1 to L−1 in ascending order. -/
def findPeaks (K : Nat) (fs : F64) (n : Nat) (series : List F64) : List Peak :=
  (List.range' 1 (series.length - 1)).foldl
    (fun table k => if isPeak series k then insertPeak K table (peakOf fs n series k) else table) []

/-- The fields of one entry in memory order (R67): VALUE, FREQ, BIN zero-extended. -/
def Peak.words (e : Peak) : List Word := [e.value, e.freq, BitVec.ofNat 64 (e.bin % 2 ^ 16)]

/-- PEAK[p] <- entry (R67, R201); the reserved word is not touched. -/
def writePeak (m : List Host.Cell) (p : Nat) (ws : List Word) : List Host.Cell := writeWords m (peakAddr p 0) ws

/-- The whole table written: the found entries first, zeros after them (R201). -/
def writePeakTable (m : List Host.Cell) (table : List Peak) : List Host.Cell :=
  (List.range Config.kMax).foldl
    (fun m p => writePeak m p ((table.map Peak.words).getD p [fzero, fzero, 0])) m

/-- The peaks of the series of the state (R201). -/
def State.peaks (s : State) : List Peak := findPeaks s.pkK.toNat s.fs s.fftSize s.seriesBuf

/-- The rule of PEAKS (R201): the size check, the K check, the extraction. -/
def peaksRule (s : State) : Except FaultCode State :=
  withSize s
    (if s.peakCountOk then
       .ok { s with mem := writePeakTable s.mem s.peaks, pkCount := BitVec.ofNat 8 s.peaks.length }
     else .error .badConfig)

/-- PEAKS (R201). -/
def execPeaks (s : State) : Host.Outcome State Fault Refusal := runCommand peaksRule s

end Sys2Proof.Machine
end

