-- ==== Sys2Proof/Machine/Dispatch.lean ====
section
/-! DEFINITION. The meaning of each command (30_encoding.md R85), one arm a constructor. -/

namespace Sys2Proof.Machine

def exec (i : Instr) (s : State) : Host.Outcome State Fault Refusal :=
  match i with
  | .nop => Sys2Proof.Machine.execNop s
  | .kfdecM len => Sys2Proof.Machine.execKfdecM len s
  | .kfdecB len => Sys2Proof.Machine.execKfdecB len s
  | .kfencM => Sys2Proof.Machine.execKfencM s
  | .kfencB => Sys2Proof.Machine.execKfencB s
  | .xfdec len => Sys2Proof.Machine.execXfdec len s
  | .rngdec len => Sys2Proof.Machine.execRngdec len s
  | .errtok len => Sys2Proof.Machine.execErrtok len s
  | .bcpush => Sys2Proof.Machine.execBcpush s
  | .bcclr => Sys2Proof.Machine.execBcclr s
  | .rpclr => Sys2Proof.Machine.execRpclr s
  | .rppush => Sys2Proof.Machine.execRppush s
  | .load => Sys2Proof.Machine.execLoad s
  | .win => Sys2Proof.Machine.execWin s
  | .fftF => Sys2Proof.Machine.execFftF s
  | .fftI => Sys2Proof.Machine.execFftI s
  | .mag => Sys2Proof.Machine.execMag s
  | .norm => Sys2Proof.Machine.execNorm s
  | .peaks => Sys2Proof.Machine.execPeaks s
  | .bitrev => Sys2Proof.Machine.execBitrev s
  | .stageF n => Sys2Proof.Machine.execStageF n s
  | .stageI n => Sys2Proof.Machine.execStageI n s

end Sys2Proof.Machine
end

