-- ==== Sys2Proof/Machine/HostPort.lean ====
section
/-! DEFINITION. The host port: the register map (10_state.md R23 to R47), the address map (20_memory.md R62), host reads and
writes in each engine state (R63 to R66, 70_reset_and_hazards.md R252, R260, R261) and the reset sequence (R250 to R252). -/

namespace Sys2Proof.Machine

/-! ### What an address names -/

/-- The registers of R47. -/
inductive Reg where
  | id | cap | ctrl | status | cmd | errmask | errsticky | opa | opb | opc | res0
  | bcCfg | bcMaxavg | bcSens | bcSpeed | bcTol | bcFill | bcWptr | bcCount
  | bcMean0 | bcMean1 | bcMean2 | bcMin0 | bcMin1 | bcMin2 | bcMax0 | bcMax1 | bcMax2 | bcExit
  | fftCfg | rpFill | pkK | pkCount | fs
deriving DecidableEq, Repr

/-- The register at an address of the register window (R47); every other address there is unmapped (R46). -/
def regAt (a : Nat) : Option Reg :=
  match a with
  | 0x000 => some .id
  | 0x008 => some .cap
  | 0x010 => some .ctrl
  | 0x018 => some .status
  | 0x020 => some .cmd
  | 0x028 => some .errmask
  | 0x030 => some .errsticky
  | 0x040 => some .opa
  | 0x048 => some .opb
  | 0x050 => some .opc
  | 0x058 => some .res0
  | 0x060 => some .bcCfg
  | 0x068 => some .bcMaxavg
  | 0x070 => some .bcSens
  | 0x078 => some .bcSpeed
  | 0x080 => some .bcTol
  | 0x088 => some .bcFill
  | 0x090 => some .bcWptr
  | 0x098 => some .bcCount
  | 0x0A0 => some .bcMean0
  | 0x0A8 => some .bcMean1
  | 0x0B0 => some .bcMean2
  | 0x0B8 => some .bcMin0
  | 0x0C0 => some .bcMin1
  | 0x0C8 => some .bcMin2
  | 0x0D0 => some .bcMax0
  | 0x0D8 => some .bcMax1
  | 0x0E0 => some .bcMax2
  | 0x0E8 => some .bcExit
  | 0x100 => some .fftCfg
  | 0x108 => some .rpFill
  | 0x110 => some .pkK
  | 0x118 => some .pkCount
  | 0x120 => some .fs
  | _ => none

/-- What a host access at an address reaches (R62, R63, R66). -/
inductive Target where
  /-- a register -/
  | reg (r : Reg)
  /-- an element of BURSTBUF, SERIES, RIPPLE, WORK or RING: host RW -/
  | cell (a : Nat)
  /-- a field of the PEAK table: host RO -/
  | peak (a : Nat)
  /-- the reserved word of a PEAK entry: reads 0, not writable -/
  | peakReserved
  /-- the reserved word of a RING slot: reads 0, writes ignored -/
  | ringReserved
  /-- the re (`im = false`) or im part of `TW[d][i]`: host RO -/
  | twiddle (d : Dir) (i : Nat) (im : Bool)
  /-- no element: an unmapped or misaligned address -/
  | unmapped
deriving DecidableEq, Repr

/-- The address map of R62 on an aligned address. -/
def alignedTarget (a : Nat) : Target :=
  if a < 0x1000 then
    match regAt a with
    | some r => .reg r
    | none => .unmapped
  else if inWindow burstBase 0x100 a then .cell a
  else if inWindow peakBase 0x800 a then if isReservedWord a then .peakReserved else .peak a
  else if inWindow seriesBase 0x2000 a then .cell a
  else if inWindow rippleBase 0x4000 a then .cell a
  else if inWindow workBase 0x8000 a then .cell a
  else if inWindow twForwardBase 0x7FF0 a then
    .twiddle .forward ((a - twForwardBase) / 16) (a % 16 == 8)
  else if inWindow twInverseBase 0x7FF0 a then
    .twiddle .inverse ((a - twInverseBase) / 16) (a % 16 == 8)
  else if inWindow ringBase 0x2000 a then if isReservedWord a then .ringReserved else .cell a
  else .unmapped

/-- R63: an access whose `addr[2:0] ≠ 0` reaches nothing. -/
def target (addr : Addr) : Target := if addr.toNat % 8 = 0 then alignedTarget addr.toNat else .unmapped

/-- R65: the registers whose access is RO. -/
def Reg.readOnly : Reg → Bool
  | .id | .cap | .errmask | .res0 | .bcFill | .bcWptr | .bcCount | .bcMean0 | .bcMean1 | .bcMean2
  | .bcMin0 | .bcMin1 | .bcMin2 | .bcMax0 | .bcMax1 | .bcMax2 | .bcExit | .rpFill | .pkCount => true
  | .ctrl | .status | .cmd | .errsticky | .opa | .opb | .opc | .bcCfg | .bcMaxavg | .bcSens | .bcSpeed | .bcTol
  | .fftCfg | .pkK | .fs => false

/-- R65: a read of this target is a bus error. -/
def Target.readError : Target → Bool
  | .unmapped => true
  | .reg _ | .cell _ | .peak _ | .peakReserved | .ringReserved | .twiddle _ _ _ => false

/-- R65, R66: a write to this target is a bus error. -/
def Target.writeError : Target → Bool
  | .unmapped | .peak _ | .peakReserved | .twiddle _ _ _ => true
  | .reg r => r.readOnly
  | .cell _ | .ringReserved => false

/-! ### Reading and writing while IDLE -/

/-- ID (R23): "KCLM", version 1.0. -/
def idWord : Word := 0x4B434C4D00010000#64

/-- CAP (R24): N_MIN_LOG2, N_MAX_LOG2, MAXAVG_MAX, K_MAX. -/
def capWord : Word :=
  0#32 ++ BitVec.ofNat 8 Config.kMax ++ BitVec.ofNat 16 Config.maxavgMax ++ BitVec.ofNat 4 Config.nMaxLog2 ++
  BitVec.ofNat 4 Config.nMinLog2

/-- CTRL as the host reads it (R25). -/
def Ctrl.word (c : Ctrl) : Word := 0#62 ++ BitVec.ofBool c.ieErr ++ BitVec.ofBool c.ieDone

/-- The 64 bits a register reads as (R22, R23 to R45, R66). -/
def State.readReg (s : State) : Reg → Word
  | .id => idWord
  | .cap => capWord
  | .ctrl => s.ctrl.word
  | .status => s.statusWord
  | .cmd => s.cmd
  | .errmask => 0#60 ++ s.errmask
  | .errsticky => 0#60 ++ s.errsticky
  | .opa => s.opa
  | .opb => s.opb
  | .opc => s.opc
  | .res0 => s.res0
  | .bcCfg => 0#61 ++ s.bcCfg.tch ++ BitVec.ofBool s.bcCfg.auto
  | .bcMaxavg => 0#48 ++ s.bcCfg.maxavg
  | .bcSens => s.bcCfg.sens
  | .bcSpeed => s.bcCfg.speed
  | .bcTol => s.bcCfg.tol
  | .bcFill => 0#48 ++ s.bcFill
  | .bcWptr => 0#48 ++ s.bcWptr
  | .bcCount => 0#48 ++ s.bcRes.count
  | .bcMean0 => s.bcRes.mean.y0
  | .bcMean1 => s.bcRes.mean.y1
  | .bcMean2 => s.bcRes.mean.y2
  | .bcMin0 => s.bcRes.mn.y0
  | .bcMin1 => s.bcRes.mn.y1
  | .bcMin2 => s.bcRes.mn.y2
  | .bcMax0 => s.bcRes.mx.y0
  | .bcMax1 => s.bcRes.mx.y1
  | .bcMax2 => s.bcRes.mx.y2
  | .bcExit => 0#62 ++ s.bcRes.exit
  | .fftCfg => 0#60 ++ s.fftCfg
  | .rpFill => 0#52 ++ s.rpFill
  | .pkK => 0#56 ++ s.pkK
  | .pkCount => 0#56 ++ s.pkCount
  | .fs => s.fs

/-- A twiddle entry's part as the host reads it (R55, R62), under a sine. -/
def twWord (sin : F64 → F64) (d : Dir) (i : Nat) (im : Bool) : Word :=
  if im then (twEntry sin d i).im else (twEntry sin d i).re

/-- The value of a read while the engine is IDLE (R62, R65, R66, R68). -/
def State.readTarget (s : State) : Target → Word
  | .reg r => s.readReg r
  | .cell a => readWord s.mem a
  | .peak a => readWord s.mem a
  | .peakReserved => 0
  | .ringReserved => 0
  | .twiddle d i im => twWord Config.sin64 d i im
  | .unmapped => 0

/-- A write to CTRL without SRST (R25): the interrupt enables. -/
def State.writeCtrl (v : Word) (s : State) : State :=
  { s with ctrl := { ieDone := v.getLsbD 0, ieErr := v.getLsbD 1 } }

/-- A write to STATUS (R26): W1C. -/
def State.writeStatus (v : Word) (s : State) : State := { s with status := s.status.writeOneToClear v }

/-- A write to a writable register while the engine is IDLE (R25 to R45), with the side effects of R64: BC_MAXAVG restarts
the ring (R33), FFT_CFG clears RP_FILL (R41), CMD submits a command (R100). A write to an RO register changes nothing. -/
def State.writeReg (v : Word) (s : State) : Reg → State
  | .ctrl => s.writeCtrl v
  | .status => s.writeStatus v
  | .cmd => s.accept v
  | .errsticky => { s with errsticky := s.errsticky &&& ~~~(v.extractLsb' 0 4) }
  | .opa => { s with opa := v }
  | .opb => { s with opb := v }
  | .opc => { s with opc := v }
  | .bcCfg => { s with bcCfg := { s.bcCfg with auto := v.getLsbD 0, tch := v.extractLsb' 1 2 } }
  | .bcMaxavg => { s with bcCfg := { s.bcCfg with maxavg := v.extractLsb' 0 16 }, bcFill := 0, bcWptr := 0 }
  | .bcSens => { s with bcCfg := { s.bcCfg with sens := v } }
  | .bcSpeed => { s with bcCfg := { s.bcCfg with speed := v } }
  | .bcTol => { s with bcCfg := { s.bcCfg with tol := v } }
  | .fftCfg => { s with fftCfg := v.extractLsb' 0 4, rpFill := 0 }
  | .pkK => { s with pkK := v.extractLsb' 0 8 }
  | .fs => { s with fs := v }
  | .id | .cap | .errmask | .res0 | .bcFill | .bcWptr | .bcCount | .bcMean0 | .bcMean1 | .bcMean2
  | .bcMin0 | .bcMin1 | .bcMin2 | .bcMax0 | .bcMax1 | .bcMax2 | .bcExit | .rpFill | .pkCount => s

/-- A write that is no bus error, while the engine is IDLE (R62, R66, R68). -/
def State.writeTarget (v : Word) (s : State) : Target → State
  | .reg r => s.writeReg v r
  | .cell a => { s with mem := writeWord s.mem a v }
  | .ringReserved => s
  | .peak _ | .peakReserved | .twiddle _ _ _ | .unmapped => s

/-! ### Reset (R250 to R252) -/

/-- The reset sequence starts, or starts again (R251, R252): every register at its reset value, every memory zero, BUSY = 1
until the sequence ends. A running command is abandoned. What belongs to the outside world stays: the events to come, the
replies given, the durations to come. -/
def State.startReset (s : State) : State :=
  { State.reset with
    engine := .reset s.nextDelay
    inbox := s.inbox
    replies := s.replies
    delays := s.drawDelay.delays
    freeIdx := s.drawDelay.freeIdx }

/-- The reset sequence ends (R252): the engine is IDLE. -/
def State.endReset (s : State) : State := { s with engine := .idle }

/-! ### Host accesses in every engine state -/

/-- A read returns `v`. -/
def State.reply (v : Word) (s : State) : State := { s with replies := v :: s.replies }

/-- A read returns an unspecified value (R252, R261; I1): a free value. -/
def State.replyFree (s : State) : State := { s with replies := s.nextRead :: s.replies, freeIdx := s.freeIdx + 1 }

/-- The registers that read normally while the engine is busy: ID, CAP, CTRL and STATUS (R252, R261). -/
def Target.alwaysReadable : Target → Bool
  | .reg .id | .reg .cap | .reg .ctrl | .reg .status => true
  | _ => false

/-- A host read while IDLE (R65, R68). -/
def State.readIdle (t : Target) (s : State) : State :=
  if t.readError then (s.reply 0).setBerr else s.reply (s.readTarget t)

/-- A host read while a command runs (R261): a bus error sets BERR and returns 0; ID, CAP, CTRL and STATUS read normally;
anything else returns an unspecified value and sets HAZ. -/
def State.readRunning (t : Target) (s : State) : State :=
  if t.readError then (s.reply 0).setBerr
  else if t.alwaysReadable then s.reply (s.readTarget t)
  else s.replyFree.setHaz

/-- A host read during the reset sequence (R252): ID, CAP, STATUS and CTRL read; anything else returns an unspecified value;
no STATUS bit is set. -/
def State.readResetting (t : Target) (s : State) : State :=
  if t.alwaysReadable then s.reply (s.readTarget t) else s.replyFree

/-- `MemRead(addr, 8)` (R60). -/
def State.hostRead (addr : Addr) (s : State) : State :=
  match s.engine with
  | .idle => s.readIdle (target addr)
  | .run _ _ => s.readRunning (target addr)
  | .reset _ => s.readResetting (target addr)

/-- A host write while IDLE (R65, R68). -/
def State.writeIdle (t : Target) (v : Word) (s : State) : State :=
  if t.writeError then s.setBerr else s.writeTarget v t

/-- A host write while a command runs (R260, R261): a bus error sets BERR; CTRL and STATUS are written; a CMD write is
dropped and sets OVR; anything else is dropped and sets HAZ. -/
def State.writeRunning (t : Target) (v : Word) (s : State) : State :=
  if t.writeError then s.setBerr
  else if t = .reg .ctrl then s.writeCtrl v
  else if t = .reg .status then s.writeStatus v
  else if t = .reg .cmd then s.setOvr
  else s.setHaz

/-- R251: the write asks for a soft reset: CTRL with SRST (bit 8) = 1. -/
def isSoftReset (t : Target) (v : Word) : Bool := decide (t = .reg .ctrl) && v.getLsbD 8

/-- `MemWrite(addr, 8, v)` (R60). A soft reset is accepted in any engine state (R251); during the reset sequence every other
write is dropped (R252). -/
def State.hostWrite (addr : Addr) (v : Word) (s : State) : State :=
  if isSoftReset (target addr) v then s.startReset
  else
    match s.engine with
    | .idle => s.writeIdle (target addr) v
    | .run _ _ => s.writeRunning (target addr) v
    | .reset _ => s

end Sys2Proof.Machine
end

