-- ==== Sys2Proof/Machine/Step.lean ====
section
/-! DEFINITION. One step of the block: which of the two agents, the host and the engine (00_scope.md R13), moves next, and
what it does. -/

namespace Sys2Proof.Machine

/-- The engine comes one host turn nearer to completion (R264). -/
def Engine.tick : Engine → Engine
  | .idle => .idle
  | .run c left => .run c (left - 1)
  | .reset left => .reset (left - 1)

/-- One event of the host (R60, R250). WAIT reads STATUS and stays at the head of the inbox until it has read BUSY = 0
(R91). -/
def State.hostEvent (e : HostEvent) (rest : List HostEvent) (s : State) : State :=
  match e with
  | .read addr => { s with inbox := rest }.hostRead addr
  | .write addr v => { s with inbox := rest }.hostWrite addr v
  | .wait => { s with inbox := if s.busy then .wait :: rest else rest }.reply s.statusWord
  | .powerOn => { s with inbox := rest }.startReset

/-- The host's turn: its next event, if there is one, while the engine goes on by one. -/
def State.hostTurn (s : State) : State :=
  match s.inbox with
  | [] => { s with engine := s.engine.tick }
  | e :: rest => { s with engine := s.engine.tick }.hostEvent e rest

/-- The engine decodes the accepted CMD value and runs the command to completion (R86, R100, R101); a value that is not
legal completes with ILLEGAL_CMD. -/
def State.engineTurn (c : Word) (s : State) : Host.Outcome State Fault Refusal :=
  match decode c with
  | .ok i => exec i s
  | .error _ => .next (s.raiseFault .illegalCmd)

/-- One step: an engine whose time has come completes its command or the reset sequence; otherwise it is the host's turn.
With nothing to do the block stays as it is (R237). -/
def step (s : State) : Host.Outcome State Fault Refusal :=
  match s.engine with
  | .run c 0 => s.engineTurn c
  | .reset 0 => .next s.endReset
  | .run _ (_ + 1) => .next s.hostTurn
  | .reset (_ + 1) => .next s.hostTurn
  | .idle => .next s.hostTurn

/-- The state in which the command value with the given bits has just been accepted (R100) and completes at the very next
step: CMD holds it, the engine runs it with no host turn left, `cmask` is 0. Nothing else changes. -/
def State.withFetchWord (s : State) (nbits w : Nat) : State :=
  { s with
    cmd := BitVec.ofNat 64 (w % 2 ^ nbits)
    engine := .run (BitVec.ofNat 64 (w % 2 ^ nbits)) 0
    cmask := 0 }

end Sys2Proof.Machine
end

