-- ==== Sys2Proof/Machine/HostMacros.lean ====
section
/-! DEFINITION. The host-program notation and the pseudo-commands of 30_encoding.md R91 and R92, as host events and lists of
commands. They are host macros, not encodings. -/

namespace Sys2Proof.Machine

/-- The address of CMD (R29). -/
def cmdAddr : Addr := 0x00020#18

/-- The address of STATUS (R26). -/
def statusAddr : Addr := 0x00018#18

/-- The address of CTRL (R25). -/
def ctrlAddr : Addr := 0x00010#18

/-- `C <command>` of R91. -/
def submit (i : Instr) : HostEvent := .write cmdAddr (encode i)

/-- `CLR` of R91: DONE, ERR, OVR, HAZ and BERR cleared. -/
def clearStatus : HostEvent := .write statusAddr 0x3E#64

/-- `DO <cmd>` of R92: `C <cmd>; WAIT`. -/
def doCommand (i : Instr) : List HostEvent := [submit i, .wait]

/-- A host program that does a list of commands one after the other. -/
def doCommands (is : List Instr) : List HostEvent := is.flatMap doCommand

/-- The commands of `SPECTRUM` (R92). -/
def spectrum : List Instr := [.load, .win, .fftF, .mag, .norm, .peaks]

/-- The commands of `SPECTRUM.NW` (R92): without the window. -/
def spectrumNoWindow : List Instr := [.load, .fftF, .mag, .norm, .peaks]

/-- The commands FFT stands for (R92): BITREV, then the stages 1 to log2n. -/
def fftByStages (stage : Nat → Instr) (log2n : Nat) : List Instr :=
  .bitrev :: (List.range log2n).map (fun k => stage (k + 1))

end Sys2Proof.Machine
end

