-- ==== Sys2Proof/Safety.lean ====
section
/-! DEFINITION. The terms the claims use: the completion records of 40_control.md R101, the values binary64 patterns stand
for, correct rounding, the commands of a program one after the other, and the invariant of the block. -/

namespace Sys2Proof.Machine

/-! ### Completion records -/

/-- R101, no fault: `s` with the completion fields of a command whose condition mask is `mask`. -/
def completedFrom (s : State) (mask : BitVec 4) : State :=
  { s with
    errmask := mask
    errsticky := s.errsticky ||| mask
    status := { s.status with errcode := 0, done := true }
    engine := .idle
    cmask := 0 }

/-- R101 and R222, a fault: `s` with the completion fields of a command that raised the fault of the given number. -/
def faultedFrom (s : State) (errcode : BitVec 8) : State :=
  { s with
    errmask := 0
    status := { s.status with errcode := errcode, done := true, err := true }
    engine := .idle
    cmask := 0 }

/-- The bytes from `base` up to, not including, `base + len` may differ; every other byte of memory reads the same. -/
def sameOutside (base len : Nat) (m m' : List Host.Cell) : Prop :=
  ∀ a, ¬ (base ≤ a ∧ a < base + len) → readByte m' a = readByte m a

/-- Every byte of memory reads the same. -/
def sameBytes (m m' : List Host.Cell) : Prop := ∀ a, readByte m' a = readByte m a

/-- `WORK[i]` (R51, R62). -/
def workAt (m : List Host.Cell) (i : Nat) : Cplx := ⟨readWord m (workBase + 16 * i), readWord m (workBase + 16 * i + 8)⟩

/-- `RIPPLE[i]` (R49, R62). -/
def rippleAt (m : List Host.Cell) (i : Nat) : F64 := readWord m (rippleBase + 8 * i)

/-- `BURSTBUF[j]` (R50, R62). -/
def burstAt (m : List Host.Cell) (j : Nat) : F64 := readWord m (burstBase + 8 * j)

/-- `SERIES[k]` (R52, R62). -/
def seriesAt (m : List Host.Cell) (k : Nat) : F64 := readWord m (seriesBase + 8 * k)

/-- `RING[r][c]` (R54, R62). -/
def ringAt (m : List Host.Cell) (r c : Nat) : F64 := readWord m (ringAddr r c)

/-- Field f of `PEAK[p]` (R53, R67): 0 VALUE, 1 FREQ, 2 BIN. -/
def peakAt (m : List Host.Cell) (p f : Nat) : Word := readWord m (peakAddr p f)

/-! ### What registers hold and what the box-car walk sees, written out from the spec's tables -/

/-- STATUS as R26 lays it out: BUSY in bit 0, DONE 1, ERR 2, OVR 3, HAZ 4, BERR 5, ERRCODE in [15:8], zeros elsewhere. -/
def statusBits (busy : Bool) (st : Status) : Word :=
  BitVec.ofNat 64 (busy.toNat + 2 * st.done.toNat + 4 * st.err.toNat + 8 * st.ovr.toNat + 16 * st.haz.toNat +
    32 * st.berr.toNat + 256 * st.errcode.toNat)

/-- CTRL as R25 lays it out: IE_DONE in bit 0, IE_ERR in bit 1, zeros elsewhere. -/
def ctrlBits (c : Ctrl) : Word := BitVec.ofNat 64 (c.ieDone.toNat + 2 * c.ieErr.toNat)

/-- The k-th newest valid sample's channel c (R140): slot `(BC_WPTR − 1 − k) mod maxAvg`, for k < maxAvg. -/
def walkSample (s : State) (k c : Nat) : F64 := ringAt s.mem ((s.bcWptr.toNat + (s.maxAvg - 1 - k)) % s.maxAvg) c

/-- The values of channel c of the n newest samples, the newest first. -/
def walkValues (s : State) (n c : Nat) : List F64 := (List.range n).map (fun k => walkSample s k c)

/-- The running sum of R145 after n samples, from +0.0, the newest sample first. -/
def walkSum (s : State) (n c : Nat) : F64 := (walkValues s n c).foldl fadd 0

/-- The auto test of R146 after n samples: `sum[t] > (SENS × SPEED) × ((3.0 × n) / (n + 1.0))`, with AUTO = 1 only. -/
def walkPasses (s : State) (n : Nat) : Bool :=
  s.bcCfg.auto && fgt (walkSum s n s.bcCfg.tch.toNat)
    (fmul (fmul s.bcCfg.sens s.bcCfg.speed)
      (fdiv (fmul 0x4008000000000000#64 (fofNat n)) (fadd (fofNat n) 0x3FF0000000000000#64)))

/-- The divergence guard of R145 before sample n is folded: n ≥ 2 and `|y[t] − m| > BC_TOL × |m|`, m the running mean. -/
def walkDiverges (s : State) (n : Nat) : Bool :=
  let m := fdiv (walkSum s n s.bcCfg.tch.toNat) (fofNat n)
  decide (2 ≤ n) && fgt (fabs (fsub (walkSample s n s.bcCfg.tch.toNat) m)) (fmul s.bcCfg.tol (fabs m))

/-- The envelope of R145 over the values folded, the newest first: a later value replaces the old one if it is smaller. -/
def walkMin : List F64 → F64
  | [] => 0
  | y :: ys => ys.foldl (fun old v => if flt v old then v else old) y

/-- The same for the maximum: a later value replaces the old one if it is greater. -/
def walkMax : List F64 → F64
  | [] => 0
  | y :: ys => ys.foldl (fun old v => if fgt v old then v else old) y

/-! ### Values of binary64 patterns (R9) -/

/-- The rational a finite pattern stands for. -/
def fval (x : F64) : ℚ := (if fsign x then -1 else 1) * (fmant x : ℚ) * (2 : ℚ) ^ (fscale x)

/-- R9: `x` is the value `r` rounded to nearest, ties to even. From 2^1024 − 2^970 on (half a place past the largest finite
value) that is an infinity; otherwise no finite pattern is nearer, and of two that are equally near the one with the even
fraction is taken. A non-zero `r` gives its sign to the result. -/
def nearestEven (r : ℚ) (x : F64) : Prop :=
  (r ≠ 0 → (fsign x = true ↔ r < 0)) ∧
  if (2 : ℚ) ^ 1024 - 2 ^ 970 ≤ |r| then fIsInf x = true
  else
    fIsFinite x = true ∧
    ∀ y, fIsFinite y = true →
      |fval x - r| ≤ |fval y - r| ∧ (|fval x - r| = |fval y - r| → fval y ≠ fval x → ffrac x % 2 = 0)

/-- Two patterns that are the same but for the sign of a zero (R177: in value). -/
def sameValue (a b : F64) : Prop := a = b ∨ (fIsZero a = true ∧ fIsZero b = true)

/-- The bytes of a K-float (R112), byte 0 in the low bits: the sign and the high seven bits of the fraction, its low eight
bits, the exponent in two's complement. -/
def kfloatBytes (neg : Bool) (f : Nat) (e : Int) : BitVec 24 :=
  BitVec.ofNat 24 (128 * neg.toNat + f / 256 + 256 * (f % 256) + 65536 * (e % 256).toNat)

/-- What R115 gives for the magnitude `a` of a finite non-zero operand that does not overflow: `e` is the exponent that puts
a·2^(F − e) into [2^14, 2^15), or −128 where that would be less (gradual underflow); `q` is a·2^(F − e) rounded to an
integer, ties to even; a `q` of 2^15 is renormalised, and a `q` of 0 gives three zero bytes. -/
def kfencNearest (F : Nat) (neg : Bool) (a : ℚ) (bytes : BitVec 24) : Prop :=
  ∃ (q : Nat) (e : Int), -128 ≤ e ∧
    a * 2 ^ ((F : Int) - e) < 2 ^ 15 ∧ (2 ^ 14 ≤ a * 2 ^ ((F : Int) - e) ∨ e = -128) ∧
    |(q : ℚ) - a * 2 ^ ((F : Int) - e)| ≤ 1 / 2 ∧ (|(q : ℚ) - a * 2 ^ ((F : Int) - e)| = 1 / 2 → q % 2 = 0) ∧
    bytes = if q = 0 then 0 else if q = 2 ^ 15 then kfloatBytes neg (2 ^ 14) (e + 1) else kfloatBytes neg q e

/-! ### Programs of commands -/

/-- Commands one after the other, each at once: CMD holds the command's word (R100) and its meaning runs. -/
def runInOrder : List Instr → State → Host.Outcome State Fault Refusal
  | [], s => .next s
  | i :: is, s =>
    match exec i { s with cmd := encode i } with
    | .next t => runInOrder is t
    | .fault r => .fault r
    | .refused r => .refused r

/-- `n` times the same command. -/
def repeatCommand (i : Instr) (n : Nat) : List Instr := List.replicate n i

/-- The block's own part of a state: without the events to come, the replies given and the model's account of time. -/
def State.block (s : State) : State := { s with inbox := [], replies := [], delays := [], freeIdx := 0 }

/-- An event that starts the reset sequence: the reset input (R250), or a write of CTRL with SRST = 1 (R251). -/
def HostEvent.isReset : HostEvent → Bool
  | .powerOn => true
  | .write addr v => isSoftReset (target addr) v
  | .read _ => false
  | .wait => false

/-- The condition bits a command may set (R224). -/
def conditionsOf : Instr → BitVec 4
  | .kfdecM _ | .kfdecB _ | .rngdec _ | .errtok _ => parseFail
  | .xfdec _ => parseFail ||| badValue
  | .kfencM | .kfencB => badValue
  | .bcpush => lowLight
  | .load => insufficientData
  | .nop | .bcclr | .rpclr | .rppush | .win | .fftF | .fftI | .mag | .norm | .peaks | .bitrev | .stageF _
  | .stageI _ => 0

/-- The memory window a command may write, as a first address and a length (R74): RING for BCPUSH and BCCLR, RIPPLE for RPCLR
and RPPUSH, WORK, SERIES or PEAK for the others; nothing for NOP and the codec. -/
def windowOf : Instr → Nat × Nat
  | .bcpush | .bcclr => (ringBase, 0x2000)
  | .rpclr | .rppush => (rippleBase, 0x4000)
  | .load | .win | .bitrev | .stageF _ | .stageI _ | .fftF | .fftI => (workBase, 0x8000)
  | .mag | .norm => (seriesBase, 0x2000)
  | .peaks => (peakBase, 0x800)
  | .nop | .kfdecM _ | .kfdecB _ | .kfencM | .kfencB | .xfdec _ | .rngdec _ | .errtok _ => (0, 0)

/-- It is the host's turn: the engine is not at the point of completing (R13, R264). -/
def State.isHostTurn (s : State) : Bool :=
  match s.engine with
  | .idle => true
  | .run _ 0 => false
  | .run _ (_ + 1) => true
  | .reset 0 => false
  | .reset (_ + 1) => true

/-- The reset sequence is under way. -/
def State.isResetting (s : State) : Bool :=
  match s.engine with
  | .idle => false
  | .run _ _ => false
  | .reset _ => true

/-! ### The address map of R47 and R62, written out -/

/-- The registers the host may write: CTRL, STATUS, CMD, ERRSTICKY, OPA to OPC, BC_CFG to BC_TOL, FFT_CFG, PK_K, FS. -/
def writableRegisters : List Nat :=
  [0x010, 0x018, 0x020, 0x030, 0x040, 0x048, 0x050, 0x060, 0x068, 0x070, 0x078, 0x080, 0x100, 0x110, 0x120]

/-- The registers whose access is RO. -/
def readOnlyRegisters : List Nat :=
  [0x000, 0x008, 0x028, 0x058, 0x088, 0x090, 0x098, 0x0A0, 0x0A8, 0x0B0, 0x0B8, 0x0C0, 0x0C8, 0x0D0, 0x0D8, 0x0E0, 0x0E8,
   0x108, 0x118]

/-- An element of BURSTBUF, SERIES, RIPPLE, WORK or RING (R62): host RW. -/
def isElement (a : Nat) : Bool :=
  a % 8 == 0 &&
  ((0x01000 ≤ a && a < 0x01100) || (0x04000 ≤ a && a < 0x06000) || (0x08000 ≤ a && a < 0x0C000) ||
   (0x10000 ≤ a && a < 0x18000) || (0x30000 ≤ a && a < 0x32000 && a % 32 != 24))

/-- The reserved word of a RING slot (R66). -/
def isRingReserved (a : Nat) : Bool := 0x30000 ≤ a && a < 0x32000 && a % 32 == 24

/-- The read-only windows: PEAK, and TW in both directions (R62). -/
def isReadOnlyWindow (a : Nat) : Bool :=
  a % 8 == 0 && ((0x02000 ≤ a && a < 0x02800) || (0x20000 ≤ a && a < 0x27FF0) || (0x28000 ≤ a && a < 0x2FFF0))

/-- A read of this address is no bus error (R65). -/
def isReadable (a : Nat) : Bool :=
  writableRegisters.contains a || readOnlyRegisters.contains a || isElement a || isRingReserved a || isReadOnlyWindow a

/-- A write to this address is no bus error (R65, R66). -/
def isWritable (a : Nat) : Bool := writableRegisters.contains a || isElement a || isRingReserved a

/-! ### The invariant of the block -/

/-- What holds of the block at reset and after every step. -/
structure State.Inv (s : State) : Prop where
  /-- memory is in canonical form -/
  memCanonical : canonical s.mem = true
  /-- only bytes of memory elements are stored: no reserved word, no register address, no twiddle entry (R62, R66, R72) -/
  memMapped : ∀ c ∈ s.mem, isStorage c.1 = true
  /-- RP_FILL is in 0..N (R42) -/
  rippleFill : s.rpFill.toNat ≤ s.fftSize
  /-- RP_FILL never exceeds N_MAX -/
  rippleFillMax : s.rpFill.toNat ≤ Config.nMax
  /-- BC_FILL is in 0..maxAvg (R36) -/
  ringFill : s.bcFill.toNat ≤ s.maxAvg
  /-- BC_FILL never exceeds MAXAVG_MAX -/
  ringFillMax : s.bcFill.toNat ≤ Config.maxavgMax
  /-- BC_WPTR is in 0..maxAvg−1 (R37), or 0 -/
  ringPtr : s.bcWptr = 0 ∨ s.bcWptr.toNat < s.maxAvg
  /-- BC_WPTR is a slot of the ring -/
  ringPtrMax : s.bcWptr.toNat < Config.maxavgMax
  /-- BC_COUNT is at most MAXAVG_MAX (R38, R148) -/
  boxcarCount : s.bcRes.count.toNat ≤ Config.maxavgMax
  /-- BC_EXIT = 3 is never written (R40) -/
  boxcarExit : s.bcRes.exit ≠ 3#2
  /-- PK_COUNT is in 0..K_MAX (R44) -/
  peakCount : s.pkCount.toNat ≤ Config.kMax
  /-- PEAK[PK_COUNT..K_MAX−1] read as zeros (R201) -/
  peaksBeyond : ∀ p f, s.pkCount.toNat ≤ p → p < Config.kMax → f < 3 → peakAt s.mem p f = 0
  /-- ERRCODE 0x04 to 0xFF are never produced (R221) -/
  errcodeDefined : s.status.errcode.toNat ≤ 3
  /-- a fault and a condition never appear together (R223) -/
  faultNoCondition : s.status.errcode ≠ 0 → s.errmask = 0
  /-- CMD reads the running command (R29, R100) -/
  runningIsAccepted : ∀ c left, s.engine = .run c left → s.cmd = c
  /-- the condition mask does not survive a command (R56) -/
  cmaskClear : s.cmask = 0
  /-- during the reset sequence everything has its reset value (R252) -/
  resetting : ∀ left, s.engine = .reset left →
    s = { State.reset with
      engine := .reset left, inbox := s.inbox, replies := s.replies, delays := s.delays, freeIdx := s.freeIdx }

end Sys2Proof.Machine
end

