-- ==== Sys2Proof/Certificates/Slice0/Obligations.lean ====
section
/-! DEFINITION. The statements for the provers. Each docstring names the rules of spec/ it rests on, or says that it is the
model's own choice. -/

open Sys2Proof Sys2Proof.Machine

/-! ### Encoding -/

/-- Decoding an encoded well-formed command gives it back, for every command and every value of LEN and of the stage number
(R85, R90). -/
def Obligations.DecodeUndoesEncode : Prop := ∀ i : Instr, i.wellFormed = true → decode (encode i) = .ok i

/-- A CMD value that decodes is the encoding of what it decodes to: no bit of it is dropped (R81, R85, R86). -/
def Obligations.EncodeUndoesDecode : Prop :=
  ∀ (c : Word) (i : Instr), decode c = .ok i → i.wellFormed = true ∧ encode i = c

/-- R86: a CMD value is legal exactly when c[63:32] = 0 and exactly one row of R85 matches c[31:0]; a value that is not
legal completes with ILLEGAL_CMD (1) and touches nothing but the completion fields. -/
def Obligations.LegalIffExactlyOneRow : Prop :=
  (∀ c : Word, legalCmd c = true ↔
    c.extractLsb' 32 32 = 0#32 ∧
    ∃! k : Fin opcodeRows.length, c.extractLsb' 0 32 &&& (opcodeRows.get k).mask = (opcodeRows.get k).pat) ∧
  ∀ (s : State) (c : Word), s.engine = .run c 0 → legalCmd c = false → step s = .next (faultedFrom s 1)

/-- R88: the only no-op is the word 0x00000000, and every other word with OP = 0x00 is illegal. -/
def Obligations.OnlyWordZeroIsNop : Prop :=
  (∀ c : Word, decode c = .ok .nop ↔ c = 0) ∧
  ∀ c : Word, c.extractLsb' 24 8 = 0#8 → c.extractLsb' 0 32 ≠ 0#32 → legalCmd c = false

/-- The example words of R90 decode to the commands they stand for. -/
def Obligations.SampleWordsDecode : Prop :=
  decode 0x10300000#64 = .ok (.kfdecM 3) ∧ decode 0x10310000#64 = .ok (.kfdecB 3) ∧
  decode 0x12800000#64 = .ok (.xfdec 8) ∧ decode 0x13100000#64 = .ok (.rngdec 1) ∧
  decode 0x14100000#64 = .ok (.errtok 1) ∧ decode 0x39010003#64 = .ok (.stageI 3) ∧
  decode 0x20000000#64 = .ok .bcpush ∧ decode 0x36000000#64 = .ok .norm

/-! ### The life cycle of a command -/

/-- When the engine is at the point of completing an accepted CMD value that decodes to i, a step is exec of i, and nothing
else happens in that step (R86, R100, R101). The same for the state that `withFetchWord` makes (assumption log 6). -/
def Obligations.StepRunsDecodedCommand : Prop :=
  (∀ (s : State) (c : Word) (i : Instr), s.engine = .run c 0 → decode c = .ok i → step s = exec i s) ∧
  ∀ (s : State) (nbits w : Nat) (i : Instr), decodeTableWord nbits w = some i →
    step (s.withFetchWord nbits w) = exec i (s.withFetchWord nbits w)

/-- R100 on the machine: an IDLE block accepts a CMD write. CMD holds the value, the engine runs it, `cmask` is 0, and
nothing else of the block changes. How long a legal command lasts is the environment's choice or a free value (the model's
choice, assumption log 3); an illegal one has no host turn left. -/
def Obligations.AcceptanceStartsTheEngine : Prop :=
  ∀ (s : State) (c : Word) (rest : List HostEvent), s.engine = .idle → s.inbox = .write cmdAddr c :: rest →
    (legalCmd c = true → step s = .next { s with
      inbox := rest, cmd := c, engine := .run c (s.delays.headD (Config.duration s.freeIdx)), cmask := 0
      delays := s.delays.tail, freeIdx := s.freeIdx + 1 }) ∧
    (legalCmd c = false → step s = .next { s with inbox := rest, cmd := c, engine := .run c 0, cmask := 0 })

/-- The completion fields of R101, for every command: DONE is set, the engine is IDLE, the host-access bits stay; without a
fault ERR stays and ERRSTICKY takes in ERRMASK; with a fault ERR is set, ERRMASK is 0 and ERRSTICKY stays. -/
def Obligations.CompletionWritesItsFields : Prop :=
  ∀ (i : Instr) (s t : State), exec i s = .next t →
    t.engine = .idle ∧ t.cmask = 0 ∧ t.status.done = true ∧
    t.status.ovr = s.status.ovr ∧ t.status.haz = s.status.haz ∧ t.status.berr = s.status.berr ∧
    ((t.status.errcode = 0 ∧ t.status.err = s.status.err ∧ t.errsticky = s.errsticky ||| t.errmask) ∨
     (t.status.errcode ≠ 0 ∧ t.status.err = true ∧ t.errmask = 0 ∧ t.errsticky = s.errsticky))

/-- R222: a command that faults has no effect but the completion fields: the state is the same as before it, apart from
ERRCODE, ERR, DONE and ERRMASK = 0 (CMD holds the accepted word already). -/
def Obligations.FaultedCommandChangesNothing : Prop :=
  ∀ (i : Instr) (s t : State), exec i s = .next t → t.status.errcode ≠ 0 → t = faultedFrom s t.status.errcode

/-- What no command writes (R30, R31, R44, R74): the operand and configuration registers, CTRL, CMD and what belongs to the
host; and RES0, the box-car registers, RP_FILL and PK_COUNT belong each to its own commands. -/
def Obligations.CommandsLeaveOtherRegisters : Prop :=
  ∀ (i : Instr) (s t : State), exec i s = .next t →
    (t.opa = s.opa ∧ t.opb = s.opb ∧ t.opc = s.opc ∧ t.ctrl = s.ctrl ∧ t.cmd = s.cmd ∧ t.bcCfg = s.bcCfg ∧
     t.fftCfg = s.fftCfg ∧ t.pkK = s.pkK ∧ t.fs = s.fs ∧ t.inbox = s.inbox ∧ t.replies = s.replies ∧
     t.delays = s.delays ∧ t.freeIdx = s.freeIdx) ∧
    (t.res0 = s.res0 ∨ (∃ len, i = .kfdecM len ∨ i = .kfdecB len ∨ i = .xfdec len ∨ i = .rngdec len ∨ i = .errtok len) ∨
      i = .kfencM ∨ i = .kfencB) ∧
    (t.bcRes = s.bcRes ∨ i = .bcpush) ∧
    ((t.bcFill = s.bcFill ∧ t.bcWptr = s.bcWptr) ∨ i = .bcpush ∨ i = .bcclr) ∧
    (t.rpFill = s.rpFill ∨ i = .rpclr ∨ i = .rppush) ∧
    (t.pkCount = s.pkCount ∨ i = .peaks)

/-- R74 on the machine: from a state that meets the invariant the engine writes only the memory its command names. -/
def Obligations.CommandsWriteOnlyTheirMemory : Prop :=
  ∀ (i : Instr) (s t : State), s.Inv → exec i s = .next t → sameOutside (windowOf i).1 (windowOf i).2 s.mem t.mem

/-- R48: no command's behaviour depends on a flag. With other flags (STATUS, ERRMASK, ERRSTICKY) a command gives the same
state, but for the flags it leaves as they were. The same with other interrupt enables (R25) and with a leftover condition
mask, which are no flags of R48: that a command starts with an empty mask is R100 and assumption log 12. -/
def Obligations.NoCommandReadsAFlag : Prop :=
  ∀ (i : Instr) (s : State) (st : Status) (em es cm : BitVec 4) (ct : Ctrl),
    ∃ t, exec i s = .next t ∧
      exec i { s with status := st, errmask := em, errsticky := es, cmask := cm, ctrl := ct } =
        .next { t with
          ctrl := ct
          errsticky := if t.status.errcode = 0 then es ||| t.errmask else es
          status := { st with
            done := true
            err := if t.status.errcode = 0 then st.err else true
            errcode := t.status.errcode } }

/-- The table of R224: a command sets only its own condition bits. -/
def Obligations.ConditionsOnlyFromTheirCommands : Prop :=
  ∀ (i : Instr) (s t : State), exec i s = .next t → t.errmask &&& ~~~ conditionsOf i = 0

/-! ### Control and codec -/

/-- R102: NOP is `skip`: it completes, with ERRMASK and ERRCODE 0, and changes nothing else. -/
def Obligations.NopOnlyCompletes : Prop := ∀ s : State, exec .nop s = .next (completedFrom s 0)

/-- R111: a decoding codec command whose LEN differs from its expected length (3, 8, 1, 1) flags PARSE_FAIL, writes 0 to RES0
and completes with no fault. -/
def Obligations.WrongLengthSetsParseFail : Prop :=
  ∀ (s : State) (len : Nat),
    (len ≠ 3 → exec (.kfdecM len) s = .next (completedFrom { s with res0 := 0 } 1#4) ∧
      exec (.kfdecB len) s = .next (completedFrom { s with res0 := 0 } 1#4)) ∧
    (len ≠ 8 → exec (.xfdec len) s = .next (completedFrom { s with res0 := 0 } 1#4)) ∧
    (len ≠ 1 → exec (.rngdec len) s = .next (completedFrom { s with res0 := 0 } 1#4) ∧
      exec (.errtok len) s = .next (completedFrom { s with res0 := 0 } 1#4))

/-- R113, R114 with LEN = 3: RES0 is the exact value ±f·2^(e−16) or ±f·2^(e−15), its sign the bit s also when f = 0, with s,
f and e read from OPA bytes 0 to 2 as R112 says; nothing but RES0 and the completion fields changes. -/
def Obligations.KfdecGivesExactValue : Prop :=
  ∀ s : State,
    let neg := s.opa.getLsbD 7
    let f : Nat := (s.opa.extractLsb' 0 7).toNat * 256 + (s.opa.extractLsb' 8 8).toNat
    let e : Int := (s.opa.extractLsb' 16 8).toInt
    (∃ v, exec (.kfdecM 3) s = .next (completedFrom { s with res0 := v } 0) ∧ fIsFinite v = true ∧ fsign v = neg ∧
      fval v = (if neg then -1 else 1) * (f : ℚ) * 2 ^ (e - 16)) ∧
    (∃ v, exec (.kfdecB 3) s = .next (completedFrom { s with res0 := v } 0) ∧ fIsFinite v = true ∧ fsign v = neg ∧
      fval v = (if neg then -1 else 1) * (f : ℚ) * 2 ^ (e - 15))

/-- R116, R117: KFENC.M and KFENC.B write the three bytes of the encoding to RES0, byte 0 in RES0[7:0], flag BAD_VALUE when
the encoding says so, and change nothing else. -/
def Obligations.KfencWritesItsEncoding : Prop :=
  ∀ s : State,
    exec .kfencM s = .next (completedFrom { s with res0 := (kfenc 16 s.opa).1.zeroExtend 64 }
      (if (kfenc 16 s.opa).2 then 8#4 else 0)) ∧
    exec .kfencB s = .next (completedFrom { s with res0 := (kfenc 15 s.opa).1.zeroExtend 64 }
      (if (kfenc 15 s.opa).2 then 8#4 else 0))

/-- The encoding of R115, for F = 15 and 16. A NaN gives [00 00 00] with BAD_VALUE, a zero [00 00 00] without; otherwise
BAD_VALUE is flagged exactly for an infinity and for a magnitude from 32767.5·2^(127−F) on, and the bytes are then the
largest magnitude with the sign of x. Every other x is encoded as `kfencNearest` says: one rounding to nearest, ties to even,
gradual underflow below the exponent −128, the carry out of the fraction renormalised. -/
def Obligations.KfencRoundsOrSaturates : Prop :=
  ∀ (F : Nat) (x : F64), F = 15 ∨ F = 16 →
    (fIsNaN x = true → kfenc F x = (0, true)) ∧
    (fIsZero x = true → kfenc F x = (0, false)) ∧
    (fIsNaN x = false → fIsZero x = false →
      ((kfenc F x).2 = true ↔ fIsInf x = true ∨ 65535 * (2 : ℚ) ^ ((126 : Int) - F) ≤ |fval x|) ∧
      ((kfenc F x).2 = true → (kfenc F x).1 = if fsign x then 0x7FFFFF#24 else 0x7FFF7F#24) ∧
      ((kfenc F x).2 = false → kfencNearest F (fsign x) |fval x| (kfenc F x).1))

/-- R118, the round trip: for every finite x in the normal range of the divisor, encoding sets no condition, and decoding the
encoded bytes gives x·(1 + δ) with |δ| ≤ 2^−15; and decoding [00 00 00] gives +0.0 under both divisors. -/
def Obligations.KfloatRoundTrip : Prop :=
  (∀ s : State, fIsFinite s.opa = true → (2 : ℚ) ^ (-130 : Int) ≤ |fval s.opa| →
    |fval s.opa| ≤ 32767 * (2 : ℚ) ^ (111 : Int) →
    ∃ t u, exec .kfencM s = .next t ∧ t.errmask = 0 ∧ exec (.kfdecM 3) { t with opa := t.res0 } = .next u ∧
      fIsFinite u.res0 = true ∧ |fval u.res0 - fval s.opa| ≤ |fval s.opa| / 2 ^ 15) ∧
  (∀ s : State, fIsFinite s.opa = true → (2 : ℚ) ^ (-129 : Int) ≤ |fval s.opa| →
    |fval s.opa| ≤ 32767 * (2 : ℚ) ^ (112 : Int) →
    ∃ t u, exec .kfencB s = .next t ∧ t.errmask = 0 ∧ exec (.kfdecB 3) { t with opa := t.res0 } = .next u ∧
      fIsFinite u.res0 = true ∧ |fval u.res0 - fval s.opa| ≤ |fval s.opa| / 2 ^ 15) ∧
  (∀ s : State, s.opa.extractLsb' 0 24 = 0#24 →
    exec (.kfdecM 3) s = .next (completedFrom { s with res0 := 0 } 0) ∧
    exec (.kfdecB 3) s = .next (completedFrom { s with res0 := 0 } 0))

/-- R123 with LEN = 8, under whatever the OPEN layout is (R7, R121): RES0 is what the layout decodes OPA to, BAD_VALUE is
flagged when that is a NaN or an infinity (R224, read for every layout: assumption log 7), and nothing else changes. The
layout meets the constraints of R121 on its
fields: eleven different exponent bits in exactly two bytes, three different mantissa bytes. -/
def Obligations.XfdecDecodesUnderTheLayout : Prop :=
  (∀ s : State, exec (.xfdec 8) s =
    .next (completedFrom { s with res0 := (xfDecode Config.xfLayout.layout s.opa).1 }
      (if fIsFinite (xfDecode Config.xfLayout.layout s.opa).1 then 0 else 8#4))) ∧
  (∀ i j : Fin 11, Config.xfLayout.layout.exponent[i] = Config.xfLayout.layout.exponent[j] → i = j) ∧
  (∃ b1 b2 : Nat, b1 ≠ b2 ∧
    (∀ i : Fin 11, Config.xfLayout.layout.exponent[i].val / 8 = b1 ∨ Config.xfLayout.layout.exponent[i].val / 8 = b2) ∧
    (∃ i : Fin 11, Config.xfLayout.layout.exponent[i].val / 8 = b1) ∧
    (∃ i : Fin 11, Config.xfLayout.layout.exponent[i].val / 8 = b2)) ∧
  (∀ i j : Fin 3, Config.xfLayout.layout.mantissa[i] = Config.xfLayout.layout.mantissa[j] → i = j)

/-- The extended float's value. For every layout, in the form the model gives R121's offset (assumption log 7), a sign bit of
1 meaning minus (the model's choice, assumption log 17): an exponent field E with 1 ≤ E ≤ 2046 gives ±m·2^(E − 1022), rounded
once, with m = `fraction M`/2^25 for the mantissa field M, E and M being the operand's bits at the layout's positions, most
significant first. R122: under the reference layout E = 0 gives a zero with the sign of B7[7] for every M, E = 2047 an
infinity with BAD_VALUE, and every other E the binary64 number with that sign, biased exponent E and the 24 leading fraction
bits M, with no flag. -/
def Obligations.ExtendedFloatValue : Prop :=
  (∀ (l : Config.XfLayout) (v : Word) (e : BitVec 11) (m : BitVec 24),
    (∀ k : Fin 11, e.getLsbD (10 - k.val) = v.getLsbD l.exponent[k].val) →
    (∀ (k : Fin 3) (j : Nat), j < 8 → m.getLsbD (8 * (2 - k.val) + j) = v.getLsbD (8 * l.mantissa[k].val + j)) →
    (e = 0 → (xfDecode l v).1 = l.atZero (v.getLsbD l.sign.val) m) ∧
    (e = 2047 → (xfDecode l v).1 = l.atTop (v.getLsbD l.sign.val) m) ∧
    (e ≠ 0 → e ≠ 2047 →
      nearestEven ((if v.getLsbD l.sign.val then -1 else 1) *
        (((l.fraction m).toNat : ℚ) / 2 ^ 25) * 2 ^ ((e.toNat : Int) - 1022)) (xfDecode l v).1)) ∧
  ∀ v : Word,
    let sg := v.extractLsb' 63 1
    let e := v.extractLsb' 52 11
    let m := v.extractLsb' 24 24
    (e = 0 → xfDecode Config.xfReference v = (sg ++ 0#63, false)) ∧
    (e = 2047 → xfDecode Config.xfReference v = (sg ++ 2047#11 ++ 0#52, true)) ∧
    (e ≠ 0 → e ≠ 2047 → xfDecode Config.xfReference v = (sg ++ e ++ m ++ 0#28, false))

/-- R125 with LEN = 1, and the law of R126: each range is in 1..6, and r_c − 1 − 3·b[5+c] is the c-th base-3 digit of
b[4:0] mod 27. RES0 packs r0, r1, r2 and the raw flags b[7:5]; nothing else changes. -/
def Obligations.RngdecGivesRanges : Prop :=
  ∀ s : State,
    let b := s.opa.toNat % 256
    ∃ r0 r1 r2 : Nat,
      exec (.rngdec 1) s = .next (completedFrom
        { s with res0 := BitVec.ofNat 64 (r0 + 2 ^ 8 * r1 + 2 ^ 16 * r2 + 2 ^ 24 * (b / 32)) } 0) ∧
      (1 ≤ r0 ∧ r0 ≤ 6) ∧ (1 ≤ r1 ∧ r1 ≤ 6) ∧ (1 ≤ r2 ∧ r2 ≤ 6) ∧
      r0 = b % 32 % 27 % 3 + 1 + 3 * (b / 32 % 2) ∧
      r1 = b % 32 % 27 / 3 % 3 + 1 + 3 * (b / 64 % 2) ∧
      r2 = b % 32 % 27 / 9 % 3 + 1 + 3 * (b / 128 % 2)

/-- R127 with LEN = 1 under the OPEN map, and the laws of R128 for every map: an unmapped code and every code from 0x80 on
give 0, a mapped one exactly its bit; nothing but RES0 and the completion fields changes. -/
def Obligations.ErrtokGivesOneBit : Prop :=
  (∀ s : State, exec (.errtok 1) s =
    .next (completedFrom { s with res0 := errTokenWord Config.errTokenMap (s.opa.extractLsb' 0 8) } 0)) ∧
  ∀ (map : Byte → Option (Fin 64)) (t : Byte),
    (0x80 ≤ t.toNat → errTokenWord map t = 0) ∧
    (map t = none → errTokenWord map t = 0) ∧
    (∀ k, t.toNat < 0x80 → map t = some k → ∀ j < 64, (errTokenWord map t).getLsbD j = decide (j = k.val))

/-! ### Box-car averager -/

/-- R143: BCPUSH faults with BAD_CONFIG, and writes nothing, when maxAvg = 0, maxAvg > 256 or TCH = 3. -/
def Obligations.BcpushConfigCheck : Prop :=
  ∀ s : State, (s.bcCfg.maxavg.toNat = 0 ∨ 256 < s.bcCfg.maxavg.toNat ∨ s.bcCfg.tch = 3#2) →
    exec .bcpush s = .next (faultedFrom s 2)

/-- R144 to R148 under a legal configuration: BCPUSH completes. The sample is in slot BC_WPTR of the ring and no other byte of
memory changes; the pointer and the fill count move as R144 says. BC_COUNT samples are folded, the newest first, between 1 and
BC_FILL: at no smaller count did the auto test of R146 pass or the guard of R145 see a diverging sample. BC_EXIT is 2 exactly
if the auto test passes at BC_COUNT, 1 exactly if it does not and the next valid sample diverges, else 0, and then all valid
samples are folded. The means are the sums over BC_COUNT divided by it, the minima and maxima those of the folded values, and
LOW_LIGHT is flagged unless BC_EXIT = 2 (R147). -/
def Obligations.BcpushPushesAndFolds : Prop :=
  ∀ s : State, 1 ≤ s.bcCfg.maxavg.toNat → s.bcCfg.maxavg.toNat ≤ 256 → s.bcCfg.tch ≠ 3#2 →
    ∃ t, exec .bcpush s = .next t ∧
      t = completedFrom
        { s with
          mem := t.mem
          bcWptr := BitVec.ofNat 16 ((s.bcWptr.toNat + 1) % s.bcCfg.maxavg.toNat)
          bcFill := BitVec.ofNat 16 (min (s.bcFill.toNat + 1) s.bcCfg.maxavg.toNat)
          bcRes := t.bcRes }
        (if t.bcRes.exit = 2#2 then 0 else 2#4) ∧
      ringAt t.mem s.bcWptr.toNat 0 = s.opa ∧ ringAt t.mem s.bcWptr.toNat 1 = s.opb ∧
      ringAt t.mem s.bcWptr.toNat 2 = s.opc ∧
      sameOutside (ringAddr s.bcWptr.toNat 0) 24 s.mem t.mem ∧
      let n := t.bcRes.count.toNat
      1 ≤ n ∧ n ≤ t.bcFill.toNat ∧
      (∀ k, 1 ≤ k → k < n → walkPasses t k = false ∧ walkDiverges t k = false) ∧
      (t.bcRes.exit = 2#2 ↔ walkPasses t n = true) ∧
      (t.bcRes.exit = 1#2 ↔ walkPasses t n = false ∧ n < t.bcFill.toNat ∧ walkDiverges t n = true) ∧
      (t.bcRes.exit = 0#2 ↔ walkPasses t n = false ∧ n = t.bcFill.toNat) ∧
      t.bcRes.mean = ⟨fdiv (walkSum t n 0) (fofNat n), fdiv (walkSum t n 1) (fofNat n), fdiv (walkSum t n 2) (fofNat n)⟩ ∧
      t.bcRes.mn = ⟨walkMin (walkValues t n 0), walkMin (walkValues t n 1), walkMin (walkValues t n 2)⟩ ∧
      t.bcRes.mx = ⟨walkMax (walkValues t n 0), walkMax (walkValues t n 1), walkMax (walkValues t n 2)⟩

/-- The first corner case of R149: into an empty ring, BCPUSH folds one sample. BC_COUNT is 1, each mean is (0 + x)/1, the
envelope is the sample, and only the sample's passing 1.5·SENS·SPEED in auto mode (R146 with n = 1) clears LOW_LIGHT. -/
def Obligations.FirstPushFoldsOneSample : Prop :=
  ∀ s : State, 1 ≤ s.bcCfg.maxavg.toNat → s.bcCfg.maxavg.toNat ≤ 256 → s.bcCfg.tch ≠ 3#2 →
    s.bcFill = 0 → s.bcWptr.toNat < s.bcCfg.maxavg.toNat →
    let x : F64 := if s.bcCfg.tch = 0 then s.opa else if s.bcCfg.tch = 1 then s.opb else s.opc
    let passes := s.bcCfg.auto &&
      fgt (fadd 0 x) (fmul (fmul s.bcCfg.sens s.bcCfg.speed) 0x3FF8000000000000#64)
    ∃ t, exec .bcpush s = .next t ∧ t.bcFill = 1 ∧
      t.bcRes =
        { mean := ⟨fdiv (fadd 0 s.opa) fone, fdiv (fadd 0 s.opb) fone, fdiv (fadd 0 s.opc) fone⟩
          mn := ⟨s.opa, s.opb, s.opc⟩
          mx := ⟨s.opa, s.opb, s.opc⟩
          count := 1
          exit := if passes then 2 else 0 } ∧
      t.errmask = if passes then 0 else 2#4

/-- The divergence law R152, in manual mode (AUTO = 0; with AUTO = 1 the threshold may stop the fold first, R146): when the
third newest test-channel value differs from the mean of the two newest by more than TOL·|mean|, two samples are folded,
BC_EXIT = 1 and LOW_LIGHT is set. -/
def Obligations.DivergingSampleStopsTheFold : Prop :=
  ∀ s : State, 3 ≤ s.bcCfg.maxavg.toNat → s.bcCfg.maxavg.toNat ≤ 256 → s.bcCfg.auto = false →
    2 ≤ s.bcFill.toNat → s.bcWptr.toNat < s.bcCfg.maxavg.toNat → s.bcCfg.tch ≠ 3#2 →
    let n := s.bcCfg.maxavg.toNat
    let x : F64 := if s.bcCfg.tch = 0 then s.opa else if s.bcCfg.tch = 1 then s.opb else s.opc
    let y1 := ringAt s.mem ((s.bcWptr.toNat + n - 1) % n) s.bcCfg.tch.toNat
    let y2 := ringAt s.mem ((s.bcWptr.toNat + n - 2) % n) s.bcCfg.tch.toNat
    let m := fdiv (fadd (fadd 0 x) y1) 0x4000000000000000#64
    fgt (fabs (fsub y2 m)) (fmul s.bcCfg.tol (fabs m)) = true →
    ∃ t, exec .bcpush s = .next t ∧ t.bcRes.count = 2 ∧ t.bcRes.exit = 1 ∧ t.errmask = 2#4

/-- The constant-input law R151: with AUTO = 0 and a tolerance that is not negative, after maxAvg pushes of the same finite
sample into an empty ring, when the sums k·x are exact for k ≤ maxAvg, BC_COUNT = maxAvg, BC_EXIT = 0, LOW_LIGHT is set and
every mean is x (but for the sign of a zero). The condition on the tolerance and the reading of 'is x' for a zero are the
model's, the rest is R151. -/
def Obligations.ConstantInputAveragesToItself : Prop :=
  ∀ (s : State) (x : F64), 1 ≤ s.bcCfg.maxavg.toNat → s.bcCfg.maxavg.toNat ≤ 256 → s.bcCfg.tch ≠ 3#2 →
    s.bcCfg.auto = false → s.bcFill = 0 → s.bcWptr.toNat < s.bcCfg.maxavg.toNat →
    s.opa = x → s.opb = x → s.opc = x → fIsFinite x = true → flt s.bcCfg.tol 0 = false →
    (∀ k ≤ s.bcCfg.maxavg.toNat, ∃ y, fIsFinite y = true ∧ fval y = k * fval x) →
    ∃ t, runInOrder (repeatCommand .bcpush s.bcCfg.maxavg.toNat) s = .next t ∧
      t.bcRes.count.toNat = s.bcCfg.maxavg.toNat ∧ t.bcRes.exit = 0 ∧ t.errmask = 2#4 ∧
      sameValue t.bcRes.mean.y0 x ∧ sameValue t.bcRes.mean.y1 x ∧ sameValue t.bcRes.mean.y2 x

/-- R150 and R172: BCCLR zeroes the ring and its pointers, RPCLR the whole ripple buffer and RP_FILL, whatever the sizes are;
the results, and every byte outside the ring's elements or the ripple buffer, stay. -/
def Obligations.ClearCommandsZeroTheirBuffer : Prop :=
  (∀ s : State, ∃ t, exec .bcclr s = .next t ∧
    t = completedFrom { s with mem := t.mem, bcWptr := 0, bcFill := 0 } 0 ∧
    (∀ r c, r < 256 → c < 3 → ringAt t.mem r c = 0) ∧
    ∀ a, (∀ r c, r < 256 → c < 3 → ¬ (ringAddr r c ≤ a ∧ a < ringAddr r c + 8)) →
      readByte t.mem a = readByte s.mem a) ∧
  (∀ s : State, ∃ t, exec .rpclr s = .next t ∧
    t = completedFrom { s with mem := t.mem, rpFill := 0 } 0 ∧
    (∀ i, i < 2048 → rippleAt t.mem i = 0) ∧
    sameOutside rippleBase (8 * 2048) s.mem t.mem)

/-! ### Ripple buffer, window, transform -/

/-- R173 at a legal size: the window moves left by 32, the burst is appended, RP_FILL rises by 32 up to N; BURSTBUF, the
entries from N on and all other memory stay. -/
def Obligations.RppushShiftsAndAppends : Prop :=
  ∀ s : State, 6 ≤ s.fftCfg.toNat → s.fftCfg.toNat ≤ 11 →
    let N := 2 ^ s.fftCfg.toNat
    ∃ t, exec .rppush s = .next t ∧
      t = completedFrom { s with mem := t.mem, rpFill := BitVec.ofNat 12 (min (s.rpFill.toNat + 32) N) } 0 ∧
      (∀ i, i + 32 < N → rippleAt t.mem i = rippleAt s.mem (i + 32)) ∧
      (∀ j, j < 32 → rippleAt t.mem (N - 32 + j) = burstAt s.mem j) ∧
      sameOutside rippleBase (8 * N) s.mem t.mem

/-- R174 at a legal size: WORK[i] is (RIPPLE[i], +0.0) for i < N, INSUFFICIENT_DATA is flagged when RP_FILL < N, and all other
memory stays. -/
def Obligations.LoadCopiesTheRipple : Prop :=
  ∀ s : State, 6 ≤ s.fftCfg.toNat → s.fftCfg.toNat ≤ 11 →
    let N := 2 ^ s.fftCfg.toNat
    ∃ t, exec .load s = .next t ∧
      t = completedFrom { s with mem := t.mem } (if s.rpFill.toNat < N then 4#4 else 0) ∧
      (∀ i, i < N → workAt t.mem i = ⟨rippleAt s.mem i, 0⟩) ∧
      sameOutside workBase (16 * N) s.mem t.mem

/-- R175 at a legal size, for the OPEN cosine: both parts of WORK[i] are multiplied by
0.5 − (0.5 × COS64((TWO_PI × i)/N)), and all other memory stays. -/
def Obligations.WinScalesByTheWindow : Prop :=
  ∀ s : State, 6 ≤ s.fftCfg.toNat → s.fftCfg.toNat ≤ 11 →
    let N := 2 ^ s.fftCfg.toNat
    ∃ t, exec .win s = .next t ∧ t = completedFrom { s with mem := t.mem } 0 ∧
      (∀ i, i < N →
        let w := fsub 0x3FE0000000000000#64 (fmul 0x3FE0000000000000#64
          (Config.cos64 (fdiv (fmul 0x401921FB54442D18#64 (fofNat i)) (fofNat N))))
        workAt t.mem i = ⟨fmul (workAt s.mem i).re w, fmul (workAt s.mem i).im w⟩) ∧
      sameOutside workBase (16 * N) s.mem t.mem

/-- R178 at a legal size: the element at i moves to the index whose LOG2N low bits are those of i reversed, its patterns
unchanged; all other memory stays; and a second BITREV restores every byte. -/
def Obligations.BitrevReversesIndices : Prop :=
  ∀ s : State, 6 ≤ s.fftCfg.toNat → s.fftCfg.toNat ≤ 11 →
    let n := s.fftCfg.toNat
    ∃ t, exec .bitrev s = .next t ∧ t = completedFrom { s with mem := t.mem } 0 ∧
      (∀ i r, i < 2 ^ n → r < 2 ^ n → (∀ j < n, r.testBit j = i.testBit (n - 1 - j)) →
        workAt t.mem r = workAt s.mem i) ∧
      sameOutside workBase (16 * 2 ^ n) s.mem t.mem ∧
      ∃ u, exec .bitrev t = .next u ∧ sameBytes s.mem u.mem

/-- R180 with the butterfly of R179, at a legal size and stage, in both directions: each pair (a, b) with b = a + 2^(s−1) of
each block of 2^s elements becomes (a + w·b, a − w·b), each part a chain of separate binary64 operations on the old values,
with w = TW[DIR][2^(s−1) − 1 + j]; all other memory stays. -/
def Obligations.StageDoesItsButterflies : Prop :=
  ∀ (s : State) (n : Nat), 6 ≤ s.fftCfg.toNat → s.fftCfg.toNat ≤ 11 → 1 ≤ n → n ≤ s.fftCfg.toNat →
    ∀ (i : Instr) (d : Dir), (i = .stageF n ∧ d = .forward) ∨ (i = .stageI n ∧ d = .inverse) →
    ∃ t, exec i s = .next t ∧ t = completedFrom { s with mem := t.mem } 0 ∧
      (∀ q j, q < 2 ^ (s.fftCfg.toNat - n) → j < 2 ^ (n - 1) →
        let a := q * 2 ^ n + j
        let b := a + 2 ^ (n - 1)
        let w := twEntry Config.sin64 d (2 ^ (n - 1) - 1 + j)
        let x := workAt s.mem a
        let y := workAt s.mem b
        let tr := fsub (fmul w.re y.re) (fmul w.im y.im)
        let ti := fadd (fmul w.re y.im) (fmul w.im y.re)
        workAt t.mem a = ⟨fadd x.re tr, fadd x.im ti⟩ ∧ workAt t.mem b = ⟨fsub x.re tr, fsub x.im ti⟩) ∧
      sameOutside workBase (16 * 2 ^ s.fftCfg.toNat) s.mem t.mem

/-- R181 at a legal size, completion and frame: FFT.F and FFT.I transform WORK[0..N−1] in place and change nothing else. -/
def Obligations.FftTransformsTheWorkBuffer : Prop :=
  ∀ s : State, 6 ≤ s.fftCfg.toNat → s.fftCfg.toNat ≤ 11 →
    let n := s.fftCfg.toNat
    ∀ (i : Instr) (d : Dir), (i = .fftF ∧ d = .forward) ∨ (i = .fftI ∧ d = .inverse) →
    ∃ t, exec i s = .next t ∧ t = completedFrom { s with mem := t.mem } 0 ∧
      (∀ k, k < 2 ^ n → workAt t.mem k =
        (fftBody Config.sin64 d n ((List.range (2 ^ n)).map (workAt s.mem))).getD k czero) ∧
      sameOutside workBase (16 * 2 ^ n) s.mem t.mem

/-- R181 and R92: at a legal size FFT.F is BITREV, then STAGE.F for s = 1..LOG2N, one command after the other, and FFT.I
likewise with STAGE.I: the same state in every field but CMD, which holds the last command's word. That the two agree bit for
bit where an operation makes a NaN rests on the model's choice that equal operands give equal NaNs (assumption log 2). -/
def Obligations.FftEqualsBitrevThenStages : Prop :=
  ∀ s : State, 6 ≤ s.fftCfg.toNat → s.fftCfg.toNat ≤ 11 →
    (∃ t, exec .fftF s = .next t ∧
      runInOrder (fftByStages .stageF s.fftCfg.toNat) s = .next { t with cmd := encode (.stageF s.fftCfg.toNat) }) ∧
    (∃ t, exec .fftI s = .next t ∧
      runInOrder (fftByStages .stageI s.fftCfg.toNat) s = .next { t with cmd := encode (.stageI s.fftCfg.toNat) })

/-- A corner case of R181: an impulse at index 0 gives (1, 0) in every bin exactly, for every sine whose twiddle entries are
finite (an OPEN parameter is taken with the property it needs, R7). The signs of zero sums are IEEE-754's (assumption
log 16). -/
def Obligations.FftOfImpulseIsFlat : Prop :=
  ∀ (sin : F64 → F64) (d : Dir) (n : Nat), 6 ≤ n → n ≤ 11 →
    (∀ s, 1 ≤ s → s ≤ n → ∀ w ∈ twStage sin d s, fIsFinite w.re = true ∧ fIsFinite w.im = true) →
    fftBody sin d n (⟨fone, 0⟩ :: List.replicate (2 ^ n - 1) ⟨0, 0⟩) = List.replicate (2 ^ n) ⟨fone, 0⟩

/-- R176, R177: for every sine the entries of each stage start at (1.0, +0.0) and follow the trigonometric recurrence; and a
host read of TW while IDLE returns the entry for the OPEN sine (R55, R62). -/
def Obligations.TwiddleTableIsTheRecurrence : Prop :=
  (∀ (sin : F64 → F64) (d : Dir) (s : Nat), 1 ≤ s → s ≤ 11 →
    let sigma : F64 := match d with | .forward => 0xBFF0000000000000#64 | .inverse => 0x3FF0000000000000#64
    let theta := fdiv (fmul sigma 0x401921FB54442D18#64) (fofNat (2 ^ s))
    let wt := sin (fmul 0x3FE0000000000000#64 theta)
    let wpr := fmul (fmul 0xC000000000000000#64 wt) wt
    let wpi := sin theta
    twEntry sin d (2 ^ (s - 1) - 1) = ⟨0x3FF0000000000000#64, 0⟩ ∧
    ∀ j, j + 1 < 2 ^ (s - 1) →
      let w := twEntry sin d (2 ^ (s - 1) - 1 + j)
      twEntry sin d (2 ^ (s - 1) - 1 + (j + 1)) =
        ⟨fadd (fsub (fmul w.re wpr) (fmul w.im wpi)) w.re, fadd (fadd (fmul w.im wpr) (fmul w.re wpi)) w.im⟩) ∧
  (∀ (s : State) (i : Nat) (addr : Addr) (rest : List HostEvent), i < 2047 → s.engine = .idle →
    s.inbox = .read addr :: rest →
    (addr.toNat = 0x20000 + 16 * i → step s =
      .next { s with inbox := rest, replies := (twEntry Config.sin64 .forward i).re :: s.replies }) ∧
    (addr.toNat = 0x20000 + 16 * i + 8 → step s =
      .next { s with inbox := rest, replies := (twEntry Config.sin64 .forward i).im :: s.replies }) ∧
    (addr.toNat = 0x28000 + 16 * i → step s =
      .next { s with inbox := rest, replies := (twEntry Config.sin64 .inverse i).re :: s.replies }) ∧
    (addr.toNat = 0x28000 + 16 * i + 8 → step s =
      .next { s with inbox := rest, replies := (twEntry Config.sin64 .inverse i).im :: s.replies }))

/-- The conjugation of R177, for every odd sine: as long as the forward entries of a stage are no NaN, the inverse entry has
the same real part bit for bit, and the negative imaginary part in value (but for the sign of a zero). The signs of zeros are
IEEE-754's (assumption log 16). -/
def Obligations.InverseTwiddlesAreConjugate : Prop :=
  ∀ sin : F64 → F64, (∀ x, sin (fneg x) = fneg (sin x)) →
    ∀ s j, 1 ≤ s → s ≤ 11 → j < 2 ^ (s - 1) →
      (∀ k ≤ j, fIsNaN (twEntry sin .forward (2 ^ (s - 1) - 1 + k)).re = false ∧
        fIsNaN (twEntry sin .forward (2 ^ (s - 1) - 1 + k)).im = false) →
      (twEntry sin .inverse (2 ^ (s - 1) - 1 + j)).re = (twEntry sin .forward (2 ^ (s - 1) - 1 + j)).re ∧
      sameValue (twEntry sin .inverse (2 ^ (s - 1) - 1 + j)).im (fneg (twEntry sin .forward (2 ^ (s - 1) - 1 + j)).im)

/-- The direction law R182, for every odd sine: for real input whose forward transform holds no NaN the magnitudes after the
inverse transform are those after the forward one, bit for bit. The signs of zeros are IEEE-754's (assumption log 16). -/
def Obligations.DirectionDoesNotChangeMagnitudes : Prop :=
  ∀ sin : F64 → F64, (∀ x, sin (fneg x) = fneg (sin x)) →
    ∀ (n : Nat) (xs : List F64), 6 ≤ n → n ≤ 11 → xs.length = 2 ^ n →
      (∀ z ∈ fftBody sin .forward n (xs.map (fun v => ⟨v, 0⟩)), fIsNaN z.re = false ∧ fIsNaN z.im = false) →
      (fftBody sin .inverse n (xs.map (fun v => ⟨v, 0⟩))).map magnitude =
        (fftBody sin .forward n (xs.map (fun v => ⟨v, 0⟩))).map magnitude

/-! ### Magnitude, normalisation, peaks -/

/-- R183 at a legal size: SERIES[k] = sqrt(re² + im²) of WORK[k] for k < N/2, and all other memory stays. -/
def Obligations.MagWritesMagnitudes : Prop :=
  ∀ s : State, 6 ≤ s.fftCfg.toNat → s.fftCfg.toNat ≤ 11 →
    let L := 2 ^ s.fftCfg.toNat / 2
    ∃ t, exec .mag s = .next t ∧ t = completedFrom { s with mem := t.mem } 0 ∧
      (∀ k, k < L → seriesAt t.mem k = fsqrt (fadd (fmul (workAt s.mem k).re (workAt s.mem k).re)
        (fmul (workAt s.mem k).im (workAt s.mem k).im))) ∧
      sameOutside seriesBase (8 * L) s.mem t.mem

/-- R184 at a legal size: a DC bin of ±0.0 faults with DC_ZERO (3) and nothing is written; otherwise bins 1..L−1 are divided
by it, bin 0 becomes 1.0, and all other memory stays. -/
def Obligations.NormDividesByDc : Prop :=
  ∀ s : State, 6 ≤ s.fftCfg.toNat → s.fftCfg.toNat ≤ 11 →
    let L := 2 ^ s.fftCfg.toNat / 2
    (fIsZero (seriesAt s.mem 0) = true → exec .norm s = .next (faultedFrom s 3)) ∧
    (fIsZero (seriesAt s.mem 0) = false →
      ∃ t, exec .norm s = .next t ∧ t = completedFrom { s with mem := t.mem } 0 ∧
        seriesAt t.mem 0 = 0x3FF0000000000000#64 ∧
        (∀ k, 1 ≤ k → k < L → seriesAt t.mem k = fdiv (seriesAt s.mem k) (seriesAt s.mem 0)) ∧
        sameOutside seriesBase (8 * L) s.mem t.mem)

/-- R200, R201 at a legal size and K: PEAKS completes. Each of the PK_COUNT ≤ K entries holds the bin of a peak, its series
value and its frequency (k × FS)/N; the entries from PK_COUNT on read as zeros; no byte outside the entries' fields
changes. -/
def Obligations.PeaksWritesItsTable : Prop :=
  ∀ s : State, 6 ≤ s.fftCfg.toNat → s.fftCfg.toNat ≤ 11 → 1 ≤ s.pkK.toNat → s.pkK.toNat ≤ 64 →
    let N := 2 ^ s.fftCfg.toNat
    ∃ t, exec .peaks s = .next t ∧ t = completedFrom { s with mem := t.mem, pkCount := t.pkCount } 0 ∧
      t.pkCount.toNat ≤ s.pkK.toNat ∧
      (∀ p, p < t.pkCount.toNat → ∃ k, 1 ≤ k ∧ k < N / 2 ∧
        peakAt t.mem p 2 = BitVec.ofNat 64 k ∧ peakAt t.mem p 0 = seriesAt s.mem k ∧
        peakAt t.mem p 1 = fdiv (fmul (fofNat k) s.fs) (fofNat N) ∧
        fgt (seriesAt s.mem k) (seriesAt s.mem (k - 1)) = true ∧
        (k + 1 < N / 2 → fgt (seriesAt s.mem k) (seriesAt s.mem (k + 1)) = true)) ∧
      (∀ p f, t.pkCount.toNat ≤ p → p < 64 → f < 3 → peakAt t.mem p f = 0) ∧
      (∀ a, (∀ p f, p < 64 → f < 3 → ¬ (peakAddr p f ≤ a ∧ a < peakAddr p f + 8)) →
        readByte t.mem a = readByte s.mem a)

/-- R201, the bounded top K: the table is ordered descending by magnitude, among equal values the lower bin first; and a peak
that is not in the table was left out because the table is full of entries that rank above it. -/
def Obligations.PeakTableIsTheTopK : Prop :=
  ∀ s t : State, 6 ≤ s.fftCfg.toNat → s.fftCfg.toNat ≤ 11 → 1 ≤ s.pkK.toNat → s.pkK.toNat ≤ 64 →
    exec .peaks s = .next t →
    let L := 2 ^ s.fftCfg.toNat / 2
    let ranksAbove := fun (v : F64) (k : Nat) (v' : F64) (k' : Nat) => fgt v v' = true ∨ (feq v v' = true ∧ k < k')
    (∀ p q, p < q → q < t.pkCount.toNat →
      ranksAbove (peakAt t.mem p 0) (peakAt t.mem p 2).toNat (peakAt t.mem q 0) (peakAt t.mem q 2).toNat) ∧
    (∀ k, 1 ≤ k → k < L → fgt (seriesAt s.mem k) (seriesAt s.mem (k - 1)) = true →
      (k + 1 < L → fgt (seriesAt s.mem k) (seriesAt s.mem (k + 1)) = true) →
      (∃ p, p < t.pkCount.toNat ∧ peakAt t.mem p 2 = BitVec.ofNat 64 k) ∨
      (t.pkCount.toNat = s.pkK.toNat ∧ ∀ p, p < t.pkCount.toNat →
        ranksAbove (peakAt t.mem p 0) (peakAt t.mem p 2).toNat (seriesAt s.mem k) k))

/-- The peak law R202: a series that rises strictly up to a bin m with 1 ≤ m < L−1 and falls strictly after it has exactly one
peak, at m. -/
def Obligations.OneHillHasOnePeak : Prop :=
  ∀ (s : State) (m : Nat), 6 ≤ s.fftCfg.toNat → s.fftCfg.toNat ≤ 11 → 1 ≤ s.pkK.toNat → s.pkK.toNat ≤ 64 →
    let L := 2 ^ s.fftCfg.toNat / 2
    1 ≤ m → m < L - 1 →
    (∀ k, k < m → fgt (seriesAt s.mem (k + 1)) (seriesAt s.mem k) = true) →
    (∀ k, m ≤ k → k + 1 < L → fgt (seriesAt s.mem k) (seriesAt s.mem (k + 1)) = true) →
    ∃ t, exec .peaks s = .next t ∧ t.pkCount = 1 ∧ peakAt t.mem 0 2 = BitVec.ofNat 64 m ∧
      peakAt t.mem 0 0 = seriesAt s.mem m

/-- R171: outside 6 ≤ LOG2N ≤ 11 the nine commands that use the size fault with BAD_CONFIG (2) and write nothing; RPCLR does
not check. -/
def Obligations.SizeCheckFaults : Prop :=
  ∀ s : State, (s.fftCfg.toNat < 6 ∨ 11 < s.fftCfg.toNat) →
    (∀ i : Instr, (i = .rppush ∨ i = .load ∨ i = .win ∨ i = .bitrev ∨ (∃ n, i = .stageF n ∨ i = .stageI n) ∨
        i = .fftF ∨ i = .fftI ∨ i = .mag ∨ i = .norm ∨ i = .peaks) → exec i s = .next (faultedFrom s 2)) ∧
    ∃ t, exec .rpclr s = .next t ∧ t.status.errcode = 0

/-- The stage check of R180 and the K check of R200, at a legal size: a stage number outside 1..LOG2N and a K outside 1..64
fault with BAD_CONFIG (2) and nothing is written. -/
def Obligations.StageAndPeakCountFaults : Prop :=
  ∀ s : State, 6 ≤ s.fftCfg.toNat → s.fftCfg.toNat ≤ 11 →
    (∀ n, (n = 0 ∨ s.fftCfg.toNat < n) →
      exec (.stageF n) s = .next (faultedFrom s 2) ∧ exec (.stageI n) s = .next (faultedFrom s 2)) ∧
    ((s.pkK.toNat = 0 ∨ 64 < s.pkK.toNat) → exec .peaks s = .next (faultedFrom s 2))

/-! ### Host port, interrupt, reset -/

/-- Host reads. After reset each register reads its value of R47. On every IDLE block each register's address returns that
register's field at its place (R22 to R45: STATUS as R26 lays it out, BC_MEAN, BC_MIN and BC_MAX in the order of R39), the
address of a memory element that element (R62, and R67 for PEAK), and the reserved words of PEAK entries and RING slots 0
(R66); a read changes nothing else, and a write to the reserved word of a RING slot changes nothing at all (R66). -/
def Obligations.HostReadsReturnTheirFields : Prop :=
  (∀ p ∈ ([ (0x000, 0x4B434C4D00010000), (0x008, 0x00000000400100B6), (0x010, 0), (0x018, 0), (0x020, 0), (0x028, 0),
      (0x030, 0), (0x040, 0), (0x048, 0), (0x050, 0), (0x058, 0), (0x060, 0x2), (0x068, 1), (0x070, 0x3FF0000000000000),
      (0x078, 0x3FF0000000000000), (0x080, 0x3F9EB851EB851EB8), (0x088, 0), (0x090, 0), (0x098, 0), (0x0A0, 0),
      (0x0A8, 0), (0x0B0, 0), (0x0B8, 0), (0x0C0, 0), (0x0C8, 0), (0x0D0, 0), (0x0D8, 0), (0x0E0, 0), (0x0E8, 0),
      (0x100, 6), (0x108, 0), (0x110, 1), (0x118, 0), (0x120, 0x3FF0000000000000) ] : List (Addr × Word)),
    step { State.reset with inbox := [.read p.1] } = .next { State.reset with replies := [p.2] }) ∧
  (∀ (s : State) (rest : List HostEvent), s.engine = .idle →
    (∀ p ∈ ([ (0x000, 0x4B434C4D00010000), (0x008, 0x00000000400100B6), (0x010, ctrlBits s.ctrl),
        (0x018, statusBits false s.status), (0x020, s.cmd), (0x028, s.errmask.setWidth 64), (0x030, s.errsticky.setWidth 64),
        (0x040, s.opa), (0x048, s.opb), (0x050, s.opc), (0x058, s.res0),
        (0x060, BitVec.ofNat 64 (s.bcCfg.auto.toNat + 2 * s.bcCfg.tch.toNat)), (0x068, s.bcCfg.maxavg.setWidth 64),
        (0x070, s.bcCfg.sens), (0x078, s.bcCfg.speed), (0x080, s.bcCfg.tol), (0x088, s.bcFill.setWidth 64),
        (0x090, s.bcWptr.setWidth 64), (0x098, s.bcRes.count.setWidth 64),
        (0x0A0, s.bcRes.mean.y0), (0x0A8, s.bcRes.mean.y1), (0x0B0, s.bcRes.mean.y2),
        (0x0B8, s.bcRes.mn.y0), (0x0C0, s.bcRes.mn.y1), (0x0C8, s.bcRes.mn.y2),
        (0x0D0, s.bcRes.mx.y0), (0x0D8, s.bcRes.mx.y1), (0x0E0, s.bcRes.mx.y2), (0x0E8, s.bcRes.exit.setWidth 64),
        (0x100, s.fftCfg.setWidth 64), (0x108, s.rpFill.setWidth 64), (0x110, s.pkK.setWidth 64),
        (0x118, s.pkCount.setWidth 64), (0x120, s.fs) ] : List (Addr × Word)),
      s.inbox = .read p.1 :: rest → step s = .next { s with inbox := rest, replies := p.2 :: s.replies }) ∧
    (∀ (addr : Addr) (w : Word), s.inbox = .read addr :: rest →
      (∃ p f, p < 64 ∧ f < 3 ∧ addr.toNat = 0x02000 + 32 * p + 8 * f ∧ w = peakAt s.mem p f) ∨
      (∃ j, j < 32 ∧ addr.toNat = 0x01000 + 8 * j ∧ w = burstAt s.mem j) ∨
      (∃ k, k < 1024 ∧ addr.toNat = 0x04000 + 8 * k ∧ w = seriesAt s.mem k) ∨
      (∃ i, i < 2048 ∧ addr.toNat = 0x08000 + 8 * i ∧ w = rippleAt s.mem i) ∨
      (∃ i, i < 2048 ∧ addr.toNat = 0x10000 + 16 * i ∧ w = (workAt s.mem i).re) ∨
      (∃ i, i < 2048 ∧ addr.toNat = 0x10000 + 16 * i + 8 ∧ w = (workAt s.mem i).im) ∨
      (∃ r c, r < 256 ∧ c < 3 ∧ addr.toNat = 0x30000 + 32 * r + 8 * c ∧ w = ringAt s.mem r c) →
      step s = .next { s with inbox := rest, replies := w :: s.replies }) ∧
    (∀ (addr : Addr) (k : Nat),
      (k < 64 ∧ addr.toNat = 0x02000 + 32 * k + 24) ∨ (k < 256 ∧ addr.toNat = 0x30000 + 32 * k + 24) →
      s.inbox = .read addr :: rest → step s = .next { s with inbox := rest, replies := 0 :: s.replies }) ∧
    (∀ (addr : Addr) (k : Nat) (v : Word), k < 256 → addr.toNat = 0x30000 + 32 * k + 24 → s.inbox = .write addr v :: rest →
      step s = .next { s with inbox := rest }))

/-- R65 outside the reset sequence, on the host's turn: a read of an unmapped or misaligned address returns 0 and sets BERR; a
write to such an address, to an RO register or to the PEAK or TW window sets BERR and has no other effect; a running command
goes on. -/
def Obligations.BusErrorsSetBerr : Prop :=
  ∀ (s : State) (addr : Addr) (v : Word) (rest : List HostEvent), s.isHostTurn = true → s.isResetting = false →
    (isReadable addr.toNat = false → s.inbox = .read addr :: rest →
      step s = .next { s with
        inbox := rest, engine := s.engine.tick, replies := 0 :: s.replies, status := { s.status with berr := true } }) ∧
    (isWritable addr.toNat = false → s.inbox = .write addr v :: rest →
      step s = .next { s with inbox := rest, engine := s.engine.tick, status := { s.status with berr := true } })

/-- R68: while IDLE a host write to a memory element stores the 64-bit pattern verbatim: the next read of it returns it, and no
other byte of memory, no register and no flag changes. -/
def Obligations.ElementWriteReadsBack : Prop :=
  ∀ (s : State) (addr : Addr) (v : Word) (rest : List HostEvent), s.engine = .idle → isElement addr.toNat = true →
    s.inbox = .write addr v :: .read addr :: rest →
    ∃ t, Host.Core.run Sys2Proof.core 2 s = .next t ∧
      t = { s with inbox := rest, replies := v :: s.replies, mem := t.mem } ∧
      sameOutside addr.toNat 8 s.mem t.mem

/-- The register writes of R25 to R45 while IDLE, with the side effects of R64: the fields stored, reserved bits ignored, W1C
for STATUS and ERRSTICKY (R26, R28), BC_MAXAVG restarting the ring (R33), FFT_CFG clearing RP_FILL (R41). -/
def Obligations.RegisterWritesTakeEffect : Prop :=
  ∀ (s : State) (v : Word) (rest : List HostEvent), s.engine = .idle →
    (v.getLsbD 8 = false → s.inbox = .write 0x010 v :: rest → step s = .next { s with
      inbox := rest, ctrl := { ieDone := v.getLsbD 0, ieErr := v.getLsbD 1 } }) ∧
    (s.inbox = .write 0x018 v :: rest → step s = .next { s with
      inbox := rest
      status := { done := s.status.done && !v.getLsbD 1, err := s.status.err && !v.getLsbD 2
                  ovr := s.status.ovr && !v.getLsbD 3, haz := s.status.haz && !v.getLsbD 4
                  berr := s.status.berr && !v.getLsbD 5, errcode := s.status.errcode } }) ∧
    (s.inbox = .write 0x030 v :: rest → step s = .next { s with
      inbox := rest, errsticky := s.errsticky &&& ~~~ (v.extractLsb' 0 4) }) ∧
    (s.inbox = .write 0x040 v :: rest → step s = .next { s with inbox := rest, opa := v }) ∧
    (s.inbox = .write 0x048 v :: rest → step s = .next { s with inbox := rest, opb := v }) ∧
    (s.inbox = .write 0x050 v :: rest → step s = .next { s with inbox := rest, opc := v }) ∧
    (s.inbox = .write 0x060 v :: rest → step s = .next { s with
      inbox := rest, bcCfg := { s.bcCfg with auto := v.getLsbD 0, tch := v.extractLsb' 1 2 } }) ∧
    (s.inbox = .write 0x068 v :: rest → step s = .next { s with
      inbox := rest, bcCfg := { s.bcCfg with maxavg := v.extractLsb' 0 16 }, bcFill := 0, bcWptr := 0 }) ∧
    (s.inbox = .write 0x070 v :: rest → step s = .next { s with inbox := rest, bcCfg := { s.bcCfg with sens := v } }) ∧
    (s.inbox = .write 0x078 v :: rest → step s = .next { s with inbox := rest, bcCfg := { s.bcCfg with speed := v } }) ∧
    (s.inbox = .write 0x080 v :: rest → step s = .next { s with inbox := rest, bcCfg := { s.bcCfg with tol := v } }) ∧
    (s.inbox = .write 0x100 v :: rest → step s = .next { s with
      inbox := rest, fftCfg := v.extractLsb' 0 4, rpFill := 0 }) ∧
    (s.inbox = .write 0x110 v :: rest → step s = .next { s with inbox := rest, pkK := v.extractLsb' 0 8 }) ∧
    (s.inbox = .write 0x120 v :: rest → step s = .next { s with inbox := rest, fs := v })

/-- R260, R261: while a command runs, ID, CAP, CTRL and STATUS read normally, CTRL and STATUS are written, a CMD write is
dropped and sets OVR, any other mapped access sets HAZ (a write is dropped, a read returns some value), and a bus error sets
BERR and not HAZ (R65). The command goes on. That the value of such a read is drawn from the free-value counter is the
model's choice (assumption log 4). -/
def Obligations.AccessesWhileRunning : Prop :=
  ∀ (s : State) (c : Word) (left : Nat) (addr : Addr) (v : Word) (rest : List HostEvent),
    s.engine = .run c (left + 1) →
    let s' := { s with inbox := rest, engine := .run c left }
    (s.inbox = .read addr :: rest →
      (addr = 0x000 → step s = .next { s' with replies := 0x4B434C4D00010000 :: s.replies }) ∧
      (addr = 0x008 → step s = .next { s' with replies := 0x00000000400100B6 :: s.replies }) ∧
      (addr = 0x010 → step s = .next { s' with replies := ctrlBits s.ctrl :: s.replies }) ∧
      (addr = 0x018 → step s = .next { s' with replies := statusBits true s.status :: s.replies }) ∧
      (isReadable addr.toNat = false →
        step s = .next { s' with replies := 0 :: s.replies, status := { s.status with berr := true } }) ∧
      (isReadable addr.toNat = true → addr ≠ 0x000 → addr ≠ 0x008 → addr ≠ 0x010 → addr ≠ 0x018 →
        ∃ w, step s = .next { s' with
          replies := w :: s.replies, freeIdx := s.freeIdx + 1, status := { s.status with haz := true } })) ∧
    (s.inbox = .write addr v :: rest →
      (addr = 0x010 → v.getLsbD 8 = false →
        step s = .next { s' with ctrl := { ieDone := v.getLsbD 0, ieErr := v.getLsbD 1 } }) ∧
      (addr = 0x018 → step s = .next { s' with status := s.status.writeOneToClear v }) ∧
      (addr = 0x020 → step s = .next { s' with status := { s.status with ovr := true } }) ∧
      (isWritable addr.toNat = false → step s = .next { s' with status := { s.status with berr := true } }) ∧
      (isWritable addr.toNat = true → addr ≠ 0x010 → addr ≠ 0x018 → addr ≠ 0x020 →
        step s = .next { s' with status := { s.status with haz := true } }))

/-- R250 to R253 on the host's turn: the reset input, or a CTRL write with SRST = 1, starts the reset sequence in any engine
state, a running one included, and everything of the block has its reset value at once, with BUSY = 1. During the sequence
every other write is dropped; ID and CAP read their values, STATUS 0x1 and CTRL 0, any other read returns some value, and no
access changes anything of the block, so no STATUS bit is set. Its end leaves the block in the state after reset. The model's
choices here: its memories are zero from the start of the sequence, not from its end (assumption log 5); its length is a
number of host turns, the environment's or free (log 3); the reset input is a host event, and what belongs to the outside
world (events to come, replies, durations) survives (log 14); a read that the spec leaves open is drawn from the free-value
counter (log 4), also at an unmapped address (log 11). -/
def Obligations.ResetSequence : Prop :=
  (∀ (s : State) (e : HostEvent) (rest : List HostEvent), s.isHostTurn = true → s.inbox = e :: rest →
    (e = .powerOn ∨ ∃ v : Word, v.getLsbD 8 = true ∧ e = .write 0x010 v) →
    step s = .next { State.reset with
      engine := .reset (s.delays.headD (Config.duration s.freeIdx)), inbox := rest, replies := s.replies
      delays := s.delays.tail, freeIdx := s.freeIdx + 1 }) ∧
  (∀ (s : State) (left : Nat) (addr : Addr) (v : Word) (rest : List HostEvent), s.engine = .reset (left + 1) →
    s.inbox = .write addr v :: rest → (addr ≠ 0x010 ∨ v.getLsbD 8 = false) →
    step s = .next { s with engine := .reset left, inbox := rest }) ∧
  (∀ (s : State) (left : Nat) (addr : Addr) (rest : List HostEvent), s.Inv → s.engine = .reset (left + 1) →
    s.inbox = .read addr :: rest →
    let s' := { s with engine := .reset left, inbox := rest }
    (addr = 0x000 → step s = .next { s' with replies := 0x4B434C4D00010000 :: s.replies }) ∧
    (addr = 0x008 → step s = .next { s' with replies := 0x00000000400100B6 :: s.replies }) ∧
    (addr = 0x010 → step s = .next { s' with replies := 0 :: s.replies }) ∧
    (addr = 0x018 → step s = .next { s' with replies := 0x1 :: s.replies }) ∧
    (addr ≠ 0x000 → addr ≠ 0x008 → addr ≠ 0x010 → addr ≠ 0x018 →
      ∃ w, step s = .next { s' with replies := w :: s.replies, freeIdx := s.freeIdx + 1 })) ∧
  (∀ s : State, s.Inv → s.engine = .reset 0 → step s = .next { State.reset with
    inbox := s.inbox, replies := s.replies, delays := s.delays, freeIdx := s.freeIdx })

/-- R230: `irq` is the level (DONE ∧ IE_DONE) ∨ ((ERR ∨ OVR ∨ HAZ ∨ BERR) ∧ IE_ERR); it is 0 after reset; any command that
completes raises it when IE_DONE is set. -/
def Obligations.InterruptFollowsStatus : Prop :=
  (∀ s : State, s.irq = true ↔ (s.status.done = true ∧ s.ctrl.ieDone = true) ∨
    ((s.status.err = true ∨ s.status.ovr = true ∨ s.status.haz = true ∨ s.status.berr = true) ∧ s.ctrl.ieErr = true)) ∧
  State.reset.irq = false ∧
  ∀ (i : Instr) (s t : State), s.ctrl.ieDone = true → exec i s = .next t → t.irq = true

/-! ### Progress, timing, invariant -/

/-- R265 with R264: no step stops, and an accepted command (or the reset sequence) that has `left` host turns to go has
completed after `left + 1` steps unless a reset comes in between. That a duration is a number of host turns is the model's
choice (assumption log 3). -/
def Obligations.AcceptedCommandCompletes : Prop :=
  (∀ s : State, ∃ t, step s = .next t) ∧
  (∀ (s : State) (c : Word) (left : Nat), s.engine = .run c left → (∀ e ∈ s.inbox.take left, e.isReset = false) →
    ∃ t, Host.Core.run Sys2Proof.core (left + 1) s = .next t ∧ t.engine = .idle ∧ t.status.done = true ∧ t.cmd = s.cmd) ∧
  (∀ (s : State) (left : Nat), s.engine = .reset left → (∀ e ∈ s.inbox.take left, e.isReset = false) →
    ∃ t, Host.Core.run Sys2Proof.core (left + 1) s = .next t ∧ t.engine = .idle)

/-- R263, R264 as a refinement: a host that writes each command to CMD and waits for BUSY = 0 gets, for every duration of every
command, the block that results from running the commands one after the other. That WAIT is one event that stays until it
reads BUSY = 0, and a duration a number of host turns, are the model's choices (assumption logs 10 and 3). -/
def Obligations.WaitingHostRunsCommandsInOrder : Prop :=
  ∀ (prog : List Instr) (s : State), s.engine = .idle → s.inbox = doCommands prog → (∀ i ∈ prog, i.wellFormed = true) →
    ∃ n t u, Host.Core.run Sys2Proof.core n s = .next t ∧ runInOrder prog s = .next u ∧
      t.inbox = [] ∧ t.engine = .idle ∧ t.block = u.block

/-- Every step keeps the invariant of the block: memory in canonical form and within the memory elements (R62, R66), fill
counts, pointers and counts in range (R36, R37, R42, R44), the defined fault codes only (R221), no fault beside a condition
(R223), CMD the running command (R29), the condition mask empty between commands (R56, R100). The clause that everything has
its reset value during the reset sequence is the model's choice (assumption log 5): R252 does not say when within the sequence
each value is written. -/
def Obligations.StepKeepsInvariant : Prop := ∀ s t : State, s.Inv → step s = .next t → t.Inv

/-- The state after reset meets the invariant (R253; that its hidden condition mask is 0 is assumption log 1). -/
def Obligations.ResetMeetsInvariant : Prop := State.reset.Inv

/-! ### Binary64 arithmetic -/

/-- R9 for +, − and ×: on finite operands the result is the exact sum, difference or product rounded once, to nearest, ties to
even. The bound from which the result is an infinity, 2^1024 − 2^970, and its sign are IEEE-754's (PRESUMED, assumption
log 16). -/
def Obligations.SumsAndProductsRoundToNearest : Prop :=
  ∀ a b : F64, fIsFinite a = true → fIsFinite b = true →
    nearestEven (fval a + fval b) (fadd a b) ∧ nearestEven (fval a - fval b) (fsub a b) ∧
    nearestEven (fval a * fval b) (fmul a b)

/-- R9 for / and sqrt: on finite operands, with a divisor that is not zero or an argument that is not negative, the result is
the exact quotient or root rounded once, to nearest, ties to even. A root is compared in the reals. The overflow bound of
`nearestEven` and the signs are IEEE-754's (PRESUMED, assumption log 16). -/
def Obligations.QuotientsAndRootsRoundToNearest : Prop :=
  (∀ a b : F64, fIsFinite a = true → fIsFinite b = true → fIsZero b = false →
    nearestEven (fval a / fval b) (fdiv a b)) ∧
  (∀ a : F64, fIsFinite a = true → 0 ≤ fval a →
    fIsFinite (fsqrt a) = true ∧ 0 ≤ fval (fsqrt a) ∧
    ∀ y : F64, fIsFinite y = true →
      |((fval (fsqrt a) : ℚ) : ℝ) - Real.sqrt (fval a)| ≤ |((fval y : ℚ) : ℝ) - Real.sqrt (fval a)| ∧
      (|((fval (fsqrt a) : ℚ) : ℝ) - Real.sqrt (fval a)| = |((fval y : ℚ) : ℝ) - Real.sqrt (fval a)| →
        fval y ≠ fval (fsqrt a) → ffrac (fsqrt a) % 2 = 0))
end

