-- ==== Sys2Proof/Laws/Codec.lean ====
section
/-! SUPPORT. What the extended-float decoder gives in each case (41_codec.md R121, R123). -/

namespace Sys2Proof.Machine

/-- The OPEN layout meets the constraints of R121. -/
theorem xfLayout_admissible : Config.xfLayout.layout.admissible = true := Config.xfLayout.admissible

/-- BAD_VALUE says that the decoded value is a NaN or an infinity (R224). -/
@[simp] theorem xfDecode_snd (l : Config.XfLayout) (v : Word) : (xfDecode l v).2 = !fIsFinite (xfDecode l v).1 := rfl

/-- The decoded value is the layout's value formula on the operand's fields. -/
theorem xfDecode_fst (l : Config.XfLayout) (v : Word) :
    (xfDecode l v).1 = xfValue l (v.getLsbD l.sign.val) (xfExponent l v) (xfMantissa l v) := rfl

/-- The exponent 0 is the layout's to treat. -/
@[simp] theorem xfValue_zero (l : Config.XfLayout) (neg : Bool) (m : BitVec 24) : xfValue l neg 0 m = l.atZero neg m := rfl

/-- The exponent 2047 is the layout's to treat. -/
@[simp] theorem xfValue_top (l : Config.XfLayout) (neg : Bool) (m : BitVec 24) : xfValue l neg 2047 m = l.atTop neg m := rfl

/-- Every other exponent gives the mantissa's fraction scaled with the offset −1022. -/
theorem xfValue_ordinary (l : Config.XfLayout) (neg : Bool) {e : BitVec 11} (m : BitVec 24) (h0 : e ≠ 0) (h1 : e ≠ 2047) :
    xfValue l neg e m = fround neg (l.fraction m).toNat ((e.toNat : Int) - 1022 - 25) := by
  rw [xfValue, if_neg h0, if_neg h1]

/-- The reference layout is admissible, so an admissible layout exists. -/
theorem xfReference_admissible : Config.xfReference.admissible = true := by decide

end Sys2Proof.Machine
end

