-- ==== Sys2Proof/Laws/Float.lean ====
section
/-! SUPPORT. What the binary64 operations do: the parts of a packed pattern, and that `fround` rounds to nearest, ties to
even (00_scope.md R9). -/

namespace Sys2Proof.Machine

/-! ### The parts of a packed pattern -/

theorem toNat_fpack (neg : Bool) (mag : Nat) (h : mag < 2 ^ 63) :
    (fpack neg mag).toNat = (if neg then 2 ^ 63 else 0) + mag := by
  unfold fpack
  rw [BitVec.toNat_ofNat]
  apply Nat.mod_eq_of_lt
  cases neg
  · simp only [Bool.false_eq_true, if_false]; omega
  · simp only [if_true]; omega

theorem fsign_eq (x : F64) : fsign x = decide (2 ^ 63 ≤ x.toNat) := by
  have h := x.isLt
  unfold fsign
  rw [BitVec.getLsbD, Nat.testBit_eq_decide_div_mod_eq]
  congr 1
  apply propext
  constructor <;> intro h' <;> omega

theorem fexp_eq (x : F64) : fexp x = x.toNat / 2 ^ 52 % 2 ^ 11 := by
  simp [fexp, BitVec.extractLsb'_toNat, Nat.shiftRight_eq_div_pow]

theorem ffrac_eq (x : F64) : ffrac x = x.toNat % 2 ^ 52 := by
  simp [ffrac, BitVec.extractLsb'_toNat]

theorem fsign_fpack (neg : Bool) (mag : Nat) (h : mag < 2 ^ 63) : fsign (fpack neg mag) = neg := by
  rw [fsign_eq, toNat_fpack _ _ h]
  cases neg
  · simpa using h
  · simp

theorem fexp_fpack (neg : Bool) (mag : Nat) (h : mag < 2 ^ 63) : fexp (fpack neg mag) = mag / 2 ^ 52 := by
  rw [fexp_eq, toNat_fpack _ _ h]
  cases neg
  · simp only [Bool.false_eq_true, if_false]; omega
  · simp only [if_true]; omega

theorem ffrac_fpack (neg : Bool) (mag : Nat) (h : mag < 2 ^ 63) : ffrac (fpack neg mag) = mag % 2 ^ 52 := by
  rw [ffrac_eq, toNat_fpack _ _ h]
  cases neg
  · simp only [Bool.false_eq_true, if_false]; omega
  · simp only [if_true]; omega

theorem ffrac_lt (x : F64) : ffrac x < 2 ^ 52 := by
  rw [ffrac_eq]
  exact Nat.mod_lt _ (by positivity)

theorem fexp_lt (x : F64) : fexp x < 2048 := by
  rw [fexp_eq]
  exact Nat.mod_lt _ (by positivity)

/-- A pattern is one of the three kinds, and only one. -/
theorem finite_iff (x : F64) : fIsFinite x = true ↔ fIsNaN x = false ∧ fIsInf x = false := by
  by_cases h : fexp x = 2047 <;> by_cases g : ffrac x = 0 <;> simp [fIsFinite, fIsNaN, fIsInf, h, g]

/-- The significand and the exponent of a finite value: the last place is 2^(fscale x), and the significand has 53 bits
unless that place is the smallest one. -/
theorem fmant_bounds (x : F64) : fmant x < 2 ^ 53 ∧ -1074 ≤ fscale x ∧ (fscale x = -1074 ∨ 2 ^ 52 ≤ fmant x) := by
  have hf := ffrac_lt x
  unfold fmant fscale
  split
  · exact ⟨by omega, by omega, .inl rfl⟩
  · exact ⟨by omega, by omega, .inr (by omega)⟩

/-- An arithmetic NaN result is a NaN (I2). -/
theorem fIsNaN_fnan (op : Config.NanOp) (a b : F64) : fIsNaN (fnan op a b) = true := by
  have expAll : ∀ v : F64, fexp (v ||| 0x7FF0000000000000#64) = 2047 := fun v => by
    have : (v ||| 0x7FF0000000000000#64).extractLsb' 52 11 = 0x7FF#11 := by
      ext i hi
      interval_cases i <;> simp
    simp [fexp, this]
  unfold fnan
  simp only
  split
  · rename_i h0
    have e : fexp (Config.nanBits op a b ||| 0x7FF0000000000000#64 ||| 1#64) = 2047 := by
      rw [BitVec.or_assoc, BitVec.or_comm 0x7FF0000000000000#64, ← BitVec.or_assoc]
      exact expAll _
    have f : ffrac (Config.nanBits op a b ||| 0x7FF0000000000000#64 ||| 1#64) ≠ 0 := by
      intro hz
      have : ((Config.nanBits op a b ||| 0x7FF0000000000000#64 ||| 1#64).extractLsb' 0 52).getLsbD 0 = true := by simp
      rw [show (Config.nanBits op a b ||| 0x7FF0000000000000#64 ||| 1#64).extractLsb' 0 52 = 0#52 from
        BitVec.eq_of_toNat_eq hz] at this
      simp at this
    simp [fIsNaN, e, f]
  · rename_i h0
    simp [fIsNaN, expAll, h0]

/-! ### Rounding to an integer -/

/-- `rneShift` is the nearest integer, the even one of two. -/
theorem rneShift_spec (m : Nat) (k : Int) :
    |(rneShift m k : ℚ) - m * (2 : ℚ) ^ k| ≤ 1 / 2 ∧
    (|(rneShift m k : ℚ) - m * (2 : ℚ) ^ k| = 1 / 2 → rneShift m k % 2 = 0) := by
  cases k with
  | ofNat n =>
    have : (rneShift m (.ofNat n) : ℚ) - m * (2 : ℚ) ^ (Int.ofNat n) = 0 := by
      simp [rneShift]
    rw [this]
    norm_num
  | negSucc n =>
    have hd : (0 : ℚ) < 2 ^ (n + 1) := by positivity
    have hdn : 0 < 2 ^ (n + 1) := by positivity
    have hz : (m : ℚ) * (2 : ℚ) ^ (Int.negSucc n) = m / 2 ^ (n + 1) := by
      rw [zpow_negSucc, div_eq_mul_inv]
    have hm : (m : ℚ) = 2 ^ (n + 1) * (m / 2 ^ (n + 1) : Nat) + (m % 2 ^ (n + 1) : Nat) := by
      exact_mod_cast (Nat.div_add_mod m (2 ^ (n + 1))).symm
    have hr : m % 2 ^ (n + 1) < 2 ^ (n + 1) := Nat.mod_lt _ hdn
    rw [hz]
    simp only [rneShift]
    generalize hq : m / 2 ^ (n + 1) = q at hm ⊢
    generalize hR : m % 2 ^ (n + 1) = R at hm hr ⊢
    have split_value : (m : ℚ) / 2 ^ (n + 1) = q + R / 2 ^ (n + 1) := by
      rw [hm]; field_simp
    rw [split_value]
    have hr0 : (0 : ℚ) ≤ R / 2 ^ (n + 1) := by positivity
    have hr1 : (R : ℚ) / 2 ^ (n + 1) < 1 := by
      rw [div_lt_one hd]
      exact_mod_cast hr
    split
    · rename_i hc
      have half : (1 : ℚ) / 2 ≤ R / 2 ^ (n + 1) := by
        rw [le_div_iff₀ hd]
        have : 2 ^ (n + 1) ≤ 2 * R := by omega
        have : ((2 : ℚ) ^ (n + 1)) ≤ 2 * R := by exact_mod_cast this
        linarith
      have e : |((q + 1 : Nat) : ℚ) - (q + R / 2 ^ (n + 1))| = 1 - R / 2 ^ (n + 1) := by
        rw [abs_of_nonneg] <;> push_cast <;> linarith
      rw [e]
      refine ⟨by linarith, fun h => ?_⟩
      have h2 : (R : ℚ) / 2 ^ (n + 1) = 1 / 2 := by linarith
      rw [div_eq_iff hd.ne'] at h2
      have : (2 : ℚ) * R = 2 ^ (n + 1) := by linarith
      have : 2 * R = 2 ^ (n + 1) := by exact_mod_cast this
      omega
    · rename_i hc
      have half : (R : ℚ) / 2 ^ (n + 1) ≤ 1 / 2 := by
        rw [div_le_iff₀ hd]
        have : 2 * R ≤ 2 ^ (n + 1) := by omega
        have : (2 : ℚ) * R ≤ 2 ^ (n + 1) := by exact_mod_cast this
        linarith
      have e : |((q : Nat) : ℚ) - (q + R / 2 ^ (n + 1))| = R / 2 ^ (n + 1) := by
        rw [abs_sub_comm, abs_of_nonneg] <;> linarith
      rw [e]
      refine ⟨half, fun h => ?_⟩
      rw [div_eq_iff hd.ne'] at h
      have : (2 : ℚ) * R = 2 ^ (n + 1) := by linarith
      have : 2 * R = 2 ^ (n + 1) := by exact_mod_cast this
      omega

/-- No integer is nearer than `rneShift`, and one that is equally near, but another, leaves it even. -/
theorem rneShift_nearest (m : Nat) (k : Int) (j : Int) :
    |(rneShift m k : ℚ) - m * (2 : ℚ) ^ k| ≤ |(j : ℚ) - m * (2 : ℚ) ^ k| ∧
    (|(rneShift m k : ℚ) - m * (2 : ℚ) ^ k| = |(j : ℚ) - m * (2 : ℚ) ^ k| → j ≠ rneShift m k →
      rneShift m k % 2 = 0) := by
  obtain ⟨half, tie⟩ := rneShift_spec m k
  by_cases hj : j = (rneShift m k : Int)
  · subst hj
    exact ⟨by simp, fun _ h => absurd rfl h⟩
  · have far : (1 : ℚ) ≤ |(j : ℚ) - (rneShift m k : ℚ)| := by
      have : (1 : Int) ≤ |j - (rneShift m k : Int)| := Int.one_le_abs (sub_ne_zero.mpr hj)
      exact_mod_cast this
    have tri : |(j : ℚ) - (rneShift m k : ℚ)| ≤ |(j : ℚ) - m * (2 : ℚ) ^ k| + |(rneShift m k : ℚ) - m * (2 : ℚ) ^ k| := by
      have := abs_sub_le (j : ℚ) (m * (2 : ℚ) ^ k) (rneShift m k : ℚ)
      rwa [abs_sub_comm (m * (2 : ℚ) ^ k) (rneShift m k : ℚ)] at this
    exact ⟨by linarith, fun h _ => tie (by linarith)⟩

/-! ### The value of a packed significand -/

/-- A significand `n` on the place 2^q, packed by one addition, stands for `±n·2^q`. -/
theorem fval_fpack (neg : Bool) (q : Int) (n : Nat) (hq : -1074 ≤ q) (hn : n ≤ 2 ^ 53) (hs : q = -1074 ∨ 2 ^ 52 ≤ n)
    (hf : (q + 1074).toNat * 2 ^ 52 + n < infMag) :
    fval (fpack neg ((q + 1074).toNat * 2 ^ 52 + n)) = (if neg then -1 else 1) * (n : ℚ) * (2 : ℚ) ^ q := by
  have hlt : (q + 1074).toNat * 2 ^ 52 + n < 2 ^ 63 := Nat.lt_trans hf (by decide)
  unfold fval
  rw [fsign_fpack _ _ hlt]
  unfold fmant fscale
  rw [fexp_fpack _ _ hlt, ffrac_fpack _ _ hlt]
  rcases Nat.lt_or_ge n (2 ^ 52) with h1 | h1
  · have hq' : q = -1074 := by omega
    subst hq'
    have e0 : ((-1074 + 1074 : Int).toNat * 2 ^ 52 + n) / 2 ^ 52 = 0 := by
      rw [Nat.div_eq_zero_iff]; right; simpa using h1
    have e1 : ((-1074 + 1074 : Int).toNat * 2 ^ 52 + n) % 2 ^ 52 = n := by
      rw [show (-1074 + 1074 : Int).toNat = 0 from rfl, Nat.zero_mul, Nat.zero_add, Nat.mod_eq_of_lt h1]
    rw [e0, e1]
    simp
  · obtain ⟨p, hp⟩ : ∃ p : Nat, q = (p : Int) - 1074 := ⟨(q + 1074).toNat, by omega⟩
    subst hp
    rw [show ((p : Int) - 1074 + 1074).toNat = p by omega]
    rcases Nat.lt_or_ge n (2 ^ 53) with h2 | h2
    · have e0 : (p * 2 ^ 52 + n) / 2 ^ 52 = p + 1 := by omega
      have e1 : (p * 2 ^ 52 + n) % 2 ^ 52 = n - 2 ^ 52 := by omega
      rw [e0, e1, if_neg (show ¬ p + 1 = 0 by omega), if_neg (show ¬ p + 1 = 0 by omega),
        show 2 ^ 52 + (n - 2 ^ 52) = n by omega]
      congr 2
      push_cast
      ring
    · have hn' : n = 2 ^ 53 := by omega
      subst hn'
      have e0 : (p * 2 ^ 52 + 2 ^ 53) / 2 ^ 52 = p + 2 := by omega
      have e1 : (p * 2 ^ 52 + 2 ^ 53) % 2 ^ 52 = 0 := by omega
      rw [e0, e1, if_neg (show ¬ p + 2 = 0 by omega), if_neg (show ¬ p + 2 = 0 by omega)]
      have : ((p + 2 : Nat) : Int) - 1075 = ((p : Int) - 1074) + 1 := by push_cast; ring
      rw [this, zpow_add_one₀ (by norm_num)]
      push_cast
      ring

/-! ### `fround` -/

/-- The place, and the significand rounded to it, that `fround` packs. -/
theorem fround_parts (m : Nat) (e : Int) (hm : m ≠ 0) :
    ∀ q n, q = max ((Nat.log2 m : Int) + e - 52) (-1074) → n = rneShift m (e - q) →
    -1074 ≤ q ∧ n ≤ 2 ^ 53 ∧ (q = -1074 ∨ (2 ^ 52 ≤ n ∧ (2 : ℚ) ^ (q + 52) ≤ m * (2 : ℚ) ^ e)) ∧
    (m : ℚ) * 2 ^ e < 2 ^ (q + 53) := by
  intro q n qdef ndef
  have two : (2 : ℚ) ≠ 0 := by norm_num
  have lo : 2 ^ Nat.log2 m ≤ m := Nat.log2_self_le hm
  have hi : m < 2 ^ (Nat.log2 m + 1) := Nat.lt_log2_self
  have hiQ : (m : ℚ) * 2 ^ e < 2 ^ ((Nat.log2 m : Int) + 1 + e) := by
    rw [zpow_add₀ two]
    have : (m : ℚ) < 2 ^ ((Nat.log2 m : Int) + 1) := by exact_mod_cast hi
    exact mul_lt_mul_of_pos_right this (by positivity)
  have loQ : (2 : ℚ) ^ ((Nat.log2 m : Int) + e) ≤ m * 2 ^ e := by
    rw [zpow_add₀ two]
    have : (2 : ℚ) ^ (Nat.log2 m : Int) ≤ m := by exact_mod_cast lo
    exact mul_le_mul_of_nonneg_right this (by positivity)
  have hq1 : (Nat.log2 m : Int) + e - 52 ≤ q := qdef ▸ le_max_left _ _
  have hq2 : -1074 ≤ q := qdef ▸ le_max_right _ _
  have upper : (m : ℚ) * 2 ^ e < 2 ^ (q + 53) :=
    lt_of_lt_of_le hiQ (zpow_le_zpow_right₀ (by norm_num) (by omega))
  have scaled : (m : ℚ) * 2 ^ (e - q) = m * 2 ^ e / 2 ^ q := by
    rw [zpow_sub₀ two]; ring
  have spec := rneShift_spec m (e - q)
  have hpos : (0 : ℚ) < 2 ^ q := by positivity
  have upperV : (m : ℚ) * 2 ^ (e - q) < 2 ^ 53 := by
    rw [scaled, div_lt_iff₀ hpos]
    calc (m : ℚ) * 2 ^ e < 2 ^ (q + 53) := upper
      _ = 2 ^ 53 * 2 ^ q := by rw [zpow_add₀ two, mul_comm]; norm_num
  have nUpper : n ≤ 2 ^ 53 := by
    have h := (abs_le.mp spec.1).2
    have : (n : ℚ) < 2 ^ 53 + 1 := by
      rw [ndef]
      linarith
    have : n < 2 ^ 53 + 1 := by exact_mod_cast this
    omega
  refine ⟨hq2, nUpper, ?_, upper⟩
  rcases le_total ((Nat.log2 m : Int) + e - 52) (-1074) with h | h
  · left; rw [qdef]; exact max_eq_right h
  · right
    have hq : q = (Nat.log2 m : Int) + e - 52 := by rw [qdef]; exact max_eq_left h
    have low : (2 : ℚ) ^ (q + 52) ≤ m * (2 : ℚ) ^ e := by rw [hq]; convert loQ using 2; ring
    refine ⟨?_, low⟩
    have lowV : (2 : ℚ) ^ 52 ≤ m * 2 ^ (e - q) := by
      rw [scaled, le_div_iff₀ hpos]
      calc (2 : ℚ) ^ 52 * 2 ^ q = 2 ^ (q + 52) := by rw [zpow_add₀ two, mul_comm]; norm_num
        _ ≤ m * 2 ^ e := low
    have h := (abs_le.mp spec.1).1
    have : (2 : ℚ) ^ 52 - 1 < (n : ℚ) := by
      rw [ndef]
      linarith
    have : (2 : ℚ) ^ 52 < (n : ℚ) + 1 := by linarith
    have : 2 ^ 52 < n + 1 := by exact_mod_cast this
    omega

/-- The infinity bound: the packed magnitude reaches the infinity exactly from half a place past the largest finite value on. -/
theorem fround_overflow (m : Nat) (e : Int) (hm : m ≠ 0) :
    infMag ≤ (max ((Nat.log2 m : Int) + e - 52) (-1074) + 1074).toNat * 2 ^ 52 +
      rneShift m (e - max ((Nat.log2 m : Int) + e - 52) (-1074)) ↔
    (2 : ℚ) ^ 1024 - 2 ^ 970 ≤ m * (2 : ℚ) ^ e := by
  obtain ⟨hq, hn, hs, hu⟩ := fround_parts m e hm _ _ rfl rfl
  have two : (2 : ℚ) ≠ 0 := by norm_num
  generalize hQ : max ((Nat.log2 m : Int) + e - 52) (-1074) = q at *
  have near := rneShift_nearest m (e - q)
  generalize hN : rneShift m (e - q) = n at *
  have scaled : (m : ℚ) * 2 ^ e = m * 2 ^ (e - q) * 2 ^ q := by
    rw [mul_assoc, ← zpow_add₀ two]; congr 2; ring
  have tpos : (0 : ℚ) < 2 ^ 970 := by positivity
  have e1024 : (2 : ℚ) ^ 1024 = 2 ^ 54 * 2 ^ 970 := by rw [← pow_add]
  have e1023 : (2 : ℚ) ^ (1023 : Int) = 2 ^ 53 * 2 ^ 970 := by
    rw [← pow_add]; exact zpow_natCast 2 1023
  have z1024 : (2 : ℚ) ^ (1024 : Int) = 2 ^ 54 * 2 ^ 970 := by
    rw [← pow_add]; exact zpow_natCast 2 1024
  have e971 : (2 : ℚ) ^ (971 : Int) = 2 * 2 ^ 970 := by
    rw [← pow_succ']; exact zpow_natCast 2 971
  rcases Int.lt_trichotomy q 971 with h | h | h
  · have hl : ¬ infMag ≤ (q + 1074).toNat * 2 ^ 52 + n := by
      have : (q + 1074).toNat ≤ 2044 := by omega
      have := Nat.mul_le_mul_right (2 ^ 52) this
      unfold infMag
      omega
    have hr : (m : ℚ) * 2 ^ e < 2 ^ 1024 - 2 ^ 970 := by
      refine lt_of_lt_of_le hu ?_
      have : (2 : ℚ) ^ (q + 53) ≤ 2 ^ (1023 : Int) := zpow_le_zpow_right₀ (by norm_num) (by omega)
      refine le_trans this ?_
      rw [e1023, e1024]
      generalize (2 : ℚ) ^ 970 = T at tpos ⊢
      norm_num
      linarith
    exact ⟨fun g => absurd g hl, fun g => absurd g (not_le.mpr hr)⟩
  · subst h
    rw [show ((971 : Int) + 1074).toNat = 2045 from rfl, scaled]
    have hb : infMag = 2045 * 2 ^ 52 + 2 ^ 53 := by decide
    have p1 := near 9007199254740992
    have p2 := near 9007199254740991
    push_cast at p1 p2
    generalize (m : ℚ) * 2 ^ (e - 971) = v at *
    have key : (2 : ℚ) ^ 1024 - 2 ^ 970 ≤ v * 2 ^ (971 : Int) ↔ (2 : ℚ) ^ 53 - 1 / 2 ≤ v := by
      rw [show (2 : ℚ) ^ 1024 - 2 ^ 970 = (2 ^ 53 - 1 / 2) * 2 ^ (971 : Int) by rw [e971, e1024]; generalize (2 : ℚ) ^ 970 = T; ring]
      exact mul_le_mul_iff_left₀ (by positivity)
    rw [key, hb]
    have hnQ : (n : ℚ) ≤ 2 ^ 53 := by exact_mod_cast hn
    constructor
    · intro h
      have : n = 2 ^ 53 := by omega
      subst this
      by_contra hv
      rw [not_le] at hv
      have a1 : |((2 ^ 53 : Nat) : ℚ) - v| = 2 ^ 53 - v := by
        rw [abs_of_nonneg] <;> push_cast <;> linarith
      rw [a1] at p2
      have hv : v < 18014398509481983 / 2 := by linarith
      have p2 : 9007199254740992 - v ≤ |9007199254740991 - v| := by
        have := p2.1
        norm_num only at this ⊢
        exact this
      rcases le_or_gt 0 ((9007199254740991 : ℚ) - v) with g | g
      · rw [abs_of_nonneg g] at p2; linarith
      · rw [abs_of_neg g] at p2; linarith
    · intro hv
      by_contra h
      have hlt : n ≤ 2 ^ 53 - 1 := by omega
      have hltQ : (n : ℚ) ≤ 9007199254740991 := by
        have : n ≤ 9007199254740991 := by omega
        exact_mod_cast this
      have hv : (18014398509481983 : ℚ) / 2 ≤ v := by linarith
      have a1 : |(n : ℚ) - v| = v - n := by rw [abs_sub_comm, abs_of_nonneg] ; linarith
      rw [a1] at p1
      rcases le_or_gt 0 ((9007199254740992 : ℚ) - v) with g | g
      · rw [abs_of_nonneg g] at p1
        have en : (n : ℚ) = 9007199254740991 := by linarith [p1.1]
        have even := p1.2 (by linarith) (by omega)
        have : n = 9007199254740991 := by exact_mod_cast en
        omega
      · rw [abs_of_neg g] at p1
        linarith [p1.1]
  · have hs' : 2 ^ 52 ≤ n ∧ (2 : ℚ) ^ (q + 52) ≤ m * (2 : ℚ) ^ e := by
      rcases hs with hs | hs
      · omega
      · exact hs
    have hl : infMag ≤ (q + 1074).toNat * 2 ^ 52 + n := by
      have : 2046 ≤ (q + 1074).toNat := by omega
      have := Nat.mul_le_mul_right (2 ^ 52) this
      unfold infMag
      omega
    have hr : (2 : ℚ) ^ 1024 - 2 ^ 970 ≤ m * 2 ^ e := by
      refine le_trans ?_ hs'.2
      have : (2 : ℚ) ^ (1024 : Int) ≤ 2 ^ (q + 52) := zpow_le_zpow_right₀ (by norm_num) (by omega)
      refine le_trans ?_ this
      rw [z1024, e1024]
      exact sub_le_self _ tpos.le
    exact ⟨fun _ => hr, fun _ => hl⟩

/-- A finite value's magnitude is its significand on its place. -/
theorem abs_fval (x : F64) : |fval x| = (fmant x : ℚ) * 2 ^ fscale x := by
  have h : (0 : ℚ) ≤ (fmant x : ℚ) * 2 ^ fscale x := by positivity
  unfold fval
  cases fsign x
  · simp [abs_of_nonneg h]
  · simp [abs_of_nonneg h]

/-- Among magnitudes: nothing a finite pattern can hold is nearer to `m·2^e` than the significand that `fround` packs, and one
that is equally near, but another, leaves that significand even. -/
theorem fround_magnitude_nearest (m : Nat) (e : Int) (hm : m ≠ 0) (y : F64) :
    ∀ q n, q = max ((Nat.log2 m : Int) + e - 52) (-1074) → n = rneShift m (e - q) →
    |(n : ℚ) * 2 ^ q - m * 2 ^ e| ≤ |(|fval y|) - m * 2 ^ e| ∧
    (|(n : ℚ) * 2 ^ q - m * 2 ^ e| = |(|fval y|) - m * 2 ^ e| → |fval y| ≠ (n : ℚ) * 2 ^ q → n % 2 = 0) := by
  intro q n qdef ndef
  obtain ⟨hq, -, hs, -⟩ := fround_parts m e hm q n qdef ndef
  have two : (2 : ℚ) ≠ 0 := by norm_num
  have qpos : (0 : ℚ) < 2 ^ q := by positivity
  have near := rneShift_nearest m (e - q)
  rw [← ndef] at near
  have scaled : (m : ℚ) * 2 ^ e = m * 2 ^ (e - q) * 2 ^ q := by
    rw [mul_assoc, ← zpow_add₀ two]; congr 2; ring
  have factor : ∀ x : ℚ, |x * 2 ^ q - m * 2 ^ e| = |x - m * 2 ^ (e - q)| * 2 ^ q := fun x => by
    rw [scaled, ← sub_mul, abs_mul, abs_of_pos qpos]
  obtain ⟨hb, hlow, hnorm⟩ := fmant_bounds y
  rw [abs_fval]
  rcases le_or_gt q (fscale y) with ht | ht
  · obtain ⟨d, hd⟩ : ∃ d : Nat, fscale y = q + d := ⟨(fscale y - q).toNat, by omega⟩
    have multiple : (fmant y : ℚ) * 2 ^ fscale y = ((fmant y * 2 ^ d : Nat) : Int) * (2 : ℚ) ^ q := by
      rw [hd, zpow_add₀ two, zpow_natCast]; push_cast; ring
    have nr := near ((fmant y * 2 ^ d : Nat) : Int)
    rw [multiple, factor, factor]
    refine ⟨mul_le_mul_of_nonneg_right nr.1 qpos.le, fun h hne => ?_⟩
    refine nr.2 (mul_right_cancel₀ qpos.ne' h) fun hj => hne ?_
    rw [hj]; rfl
  · have hs' : 2 ^ 52 ≤ n ∧ (2 : ℚ) ^ (q + 52) ≤ m * (2 : ℚ) ^ e := hs.resolve_left (by omega)
    have small : (fmant y : ℚ) * 2 ^ fscale y < 2 ^ (q + 52) := by
      have h1 : (fmant y : ℚ) < 2 ^ 53 := by exact_mod_cast hb
      calc (fmant y : ℚ) * 2 ^ fscale y < 2 ^ 53 * 2 ^ fscale y := mul_lt_mul_of_pos_right h1 (by positivity)
        _ = 2 ^ (fscale y + 53) := by rw [zpow_add₀ two, mul_comm]; norm_num
        _ ≤ 2 ^ (q + 52) := zpow_le_zpow_right₀ (by norm_num) (by omega)
    have corner : (2 : ℚ) ^ (q + 52) = ((2 ^ 52 : Int) : ℚ) * 2 ^ q := by
      rw [zpow_add₀ two, mul_comm]; norm_num
    have nr := (near (2 ^ 52)).1
    have strict : |(n : ℚ) * 2 ^ q - m * 2 ^ e| < |(fmant y : ℚ) * 2 ^ fscale y - m * 2 ^ e| := by
      have le1 : |(n : ℚ) * 2 ^ q - m * 2 ^ e| ≤ |((2 ^ 52 : Int) : ℚ) * 2 ^ q - m * 2 ^ e| := by
        rw [factor, factor]
        exact mul_le_mul_of_nonneg_right nr qpos.le
      rw [← corner, abs_sub_comm ((2 : ℚ) ^ (q + 52)), abs_of_nonneg (sub_nonneg.mpr hs'.2)] at le1
      rw [abs_sub_comm ((fmant y : ℚ) * 2 ^ fscale y),
        abs_of_nonneg (show (0 : ℚ) ≤ m * 2 ^ e - fmant y * 2 ^ fscale y by linarith [hs'.2])]
      linarith
    exact ⟨strict.le, fun h => absurd h strict.ne⟩

/-- `fround` rounds `±m·2^e` to nearest, ties to even (R9). -/
theorem fround_nearestEven (neg : Bool) (m : Nat) (e : Int) (hm : m ≠ 0) :
    nearestEven ((if neg then -1 else 1) * (m : ℚ) * 2 ^ e) (fround neg m e) := by
  obtain ⟨hq, hn, hs, -⟩ := fround_parts m e hm _ _ rfl rfl
  have overflow := fround_overflow m e hm
  have nearest := fun y => fround_magnitude_nearest m e hm y _ _ rfl rfl
  have mpos : (0 : ℚ) < m * 2 ^ e := by
    have : (0 : ℚ) < m := by exact_mod_cast Nat.pos_of_ne_zero hm
    positivity
  unfold fround
  rw [if_neg hm]
  simp only
  generalize hQ : max ((Nat.log2 m : Int) + e - 52) (-1074) = q at *
  generalize hN : rneShift m (e - q) = n at *
  have hs : q = -1074 ∨ 2 ^ 52 ≤ n := hs.imp id fun h => h.1
  have minLt : min ((q + 1074).toNat * 2 ^ 52 + n) infMag < 2 ^ 63 := lt_of_le_of_lt (min_le_right _ _) (by decide)
  have absr : |(if neg then -1 else 1) * (m : ℚ) * 2 ^ e| = m * 2 ^ e := by
    cases neg
    · simp [abs_of_pos mpos]
    · rw [if_pos rfl, mul_assoc, abs_mul, abs_of_pos mpos]; simp
  refine ⟨fun _ => ?_, ?_⟩
  · rw [fsign_fpack _ _ minLt]
    cases neg
    · simpa using mpos.le
    · simpa using mpos
  · rw [absr]
    split
    · rename_i h
      rw [min_eq_right (overflow.mpr h)]
      have : infMag < 2 ^ 63 := by decide
      simp only [fIsInf, fexp_fpack _ _ this, ffrac_fpack _ _ this]
      decide
    · rename_i h
      have lt : (q + 1074).toNat * 2 ^ 52 + n < infMag := not_le.mp fun g => h (overflow.mp g)
      rw [min_eq_left lt.le] at minLt ⊢
      have val := fval_fpack neg q n hq hn hs lt
      refine ⟨?_, fun y _ => ?_⟩
      · have : ((q + 1074).toNat * 2 ^ 52 + n) / 2 ^ 52 ≠ 2047 := by unfold infMag at lt; omega
        simp only [fIsFinite, fexp_fpack _ _ minLt]
        simpa using this
      · obtain ⟨le, tie⟩ := nearest y
        have parity : ffrac (fpack neg ((q + 1074).toNat * 2 ^ 52 + n)) % 2 = n % 2 := by
          rw [ffrac_fpack _ _ minLt]; omega
        have dist : |fval (fpack neg ((q + 1074).toNat * 2 ^ 52 + n)) - (if neg then -1 else 1) * (m : ℚ) * 2 ^ e| =
            |(n : ℚ) * 2 ^ q - m * 2 ^ e| := by
          rw [val]
          cases neg
          · simp
          · rw [if_pos rfl, abs_sub_comm]; congr 1; ring
        have apart : |(|fval y|) - m * 2 ^ e| ≤ |fval y - (if neg then -1 else 1) * (m : ℚ) * 2 ^ e| := by
          have := abs_abs_sub_abs_le (fval y) ((if neg then -1 else 1) * (m : ℚ) * 2 ^ e)
          rwa [absr] at this
        rw [dist, parity]
        refine ⟨le.trans apart, fun heq hne => ?_⟩
        refine tie (le_antisymm le (heq ▸ apart)) fun hmag => hne ?_
        have eqd : |fval y - (if neg then -1 else 1) * (m : ℚ) * 2 ^ e| = |(|fval y|) - m * 2 ^ e| := by
          rw [← heq, hmag]
        rw [val]
        cases neg
        · simp only [Bool.false_eq_true, if_false, one_mul] at eqd ⊢
          rcases le_or_gt 0 (fval y) with hy | hy
          · rw [abs_of_nonneg hy] at hmag; exact hmag
          · exfalso
            rw [abs_of_neg hy, abs_of_neg (by linarith : fval y - m * 2 ^ e < 0)] at eqd
            rcases le_or_gt 0 (-fval y - m * 2 ^ e) with g | g
            · rw [abs_of_nonneg g] at eqd; linarith
            · rw [abs_of_neg g] at eqd; linarith
        · simp only [if_true] at eqd ⊢
          rcases le_or_gt (fval y) 0 with hy | hy
          · rw [abs_of_nonpos hy] at hmag; linarith
          · exfalso
            rw [abs_of_pos hy, abs_of_pos (by linarith : 0 < fval y - -1 * (m : ℚ) * 2 ^ e)] at eqd
            rcases le_or_gt 0 (fval y - m * 2 ^ e) with g | g
            · rw [abs_of_nonneg g] at eqd; linarith
            · rw [abs_of_neg g] at eqd; linarith

end Sys2Proof.Machine
end

