-- ==== Sys2Proof/Laws/Memory.lean ====
section
/-! SUPPORT. What the memory operations do: reading after writing, bytes left alone, the canonical form kept. -/

namespace Sys2Proof.Machine

/-! ### Lookup in a list of cells -/

theorem readByte_append_of_not_mem (m m' : List Host.Cell) (a : Nat) (h : ∀ c ∈ m, c.1 ≠ a) :
    readByte (m ++ m') a = readByte m' a := by
  induction m with
  | nil => rfl
  | cons c m ih =>
    have hc : c.1 ≠ a := h c (by simp)
    simp only [List.cons_append, readByte, hc, if_false]
    exact ih fun d hd => h d (by simp [hd])

theorem readByte_append_congr (m m' m'' : List Host.Cell) (a : Nat) (h : readByte m' a = readByte m'' a) :
    readByte (m ++ m') a = readByte (m ++ m'') a := by
  induction m with
  | nil => exact h
  | cons c m ih => simp only [List.cons_append, readByte, ih]

theorem readByte_of_not_mem (m : List Host.Cell) (a : Nat) (h : ∀ c ∈ m, c.1 ≠ a) : readByte m a = unlistedByte := by
  simpa [readByte] using readByte_append_of_not_mem m [] a h

/-- Dropping cells at other addresses does not change a read. -/
theorem readByte_filter (m : List Host.Cell) (p : Host.Cell → Bool) (a : Nat) (h : ∀ c ∈ m, c.1 = a → p c = true) :
    readByte (m.filter p) a = readByte m a := by
  induction m with
  | nil => rfl
  | cons c m ih =>
    have ih := ih fun d hd => h d (by simp [hd])
    by_cases hp : p c = true
    · simp only [List.filter_cons, hp, if_true, readByte, ih]
    · have hc : c.1 ≠ a := fun e => hp (h c (by simp) e)
      simp only [List.filter_cons, hp, if_false, readByte, hc, ih, Bool.false_eq_true]

/-! ### The cells of a run of bytes -/

theorem cellsOf_range (base : Nat) (bs : List Byte) : ∀ c ∈ cellsOf base bs, base ≤ c.1 ∧ c.1 < base + bs.length := by
  induction bs generalizing base with
  | nil => simp [cellsOf]
  | cons b bs ih =>
    intro c hc
    have key : c ∈ cellsOf (base + 1) bs → base ≤ c.1 ∧ c.1 < base + (b :: bs).length := fun h => by
      have := ih (base + 1) c h
      simp only [List.length_cons]
      omega
    by_cases hb : b = unlistedByte
    · simp only [cellsOf, hb, if_true] at hc
      exact key hc
    · simp only [cellsOf, hb, if_false, List.mem_cons] at hc
      rcases hc with rfl | hc
      · simp
      · exact key hc

theorem readByte_cellsOf (base : Nat) (bs : List Byte) (i : Nat) (h : i < bs.length) :
    readByte (cellsOf base bs) (base + i) = bs[i] := by
  induction bs generalizing base i with
  | nil => simp at h
  | cons b bs ih =>
    have out : ∀ c ∈ cellsOf (base + 1) bs, c.1 ≠ base := fun c hc => by
      have := (cellsOf_range (base + 1) bs c hc).1
      omega
    cases i with
    | zero =>
      by_cases hb : b = unlistedByte
      · simp only [cellsOf, hb, if_true, Nat.add_zero, List.getElem_cons_zero]
        exact readByte_of_not_mem _ _ out
      · simp [cellsOf, hb, readByte]
    | succ i =>
      have hi : i < bs.length := by simpa using h
      have e : base + (i + 1) = base + 1 + i := by omega
      have ne : base ≠ base + 1 + i := by omega
      by_cases hb : b = unlistedByte
      · simp only [cellsOf, hb, if_true, e, List.getElem_cons_succ]
        exact ih (base + 1) i hi
      · simp only [cellsOf, hb, if_false, readByte, e, ne, List.getElem_cons_succ]
        exact ih (base + 1) i hi

/-! ### Runs of bytes written -/

/-- A byte that the run covers reads as the run says. -/
theorem readByte_writeBytes_inside (m : List Host.Cell) (base : Nat) (bs : List Byte) (i : Nat) (h : i < bs.length) :
    readByte (writeBytes m base bs) (base + i) = bs[i] := by
  unfold writeBytes
  rw [List.append_assoc, readByte_append_of_not_mem]
  · rw [← readByte_cellsOf base bs i h]
    have : ∀ x : List Host.Cell, (∀ c ∈ x, c.1 ≠ base + i) → ∀ y : List Host.Cell,
        readByte (y ++ x) (base + i) = readByte y (base + i) := fun x hx y => by
      rw [readByte_append_congr y x [] _ (by rw [readByte_of_not_mem _ _ hx]; rfl), List.append_nil]
    apply this
    intro c hc
    have := (List.mem_filter.mp hc).2
    rw [Nat.ble_eq] at this
    omega
  · intro c hc
    have := (List.mem_filter.mp hc).2
    rw [Nat.blt_eq] at this
    omega

/-- A byte that the run does not cover reads as before. -/
theorem readByte_writeBytes_outside (m : List Host.Cell) (base : Nat) (bs : List Byte) (a : Nat)
    (h : ¬ (base ≤ a ∧ a < base + bs.length)) : readByte (writeBytes m base bs) a = readByte m a := by
  have new : ∀ c ∈ cellsOf base bs, c.1 ≠ a := fun c hc e => h (e ▸ cellsOf_range base bs c hc)
  unfold writeBytes
  rw [List.append_assoc]
  rcases Nat.lt_or_ge a base with ha | ha
  · rw [readByte_append_congr _ _ [], List.append_nil]
    · exact readByte_filter _ _ _ fun c _ e => by rw [Nat.blt_eq, e]; exact ha
    · rw [readByte_append_of_not_mem _ _ _ new, readByte_of_not_mem]
      · rfl
      · intro c hc e
        have := (List.mem_filter.mp hc).2
        rw [Nat.ble_eq] at this
        omega
  · have ha' : base + bs.length ≤ a := by omega
    rw [readByte_append_of_not_mem, readByte_append_of_not_mem _ _ _ new]
    · exact readByte_filter _ _ _ fun c _ e => by rw [Nat.ble_eq, e]; exact ha'
    · intro c hc e
      have := (List.mem_filter.mp hc).2
      rw [Nat.blt_eq] at this
      omega

/-! ### Words -/

theorem length_wordBytes (v : Word) : (wordBytes v).length = 8 := by simp [wordBytes]

theorem length_flatMap_wordBytes (vs : List Word) : (vs.flatMap wordBytes).length = 8 * vs.length := by
  induction vs with
  | nil => rfl
  | cons v vs ih => simp only [List.flatMap_cons, List.length_append, length_wordBytes, ih, List.length_cons]; omega

theorem getElem_flatMap_wordBytes (vs : List Word) (i j : Nat) (hi : i < vs.length) (hj : j < 8)
    (h : 8 * i + j < (vs.flatMap wordBytes).length) : (vs.flatMap wordBytes)[8 * i + j] = wordByte vs[i] j := by
  induction vs generalizing i with
  | nil => simp at hi
  | cons v vs ih =>
    cases i with
    | zero =>
      simp only [List.flatMap_cons, Nat.mul_zero, Nat.zero_add, List.getElem_cons_zero]
      rw [List.getElem_append_left (by simpa [length_wordBytes] using hj)]
      simp [wordBytes]
    | succ i =>
      have hi' : i < vs.length := by simpa using hi
      simp only [List.flatMap_cons, List.getElem_cons_succ]
      rw [List.getElem_append_right (by rw [length_wordBytes]; omega)]
      simp only [length_wordBytes, show 8 * (i + 1) + j - 8 = 8 * i + j by omega]
      exact ih i hi' _

/-- A word is its bytes put together (R61). -/
theorem word_of_bytes (v : Word) :
    wordByte v 7 ++ wordByte v 6 ++ wordByte v 5 ++ wordByte v 4 ++ wordByte v 3 ++ wordByte v 2 ++ wordByte v 1 ++
      wordByte v 0 = v := by
  have h : ∀ i < 64, (wordByte v 7 ++ wordByte v 6 ++ wordByte v 5 ++ wordByte v 4 ++ wordByte v 3 ++ wordByte v 2 ++
      wordByte v 1 ++ wordByte v 0).getLsbD i = v.getLsbD i := by
    intro i hi
    interval_cases i <;> (simp only [wordByte, BitVec.getLsbD_append, BitVec.getLsbD_extractLsb']; rfl)
  exact BitVec.eq_of_getLsbD_eq h

/-- Every word written reads back. -/
theorem readWord_writeWords_inside (m : List Host.Cell) (base : Nat) (vs : List Word) (i : Nat) (h : i < vs.length) :
    readWord (writeWords m base vs) (base + 8 * i) = vs[i] := by
  have byte : ∀ j, j < 8 → readByte (writeWords m base vs) (base + 8 * i + j) = wordByte vs[i] j := fun j hj => by
    have hl : 8 * i + j < (vs.flatMap wordBytes).length := by rw [length_flatMap_wordBytes]; omega
    rw [writeWords, Nat.add_assoc, readByte_writeBytes_inside _ _ _ _ hl]
    exact getElem_flatMap_wordBytes vs i j h hj hl
  have b0 := byte 0 (by omega)
  rw [Nat.add_zero] at b0
  rw [readWord, byte 7 (by omega), byte 6 (by omega), byte 5 (by omega), byte 4 (by omega), byte 3 (by omega),
    byte 2 (by omega), byte 1 (by omega), b0]
  exact word_of_bytes _

/-- A byte outside the words written reads as before. -/
theorem readByte_writeWords_outside (m : List Host.Cell) (base : Nat) (vs : List Word) (a : Nat)
    (h : ¬ (base ≤ a ∧ a < base + 8 * vs.length)) : readByte (writeWords m base vs) a = readByte m a :=
  readByte_writeBytes_outside _ _ _ _ (by rwa [length_flatMap_wordBytes])

/-- A word depends on its eight bytes only. -/
theorem readWord_congr (m m' : List Host.Cell) (a : Nat) (h : ∀ j, j < 8 → readByte m' (a + j) = readByte m (a + j)) :
    readWord m' a = readWord m a := by
  have h0 := h 0 (by omega)
  rw [Nat.add_zero] at h0
  simp only [readWord, h 7 (by omega), h 6 (by omega), h 5 (by omega), h 4 (by omega), h 3 (by omega), h 2 (by omega),
    h 1 (by omega), h0]

/-- A word outside the words written reads as before. -/
theorem readWord_writeWords_outside (m : List Host.Cell) (base : Nat) (vs : List Word) (a : Nat)
    (h : a + 8 ≤ base ∨ base + 8 * vs.length ≤ a) : readWord (writeWords m base vs) a = readWord m a :=
  readWord_congr _ _ _ fun j hj => readByte_writeWords_outside _ _ _ _ (by omega)

theorem length_flatMap_pair (cs : List Cplx) : (cs.flatMap (fun c => [c.re, c.im])).length = 2 * cs.length := by
  induction cs with
  | nil => rfl
  | cons c cs ih => simp only [List.flatMap_cons, List.length_append, ih, List.length_cons, List.length_nil]; omega

theorem getElem_flatMap_pair (cs : List Cplx) (i : Nat) (hi : i < cs.length)
    (h0 : 2 * i < (cs.flatMap (fun c => [c.re, c.im])).length)
    (h1 : 2 * i + 1 < (cs.flatMap (fun c => [c.re, c.im])).length) :
    (cs.flatMap (fun c => [c.re, c.im]))[2 * i] = cs[i].re ∧
      (cs.flatMap (fun c => [c.re, c.im]))[2 * i + 1] = cs[i].im := by
  induction cs generalizing i with
  | nil => simp at hi
  | cons c cs ih =>
    cases i with
    | zero => simp
    | succ i =>
      have hi' : i < cs.length := by simpa using hi
      have l := length_flatMap_pair cs
      have := ih i hi' (by omega) (by omega)
      simp only [List.flatMap_cons, List.getElem_cons_succ]
      constructor
      · rw [List.getElem_append_right (by simp only [List.length_cons, List.length_nil]; omega), ← this.1]
        simp [show 2 * (i + 1) - 2 = 2 * i by omega]
      · rw [List.getElem_append_right (by simp only [List.length_cons, List.length_nil]; omega), ← this.2]
        simp [show 2 * (i + 1) + 1 - 2 = 2 * i + 1 by omega]

/-- Every complex element written reads back. -/
theorem readWord_writeCplx_inside (m : List Host.Cell) (base : Nat) (cs : List Cplx) (i : Nat) (h : i < cs.length) :
    readWord (writeCplx m base cs) (base + 16 * i) = cs[i].re ∧
      readWord (writeCplx m base cs) (base + 16 * i + 8) = cs[i].im := by
  have l := length_flatMap_pair cs
  have p := getElem_flatMap_pair cs i h (by omega) (by omega)
  constructor
  · rw [← p.1, ← readWord_writeWords_inside m base _ (2 * i) (by omega)]
    rw [writeCplx, show base + 8 * (2 * i) = base + 16 * i by omega]
  · rw [← p.2, ← readWord_writeWords_inside m base _ (2 * i + 1) (by omega)]
    rw [writeCplx, show base + 8 * (2 * i + 1) = base + 16 * i + 8 by omega]

/-- A byte outside the complex elements written reads as before. -/
theorem readByte_writeCplx_outside (m : List Host.Cell) (base : Nat) (cs : List Cplx) (a : Nat)
    (h : ¬ (base ≤ a ∧ a < base + 16 * cs.length)) : readByte (writeCplx m base cs) a = readByte m a :=
  readByte_writeWords_outside _ _ _ _ (by rw [length_flatMap_pair]; omega)

@[simp] theorem length_readWords (m : List Host.Cell) (base n : Nat) : (readWords m base n).length = n := by
  simp [readWords]

@[simp] theorem length_readCplx (m : List Host.Cell) (base n : Nat) : (readCplx m base n).length = n := by
  simp [readCplx]

/-- A buffer written and read back is the buffer. -/
theorem readCplx_writeCplx (m : List Host.Cell) (base : Nat) (cs : List Cplx) :
    readCplx (writeCplx m base cs) base cs.length = cs := by
  apply List.ext_getElem (by simp)
  intro i hi _
  have h : i < cs.length := by simpa using hi
  have p := readWord_writeCplx_inside m base cs i h
  simp only [readCplx, List.getElem_map, List.getElem_range, p.1, p.2]

/-! ### The canonical form -/

theorem canonicalFrom_mono {lo lo' : Nat} (h : lo' ≤ lo) : ∀ {m : List Host.Cell}, canonicalFrom lo m = true →
    canonicalFrom lo' m = true
  | [], _ => rfl
  | (a, b) :: m, hm => by
    simp only [canonicalFrom, Bool.and_eq_true, Nat.ble_eq] at hm ⊢
    exact ⟨⟨Nat.le_trans h hm.1.1, hm.1.2⟩, hm.2⟩

/-- Dropping cells keeps the canonical form. -/
theorem canonicalFrom_filter (p : Host.Cell → Bool) : ∀ (lo : Nat) (m : List Host.Cell), canonicalFrom lo m = true →
    canonicalFrom lo (m.filter p) = true
  | _, [], _ => rfl
  | lo, (a, b) :: m, h => by
    simp only [canonicalFrom, Bool.and_eq_true, Nat.ble_eq] at h
    have ih := canonicalFrom_filter p (a + 1) m h.2
    by_cases hp : p (a, b) = true
    · simp only [List.filter_cons, hp, if_true, canonicalFrom, Bool.and_eq_true, Nat.ble_eq]
      exact ⟨h.1, ih⟩
    · simp only [List.filter_cons, hp, if_false, Bool.false_eq_true]
      exact canonicalFrom_mono (by omega) ih

theorem canonicalFrom_le : ∀ {lo : Nat} {m : List Host.Cell}, canonicalFrom lo m = true → ∀ c ∈ m, lo ≤ c.1
  | _, [], _, c, hc => by simp at hc
  | lo, (a, b) :: m, h, c, hc => by
    simp only [canonicalFrom, Bool.and_eq_true, Nat.ble_eq] at h
    rcases List.mem_cons.mp hc with rfl | hc
    · exact h.1.1
    · have := canonicalFrom_le h.2 c hc
      omega

/-- Two canonical lists, all of the first below `mid` and all of the second from `mid` on, make one. -/
theorem canonicalFrom_append {mid : Nat} : ∀ {lo : Nat} {m m' : List Host.Cell}, canonicalFrom lo m = true →
    (∀ c ∈ m, c.1 < mid) → canonicalFrom (max lo mid) m' = true → canonicalFrom lo (m ++ m') = true
  | lo, [], m', _, _, h' => canonicalFrom_mono (Nat.le_max_left _ _) h'
  | lo, (a, b) :: m, m', h, hb, h' => by
    simp only [canonicalFrom, Bool.and_eq_true, Nat.ble_eq] at h
    have ha : a < mid := hb (a, b) (by simp)
    simp only [List.cons_append, canonicalFrom, Bool.and_eq_true, Nat.ble_eq]
    refine ⟨h.1, canonicalFrom_append h.2 (fun c hc => hb c (by simp [hc])) ?_⟩
    exact canonicalFrom_mono (by omega) h'

theorem canonicalFrom_cellsOf (base : Nat) (bs : List Byte) : canonicalFrom base (cellsOf base bs) = true := by
  induction bs generalizing base with
  | nil => rfl
  | cons b bs ih =>
    by_cases hb : b = unlistedByte
    · simp only [cellsOf, hb, if_true]
      exact canonicalFrom_mono (by omega) (ih (base + 1))
    · simp only [cellsOf, hb, if_false, canonicalFrom, Bool.and_eq_true, Nat.ble_eq]
      exact ⟨⟨Nat.le_refl _, by simpa using hb⟩, ih (base + 1)⟩

/-- From cells at addresses not below `mid`, a canonical list is canonical from `mid` on. -/
theorem canonicalFrom_of_le {mid : Nat} : ∀ {lo : Nat} {m : List Host.Cell}, canonicalFrom lo m = true →
    (∀ c ∈ m, mid ≤ c.1) → canonicalFrom mid m = true
  | _, [], _, _ => rfl
  | lo, (a, b) :: m, h, hm => by
    simp only [canonicalFrom, Bool.and_eq_true, Nat.ble_eq] at h ⊢
    exact ⟨⟨hm (a, b) (by simp), h.1.2⟩, h.2⟩

/-- Every write keeps the canonical form. -/
theorem canonical_writeBytes (m : List Host.Cell) (base : Nat) (bs : List Byte) (h : canonical m = true) :
    canonical (writeBytes m base bs) = true := by
  unfold canonical writeBytes at *
  have low : canonicalFrom 0 (m.filter fun c => Nat.blt c.1 base) = true := canonicalFrom_filter _ _ _ h
  have high : canonicalFrom (base + bs.length) (m.filter fun c => Nat.ble (base + bs.length) c.1) = true :=
    canonicalFrom_of_le (canonicalFrom_filter _ _ _ h) fun c hc => by
      have := (List.mem_filter.mp hc).2
      rwa [Nat.ble_eq] at this
  have midHigh : canonicalFrom base (cellsOf base bs ++ m.filter fun c => Nat.ble (base + bs.length) c.1) = true :=
    canonicalFrom_append (mid := base + bs.length) (canonicalFrom_cellsOf base bs)
      (fun c hc => (cellsOf_range base bs c hc).2) (canonicalFrom_mono (by omega) high)
  rw [List.append_assoc]
  refine canonicalFrom_append (mid := base) low (fun c hc => ?_) (canonicalFrom_mono (by omega) midHigh)
  have := (List.mem_filter.mp hc).2
  rwa [Nat.blt_eq] at this

theorem canonical_writeWords (m : List Host.Cell) (base : Nat) (vs : List Word) (h : canonical m = true) :
    canonical (writeWords m base vs) = true := canonical_writeBytes _ _ _ h

theorem canonical_writeWord (m : List Host.Cell) (a : Nat) (v : Word) (h : canonical m = true) :
    canonical (writeWord m a v) = true := canonical_writeWords _ _ _ h

theorem canonical_writeCplx (m : List Host.Cell) (base : Nat) (cs : List Cplx) (h : canonical m = true) :
    canonical (writeCplx m base cs) = true := canonical_writeWords _ _ _ h

/-- A cell after a write is an old one outside the run or lies in the run. -/
theorem mem_writeBytes (m : List Host.Cell) (base : Nat) (bs : List Byte) (c : Host.Cell) (h : c ∈ writeBytes m base bs) :
    c ∈ m ∨ (base ≤ c.1 ∧ c.1 < base + bs.length) := by
  simp only [writeBytes, List.mem_append, List.mem_filter] at h
  rcases h with (h | h) | h
  · exact .inl h.1
  · exact .inr (cellsOf_range base bs c h)
  · exact .inl h.1

/-- In canonical form memory is determined by what its bytes read as. -/
theorem canonical_ext : ∀ (m m' : List Host.Cell) (lo : Nat), canonicalFrom lo m = true → canonicalFrom lo m' = true →
    (∀ a, readByte m a = readByte m' a) → m = m'
  | [], [], _, _, _, _ => rfl
  | [], (a, b) :: m', lo, _, h', e => by
    simp only [canonicalFrom, Bool.and_eq_true, bne_iff_ne] at h'
    have := e a
    simp only [readByte, if_true] at this
    exact absurd this.symm h'.1.2
  | (a, b) :: m, [], lo, h, _, e => by
    simp only [canonicalFrom, Bool.and_eq_true, bne_iff_ne] at h
    have := e a
    simp only [readByte, if_true] at this
    exact absurd this h.1.2
  | (a, b) :: m, (a', b') :: m', lo, h, h', e => by
    simp only [canonicalFrom, Bool.and_eq_true, bne_iff_ne, Nat.ble_eq] at h h'
    have far : ∀ {lo x : Nat} {l : List Host.Cell}, canonicalFrom lo l = true → x < lo → readByte l x = unlistedByte :=
      fun hl hx => readByte_of_not_mem _ _ fun c hc e => by
        have := canonicalFrom_le hl c hc
        omega
    have haa : a = a' := by
      rcases Nat.lt_trichotomy a a' with hlt | heq | hgt
      · have := e a
        simp only [readByte, if_true, show a' ≠ a by omega, if_false, far h'.2 (show a < a' + 1 by omega)] at this
        exact absurd this h.1.2
      · exact heq
      · have := e a'
        simp only [readByte, if_true, show a ≠ a' by omega, if_false, far h.2 (show a' < a + 1 by omega)] at this
        exact absurd this.symm h'.1.2
    subst haa
    have hb : b = b' := by simpa [readByte] using e a
    subst hb
    congr 1
    refine canonical_ext m m' (a + 1) h.2 h'.2 fun x => ?_
    by_cases hx : x = a
    · subst hx
      rw [far h.2 (by omega), far h'.2 (by omega)]
    · have := e x
      simpa only [readByte, show a ≠ x from fun e => hx e.symm, if_false] using this

end Sys2Proof.Machine
end

