-- ==== Sys2Proof/Laws/State.lean ====
section
/-! SUPPORT. What each update of the state does to each field: one lemma a field, true by unfolding the update once. -/

namespace Sys2Proof.Machine

/-! ### `State.flag` -/

@[simp] theorem State.flag_ctrl (s : State) (bit : BitVec 4) : (s.flag bit).ctrl = s.ctrl := rfl
@[simp] theorem State.flag_status (s : State) (bit : BitVec 4) : (s.flag bit).status = s.status := rfl
@[simp] theorem State.flag_cmd (s : State) (bit : BitVec 4) : (s.flag bit).cmd = s.cmd := rfl
@[simp] theorem State.flag_errmask (s : State) (bit : BitVec 4) : (s.flag bit).errmask = s.errmask := rfl
@[simp] theorem State.flag_errsticky (s : State) (bit : BitVec 4) : (s.flag bit).errsticky = s.errsticky := rfl
@[simp] theorem State.flag_opa (s : State) (bit : BitVec 4) : (s.flag bit).opa = s.opa := rfl
@[simp] theorem State.flag_opb (s : State) (bit : BitVec 4) : (s.flag bit).opb = s.opb := rfl
@[simp] theorem State.flag_opc (s : State) (bit : BitVec 4) : (s.flag bit).opc = s.opc := rfl
@[simp] theorem State.flag_res0 (s : State) (bit : BitVec 4) : (s.flag bit).res0 = s.res0 := rfl
@[simp] theorem State.flag_bcCfg (s : State) (bit : BitVec 4) : (s.flag bit).bcCfg = s.bcCfg := rfl
@[simp] theorem State.flag_bcFill (s : State) (bit : BitVec 4) : (s.flag bit).bcFill = s.bcFill := rfl
@[simp] theorem State.flag_bcWptr (s : State) (bit : BitVec 4) : (s.flag bit).bcWptr = s.bcWptr := rfl
@[simp] theorem State.flag_bcRes (s : State) (bit : BitVec 4) : (s.flag bit).bcRes = s.bcRes := rfl
@[simp] theorem State.flag_fftCfg (s : State) (bit : BitVec 4) : (s.flag bit).fftCfg = s.fftCfg := rfl
@[simp] theorem State.flag_rpFill (s : State) (bit : BitVec 4) : (s.flag bit).rpFill = s.rpFill := rfl
@[simp] theorem State.flag_pkK (s : State) (bit : BitVec 4) : (s.flag bit).pkK = s.pkK := rfl
@[simp] theorem State.flag_pkCount (s : State) (bit : BitVec 4) : (s.flag bit).pkCount = s.pkCount := rfl
@[simp] theorem State.flag_fs (s : State) (bit : BitVec 4) : (s.flag bit).fs = s.fs := rfl
@[simp] theorem State.flag_mem (s : State) (bit : BitVec 4) : (s.flag bit).mem = s.mem := rfl
@[simp] theorem State.flag_engine (s : State) (bit : BitVec 4) : (s.flag bit).engine = s.engine := rfl
@[simp] theorem State.flag_cmask (s : State) (bit : BitVec 4) : (s.flag bit).cmask = s.cmask ||| bit := rfl
@[simp] theorem State.flag_inbox (s : State) (bit : BitVec 4) : (s.flag bit).inbox = s.inbox := rfl
@[simp] theorem State.flag_replies (s : State) (bit : BitVec 4) : (s.flag bit).replies = s.replies := rfl
@[simp] theorem State.flag_delays (s : State) (bit : BitVec 4) : (s.flag bit).delays = s.delays := rfl
@[simp] theorem State.flag_freeIdx (s : State) (bit : BitVec 4) : (s.flag bit).freeIdx = s.freeIdx := rfl

/-! ### `State.completeOk` -/

@[simp] theorem State.completeOk_ctrl (s : State) : s.completeOk.ctrl = s.ctrl := rfl
@[simp] theorem State.completeOk_status (s : State) : s.completeOk.status = { s.status with errcode := 0, done := true } := rfl
@[simp] theorem State.completeOk_cmd (s : State) : s.completeOk.cmd = s.cmd := rfl
@[simp] theorem State.completeOk_errmask (s : State) : s.completeOk.errmask = s.cmask := rfl
@[simp] theorem State.completeOk_errsticky (s : State) : s.completeOk.errsticky = s.errsticky ||| s.cmask := rfl
@[simp] theorem State.completeOk_opa (s : State) : s.completeOk.opa = s.opa := rfl
@[simp] theorem State.completeOk_opb (s : State) : s.completeOk.opb = s.opb := rfl
@[simp] theorem State.completeOk_opc (s : State) : s.completeOk.opc = s.opc := rfl
@[simp] theorem State.completeOk_res0 (s : State) : s.completeOk.res0 = s.res0 := rfl
@[simp] theorem State.completeOk_bcCfg (s : State) : s.completeOk.bcCfg = s.bcCfg := rfl
@[simp] theorem State.completeOk_bcFill (s : State) : s.completeOk.bcFill = s.bcFill := rfl
@[simp] theorem State.completeOk_bcWptr (s : State) : s.completeOk.bcWptr = s.bcWptr := rfl
@[simp] theorem State.completeOk_bcRes (s : State) : s.completeOk.bcRes = s.bcRes := rfl
@[simp] theorem State.completeOk_fftCfg (s : State) : s.completeOk.fftCfg = s.fftCfg := rfl
@[simp] theorem State.completeOk_rpFill (s : State) : s.completeOk.rpFill = s.rpFill := rfl
@[simp] theorem State.completeOk_pkK (s : State) : s.completeOk.pkK = s.pkK := rfl
@[simp] theorem State.completeOk_pkCount (s : State) : s.completeOk.pkCount = s.pkCount := rfl
@[simp] theorem State.completeOk_fs (s : State) : s.completeOk.fs = s.fs := rfl
@[simp] theorem State.completeOk_mem (s : State) : s.completeOk.mem = s.mem := rfl
@[simp] theorem State.completeOk_engine (s : State) : s.completeOk.engine = .idle := rfl
@[simp] theorem State.completeOk_cmask (s : State) : s.completeOk.cmask = 0 := rfl
@[simp] theorem State.completeOk_inbox (s : State) : s.completeOk.inbox = s.inbox := rfl
@[simp] theorem State.completeOk_replies (s : State) : s.completeOk.replies = s.replies := rfl
@[simp] theorem State.completeOk_delays (s : State) : s.completeOk.delays = s.delays := rfl
@[simp] theorem State.completeOk_freeIdx (s : State) : s.completeOk.freeIdx = s.freeIdx := rfl

/-! ### `State.raiseFault` -/

@[simp] theorem State.raiseFault_ctrl (s : State) (code : FaultCode) : (s.raiseFault code).ctrl = s.ctrl := rfl
@[simp] theorem State.raiseFault_status (s : State) (code : FaultCode) : (s.raiseFault code).status = { s.status with errcode := code.number, done := true, err := true } := rfl
@[simp] theorem State.raiseFault_cmd (s : State) (code : FaultCode) : (s.raiseFault code).cmd = s.cmd := rfl
@[simp] theorem State.raiseFault_errmask (s : State) (code : FaultCode) : (s.raiseFault code).errmask = 0 := rfl
@[simp] theorem State.raiseFault_errsticky (s : State) (code : FaultCode) : (s.raiseFault code).errsticky = s.errsticky := rfl
@[simp] theorem State.raiseFault_opa (s : State) (code : FaultCode) : (s.raiseFault code).opa = s.opa := rfl
@[simp] theorem State.raiseFault_opb (s : State) (code : FaultCode) : (s.raiseFault code).opb = s.opb := rfl
@[simp] theorem State.raiseFault_opc (s : State) (code : FaultCode) : (s.raiseFault code).opc = s.opc := rfl
@[simp] theorem State.raiseFault_res0 (s : State) (code : FaultCode) : (s.raiseFault code).res0 = s.res0 := rfl
@[simp] theorem State.raiseFault_bcCfg (s : State) (code : FaultCode) : (s.raiseFault code).bcCfg = s.bcCfg := rfl
@[simp] theorem State.raiseFault_bcFill (s : State) (code : FaultCode) : (s.raiseFault code).bcFill = s.bcFill := rfl
@[simp] theorem State.raiseFault_bcWptr (s : State) (code : FaultCode) : (s.raiseFault code).bcWptr = s.bcWptr := rfl
@[simp] theorem State.raiseFault_bcRes (s : State) (code : FaultCode) : (s.raiseFault code).bcRes = s.bcRes := rfl
@[simp] theorem State.raiseFault_fftCfg (s : State) (code : FaultCode) : (s.raiseFault code).fftCfg = s.fftCfg := rfl
@[simp] theorem State.raiseFault_rpFill (s : State) (code : FaultCode) : (s.raiseFault code).rpFill = s.rpFill := rfl
@[simp] theorem State.raiseFault_pkK (s : State) (code : FaultCode) : (s.raiseFault code).pkK = s.pkK := rfl
@[simp] theorem State.raiseFault_pkCount (s : State) (code : FaultCode) : (s.raiseFault code).pkCount = s.pkCount := rfl
@[simp] theorem State.raiseFault_fs (s : State) (code : FaultCode) : (s.raiseFault code).fs = s.fs := rfl
@[simp] theorem State.raiseFault_mem (s : State) (code : FaultCode) : (s.raiseFault code).mem = s.mem := rfl
@[simp] theorem State.raiseFault_engine (s : State) (code : FaultCode) : (s.raiseFault code).engine = .idle := rfl
@[simp] theorem State.raiseFault_cmask (s : State) (code : FaultCode) : (s.raiseFault code).cmask = 0 := rfl
@[simp] theorem State.raiseFault_inbox (s : State) (code : FaultCode) : (s.raiseFault code).inbox = s.inbox := rfl
@[simp] theorem State.raiseFault_replies (s : State) (code : FaultCode) : (s.raiseFault code).replies = s.replies := rfl
@[simp] theorem State.raiseFault_delays (s : State) (code : FaultCode) : (s.raiseFault code).delays = s.delays := rfl
@[simp] theorem State.raiseFault_freeIdx (s : State) (code : FaultCode) : (s.raiseFault code).freeIdx = s.freeIdx := rfl

/-! ### `State.drawDelay` -/

@[simp] theorem State.drawDelay_ctrl (s : State) : s.drawDelay.ctrl = s.ctrl := rfl
@[simp] theorem State.drawDelay_status (s : State) : s.drawDelay.status = s.status := rfl
@[simp] theorem State.drawDelay_cmd (s : State) : s.drawDelay.cmd = s.cmd := rfl
@[simp] theorem State.drawDelay_errmask (s : State) : s.drawDelay.errmask = s.errmask := rfl
@[simp] theorem State.drawDelay_errsticky (s : State) : s.drawDelay.errsticky = s.errsticky := rfl
@[simp] theorem State.drawDelay_opa (s : State) : s.drawDelay.opa = s.opa := rfl
@[simp] theorem State.drawDelay_opb (s : State) : s.drawDelay.opb = s.opb := rfl
@[simp] theorem State.drawDelay_opc (s : State) : s.drawDelay.opc = s.opc := rfl
@[simp] theorem State.drawDelay_res0 (s : State) : s.drawDelay.res0 = s.res0 := rfl
@[simp] theorem State.drawDelay_bcCfg (s : State) : s.drawDelay.bcCfg = s.bcCfg := rfl
@[simp] theorem State.drawDelay_bcFill (s : State) : s.drawDelay.bcFill = s.bcFill := rfl
@[simp] theorem State.drawDelay_bcWptr (s : State) : s.drawDelay.bcWptr = s.bcWptr := rfl
@[simp] theorem State.drawDelay_bcRes (s : State) : s.drawDelay.bcRes = s.bcRes := rfl
@[simp] theorem State.drawDelay_fftCfg (s : State) : s.drawDelay.fftCfg = s.fftCfg := rfl
@[simp] theorem State.drawDelay_rpFill (s : State) : s.drawDelay.rpFill = s.rpFill := rfl
@[simp] theorem State.drawDelay_pkK (s : State) : s.drawDelay.pkK = s.pkK := rfl
@[simp] theorem State.drawDelay_pkCount (s : State) : s.drawDelay.pkCount = s.pkCount := rfl
@[simp] theorem State.drawDelay_fs (s : State) : s.drawDelay.fs = s.fs := rfl
@[simp] theorem State.drawDelay_mem (s : State) : s.drawDelay.mem = s.mem := rfl
@[simp] theorem State.drawDelay_engine (s : State) : s.drawDelay.engine = s.engine := rfl
@[simp] theorem State.drawDelay_cmask (s : State) : s.drawDelay.cmask = s.cmask := rfl
@[simp] theorem State.drawDelay_inbox (s : State) : s.drawDelay.inbox = s.inbox := rfl
@[simp] theorem State.drawDelay_replies (s : State) : s.drawDelay.replies = s.replies := rfl
@[simp] theorem State.drawDelay_delays (s : State) : s.drawDelay.delays = s.delays.tail := rfl
@[simp] theorem State.drawDelay_freeIdx (s : State) : s.drawDelay.freeIdx = s.freeIdx + 1 := rfl

/-! ### `State.storeWork` -/

@[simp] theorem State.storeWork_ctrl (s : State) (cs : List Cplx) : (s.storeWork cs).ctrl = s.ctrl := rfl
@[simp] theorem State.storeWork_status (s : State) (cs : List Cplx) : (s.storeWork cs).status = s.status := rfl
@[simp] theorem State.storeWork_cmd (s : State) (cs : List Cplx) : (s.storeWork cs).cmd = s.cmd := rfl
@[simp] theorem State.storeWork_errmask (s : State) (cs : List Cplx) : (s.storeWork cs).errmask = s.errmask := rfl
@[simp] theorem State.storeWork_errsticky (s : State) (cs : List Cplx) : (s.storeWork cs).errsticky = s.errsticky := rfl
@[simp] theorem State.storeWork_opa (s : State) (cs : List Cplx) : (s.storeWork cs).opa = s.opa := rfl
@[simp] theorem State.storeWork_opb (s : State) (cs : List Cplx) : (s.storeWork cs).opb = s.opb := rfl
@[simp] theorem State.storeWork_opc (s : State) (cs : List Cplx) : (s.storeWork cs).opc = s.opc := rfl
@[simp] theorem State.storeWork_res0 (s : State) (cs : List Cplx) : (s.storeWork cs).res0 = s.res0 := rfl
@[simp] theorem State.storeWork_bcCfg (s : State) (cs : List Cplx) : (s.storeWork cs).bcCfg = s.bcCfg := rfl
@[simp] theorem State.storeWork_bcFill (s : State) (cs : List Cplx) : (s.storeWork cs).bcFill = s.bcFill := rfl
@[simp] theorem State.storeWork_bcWptr (s : State) (cs : List Cplx) : (s.storeWork cs).bcWptr = s.bcWptr := rfl
@[simp] theorem State.storeWork_bcRes (s : State) (cs : List Cplx) : (s.storeWork cs).bcRes = s.bcRes := rfl
@[simp] theorem State.storeWork_fftCfg (s : State) (cs : List Cplx) : (s.storeWork cs).fftCfg = s.fftCfg := rfl
@[simp] theorem State.storeWork_rpFill (s : State) (cs : List Cplx) : (s.storeWork cs).rpFill = s.rpFill := rfl
@[simp] theorem State.storeWork_pkK (s : State) (cs : List Cplx) : (s.storeWork cs).pkK = s.pkK := rfl
@[simp] theorem State.storeWork_pkCount (s : State) (cs : List Cplx) : (s.storeWork cs).pkCount = s.pkCount := rfl
@[simp] theorem State.storeWork_fs (s : State) (cs : List Cplx) : (s.storeWork cs).fs = s.fs := rfl
@[simp] theorem State.storeWork_mem (s : State) (cs : List Cplx) : (s.storeWork cs).mem = writeCplx s.mem workBase cs := rfl
@[simp] theorem State.storeWork_engine (s : State) (cs : List Cplx) : (s.storeWork cs).engine = s.engine := rfl
@[simp] theorem State.storeWork_cmask (s : State) (cs : List Cplx) : (s.storeWork cs).cmask = s.cmask := rfl
@[simp] theorem State.storeWork_inbox (s : State) (cs : List Cplx) : (s.storeWork cs).inbox = s.inbox := rfl
@[simp] theorem State.storeWork_replies (s : State) (cs : List Cplx) : (s.storeWork cs).replies = s.replies := rfl
@[simp] theorem State.storeWork_delays (s : State) (cs : List Cplx) : (s.storeWork cs).delays = s.delays := rfl
@[simp] theorem State.storeWork_freeIdx (s : State) (cs : List Cplx) : (s.storeWork cs).freeIdx = s.freeIdx := rfl

/-! ### `State.storeSeries` -/

@[simp] theorem State.storeSeries_ctrl (s : State) (vs : List F64) : (s.storeSeries vs).ctrl = s.ctrl := rfl
@[simp] theorem State.storeSeries_status (s : State) (vs : List F64) : (s.storeSeries vs).status = s.status := rfl
@[simp] theorem State.storeSeries_cmd (s : State) (vs : List F64) : (s.storeSeries vs).cmd = s.cmd := rfl
@[simp] theorem State.storeSeries_errmask (s : State) (vs : List F64) : (s.storeSeries vs).errmask = s.errmask := rfl
@[simp] theorem State.storeSeries_errsticky (s : State) (vs : List F64) : (s.storeSeries vs).errsticky = s.errsticky := rfl
@[simp] theorem State.storeSeries_opa (s : State) (vs : List F64) : (s.storeSeries vs).opa = s.opa := rfl
@[simp] theorem State.storeSeries_opb (s : State) (vs : List F64) : (s.storeSeries vs).opb = s.opb := rfl
@[simp] theorem State.storeSeries_opc (s : State) (vs : List F64) : (s.storeSeries vs).opc = s.opc := rfl
@[simp] theorem State.storeSeries_res0 (s : State) (vs : List F64) : (s.storeSeries vs).res0 = s.res0 := rfl
@[simp] theorem State.storeSeries_bcCfg (s : State) (vs : List F64) : (s.storeSeries vs).bcCfg = s.bcCfg := rfl
@[simp] theorem State.storeSeries_bcFill (s : State) (vs : List F64) : (s.storeSeries vs).bcFill = s.bcFill := rfl
@[simp] theorem State.storeSeries_bcWptr (s : State) (vs : List F64) : (s.storeSeries vs).bcWptr = s.bcWptr := rfl
@[simp] theorem State.storeSeries_bcRes (s : State) (vs : List F64) : (s.storeSeries vs).bcRes = s.bcRes := rfl
@[simp] theorem State.storeSeries_fftCfg (s : State) (vs : List F64) : (s.storeSeries vs).fftCfg = s.fftCfg := rfl
@[simp] theorem State.storeSeries_rpFill (s : State) (vs : List F64) : (s.storeSeries vs).rpFill = s.rpFill := rfl
@[simp] theorem State.storeSeries_pkK (s : State) (vs : List F64) : (s.storeSeries vs).pkK = s.pkK := rfl
@[simp] theorem State.storeSeries_pkCount (s : State) (vs : List F64) : (s.storeSeries vs).pkCount = s.pkCount := rfl
@[simp] theorem State.storeSeries_fs (s : State) (vs : List F64) : (s.storeSeries vs).fs = s.fs := rfl
@[simp] theorem State.storeSeries_mem (s : State) (vs : List F64) : (s.storeSeries vs).mem = writeWords s.mem seriesBase vs := rfl
@[simp] theorem State.storeSeries_engine (s : State) (vs : List F64) : (s.storeSeries vs).engine = s.engine := rfl
@[simp] theorem State.storeSeries_cmask (s : State) (vs : List F64) : (s.storeSeries vs).cmask = s.cmask := rfl
@[simp] theorem State.storeSeries_inbox (s : State) (vs : List F64) : (s.storeSeries vs).inbox = s.inbox := rfl
@[simp] theorem State.storeSeries_replies (s : State) (vs : List F64) : (s.storeSeries vs).replies = s.replies := rfl
@[simp] theorem State.storeSeries_delays (s : State) (vs : List F64) : (s.storeSeries vs).delays = s.delays := rfl
@[simp] theorem State.storeSeries_freeIdx (s : State) (vs : List F64) : (s.storeSeries vs).freeIdx = s.freeIdx := rfl

/-! ### `State.storeRipple` -/

@[simp] theorem State.storeRipple_ctrl (s : State) (vs : List F64) : (s.storeRipple vs).ctrl = s.ctrl := rfl
@[simp] theorem State.storeRipple_status (s : State) (vs : List F64) : (s.storeRipple vs).status = s.status := rfl
@[simp] theorem State.storeRipple_cmd (s : State) (vs : List F64) : (s.storeRipple vs).cmd = s.cmd := rfl
@[simp] theorem State.storeRipple_errmask (s : State) (vs : List F64) : (s.storeRipple vs).errmask = s.errmask := rfl
@[simp] theorem State.storeRipple_errsticky (s : State) (vs : List F64) : (s.storeRipple vs).errsticky = s.errsticky := rfl
@[simp] theorem State.storeRipple_opa (s : State) (vs : List F64) : (s.storeRipple vs).opa = s.opa := rfl
@[simp] theorem State.storeRipple_opb (s : State) (vs : List F64) : (s.storeRipple vs).opb = s.opb := rfl
@[simp] theorem State.storeRipple_opc (s : State) (vs : List F64) : (s.storeRipple vs).opc = s.opc := rfl
@[simp] theorem State.storeRipple_res0 (s : State) (vs : List F64) : (s.storeRipple vs).res0 = s.res0 := rfl
@[simp] theorem State.storeRipple_bcCfg (s : State) (vs : List F64) : (s.storeRipple vs).bcCfg = s.bcCfg := rfl
@[simp] theorem State.storeRipple_bcFill (s : State) (vs : List F64) : (s.storeRipple vs).bcFill = s.bcFill := rfl
@[simp] theorem State.storeRipple_bcWptr (s : State) (vs : List F64) : (s.storeRipple vs).bcWptr = s.bcWptr := rfl
@[simp] theorem State.storeRipple_bcRes (s : State) (vs : List F64) : (s.storeRipple vs).bcRes = s.bcRes := rfl
@[simp] theorem State.storeRipple_fftCfg (s : State) (vs : List F64) : (s.storeRipple vs).fftCfg = s.fftCfg := rfl
@[simp] theorem State.storeRipple_rpFill (s : State) (vs : List F64) : (s.storeRipple vs).rpFill = s.rpFill := rfl
@[simp] theorem State.storeRipple_pkK (s : State) (vs : List F64) : (s.storeRipple vs).pkK = s.pkK := rfl
@[simp] theorem State.storeRipple_pkCount (s : State) (vs : List F64) : (s.storeRipple vs).pkCount = s.pkCount := rfl
@[simp] theorem State.storeRipple_fs (s : State) (vs : List F64) : (s.storeRipple vs).fs = s.fs := rfl
@[simp] theorem State.storeRipple_mem (s : State) (vs : List F64) : (s.storeRipple vs).mem = writeWords s.mem rippleBase vs := rfl
@[simp] theorem State.storeRipple_engine (s : State) (vs : List F64) : (s.storeRipple vs).engine = s.engine := rfl
@[simp] theorem State.storeRipple_cmask (s : State) (vs : List F64) : (s.storeRipple vs).cmask = s.cmask := rfl
@[simp] theorem State.storeRipple_inbox (s : State) (vs : List F64) : (s.storeRipple vs).inbox = s.inbox := rfl
@[simp] theorem State.storeRipple_replies (s : State) (vs : List F64) : (s.storeRipple vs).replies = s.replies := rfl
@[simp] theorem State.storeRipple_delays (s : State) (vs : List F64) : (s.storeRipple vs).delays = s.delays := rfl
@[simp] theorem State.storeRipple_freeIdx (s : State) (vs : List F64) : (s.storeRipple vs).freeIdx = s.freeIdx := rfl

/-! ### `State.setOvr` -/

@[simp] theorem State.setOvr_ctrl (s : State) : s.setOvr.ctrl = s.ctrl := rfl
@[simp] theorem State.setOvr_status (s : State) : s.setOvr.status = { s.status with ovr := true } := rfl
@[simp] theorem State.setOvr_cmd (s : State) : s.setOvr.cmd = s.cmd := rfl
@[simp] theorem State.setOvr_errmask (s : State) : s.setOvr.errmask = s.errmask := rfl
@[simp] theorem State.setOvr_errsticky (s : State) : s.setOvr.errsticky = s.errsticky := rfl
@[simp] theorem State.setOvr_opa (s : State) : s.setOvr.opa = s.opa := rfl
@[simp] theorem State.setOvr_opb (s : State) : s.setOvr.opb = s.opb := rfl
@[simp] theorem State.setOvr_opc (s : State) : s.setOvr.opc = s.opc := rfl
@[simp] theorem State.setOvr_res0 (s : State) : s.setOvr.res0 = s.res0 := rfl
@[simp] theorem State.setOvr_bcCfg (s : State) : s.setOvr.bcCfg = s.bcCfg := rfl
@[simp] theorem State.setOvr_bcFill (s : State) : s.setOvr.bcFill = s.bcFill := rfl
@[simp] theorem State.setOvr_bcWptr (s : State) : s.setOvr.bcWptr = s.bcWptr := rfl
@[simp] theorem State.setOvr_bcRes (s : State) : s.setOvr.bcRes = s.bcRes := rfl
@[simp] theorem State.setOvr_fftCfg (s : State) : s.setOvr.fftCfg = s.fftCfg := rfl
@[simp] theorem State.setOvr_rpFill (s : State) : s.setOvr.rpFill = s.rpFill := rfl
@[simp] theorem State.setOvr_pkK (s : State) : s.setOvr.pkK = s.pkK := rfl
@[simp] theorem State.setOvr_pkCount (s : State) : s.setOvr.pkCount = s.pkCount := rfl
@[simp] theorem State.setOvr_fs (s : State) : s.setOvr.fs = s.fs := rfl
@[simp] theorem State.setOvr_mem (s : State) : s.setOvr.mem = s.mem := rfl
@[simp] theorem State.setOvr_engine (s : State) : s.setOvr.engine = s.engine := rfl
@[simp] theorem State.setOvr_cmask (s : State) : s.setOvr.cmask = s.cmask := rfl
@[simp] theorem State.setOvr_inbox (s : State) : s.setOvr.inbox = s.inbox := rfl
@[simp] theorem State.setOvr_replies (s : State) : s.setOvr.replies = s.replies := rfl
@[simp] theorem State.setOvr_delays (s : State) : s.setOvr.delays = s.delays := rfl
@[simp] theorem State.setOvr_freeIdx (s : State) : s.setOvr.freeIdx = s.freeIdx := rfl

/-! ### `State.setHaz` -/

@[simp] theorem State.setHaz_ctrl (s : State) : s.setHaz.ctrl = s.ctrl := rfl
@[simp] theorem State.setHaz_status (s : State) : s.setHaz.status = { s.status with haz := true } := rfl
@[simp] theorem State.setHaz_cmd (s : State) : s.setHaz.cmd = s.cmd := rfl
@[simp] theorem State.setHaz_errmask (s : State) : s.setHaz.errmask = s.errmask := rfl
@[simp] theorem State.setHaz_errsticky (s : State) : s.setHaz.errsticky = s.errsticky := rfl
@[simp] theorem State.setHaz_opa (s : State) : s.setHaz.opa = s.opa := rfl
@[simp] theorem State.setHaz_opb (s : State) : s.setHaz.opb = s.opb := rfl
@[simp] theorem State.setHaz_opc (s : State) : s.setHaz.opc = s.opc := rfl
@[simp] theorem State.setHaz_res0 (s : State) : s.setHaz.res0 = s.res0 := rfl
@[simp] theorem State.setHaz_bcCfg (s : State) : s.setHaz.bcCfg = s.bcCfg := rfl
@[simp] theorem State.setHaz_bcFill (s : State) : s.setHaz.bcFill = s.bcFill := rfl
@[simp] theorem State.setHaz_bcWptr (s : State) : s.setHaz.bcWptr = s.bcWptr := rfl
@[simp] theorem State.setHaz_bcRes (s : State) : s.setHaz.bcRes = s.bcRes := rfl
@[simp] theorem State.setHaz_fftCfg (s : State) : s.setHaz.fftCfg = s.fftCfg := rfl
@[simp] theorem State.setHaz_rpFill (s : State) : s.setHaz.rpFill = s.rpFill := rfl
@[simp] theorem State.setHaz_pkK (s : State) : s.setHaz.pkK = s.pkK := rfl
@[simp] theorem State.setHaz_pkCount (s : State) : s.setHaz.pkCount = s.pkCount := rfl
@[simp] theorem State.setHaz_fs (s : State) : s.setHaz.fs = s.fs := rfl
@[simp] theorem State.setHaz_mem (s : State) : s.setHaz.mem = s.mem := rfl
@[simp] theorem State.setHaz_engine (s : State) : s.setHaz.engine = s.engine := rfl
@[simp] theorem State.setHaz_cmask (s : State) : s.setHaz.cmask = s.cmask := rfl
@[simp] theorem State.setHaz_inbox (s : State) : s.setHaz.inbox = s.inbox := rfl
@[simp] theorem State.setHaz_replies (s : State) : s.setHaz.replies = s.replies := rfl
@[simp] theorem State.setHaz_delays (s : State) : s.setHaz.delays = s.delays := rfl
@[simp] theorem State.setHaz_freeIdx (s : State) : s.setHaz.freeIdx = s.freeIdx := rfl

/-! ### `State.setBerr` -/

@[simp] theorem State.setBerr_ctrl (s : State) : s.setBerr.ctrl = s.ctrl := rfl
@[simp] theorem State.setBerr_status (s : State) : s.setBerr.status = { s.status with berr := true } := rfl
@[simp] theorem State.setBerr_cmd (s : State) : s.setBerr.cmd = s.cmd := rfl
@[simp] theorem State.setBerr_errmask (s : State) : s.setBerr.errmask = s.errmask := rfl
@[simp] theorem State.setBerr_errsticky (s : State) : s.setBerr.errsticky = s.errsticky := rfl
@[simp] theorem State.setBerr_opa (s : State) : s.setBerr.opa = s.opa := rfl
@[simp] theorem State.setBerr_opb (s : State) : s.setBerr.opb = s.opb := rfl
@[simp] theorem State.setBerr_opc (s : State) : s.setBerr.opc = s.opc := rfl
@[simp] theorem State.setBerr_res0 (s : State) : s.setBerr.res0 = s.res0 := rfl
@[simp] theorem State.setBerr_bcCfg (s : State) : s.setBerr.bcCfg = s.bcCfg := rfl
@[simp] theorem State.setBerr_bcFill (s : State) : s.setBerr.bcFill = s.bcFill := rfl
@[simp] theorem State.setBerr_bcWptr (s : State) : s.setBerr.bcWptr = s.bcWptr := rfl
@[simp] theorem State.setBerr_bcRes (s : State) : s.setBerr.bcRes = s.bcRes := rfl
@[simp] theorem State.setBerr_fftCfg (s : State) : s.setBerr.fftCfg = s.fftCfg := rfl
@[simp] theorem State.setBerr_rpFill (s : State) : s.setBerr.rpFill = s.rpFill := rfl
@[simp] theorem State.setBerr_pkK (s : State) : s.setBerr.pkK = s.pkK := rfl
@[simp] theorem State.setBerr_pkCount (s : State) : s.setBerr.pkCount = s.pkCount := rfl
@[simp] theorem State.setBerr_fs (s : State) : s.setBerr.fs = s.fs := rfl
@[simp] theorem State.setBerr_mem (s : State) : s.setBerr.mem = s.mem := rfl
@[simp] theorem State.setBerr_engine (s : State) : s.setBerr.engine = s.engine := rfl
@[simp] theorem State.setBerr_cmask (s : State) : s.setBerr.cmask = s.cmask := rfl
@[simp] theorem State.setBerr_inbox (s : State) : s.setBerr.inbox = s.inbox := rfl
@[simp] theorem State.setBerr_replies (s : State) : s.setBerr.replies = s.replies := rfl
@[simp] theorem State.setBerr_delays (s : State) : s.setBerr.delays = s.delays := rfl
@[simp] theorem State.setBerr_freeIdx (s : State) : s.setBerr.freeIdx = s.freeIdx := rfl

/-! ### `State.reply` -/

@[simp] theorem State.reply_ctrl (s : State) (v : Word) : (s.reply v).ctrl = s.ctrl := rfl
@[simp] theorem State.reply_status (s : State) (v : Word) : (s.reply v).status = s.status := rfl
@[simp] theorem State.reply_cmd (s : State) (v : Word) : (s.reply v).cmd = s.cmd := rfl
@[simp] theorem State.reply_errmask (s : State) (v : Word) : (s.reply v).errmask = s.errmask := rfl
@[simp] theorem State.reply_errsticky (s : State) (v : Word) : (s.reply v).errsticky = s.errsticky := rfl
@[simp] theorem State.reply_opa (s : State) (v : Word) : (s.reply v).opa = s.opa := rfl
@[simp] theorem State.reply_opb (s : State) (v : Word) : (s.reply v).opb = s.opb := rfl
@[simp] theorem State.reply_opc (s : State) (v : Word) : (s.reply v).opc = s.opc := rfl
@[simp] theorem State.reply_res0 (s : State) (v : Word) : (s.reply v).res0 = s.res0 := rfl
@[simp] theorem State.reply_bcCfg (s : State) (v : Word) : (s.reply v).bcCfg = s.bcCfg := rfl
@[simp] theorem State.reply_bcFill (s : State) (v : Word) : (s.reply v).bcFill = s.bcFill := rfl
@[simp] theorem State.reply_bcWptr (s : State) (v : Word) : (s.reply v).bcWptr = s.bcWptr := rfl
@[simp] theorem State.reply_bcRes (s : State) (v : Word) : (s.reply v).bcRes = s.bcRes := rfl
@[simp] theorem State.reply_fftCfg (s : State) (v : Word) : (s.reply v).fftCfg = s.fftCfg := rfl
@[simp] theorem State.reply_rpFill (s : State) (v : Word) : (s.reply v).rpFill = s.rpFill := rfl
@[simp] theorem State.reply_pkK (s : State) (v : Word) : (s.reply v).pkK = s.pkK := rfl
@[simp] theorem State.reply_pkCount (s : State) (v : Word) : (s.reply v).pkCount = s.pkCount := rfl
@[simp] theorem State.reply_fs (s : State) (v : Word) : (s.reply v).fs = s.fs := rfl
@[simp] theorem State.reply_mem (s : State) (v : Word) : (s.reply v).mem = s.mem := rfl
@[simp] theorem State.reply_engine (s : State) (v : Word) : (s.reply v).engine = s.engine := rfl
@[simp] theorem State.reply_cmask (s : State) (v : Word) : (s.reply v).cmask = s.cmask := rfl
@[simp] theorem State.reply_inbox (s : State) (v : Word) : (s.reply v).inbox = s.inbox := rfl
@[simp] theorem State.reply_replies (s : State) (v : Word) : (s.reply v).replies = v :: s.replies := rfl
@[simp] theorem State.reply_delays (s : State) (v : Word) : (s.reply v).delays = s.delays := rfl
@[simp] theorem State.reply_freeIdx (s : State) (v : Word) : (s.reply v).freeIdx = s.freeIdx := rfl

/-! ### `State.replyFree` -/

@[simp] theorem State.replyFree_ctrl (s : State) : s.replyFree.ctrl = s.ctrl := rfl
@[simp] theorem State.replyFree_status (s : State) : s.replyFree.status = s.status := rfl
@[simp] theorem State.replyFree_cmd (s : State) : s.replyFree.cmd = s.cmd := rfl
@[simp] theorem State.replyFree_errmask (s : State) : s.replyFree.errmask = s.errmask := rfl
@[simp] theorem State.replyFree_errsticky (s : State) : s.replyFree.errsticky = s.errsticky := rfl
@[simp] theorem State.replyFree_opa (s : State) : s.replyFree.opa = s.opa := rfl
@[simp] theorem State.replyFree_opb (s : State) : s.replyFree.opb = s.opb := rfl
@[simp] theorem State.replyFree_opc (s : State) : s.replyFree.opc = s.opc := rfl
@[simp] theorem State.replyFree_res0 (s : State) : s.replyFree.res0 = s.res0 := rfl
@[simp] theorem State.replyFree_bcCfg (s : State) : s.replyFree.bcCfg = s.bcCfg := rfl
@[simp] theorem State.replyFree_bcFill (s : State) : s.replyFree.bcFill = s.bcFill := rfl
@[simp] theorem State.replyFree_bcWptr (s : State) : s.replyFree.bcWptr = s.bcWptr := rfl
@[simp] theorem State.replyFree_bcRes (s : State) : s.replyFree.bcRes = s.bcRes := rfl
@[simp] theorem State.replyFree_fftCfg (s : State) : s.replyFree.fftCfg = s.fftCfg := rfl
@[simp] theorem State.replyFree_rpFill (s : State) : s.replyFree.rpFill = s.rpFill := rfl
@[simp] theorem State.replyFree_pkK (s : State) : s.replyFree.pkK = s.pkK := rfl
@[simp] theorem State.replyFree_pkCount (s : State) : s.replyFree.pkCount = s.pkCount := rfl
@[simp] theorem State.replyFree_fs (s : State) : s.replyFree.fs = s.fs := rfl
@[simp] theorem State.replyFree_mem (s : State) : s.replyFree.mem = s.mem := rfl
@[simp] theorem State.replyFree_engine (s : State) : s.replyFree.engine = s.engine := rfl
@[simp] theorem State.replyFree_cmask (s : State) : s.replyFree.cmask = s.cmask := rfl
@[simp] theorem State.replyFree_inbox (s : State) : s.replyFree.inbox = s.inbox := rfl
@[simp] theorem State.replyFree_replies (s : State) : s.replyFree.replies = s.nextRead :: s.replies := rfl
@[simp] theorem State.replyFree_delays (s : State) : s.replyFree.delays = s.delays := rfl
@[simp] theorem State.replyFree_freeIdx (s : State) : s.replyFree.freeIdx = s.freeIdx + 1 := rfl

/-! ### `State.endReset` -/

@[simp] theorem State.endReset_ctrl (s : State) : s.endReset.ctrl = s.ctrl := rfl
@[simp] theorem State.endReset_status (s : State) : s.endReset.status = s.status := rfl
@[simp] theorem State.endReset_cmd (s : State) : s.endReset.cmd = s.cmd := rfl
@[simp] theorem State.endReset_errmask (s : State) : s.endReset.errmask = s.errmask := rfl
@[simp] theorem State.endReset_errsticky (s : State) : s.endReset.errsticky = s.errsticky := rfl
@[simp] theorem State.endReset_opa (s : State) : s.endReset.opa = s.opa := rfl
@[simp] theorem State.endReset_opb (s : State) : s.endReset.opb = s.opb := rfl
@[simp] theorem State.endReset_opc (s : State) : s.endReset.opc = s.opc := rfl
@[simp] theorem State.endReset_res0 (s : State) : s.endReset.res0 = s.res0 := rfl
@[simp] theorem State.endReset_bcCfg (s : State) : s.endReset.bcCfg = s.bcCfg := rfl
@[simp] theorem State.endReset_bcFill (s : State) : s.endReset.bcFill = s.bcFill := rfl
@[simp] theorem State.endReset_bcWptr (s : State) : s.endReset.bcWptr = s.bcWptr := rfl
@[simp] theorem State.endReset_bcRes (s : State) : s.endReset.bcRes = s.bcRes := rfl
@[simp] theorem State.endReset_fftCfg (s : State) : s.endReset.fftCfg = s.fftCfg := rfl
@[simp] theorem State.endReset_rpFill (s : State) : s.endReset.rpFill = s.rpFill := rfl
@[simp] theorem State.endReset_pkK (s : State) : s.endReset.pkK = s.pkK := rfl
@[simp] theorem State.endReset_pkCount (s : State) : s.endReset.pkCount = s.pkCount := rfl
@[simp] theorem State.endReset_fs (s : State) : s.endReset.fs = s.fs := rfl
@[simp] theorem State.endReset_mem (s : State) : s.endReset.mem = s.mem := rfl
@[simp] theorem State.endReset_engine (s : State) : s.endReset.engine = .idle := rfl
@[simp] theorem State.endReset_cmask (s : State) : s.endReset.cmask = s.cmask := rfl
@[simp] theorem State.endReset_inbox (s : State) : s.endReset.inbox = s.inbox := rfl
@[simp] theorem State.endReset_replies (s : State) : s.endReset.replies = s.replies := rfl
@[simp] theorem State.endReset_delays (s : State) : s.endReset.delays = s.delays := rfl
@[simp] theorem State.endReset_freeIdx (s : State) : s.endReset.freeIdx = s.freeIdx := rfl

/-! ### `State.flagIf` -/

@[simp] theorem State.flagIf_ctrl (s : State) (c : Bool) (bit : BitVec 4) : (s.flagIf c bit).ctrl = s.ctrl := by cases c <;> rfl
@[simp] theorem State.flagIf_status (s : State) (c : Bool) (bit : BitVec 4) : (s.flagIf c bit).status = s.status := by cases c <;> rfl
@[simp] theorem State.flagIf_cmd (s : State) (c : Bool) (bit : BitVec 4) : (s.flagIf c bit).cmd = s.cmd := by cases c <;> rfl
@[simp] theorem State.flagIf_errmask (s : State) (c : Bool) (bit : BitVec 4) : (s.flagIf c bit).errmask = s.errmask := by cases c <;> rfl
@[simp] theorem State.flagIf_errsticky (s : State) (c : Bool) (bit : BitVec 4) : (s.flagIf c bit).errsticky = s.errsticky := by cases c <;> rfl
@[simp] theorem State.flagIf_opa (s : State) (c : Bool) (bit : BitVec 4) : (s.flagIf c bit).opa = s.opa := by cases c <;> rfl
@[simp] theorem State.flagIf_opb (s : State) (c : Bool) (bit : BitVec 4) : (s.flagIf c bit).opb = s.opb := by cases c <;> rfl
@[simp] theorem State.flagIf_opc (s : State) (c : Bool) (bit : BitVec 4) : (s.flagIf c bit).opc = s.opc := by cases c <;> rfl
@[simp] theorem State.flagIf_res0 (s : State) (c : Bool) (bit : BitVec 4) : (s.flagIf c bit).res0 = s.res0 := by cases c <;> rfl
@[simp] theorem State.flagIf_bcCfg (s : State) (c : Bool) (bit : BitVec 4) : (s.flagIf c bit).bcCfg = s.bcCfg := by cases c <;> rfl
@[simp] theorem State.flagIf_bcFill (s : State) (c : Bool) (bit : BitVec 4) : (s.flagIf c bit).bcFill = s.bcFill := by cases c <;> rfl
@[simp] theorem State.flagIf_bcWptr (s : State) (c : Bool) (bit : BitVec 4) : (s.flagIf c bit).bcWptr = s.bcWptr := by cases c <;> rfl
@[simp] theorem State.flagIf_bcRes (s : State) (c : Bool) (bit : BitVec 4) : (s.flagIf c bit).bcRes = s.bcRes := by cases c <;> rfl
@[simp] theorem State.flagIf_fftCfg (s : State) (c : Bool) (bit : BitVec 4) : (s.flagIf c bit).fftCfg = s.fftCfg := by cases c <;> rfl
@[simp] theorem State.flagIf_rpFill (s : State) (c : Bool) (bit : BitVec 4) : (s.flagIf c bit).rpFill = s.rpFill := by cases c <;> rfl
@[simp] theorem State.flagIf_pkK (s : State) (c : Bool) (bit : BitVec 4) : (s.flagIf c bit).pkK = s.pkK := by cases c <;> rfl
@[simp] theorem State.flagIf_pkCount (s : State) (c : Bool) (bit : BitVec 4) : (s.flagIf c bit).pkCount = s.pkCount := by cases c <;> rfl
@[simp] theorem State.flagIf_fs (s : State) (c : Bool) (bit : BitVec 4) : (s.flagIf c bit).fs = s.fs := by cases c <;> rfl
@[simp] theorem State.flagIf_mem (s : State) (c : Bool) (bit : BitVec 4) : (s.flagIf c bit).mem = s.mem := by cases c <;> rfl
@[simp] theorem State.flagIf_engine (s : State) (c : Bool) (bit : BitVec 4) : (s.flagIf c bit).engine = s.engine := by cases c <;> rfl
theorem State.flagIf_cmask (s : State) (c : Bool) (bit : BitVec 4) :
    (s.flagIf c bit).cmask = if c then s.cmask ||| bit else s.cmask := by cases c <;> rfl
@[simp] theorem State.flagIf_inbox (s : State) (c : Bool) (bit : BitVec 4) : (s.flagIf c bit).inbox = s.inbox := by cases c <;> rfl
@[simp] theorem State.flagIf_replies (s : State) (c : Bool) (bit : BitVec 4) : (s.flagIf c bit).replies = s.replies := by cases c <;> rfl
@[simp] theorem State.flagIf_delays (s : State) (c : Bool) (bit : BitVec 4) : (s.flagIf c bit).delays = s.delays := by cases c <;> rfl
@[simp] theorem State.flagIf_freeIdx (s : State) (c : Bool) (bit : BitVec 4) : (s.flagIf c bit).freeIdx = s.freeIdx := by cases c <;> rfl

end Sys2Proof.Machine
end

