-- ==== Sys2Proof/Laws/Ops.lean ====
section
/-! SUPPORT. What the shared operations of the commands can do, each said once. -/

namespace Sys2Proof.Machine

/-! ### Running a command (R100, R101, R222) -/

/-- A command always answers a next state: its rule's state completed, or the start state with the fault recorded. -/
theorem runCommand_cases (rule : State → Except FaultCode State) (s t : State) (h : runCommand rule s = .next t) :
    (∃ u, rule { s with cmask := 0 } = .ok u ∧ t = u.completeOk) ∨
    (∃ code, rule { s with cmask := 0 } = .error code ∧ t = faultedFrom s code.number) := by
  simp only [runCommand, Host.Outcome.next.injEq] at h
  subst h
  cases hr : rule { s with cmask := 0 } with
  | ok u => exact .inl ⟨u, rfl, rfl⟩
  | error code => exact .inr ⟨code, rfl, rfl⟩

/-- A rule that ends in a state completes with its condition mask. -/
theorem runCommand_ok (rule : State → Except FaultCode State) (s u : State) (h : rule { s with cmask := 0 } = .ok u) :
    runCommand rule s = .next (completedFrom u u.cmask) := by
  simp only [runCommand, h]; rfl

/-- A rule that raises a fault leaves the start state with the fault recorded (R222). -/
theorem runCommand_error (rule : State → Except FaultCode State) (s : State) (code : FaultCode)
    (h : rule { s with cmask := 0 } = .error code) : runCommand rule s = .next (faultedFrom s code.number) := by
  simp only [runCommand, h]; rfl

/-- Under the size check a rule runs or BAD_CONFIG is raised (R171). -/
theorem withSize_cases (s : State) (rule : Except FaultCode State) :
    (s.sizeOk = true ∧ withSize s rule = rule) ∨ (s.sizeOk = false ∧ withSize s rule = .error .badConfig) := by
  cases h : s.sizeOk <;> simp [withSize, h]

/-- The size check is 6 ≤ LOG2N ≤ 11 (R171). -/
theorem sizeOk_iff (s : State) : s.sizeOk = true ↔ 6 ≤ s.log2n ∧ s.log2n ≤ 11 := by
  simp [State.sizeOk, Config.nMinLog2, Config.nMaxLog2]

/-- The K check is 1 ≤ K ≤ 64 (R200). -/
theorem peakCountOk_iff (s : State) : s.peakCountOk = true ↔ 1 ≤ s.pkK.toNat ∧ s.pkK.toNat ≤ 64 := by
  simp [State.peakCountOk, Config.kMax]

/-- A legal size is at most 2048. -/
theorem fftSize_le (s : State) (h : s.sizeOk = true) : s.fftSize ≤ 2048 := by
  have := (sizeOk_iff s).mp h
  exact Nat.le_trans (Nat.pow_le_pow_right (by omega) this.2) (by decide)

/-! ### Acceptance (R100) -/

/-- What acceptance does: CMD holds the value, `cmask` is 0, the engine runs it; only a legal command draws a duration. -/
theorem accept_cases (c : Word) (s : State) :
    (legalCmd c = true ∧ s.accept c =
      { s with
        cmd := c, engine := .run c s.nextDelay, cmask := 0, delays := s.delays.tail, freeIdx := s.freeIdx + 1 }) ∨
    (legalCmd c = false ∧ s.accept c = { s with cmd := c, engine := .run c 0, cmask := 0 }) := by
  cases h : legalCmd c <;> simp [State.accept, h, State.drawDelay]

/-! ### Memory of the commands -/

/-- `WORK[i]` after a buffer has been stored. -/
theorem workAt_writeCplx (m : List Host.Cell) (cs : List Cplx) (i : Nat) (h : i < cs.length) :
    workAt (writeCplx m workBase cs) i = cs[i] := by
  have p := readWord_writeCplx_inside m workBase cs i h
  simp [workAt, p.1, p.2]

/-- `SERIES[k]` after a series has been stored. -/
theorem seriesAt_writeWords (m : List Host.Cell) (vs : List F64) (k : Nat) (h : k < vs.length) :
    seriesAt (writeWords m seriesBase vs) k = vs[k] := readWord_writeWords_inside m seriesBase vs k h

/-- `RIPPLE[i]` after samples have been stored. -/
theorem rippleAt_writeWords (m : List Host.Cell) (vs : List F64) (i : Nat) (h : i < vs.length) :
    rippleAt (writeWords m rippleBase vs) i = vs[i] := readWord_writeWords_inside m rippleBase vs i h

/-- The work buffer of a state, element by element. -/
theorem workBuf_getElem (s : State) (i : Nat) (h : i < s.workBuf.length) : s.workBuf[i] = workAt s.mem i := by
  simp [State.workBuf, readCplx, workAt]

theorem length_workBuf (s : State) : s.workBuf.length = s.fftSize := by simp [State.workBuf]

/-- The ripple buffer of a state, element by element. -/
theorem rippleBuf_getElem (s : State) (i : Nat) (h : i < s.rippleBuf.length) : s.rippleBuf[i] = rippleAt s.mem i := by
  simp [State.rippleBuf, readWords, rippleAt]

theorem length_rippleBuf (s : State) : s.rippleBuf.length = s.fftSize := by simp [State.rippleBuf]

/-- The series of a state, element by element. -/
theorem seriesBuf_getElem (s : State) (k : Nat) (h : k < s.seriesBuf.length) : s.seriesBuf[k] = seriesAt s.mem k := by
  simp [State.seriesBuf, readWords, seriesAt]

theorem length_seriesBuf (s : State) : s.seriesBuf.length = s.seriesLen := by simp [State.seriesBuf]

/-- `RING[r]` after it has been written. -/
theorem readRing_writeRing_same (m : List Host.Cell) (r : Nat) (x : Sample) : readRing (writeRing m r x) r = x := by
  have h := readWord_writeWords_inside m (ringAddr r 0) [x.y0, x.y1, x.y2]
  have h0 := h 0 (by simp)
  have h1 := h 1 (by simp)
  have h2 := h 2 (by simp)
  simp only [List.getElem_cons_zero, List.getElem_cons_succ] at h0 h1 h2
  simp only [readRing, writeRing, ringAddr] at *
  rw [show ringBase + 32 * r + 8 * 0 = ringBase + 32 * r + 8 * 0 + 8 * 0 by omega, h0,
    show ringBase + 32 * r + 8 * 1 = ringBase + 32 * r + 8 * 0 + 8 * 1 by omega, h1,
    show ringBase + 32 * r + 8 * 2 = ringBase + 32 * r + 8 * 0 + 8 * 2 by omega, h2]

/-- The other slots keep their samples. -/
theorem readRing_writeRing_other (m : List Host.Cell) (r r' : Nat) (x : Sample) (h : r' ≠ r) :
    readRing (writeRing m r x) r' = readRing m r' := by
  have key : ∀ c, c < 3 → readWord (writeRing m r x) (ringAddr r' c) = readWord m (ringAddr r' c) := fun c hc =>
    readWord_writeWords_outside _ _ _ _ (by simp only [ringAddr, List.length_cons, List.length_nil]; omega)
  simp [readRing, key]

/-! ### The fold of BCPUSH (R145 to R147) -/

/-- Past its start a fold stops by one of the three exits and has folded between one and all of the samples. -/
theorem foldSamples_spec (cfg : BcConfig) (ys : List Sample) (a : Fold) :
    a.n ≤ (foldSamples cfg ys a).n ∧ (foldSamples cfg ys a).n ≤ a.n + ys.length ∧
    (a.n = 0 → ys ≠ [] → 1 ≤ (foldSamples cfg ys a).n) ∧
    ((foldSamples cfg ys a).exit = a.exit ∨ (foldSamples cfg ys a).exit = 1 ∨ (foldSamples cfg ys a).exit = 2) := by
  induction ys generalizing a with
  | nil => simp [foldSamples]
  | cons y ys ih =>
    have add_n : (a.add y).n = a.n + 1 := rfl
    have add_exit : (a.add y).exit = a.exit := rfl
    simp only [foldSamples]
    split
    · rename_i hd
      refine ⟨by simp, by simp, fun h0 _ => ?_, by simp⟩
      simp [diverges, h0] at hd
    · split
      · simp only [List.length_cons]
        exact ⟨by omega, by omega, fun _ _ => by omega, by simp⟩
      · have := ih (a.add y)
        rw [add_exit, add_n] at this
        simp only [List.length_cons]
        exact ⟨by omega, by omega, fun _ _ => by omega, this.2.2.2⟩

end Sys2Proof.Machine
end

