-- ==== Sys2Proof/Laws/HostPort.lean ====
section
/-! SUPPORT. What the host port can do, said once for reads and once for writes (20_memory.md R65, 70_reset_and_hazards.md
R251, R252, R260, R261). -/

namespace Sys2Proof.Machine

/-- A host read returns one word, a known or a free one, and sets at most BERR or HAZ. -/
theorem hostRead_cases (addr : Addr) (s : State) :
    (∃ v, s.hostRead addr = s.reply v) ∨
    ((target addr).readError = true ∧ s.hostRead addr = (s.reply 0).setBerr) ∨
    s.hostRead addr = s.replyFree ∨
    s.hostRead addr = s.replyFree.setHaz := by
  unfold State.hostRead
  cases s.engine with
  | idle =>
    unfold State.readIdle
    cases h : (target addr).readError
    · exact .inl ⟨_, rfl⟩
    · exact .inr (.inl ⟨rfl, rfl⟩)
  | run c left =>
    unfold State.readRunning
    cases h : (target addr).readError
    · cases (target addr).alwaysReadable
      · exact .inr (.inr (.inr rfl))
      · exact .inl ⟨_, rfl⟩
    · exact .inr (.inl ⟨rfl, rfl⟩)
  | reset left =>
    unfold State.readResetting
    cases (target addr).alwaysReadable
    · exact .inr (.inr (.inl rfl))
    · exact .inl ⟨_, rfl⟩

/-- A host write starts a reset, or acts as the engine's state lets it. -/
theorem hostWrite_cases (addr : Addr) (v : Word) (s : State) :
    (isSoftReset (target addr) v = true ∧ s.hostWrite addr v = s.startReset) ∨
    (isSoftReset (target addr) v = false ∧
      ((s.engine = .idle ∧ s.hostWrite addr v = s.writeIdle (target addr) v) ∨
       (∃ c left, s.engine = .run c left ∧ s.hostWrite addr v = s.writeRunning (target addr) v) ∨
       (∃ left, s.engine = .reset left ∧ s.hostWrite addr v = s))) := by
  unfold State.hostWrite
  cases h : isSoftReset (target addr) v with
  | true => exact .inl ⟨rfl, rfl⟩
  | false =>
    refine .inr ⟨rfl, ?_⟩
    cases he : s.engine with
    | idle => exact .inl ⟨rfl, rfl⟩
    | run c left => exact .inr (.inl ⟨c, left, rfl, rfl⟩)
    | reset left => exact .inr (.inr ⟨left, rfl, rfl⟩)

/-- While a command runs a write reaches nothing but CTRL, STATUS and the error bits (R260, R261). -/
theorem writeRunning_cases (t : Target) (v : Word) (s : State) :
    s.writeRunning t v = s.setBerr ∨ s.writeRunning t v = s.writeCtrl v ∨ s.writeRunning t v = s.writeStatus v ∨
    s.writeRunning t v = s.setOvr ∨ s.writeRunning t v = s.setHaz := by
  unfold State.writeRunning
  split
  · simp
  · split
    · simp
    · split
      · simp
      · split <;> simp

/-- An address that reaches a cell of memory is aligned and its eight bytes are bytes of a memory element. -/
theorem target_cell_storage (addr : Addr) (a : Nat) (h : target addr = .cell a) :
    a = addr.toNat ∧ a % 8 = 0 ∧ ∀ j, j < 8 → isStorage (a + j) = true := by
  unfold target at h
  split at h
  · rename_i h8
    unfold alignedTarget at h
    have storage : ∀ base len, base % 32 = 0 → len % 8 = 0 → inWindow base len addr.toNat = true →
        ∀ j, j < 8 → inWindow base len (addr.toNat + j) = true := fun base len hb hl hw j hj => by
      simp only [inWindow, Bool.and_eq_true, Nat.ble_eq, Nat.blt_eq] at hw ⊢
      omega
    repeat' (split at h)
    all_goals first | contradiction | skip
    all_goals
      simp only [Target.cell.injEq] at h
      subst h
      refine ⟨rfl, h8, fun j hj => ?_⟩
    · rename_i hw; simp [isStorage, storage burstBase 0x100 (by decide) (by decide) hw j hj]
    · rename_i hw; simp [isStorage, storage seriesBase 0x2000 (by decide) (by decide) hw j hj]
    · rename_i hw; simp [isStorage, storage rippleBase 0x4000 (by decide) (by decide) hw j hj]
    · rename_i hw; simp [isStorage, storage workBase 0x8000 (by decide) (by decide) hw j hj]
    · rename_i hw hr
      have : isReservedWord (addr.toNat + j) = false := by
        simp only [isReservedWord, Nat.ble_eq, Nat.not_le] at hr ⊢
        simp only [Bool.eq_false_iff, ne_eq, Nat.ble_eq, Nat.not_le] at hr ⊢
        omega
      simp [isStorage, storage ringBase 0x2000 (by decide) (by decide) hw j hj, this]
  · contradiction

end Sys2Proof.Machine
end

