-- ==== Sys2Proof/Laws/PerInstr.lean ====
section
/-! SUPPORT. Statements made for each command on its own. -/

namespace Sys2Proof.Laws.EncodesOwnRow

/-- The mask and the match of a command's row of 30_encoding.md R85. -/
def rowOf : Instr → BitVec 32 × BitVec 32
  | .nop => (0xFFFFFFFF#32, 0x00000000#32)
  | .kfdecM _ => (0xFF0FFFFF#32, 0x10000000#32)
  | .kfdecB _ => (0xFF0FFFFF#32, 0x10010000#32)
  | .kfencM => (0xFFFFFFFF#32, 0x11000000#32)
  | .kfencB => (0xFFFFFFFF#32, 0x11010000#32)
  | .xfdec _ => (0xFF0FFFFF#32, 0x12000000#32)
  | .rngdec _ => (0xFF0FFFFF#32, 0x13000000#32)
  | .errtok _ => (0xFF0FFFFF#32, 0x14000000#32)
  | .bcpush => (0xFFFFFFFF#32, 0x20000000#32)
  | .bcclr => (0xFFFFFFFF#32, 0x21000000#32)
  | .rpclr => (0xFFFFFFFF#32, 0x30000000#32)
  | .rppush => (0xFFFFFFFF#32, 0x31000000#32)
  | .load => (0xFFFFFFFF#32, 0x32000000#32)
  | .win => (0xFFFFFFFF#32, 0x33000000#32)
  | .fftF => (0xFFFFFFFF#32, 0x34000000#32)
  | .fftI => (0xFFFFFFFF#32, 0x34010000#32)
  | .mag => (0xFFFFFFFF#32, 0x35000000#32)
  | .norm => (0xFFFFFFFF#32, 0x36000000#32)
  | .peaks => (0xFFFFFFFF#32, 0x37000000#32)
  | .bitrev => (0xFFFFFFFF#32, 0x38000000#32)
  | .stageF _ => (0xFFFFFFF0#32, 0x39000000#32)
  | .stageI _ => (0xFFFFFFF0#32, 0x39010000#32)

/-- The word of a well-formed command agrees with its own row of R85 on every bit the row fixes. -/
def Statement (i : Instr) : Prop := i.wellFormed = true → encode32 i &&& (rowOf i).1 = (rowOf i).2

theorem nop : Statement .nop := fun _ => by decide
theorem kfdecM (len : Nat) : Statement (.kfdecM len) := fun h => by
  have h : len < 16 := by simpa [Instr.wellFormed, lenFits] using h
  interval_cases len <;> decide
theorem kfdecB (len : Nat) : Statement (.kfdecB len) := fun h => by
  have h : len < 16 := by simpa [Instr.wellFormed, lenFits] using h
  interval_cases len <;> decide
theorem kfencM : Statement .kfencM := fun _ => by decide
theorem kfencB : Statement .kfencB := fun _ => by decide
theorem xfdec (len : Nat) : Statement (.xfdec len) := fun h => by
  have h : len < 16 := by simpa [Instr.wellFormed, lenFits] using h
  interval_cases len <;> decide
theorem rngdec (len : Nat) : Statement (.rngdec len) := fun h => by
  have h : len < 16 := by simpa [Instr.wellFormed, lenFits] using h
  interval_cases len <;> decide
theorem errtok (len : Nat) : Statement (.errtok len) := fun h => by
  have h : len < 16 := by simpa [Instr.wellFormed, lenFits] using h
  interval_cases len <;> decide
theorem bcpush : Statement .bcpush := fun _ => by decide
theorem bcclr : Statement .bcclr := fun _ => by decide
theorem rpclr : Statement .rpclr := fun _ => by decide
theorem rppush : Statement .rppush := fun _ => by decide
theorem load : Statement .load := fun _ => by decide
theorem win : Statement .win := fun _ => by decide
theorem fftF : Statement .fftF := fun _ => by decide
theorem fftI : Statement .fftI := fun _ => by decide
theorem mag : Statement .mag := fun _ => by decide
theorem norm : Statement .norm := fun _ => by decide
theorem peaks : Statement .peaks := fun _ => by decide
theorem bitrev : Statement .bitrev := fun _ => by decide
theorem stageF (s : Nat) : Statement (.stageF s) := fun h => by
  have h : s < 16 := by simpa [Instr.wellFormed, stageFits] using h
  interval_cases s <;> decide
theorem stageI (s : Nat) : Statement (.stageI s) := fun h => by
  have h : s < 16 := by simpa [Instr.wellFormed, stageFits] using h
  interval_cases s <;> decide

end Sys2Proof.Laws.EncodesOwnRow
end

