-- ==== Sys2Proof/Laws/Step.lean ====
section
/-! SUPPORT. What one step can do, said once (00_scope.md R13). -/

namespace Sys2Proof.Machine

/-- A step completes the running command, reports an illegal one, ends the reset sequence, or is the host's turn. -/
theorem step_cases (s t : State) (h : step s = .next t) :
    (∃ c i, s.engine = .run c 0 ∧ decode c = .ok i ∧ exec i s = .next t) ∨
    (∃ c r, s.engine = .run c 0 ∧ decode c = .error r ∧ t = faultedFrom s 1) ∨
    (s.engine = .reset 0 ∧ t = s.endReset) ∨
    ((∀ c, s.engine ≠ .run c 0) ∧ s.engine ≠ .reset 0 ∧ t = s.hostTurn) := by
  unfold step at h
  split at h
  · rename_i c he
    unfold State.engineTurn at h
    split at h
    · rename_i i hd
      exact .inl ⟨c, i, he, hd, h⟩
    · rename_i r hd
      exact .inr (.inl ⟨c, r, he, hd, (Host.Outcome.next.inj h).symm⟩)
  · rename_i he
    exact .inr (.inr (.inl ⟨he, (Host.Outcome.next.inj h).symm⟩))
  all_goals
    rename_i he
    refine .inr (.inr (.inr ⟨fun c hc => ?_, fun hc => ?_, (Host.Outcome.next.inj h).symm⟩))
    · rw [he] at hc; simp at hc
    · rw [he] at hc; simp at hc

/-- The host's turn: nothing but the engine's progress when no event is waiting; otherwise the first event. -/
theorem hostTurn_cases (s : State) :
    (s.inbox = [] ∧ s.hostTurn = { s with engine := s.engine.tick }) ∨
    (∃ addr rest, s.inbox = .read addr :: rest ∧
      s.hostTurn = { s with engine := s.engine.tick, inbox := rest }.hostRead addr) ∨
    (∃ addr v rest, s.inbox = .write addr v :: rest ∧
      s.hostTurn = { s with engine := s.engine.tick, inbox := rest }.hostWrite addr v) ∨
    (∃ rest, s.inbox = .wait :: rest ∧ s.hostTurn =
      { s with
        engine := s.engine.tick
        inbox := if s.busy then .wait :: rest else rest
        replies := s.statusWord :: s.replies }) ∨
    (∃ rest, s.inbox = .powerOn :: rest ∧ s.hostTurn = { s with engine := s.engine.tick, inbox := rest }.startReset) := by
  have busy : ∀ e : Engine, { s with engine := e.tick }.busy = { s with engine := e }.busy := fun e => by cases e <;> rfl
  unfold State.hostTurn
  split
  · rename_i h
    exact .inl ⟨h, rfl⟩
  · rename_i e rest h
    cases e with
    | read addr => exact .inr (.inl ⟨addr, rest, h, rfl⟩)
    | write addr v => exact .inr (.inr (.inl ⟨addr, v, rest, h, rfl⟩))
    | wait =>
      refine .inr (.inr (.inr (.inl ⟨rest, h, ?_⟩)))
      simp only [State.hostEvent, State.reply, State.statusWord, busy]
    | powerOn => exact .inr (.inr (.inr (.inr ⟨rest, h, rfl⟩)))

end Sys2Proof.Machine
end

