-- ==== Sys2Proof/Tests/Slice0.lean ====
section
/-! SUPPORT. The model's own tests: ill-formed commands, one written-out word for every constructor, single steps with the
values of spec/95_test_vectors.md, and a witness for the hypotheses of every obligation that has some. -/

namespace Sys2Proof.Tests

-- one kernel check at a time: the checks of this file would otherwise each wait on a thread of its own
set_option Elab.async false

open Sys2Proof Sys2Proof.Machine

/-! ### Helpers -/

/-- The state an outcome goes on in. -/
def after : Host.Outcome State Fault Refusal → State
  | .next s => s
  | .fault _ => State.reset
  | .refused _ => State.reset

/-- An IDLE block after reset whose host has events to do. -/
def hosted (es : List HostEvent) : State := { State.reset with inbox := es }

/-- A running block. -/
def running (c : Word) (left : Nat) (es : List HostEvent) : State := { State.reset with engine := .run c left, inbox := es }

/-- A block in its reset sequence. -/
def resetting (left : Nat) (es : List HostEvent) : State := { State.reset with engine := .reset left, inbox := es }

/-- A block at an FFT size. -/
def sized (n : BitVec 4) : State := { State.reset with fftCfg := n }

/-- A block with a memory. -/
def withMem (n : BitVec 4) (m : List Host.Cell) : State := { State.reset with fftCfg := n, mem := m }

/-- A block with a box-car window. -/
def boxed (maxavg : BitVec 16) : State := { State.reset with bcCfg := { BcConfig.reset with maxavg := maxavg } }

/-- A block with operands. -/
def operand (a : Word) : State := { State.reset with opa := a }

/-! ### Ill-formed commands -/

theorem test_ill_formed_kfdecM : (Instr.kfdecM 16).wellFormed = false := by decide
theorem test_ill_formed_kfdecB : (Instr.kfdecB 16).wellFormed = false := by decide
theorem test_ill_formed_xfdec : (Instr.xfdec 16).wellFormed = false := by decide
theorem test_ill_formed_rngdec : (Instr.rngdec 16).wellFormed = false := by decide
theorem test_ill_formed_errtok : (Instr.errtok 16).wellFormed = false := by decide
theorem test_ill_formed_stageF : (Instr.stageF 16).wellFormed = false := by decide
theorem test_ill_formed_stageI : (Instr.stageI 16).wellFormed = false := by decide

/-! ### Words written out field by field from R81 and R85: OP, LEN, MOD, IMM -/

theorem test_decode_nop : decodeTableWord 32 0b00000000_0000_0000_0000000000000000 = some .nop := by decide
theorem test_decode_kfdecM : decodeTableWord 32 0b00010000_0011_0000_0000000000000000 = some (.kfdecM 3) := by decide
theorem test_decode_kfdecB : decodeTableWord 32 0b00010000_1111_0001_0000000000000000 = some (.kfdecB 15) := by decide
theorem test_decode_kfencM : decodeTableWord 32 0b00010001_0000_0000_0000000000000000 = some .kfencM := by decide
theorem test_decode_kfencB : decodeTableWord 32 0b00010001_0000_0001_0000000000000000 = some .kfencB := by decide
theorem test_decode_xfdec : decodeTableWord 32 0b00010010_1000_0000_0000000000000000 = some (.xfdec 8) := by decide
theorem test_decode_rngdec : decodeTableWord 32 0b00010011_0001_0000_0000000000000000 = some (.rngdec 1) := by decide
theorem test_decode_errtok : decodeTableWord 32 0b00010100_0001_0000_0000000000000000 = some (.errtok 1) := by decide
theorem test_decode_bcpush : decodeTableWord 32 0b00100000_0000_0000_0000000000000000 = some .bcpush := by decide
theorem test_decode_bcclr : decodeTableWord 32 0b00100001_0000_0000_0000000000000000 = some .bcclr := by decide
theorem test_decode_rpclr : decodeTableWord 32 0b00110000_0000_0000_0000000000000000 = some .rpclr := by decide
theorem test_decode_rppush : decodeTableWord 32 0b00110001_0000_0000_0000000000000000 = some .rppush := by decide
theorem test_decode_load : decodeTableWord 32 0b00110010_0000_0000_0000000000000000 = some .load := by decide
theorem test_decode_win : decodeTableWord 32 0b00110011_0000_0000_0000000000000000 = some .win := by decide
theorem test_decode_fftF : decodeTableWord 32 0b00110100_0000_0000_0000000000000000 = some .fftF := by decide
theorem test_decode_fftI : decodeTableWord 32 0b00110100_0000_0001_0000000000000000 = some .fftI := by decide
theorem test_decode_mag : decodeTableWord 32 0b00110101_0000_0000_0000000000000000 = some .mag := by decide
theorem test_decode_norm : decodeTableWord 32 0b00110110_0000_0000_0000000000000000 = some .norm := by decide
theorem test_decode_peaks : decodeTableWord 32 0b00110111_0000_0000_0000000000000000 = some .peaks := by decide
theorem test_decode_bitrev : decodeTableWord 32 0b00111000_0000_0000_0000000000000000 = some .bitrev := by decide
theorem test_decode_stageF : decodeTableWord 32 0b00111001_0000_0000_0000000000000110 = some (.stageF 6) := by decide
theorem test_decode_stageI : decodeTableWord 32 0b00111001_0000_0001_0000000000001111 = some (.stageI 15) := by decide

/-- The illegal words of vector K3 and K4, each with its reason (R87). -/
theorem test_decode_illegal :
    decode 0x00000001#64 = .error .immNotZero ∧ decode 0x01000000#64 = .error .reservedOpcode ∧
    decode 0x10300001#64 = .error .immNotZero ∧ decode 0x10320000#64 = .error .reservedMod ∧
    decode 0x20100000#64 = .error .lenNotZero ∧ decode 0x39000010#64 = .error .immNotZero ∧
    decode 0x3A000000#64 = .error .reservedOpcode ∧ decode 0xFF000000#64 = .error .reservedOpcode ∧
    decode 0x0000000100000000#64 = .error .upperBitsSet := ⟨rfl, rfl, rfl, rfl, rfl, rfl, rfl, rfl, rfl⟩

/-- The word of `STAGE.I s=3` (R90). -/
theorem test_encoding_of_stage : encode (.stageI 3) = 0x39010003#64 := by decide

/-! ### Single steps, with the values of spec/95_test_vectors.md -/

/-- Vector K2. -/
theorem test_step_nop : (after (step (running 0 0 []))).statusWord = 0x2 := by decide +kernel

/-- Vectors 2.1: [66 66 FD] under both divisors. -/
theorem test_kfdecB : (after (exec (.kfdecB 3) (operand 0xFD6666))).res0 = 0x3FB9998000000000 := by decide +kernel
theorem test_kfdecM : (after (exec (.kfdecM 3) (operand 0xFD6666))).res0 = 0x3FA9998000000000 := by decide +kernel

/-- Vector 2.1: the sign of a zero fraction is kept (D14). -/
theorem test_kfdecB_negative_zero : (after (exec (.kfdecB 3) (operand 0x050080))).res0 = 0x8000000000000000 := by
  decide +kernel

/-- Vectors 2.1: a wrong length. -/
theorem test_kfdecM_length : (after (exec (.kfdecM 2) (operand 0x010040))).errmask = 0x1 := by decide +kernel

/-- Vectors 2.2: gradual underflow, and overflow of one divisor only. -/
theorem test_kfencB_underflow : (after (exec .kfencB (operand 0x3700000000000000))).res0 = 0x800100 := by decide +kernel
theorem test_kfencB_largest : (after (exec .kfencB (operand 0x47DFFFC000000000))).errmask = 0 := by decide +kernel
theorem test_kfencM_saturates :
    (after (exec .kfencM (operand 0x47DFFFC000000000))).res0 = 0x7FFF7F ∧
    (after (exec .kfencM (operand 0x47DFFFC000000000))).errmask = 0x8 := by decide +kernel
theorem test_kfencM : (after (exec .kfencM (operand 0x3FB999999999999A))).res0 = 0xFE6666 := by decide +kernel

/-- Vectors 2.3, under the reference layout. -/
theorem test_xfdec_reference : xfDecode Config.xfReference 0x0010000000FFFFFF#64 = (0x0010000000000000#64, false) := by
  decide +kernel
theorem test_xfdec_length : (after (exec (.xfdec 3) (operand 1))).errmask = 0x1 := by decide +kernel

/-- Vectors 2.4. -/
theorem test_rngdec : (after (exec (.rngdec 1) (operand 0x25))).res0 = 0x01010206 := by decide +kernel
theorem test_rngdec_last : (after (exec (.rngdec 1) (operand 0xFF))).res0 = 0x07040505 := by decide +kernel

/-- Vectors 2.5. -/
theorem test_errtok_high : (after (exec (.errtok 1) (operand 0x80))).res0 = 0 := by decide +kernel
theorem test_errtok_map : errTokenWord (fun c => if c = 0x65 then some 2 else none) 0x65 = 0x4 := by decide +kernel

/-- Vector B7: one sample of 10.0 in auto mode passes the threshold at once. -/
theorem test_bcpush_auto :
    let s := after (exec .bcpush { operand 0x4024000000000000 with
      opb := 0x4024000000000000, opc := 0x4024000000000000, bcCfg := { BcConfig.reset with auto := true, maxavg := 8 } })
    s.bcRes.count = 1 ∧ s.bcRes.exit = 2 ∧ s.errmask = 0 ∧ s.bcWptr = 1 := by decide +kernel

/-- Vector B13. -/
theorem test_bcpush_config : (after (exec .bcpush (boxed 257))).statusWord = 0x0206 := by decide +kernel

/-- R150. -/
theorem test_bcclr : (after (exec .bcclr { State.reset with mem := [(0x30000, 1#8)], bcFill := 3 })).bcFill = 0 := by
  decide +kernel
theorem test_bcclr_memory : (after (exec .bcclr { State.reset with mem := [(0x2FFF8, 2#8), (0x30000, 1#8)] })).mem =
    [(0x2FFF8, 2#8)] := by decide +kernel

/-- Vector F24: RPCLR does not check the size. -/
theorem test_rpclr : (after (exec .rpclr { sized 5 with rpFill := 7 })).rpFill = 0 := by decide +kernel

/-- Vector F1, one element of each half. -/
theorem test_rppush :
    let s := after (exec .rppush { withMem 6 [(0x1000, 9#8), (0x8100, 7#8)] with rpFill := 32 })
    s.mem = [(0x1000, 9#8), (0x8000, 7#8), (0x8100, 9#8)] ∧ s.rpFill = 64 := by decide +kernel

/-- Vector F3. -/
theorem test_load :
    let s := after (exec .load { withMem 6 [(0x8008, 7#8)] with rpFill := 32 })
    s.mem = [(0x8008, 7#8), (0x10010, 7#8)] ∧ s.errmask = 0x4 := by decide +kernel

/-- R175, the frame of one element: the window of index 0 under a cosine that is 1 at 0 is 0 (vector F6). -/
theorem test_win_zero : winCoeff (fun _ => fone) 64 0 = 0 := by decide +kernel

/-- Vector F23. -/
theorem test_win_size : (after (exec .win (sized 12))).statusWord = 0x0206 := by decide +kernel

/-- Vector F7. -/
theorem test_bitrev : (after (exec .bitrev (withMem 6 [(0x10016, 0xF0#8), (0x10017, 0x3F#8)]))).mem =
    [(0x10206, 0xF0#8), (0x10207, 0x3F#8)] := by decide +kernel

/-- Vector F9, on two elements (stage 1 uses the twiddle 1). -/
theorem test_stage_one :
    stageBody 1 (twStage (fun _ => 0) .forward 1) [⟨fone, 0⟩, ⟨fone, 0⟩] = [⟨0x4000000000000000, 0⟩, ⟨0, 0⟩] := by
  decide +kernel

/-- Vectors F10 and F11. -/
theorem test_stageF_zero : (after (exec (.stageF 0) (sized 6))).statusWord = 0x0206 := by decide +kernel
theorem test_stageI_seven : (after (exec (.stageI 7) (sized 6))).statusWord = 0x0206 := by decide +kernel

/-- Vector F23 for the transforms. -/
theorem test_fftF_size : (after (exec .fftF (sized 5))).statusWord = 0x0206 := by decide +kernel
theorem test_fftI_size : (after (exec .fftI (sized 12))).statusWord = 0x0206 := by decide +kernel

/-- Vector F19: WORK[3] = (3, 4). -/
theorem test_mag : readWord (after (exec .mag (withMem 6
    (writeCplx [] 0x10030 [⟨0x4008000000000000, 0x4010000000000000⟩])))).mem 0x4018 = 0x4014000000000000 := by decide +kernel

/-- Vectors F21 and F22. -/
theorem test_norm : readWord (after (exec .norm (withMem 6
    (writeWords [] 0x4000 [0x4060000000000000, 0, 0x4040000000000000])))).mem 0x4010 = 0x3FD0000000000000 := by decide +kernel
theorem test_norm_negative_zero :
    (after (exec .norm (withMem 6 (writeWords [] 0x4000 [0x8000000000000000])))).statusWord = 0x0306 := by decide +kernel

/-- Vector P4: bin 1 exceeds DC and bin 2; FREQ with FS = 1000.0. -/
theorem test_peaks :
    let s := after (exec .peaks { withMem 6 (writeWords [] 0x4000 [fone, 0x4000000000000000]) with
      pkK := 3, fs := 0x408F400000000000 })
    s.pkCount = 1 ∧ readWord s.mem 0x2000 = 0x4000000000000000 ∧ readWord s.mem 0x2008 = 0x402F400000000000 ∧
    readWord s.mem 0x2010 = 1 := by decide +kernel

/-- Vectors K7, K8: bus errors. -/
theorem test_read_unmapped : (after (step (hosted [.read 0x038]))).statusWord = 0x20 := by decide +kernel
theorem test_write_id : (after (step (hosted [.write 0x000 5]))).statusWord = 0x20 := by decide +kernel

/-- Vectors K9, K10, K11: accesses while a command runs. -/
theorem test_overrun : (after (step (running 0x34000000 2 [.write 0x020 0]))).statusWord = 0x9 := by decide +kernel
theorem test_hazard : (after (step (running 0x34000000 2 [.write 0x040 1]))).statusWord = 0x11 := by decide +kernel
theorem test_soft_reset : (after (step (running 0x34000000 2 [.write 0x010 0x100]))).statusWord = 0x1 := by decide +kernel

/-- Vector K6: W1C leaves ERRCODE. -/
theorem test_write_one_to_clear :
    (after (step { hosted [.write 0x018 0x06] with
      status := { Status.reset with done := true, err := true, errcode := 1 } })).statusWord = 0x0100 := by decide +kernel

/-! ### Binary64: sums that are ties, and the last row of vector B11 -/

theorem test_tie_to_even : fadd 0x4340000000000000 0x3FF0000000000000 = 0x4340000000000000 := by decide +kernel
theorem test_mean_round_off : fdiv (fadd (fadd (fadd 0 0x3FB999999999999A) 0x3FB999999999999A) 0x3FB999999999999A)
    (fofNat 3) = 0x3FB999999999999B := by decide +kernel
theorem test_root : fsqrt 0x4000000000000000 = 0x3FF6A09E667F3BCD := by decide +kernel

/-- The first words a host gives the machine run as the first commands after reset. -/
theorem test_fetch_word : (after (step (State.reset.withFetchWord 32 0x10200000))).errmask = 0x1 := by decide +kernel

/-! ### Witnesses: for every obligation with hypotheses, states and operands that meet them, at the ends of their ranges -/

theorem test_witness_DecodeUndoesEncode :
    (Instr.kfdecM 0).wellFormed = true ∧ (Instr.kfdecM 15).wellFormed = true ∧ (Instr.stageI 15).wellFormed = true := by
  decide

theorem test_witness_EncodeUndoesDecode : decode 0x39010003#64 = .ok (.stageI 3) := rfl

theorem test_witness_LegalIffExactlyOneRow :
    (running 0x01000000 0 []).engine = .run 0x01000000 0 ∧ legalCmd 0x01000000 = false := by decide

theorem test_witness_OnlyWordZeroIsNop :
    (1#64).extractLsb' 24 8 = 0#8 ∧ (1#64).extractLsb' 0 32 ≠ 0#32 := by decide

theorem test_witness_StepRunsDecodedCommand :
    (running 0x10310000 0 []).engine = .run 0x10310000 0 ∧ decode 0x10310000#64 = .ok (.kfdecB 3) ∧
    decodeTableWord 32 0x10310000 = some (.kfdecB 3) := ⟨rfl, rfl, rfl⟩

theorem test_witness_AcceptanceStartsTheEngine :
    (hosted [.write cmdAddr 0x36000000]).engine = .idle ∧
    (hosted [.write cmdAddr 0x36000000]).inbox = .write cmdAddr 0x36000000 :: [] ∧ legalCmd 0x36000000 = true ∧
    (hosted [.write cmdAddr 0x3A000000]).engine = .idle ∧
    (hosted [.write cmdAddr 0x3A000000]).inbox = .write cmdAddr 0x3A000000 :: [] ∧ legalCmd 0x3A000000 = false := by
  decide

/-- Two next states: one of a command that completes, one of a command that faults. -/
theorem test_witness_CompletionWritesItsFields :
    exec .nop State.reset = .next (completedFrom State.reset 0) ∧
    exec .norm (sized 6) = .next (faultedFrom (sized 6) 3) := by
  constructor
  · rfl
  · rw [show exec .norm (sized 6) = .next ((sized 6).finish (normRule { sized 6 with cmask := 0 })) from rfl]
    exact congrArg _ (by decide +kernel)

theorem test_witness_FaultedCommandChangesNothing :
    ∃ t, exec (.stageF 0) (sized 6) = .next t ∧ t.status.errcode ≠ 0 := ⟨_, rfl, by decide⟩

theorem test_witness_CommandsLeaveOtherRegisters : ∃ t, exec .kfencB (operand 1) = .next t := ⟨_, rfl⟩

/-- Empty memory reads as zeros. -/
theorem readWord_nil (a : Nat) : readWord [] a = 0 := by
  simp only [readWord, readByte]
  decide

/-- The invariant holds of a block with an operand. -/
theorem operand_inv (a : Word) : (operand a).Inv where
  memCanonical := rfl
  memMapped := fun _ h => absurd h List.not_mem_nil
  rippleFill := Nat.zero_le _
  rippleFillMax := Nat.zero_le _
  ringFill := Nat.zero_le _
  ringFillMax := Nat.zero_le _
  ringPtr := .inl rfl
  ringPtrMax := show 0 < 256 by decide
  boxcarCount := Nat.zero_le _
  boxcarExit := show 0#2 ≠ 3#2 by decide
  peakCount := Nat.zero_le _
  peaksBeyond := fun _ _ _ _ _ => readWord_nil _
  errcodeDefined := Nat.zero_le _
  faultNoCondition := fun _ => rfl
  runningIsAccepted := fun _ _ h => nomatch h
  cmaskClear := rfl
  resetting := fun _ h => nomatch h

/-- The invariant holds during the reset sequence. -/
theorem resetting_inv (left : Nat) (es : List HostEvent) : (resetting left es).Inv where
  memCanonical := rfl
  memMapped := fun _ h => absurd h List.not_mem_nil
  rippleFill := Nat.zero_le _
  rippleFillMax := Nat.zero_le _
  ringFill := Nat.zero_le _
  ringFillMax := Nat.zero_le _
  ringPtr := .inl rfl
  ringPtrMax := show 0 < 256 by decide
  boxcarCount := Nat.zero_le _
  boxcarExit := show 0#2 ≠ 3#2 by decide
  peakCount := Nat.zero_le _
  peaksBeyond := fun _ _ _ _ _ => readWord_nil _
  errcodeDefined := Nat.zero_le _
  faultNoCondition := fun _ => rfl
  runningIsAccepted := fun _ _ h => nomatch h
  cmaskClear := rfl
  resetting := fun l h => by
    have : left = l := by simpa [resetting] using h
    subst this; rfl

theorem test_witness_CommandsWriteOnlyTheirMemory : (operand 1).Inv ∧ ∃ t, exec .bcclr (operand 1) = .next t :=
  ⟨operand_inv 1, _, rfl⟩

theorem test_witness_ConditionsOnlyFromTheirCommands :
    ∃ t, exec .kfencM (operand 0x7FF0000000000000) = .next t ∧ t.errmask = 8 := ⟨_, rfl, by decide +kernel⟩

theorem test_witness_WrongLengthSetsParseFail : (2 : Nat) ≠ 3 ∧ (7 : Nat) ≠ 8 ∧ (0 : Nat) ≠ 1 := by decide

theorem test_witness_KfencRoundsOrSaturates :
    (15 = 15 ∨ 15 = 16) ∧ (16 = 15 ∨ 16 = 16) ∧ fIsNaN 0x7FF0000000000001 = true ∧ fIsZero 0x8000000000000000 = true ∧
    fIsNaN 0x47DFFFE000000000 = false ∧ fIsZero 0x47DFFFE000000000 = false ∧
    (kfenc 15 0x47DFFFE000000000).2 = true ∧ (kfenc 15 0x47DFFFDFFFFFFFFF).2 = false ∧
    (kfenc 16 0x0000000000000001).2 = false := by decide +kernel

/-- The value of a pattern from its parts. -/
theorem fval_of (x : F64) (m : Nat) (e : Int) (hs : fsign x = false) (hm : fmant x = m) (he : fscale x = e) :
    fval x = m * 2 ^ e := by
  rw [fval, hs, hm, he]
  simp

/-- The ends of the two ranges: 2^−130 and 32767·2^111, 2^−129 and 32767·2^112; and an operand of three zero bytes. -/
theorem test_witness_KfloatRoundTrip :
    (fIsFinite 0x37D0000000000000 = true ∧ (2 : ℚ) ^ (-130 : Int) ≤ |fval 0x37D0000000000000| ∧
      |fval 0x37D0000000000000| ≤ 32767 * (2 : ℚ) ^ (111 : Int)) ∧
    (fIsFinite 0x47CFFFC000000000 = true ∧ (2 : ℚ) ^ (-130 : Int) ≤ |fval 0x47CFFFC000000000| ∧
      |fval 0x47CFFFC000000000| ≤ 32767 * (2 : ℚ) ^ (111 : Int)) ∧
    (fIsFinite 0x37E0000000000000 = true ∧ (2 : ℚ) ^ (-129 : Int) ≤ |fval 0x37E0000000000000| ∧
      |fval 0x37E0000000000000| ≤ 32767 * (2 : ℚ) ^ (112 : Int)) ∧
    (fIsFinite 0x47DFFFC000000000 = true ∧ (2 : ℚ) ^ (-129 : Int) ≤ |fval 0x47DFFFC000000000| ∧
      |fval 0x47DFFFC000000000| ≤ 32767 * (2 : ℚ) ^ (112 : Int)) ∧
    (0xFF000000#64).extractLsb' 0 24 = 0#24 := by
  have h1 := fval_of 0x37D0000000000000 (2 ^ 52) (-182) (by decide) (by decide) (by decide)
  have h2 := fval_of 0x47CFFFC000000000 (32767 * 2 ^ 38) 73 (by decide) (by decide) (by decide)
  have h3 := fval_of 0x37E0000000000000 (2 ^ 52) (-181) (by decide) (by decide) (by decide)
  have h4 := fval_of 0x47DFFFC000000000 (32767 * 2 ^ 38) 74 (by decide) (by decide) (by decide)
  rw [h1, h2, h3, h4]
  refine ⟨⟨by decide, ?_, ?_⟩, ⟨by decide, ?_, ?_⟩, ⟨by decide, ?_, ?_⟩, ⟨by decide, ?_, ?_⟩, by decide⟩ <;> norm_num

/-- The fields of a word under the reference layout, for an ordinary exponent and for each of the two others; and the clauses
of the reference layout at the ends of their ranges. -/
theorem test_witness_ExtendedFloatValue :
    ((∀ k : Fin 11, (0x3FF#11).getLsbD (10 - k.val) = (0x3FF0800000000000#64).getLsbD Config.xfReference.exponent[k].val) ∧
      ∀ (k : Fin 3) (j : Fin 8), (0x800000#24).getLsbD (8 * (2 - k.val) + j.val) =
        (0x3FF0800000000000#64).getLsbD (8 * Config.xfReference.mantissa[k].val + j.val)) ∧
    (∀ k : Fin 11, (0#11).getLsbD (10 - k.val) = (0x800F000000000000#64).getLsbD Config.xfReference.exponent[k].val) ∧
    (∀ k : Fin 11, (2047#11).getLsbD (10 - k.val) = (0x7FF0000000000000#64).getLsbD Config.xfReference.exponent[k].val) ∧
    (0x8000000000FFFFFF#64).extractLsb' 52 11 = 0#11 ∧ (0xFFF0000000000000#64).extractLsb' 52 11 = 2047#11 ∧
    (0x0010000000FFFFFF#64).extractLsb' 52 11 ≠ 0#11 ∧ (0x7FE0000001000000#64).extractLsb' 52 11 ≠ 2047#11 := by
  decide +kernel

theorem test_witness_ErrtokGivesOneBit :
    0x80 ≤ (0x80#8).toNat ∧ (fun _ => none : Byte → Option (Fin 64)) 0x7F = none ∧
    (0x7F#8).toNat < 0x80 ∧ (fun _ => some 63 : Byte → Option (Fin 64)) 0x7F = some 63 := by decide

theorem test_witness_BcpushConfigCheck :
    (boxed 0).bcCfg.maxavg.toNat = 0 ∧ 256 < (boxed 257).bcCfg.maxavg.toNat ∧
    ({ boxed 1 with bcCfg := { BcConfig.reset with tch := 3 } } : State).bcCfg.tch = 3#2 := by decide

theorem test_witness_BcpushPushesAndFolds :
    (1 ≤ (boxed 1).bcCfg.maxavg.toNat ∧ (boxed 1).bcCfg.maxavg.toNat ≤ 256 ∧ (boxed 1).bcCfg.tch ≠ 3#2) ∧
    (1 ≤ (boxed 256).bcCfg.maxavg.toNat ∧ (boxed 256).bcCfg.maxavg.toNat ≤ 256 ∧ (boxed 256).bcCfg.tch ≠ 3#2) := by decide

theorem test_witness_FirstPushFoldsOneSample :
    (1 ≤ (boxed 1).bcCfg.maxavg.toNat ∧ (boxed 1).bcCfg.maxavg.toNat ≤ 256 ∧ (boxed 1).bcCfg.tch ≠ 3#2 ∧
      (boxed 1).bcFill = 0 ∧ (boxed 1).bcWptr.toNat < (boxed 1).bcCfg.maxavg.toNat) ∧
    (let s : State := { boxed 256 with bcWptr := 255 };
      1 ≤ s.bcCfg.maxavg.toNat ∧ s.bcCfg.maxavg.toNat ≤ 256 ∧ s.bcCfg.tch ≠ 3#2 ∧ s.bcFill = 0 ∧
      s.bcWptr.toNat < s.bcCfg.maxavg.toNat) := by decide

/-- Vector B2 before its last push: 50.0, then 100.0 in the ring, 100.0 in the operands. -/
def diverging : State :=
  { boxed 3 with
    bcFill := 2
    bcWptr := 2
    opa := 0x4059000000000000, opb := 0x4059000000000000, opc := 0x4059000000000000
    mem := writeRing (writeRing [] 0 ⟨0x4049000000000000, 0x4049000000000000, 0x4049000000000000⟩) 1
      ⟨0x4059000000000000, 0x4059000000000000, 0x4059000000000000⟩ }

theorem test_witness_DivergingSampleStopsTheFold :
    let s := diverging
    let n := s.bcCfg.maxavg.toNat
    let x : F64 := if s.bcCfg.tch = 0 then s.opa else if s.bcCfg.tch = 1 then s.opb else s.opc
    let y1 := ringAt s.mem ((s.bcWptr.toNat + n - 1) % n) s.bcCfg.tch.toNat
    let y2 := ringAt s.mem ((s.bcWptr.toNat + n - 2) % n) s.bcCfg.tch.toNat
    let m := fdiv (fadd (fadd 0 x) y1) 0x4000000000000000#64
    3 ≤ s.bcCfg.maxavg.toNat ∧ s.bcCfg.maxavg.toNat ≤ 256 ∧ s.bcCfg.auto = false ∧ 2 ≤ s.bcFill.toNat ∧
    s.bcWptr.toNat < s.bcCfg.maxavg.toNat ∧ s.bcCfg.tch ≠ 3#2 ∧
    fgt (fabs (fsub y2 m)) (fmul s.bcCfg.tol (fabs m)) = true := by decide +kernel

/-- Vector B1 before its first push: 100.0 four times. -/
theorem test_witness_ConstantInputAveragesToItself :
    let s : State := { boxed 4 with opa := 0x4059000000000000, opb := 0x4059000000000000, opc := 0x4059000000000000 }
    let x : F64 := 0x4059000000000000
    (1 ≤ s.bcCfg.maxavg.toNat ∧ s.bcCfg.maxavg.toNat ≤ 256 ∧ s.bcCfg.tch ≠ 3#2 ∧ s.bcCfg.auto = false ∧ s.bcFill = 0 ∧
      s.bcWptr.toNat < s.bcCfg.maxavg.toNat ∧ s.opa = x ∧ s.opb = x ∧ s.opc = x ∧ fIsFinite x = true ∧
      flt s.bcCfg.tol 0 = false) ∧
    ∀ k ≤ s.bcCfg.maxavg.toNat, ∃ y, fIsFinite y = true ∧ fval y = k * fval x := by
  refine ⟨by decide +kernel, ?_⟩
  have hx := fval_of 0x4059000000000000 (100 * 2 ^ 46) (-46) (by decide) (by decide) (by decide)
  intro k hk
  have : k = 0 ∨ k = 1 ∨ k = 2 ∨ k = 3 ∨ k = 4 := by
    have : k ≤ 4 := hk
    omega
  rw [hx]
  obtain rfl | rfl | rfl | rfl | rfl := this
  · exact ⟨0, by decide, by rw [fval_of 0 0 (-1074) (by decide) (by decide) (by decide)]; norm_num⟩
  · exact ⟨0x4059000000000000, by decide, by rw [hx]; norm_num⟩
  · exact ⟨0x4069000000000000, by decide, by
      rw [fval_of 0x4069000000000000 (100 * 2 ^ 46) (-45) (by decide) (by decide) (by decide)]; norm_num⟩
  · exact ⟨0x4072C00000000000, by decide, by
      rw [fval_of 0x4072C00000000000 (300 * 2 ^ 44) (-44) (by decide) (by decide) (by decide)]; norm_num⟩
  · exact ⟨0x4079000000000000, by decide, by
      rw [fval_of 0x4079000000000000 (400 * 2 ^ 44) (-44) (by decide) (by decide) (by decide)]; norm_num⟩

/-- The last ring element and the last peak field are in range, and bytes outside them exist. -/
theorem test_witness_ClearCommandsZeroTheirBuffer :
    ∀ r c, r < 256 → c < 3 → ¬ (ringAddr r c ≤ 0x30018 ∧ 0x30018 < ringAddr r c + 8) := by
  intro r c _ _
  simp only [ringAddr, ringBase]
  omega

/-- The smallest and the largest size are legal: the hypotheses of RppushShiftsAndAppends, LoadCopiesTheRipple,
WinScalesByTheWindow, FftTransformsTheWorkBuffer, FftEqualsBitrevThenStages, MagWritesMagnitudes. -/
theorem test_witness_legal_sizes :
    (6 ≤ (sized 6).fftCfg.toNat ∧ (sized 6).fftCfg.toNat ≤ 11) ∧
    (6 ≤ (sized 11).fftCfg.toNat ∧ (sized 11).fftCfg.toNat ≤ 11) := by decide
theorem test_witness_RppushShiftsAndAppends : 6 ≤ (sized 6).fftCfg.toNat ∧ (sized 6).fftCfg.toNat ≤ 11 := by decide
theorem test_witness_LoadCopiesTheRipple : 6 ≤ (sized 11).fftCfg.toNat ∧ (sized 11).fftCfg.toNat ≤ 11 := by decide
theorem test_witness_WinScalesByTheWindow : 6 ≤ (sized 6).fftCfg.toNat ∧ (sized 6).fftCfg.toNat ≤ 11 := by decide
theorem test_witness_FftTransformsTheWorkBuffer : 6 ≤ (sized 6).fftCfg.toNat ∧ (sized 6).fftCfg.toNat ≤ 11 := by decide
theorem test_witness_FftEqualsBitrevThenStages : 6 ≤ (sized 11).fftCfg.toNat ∧ (sized 11).fftCfg.toNat ≤ 11 := by decide
theorem test_witness_MagWritesMagnitudes : 6 ≤ (sized 11).fftCfg.toNat ∧ (sized 11).fftCfg.toNat ≤ 11 := by decide

theorem test_witness_BitrevReversesIndices :
    (6 ≤ (sized 6).fftCfg.toNat ∧ (sized 6).fftCfg.toNat ≤ 11 ∧ 1 < 2 ^ 6 ∧ 32 < 2 ^ 6 ∧
      ∀ j < 6, (32).testBit j = (1).testBit (6 - 1 - j)) ∧
    (6 ≤ (sized 11).fftCfg.toNat ∧ (sized 11).fftCfg.toNat ≤ 11 ∧ 2047 < 2 ^ 11 ∧
      ∀ j < 11, (2047).testBit j = (2047).testBit (11 - 1 - j)) := by decide +kernel

/-- Stage 1 and the last stage; the last block and offset of each. -/
theorem test_witness_StageDoesItsButterflies :
    (6 ≤ (sized 6).fftCfg.toNat ∧ (sized 6).fftCfg.toNat ≤ 11 ∧ 1 ≤ 1 ∧ 1 ≤ (sized 6).fftCfg.toNat ∧
      31 < 2 ^ ((sized 6).fftCfg.toNat - 1) ∧ 0 < 2 ^ (1 - 1)) ∧
    (6 ≤ (sized 11).fftCfg.toNat ∧ (sized 11).fftCfg.toNat ≤ 11 ∧ 1 ≤ 11 ∧ 11 ≤ (sized 11).fftCfg.toNat ∧
      0 < 2 ^ ((sized 11).fftCfg.toNat - 11) ∧ 1023 < 2 ^ (11 - 1)) ∧
    ((Instr.stageF 1 = .stageF 1 ∧ Dir.forward = .forward) ∧ (Instr.stageI 11 = .stageI 11 ∧ Dir.inverse = .inverse)) := by
  decide +kernel

/-- A sine that is 0 everywhere: every twiddle entry is finite, at the largest size and so at every other. -/
theorem test_witness_FftOfImpulseIsFlat :
    6 ≤ 6 ∧ 6 ≤ 11 ∧ ∀ s, 1 ≤ s → s ≤ 6 → ∀ w ∈ twStage (fun _ => 0) .inverse s,
      fIsFinite w.re = true ∧ fIsFinite w.im = true := by
  refine ⟨by decide, by decide, fun s h1 h2 => ?_⟩
  have : s = 1 ∨ s = 2 ∨ s = 3 ∨ s = 4 ∨ s = 5 ∨ s = 6 := by omega
  obtain rfl | rfl | rfl | rfl | rfl | rfl := this <;> decide +kernel

/-- The first and the last twiddle entry of each direction, at their addresses. -/
theorem test_witness_TwiddleTableIsTheRecurrence :
    (1 ≤ 1 ∧ 1 ≤ 11 ∧ 1 ≤ 2 ∧ 0 + 1 < 2 ^ (2 - 1)) ∧ (11 ≤ 11 ∧ 1022 + 1 < 2 ^ (11 - 1)) ∧
    (2046 < 2047 ∧ (hosted [.read 0x2FFE8]).engine = .idle ∧
      (hosted [.read 0x2FFE8]).inbox = .read 0x2FFE8 :: [] ∧ (0x2FFE8#18).toNat = 0x28000 + 16 * 2046 + 8) ∧
    ((0x20000#18).toNat = 0x20000 + 16 * 0 ∧ (0x27FE8#18).toNat = 0x20000 + 16 * 2046 + 8 ∧
      (0x2FFE0#18).toNat = 0x28000 + 16 * 2046) := by decide

/-- The identity is an odd function, and the entries it gives in stages 1 and 3 are no NaN. -/
theorem test_witness_InverseTwiddlesAreConjugate :
    (∀ x : F64, id (fneg x) = fneg (id x)) ∧ (1 ≤ 3 ∧ 3 ≤ 11 ∧ 3 < 2 ^ (3 - 1)) ∧
    ∀ k ≤ 3, fIsNaN (twEntry id .forward (2 ^ (3 - 1) - 1 + k)).re = false ∧
      fIsNaN (twEntry id .forward (2 ^ (3 - 1) - 1 + k)).im = false := by
  refine ⟨fun _ => rfl, by decide, ?_⟩
  decide +kernel

/-- Under the identity in the place of the sine: the transform of 64 zeros holds no NaN. -/
theorem test_witness_DirectionDoesNotChangeMagnitudes :
    (∀ x : F64, id (fneg x) = fneg (id x)) ∧ 6 ≤ 6 ∧ 6 ≤ 11 ∧ (List.replicate 64 fzero).length = 2 ^ 6 ∧
    ∀ z ∈ fftBody id .forward 6 ((List.replicate 64 fzero).map (fun v => ⟨v, 0⟩)),
      fIsNaN z.re = false ∧ fIsNaN z.im = false := by
  refine ⟨fun _ => rfl, by decide, by decide, by decide, ?_⟩
  decide +kernel

/-- Each clause: a DC bin of zero, of minus zero, and of 1.0. -/
theorem test_witness_NormDividesByDc :
    (6 ≤ (sized 6).fftCfg.toNat ∧ (sized 6).fftCfg.toNat ≤ 11) ∧ fIsZero (seriesAt (sized 6).mem 0) = true ∧
    fIsZero (seriesAt (withMem 11 (writeWords [] 0x4000 [0x8000000000000000])).mem 0) = true ∧
    fIsZero (seriesAt (withMem 11 (writeWords [] 0x4000 [fone])).mem 0) = false := by decide +kernel

theorem test_witness_PeaksWritesItsTable :
    let s := { sized 6 with pkK := 1 }
    let u := { sized 11 with pkK := 64 }
    (6 ≤ s.fftCfg.toNat ∧ s.fftCfg.toNat ≤ 11 ∧ 1 ≤ s.pkK.toNat ∧ s.pkK.toNat ≤ 64) ∧
    (6 ≤ u.fftCfg.toNat ∧ u.fftCfg.toNat ≤ 11 ∧ 1 ≤ u.pkK.toNat ∧ u.pkK.toNat ≤ 64) := by decide

/-- A series with peaks of 2.0 at bin 2 and of 1.0 at bin 31, and K = 2: two entries, none left out; with K = 1 the second
peak is left out. -/
def twoPeaks (k : BitVec 8) : State :=
  { withMem 6 (writeWord (writeWord [] 0x4010 0x4000000000000000) 0x40F8 fone) with pkK := k }

theorem test_witness_PeakTableIsTheTopK :
    (6 ≤ (twoPeaks 1).fftCfg.toNat ∧ (twoPeaks 1).fftCfg.toNat ≤ 11 ∧ 1 ≤ (twoPeaks 1).pkK.toNat ∧
      (twoPeaks 2).pkK.toNat ≤ 64) ∧
    (∃ t, exec .peaks (twoPeaks 2) = .next t ∧ 0 < 1 ∧ 1 < t.pkCount.toNat) ∧
    (∃ t, exec .peaks (twoPeaks 1) = .next t ∧ t.pkCount = 1) ∧
    (1 ≤ 31 ∧ 31 < 32 ∧ fgt (seriesAt (twoPeaks 1).mem 31) (seriesAt (twoPeaks 1).mem (31 - 1)) = true) ∧
    (31 + 1 < 32 → fgt (seriesAt (twoPeaks 1).mem 31) (seriesAt (twoPeaks 1).mem (31 + 1)) = true) :=
  ⟨by decide, ⟨_, rfl, by decide, by decide +kernel⟩, ⟨_, rfl, by decide +kernel⟩, by decide +kernel,
    fun h => absurd h (by decide)⟩

/-- A series (of subnormal values) that rises up to bin `m` and falls after it. -/
def hill (m : Nat) : State :=
  withMem 6 (writeWords [] 0x4000 ((List.range 32).map (fun k => BitVec.ofNat 64 (if k ≤ m then 100 + k else 100 + 2 * m - k))))

/-- The peak at the first and at the last place that R202 allows. -/
theorem test_witness_OneHillHasOnePeak :
    (6 ≤ (hill 1).fftCfg.toNat ∧ (hill 1).fftCfg.toNat ≤ 11 ∧ 1 ≤ (hill 1).pkK.toNat ∧ (hill 1).pkK.toNat ≤ 64) ∧
    (1 ≤ 1 ∧ 1 < 32 - 1 ∧ 30 < 32 - 1) ∧
    (∀ k, k < 1 → fgt (seriesAt (hill 1).mem (k + 1)) (seriesAt (hill 1).mem k) = true) ∧
    (∀ k, 1 ≤ k → k + 1 < 32 → fgt (seriesAt (hill 1).mem k) (seriesAt (hill 1).mem (k + 1)) = true) ∧
    (∀ k, k < 30 → fgt (seriesAt (hill 30).mem (k + 1)) (seriesAt (hill 30).mem k) = true) ∧
    (∀ k, 30 ≤ k → k + 1 < 32 → fgt (seriesAt (hill 30).mem k) (seriesAt (hill 30).mem (k + 1)) = true) := by
  have h1 : ∀ k < 31, 1 ≤ k → fgt (seriesAt (hill 1).mem k) (seriesAt (hill 1).mem (k + 1)) = true := by decide +kernel
  have h2 : ∀ k < 31, 30 ≤ k → fgt (seriesAt (hill 30).mem k) (seriesAt (hill 30).mem (k + 1)) = true := by decide +kernel
  refine ⟨by decide, by decide, by decide +kernel, fun k ha hb => h1 k (by omega) ha, by decide +kernel,
    fun k ha hb => h2 k (by omega) ha⟩

theorem test_witness_SizeCheckFaults :
    (sized 5).fftCfg.toNat < 6 ∧ 11 < (sized 12).fftCfg.toNat ∧ (sized 0).fftCfg.toNat < 6 ∧ 11 < (sized 15).fftCfg.toNat :=
  by decide

theorem test_witness_StageAndPeakCountFaults :
    (6 ≤ (sized 6).fftCfg.toNat ∧ (sized 6).fftCfg.toNat ≤ 11) ∧ (sized 6).fftCfg.toNat < 7 ∧
    ({ sized 6 with pkK := 0 } : State).pkK.toNat = 0 ∧ 64 < ({ sized 11 with pkK := 65 } : State).pkK.toNat := by decide

/-- A register, the first and the last element or field of each memory, the reserved words at both ends. -/
theorem test_witness_HostReadsReturnTheirFields (addr : Addr) (v : Word) :
    ((0x000#18, 0x4B434C4D00010000#64) ∈ ([(0x000, 0x4B434C4D00010000), (0x120, 0x3FF0000000000000)] : List (Addr × Word))) ∧
    ((hosted [.read addr]).engine = .idle ∧ (hosted [.read addr]).inbox = .read addr :: []) ∧
    ((hosted [.write addr v]).engine = .idle ∧ (hosted [.write addr v]).inbox = .write addr v :: []) ∧
    ((0x027F0#18).toNat = 0x02000 + 32 * 63 + 8 * 2 ∧ (0x010F8#18).toNat = 0x01000 + 8 * 31 ∧
      (0x05FF8#18).toNat = 0x04000 + 8 * 1023 ∧ (0x0BFF8#18).toNat = 0x08000 + 8 * 2047 ∧
      (0x17FF0#18).toNat = 0x10000 + 16 * 2047 ∧ (0x17FF8#18).toNat = 0x10000 + 16 * 2047 + 8 ∧
      (0x31FF0#18).toNat = 0x30000 + 32 * 255 + 8 * 2) ∧
    ((0x02018#18).toNat = 0x02000 + 32 * 0 + 24 ∧ (0x027F8#18).toNat = 0x02000 + 32 * 63 + 24 ∧
      (0x31FF8#18).toNat = 0x30000 + 32 * 255 + 24) := by
  refine ⟨by decide, ⟨rfl, rfl⟩, ⟨rfl, rfl⟩, ?_⟩
  decide

/-- An unmapped register address, a misaligned one, an RO register, the PEAK window, while IDLE and while a command runs. -/
theorem test_witness_BusErrorsSetBerr :
    ((hosted [.read 0x038]).isHostTurn = true ∧ (hosted [.read 0x038]).isResetting = false ∧ isReadable 0x038 = false ∧
      (hosted [.read 0x038]).inbox = .read 0x038 :: []) ∧
    ((running 0 1 [.write 0x02000 1]).isHostTurn = true ∧ (running 0 1 [.write 0x02000 1]).isResetting = false ∧
      isWritable 0x02000 = false ∧ (running 0 1 [.write 0x02000 1]).inbox = .write 0x02000 1 :: []) ∧
    isReadable 0x044 = false ∧ isWritable 0x000 = false ∧ isReadable 0x3FFFF = false ∧ isReadable 0x27FF0 = false := by
  decide

/-- The first element of BURSTBUF and the last of RING. -/
theorem test_witness_ElementWriteReadsBack :
    (hosted [.write 0x01000 7, .read 0x01000]).engine = .idle ∧ isElement (0x01000#18).toNat = true ∧
    isElement (0x31FF0#18).toNat = true ∧
    (hosted [.write 0x01000 7, .read 0x01000]).inbox = .write 0x01000 7 :: .read 0x01000 :: [] := by decide

theorem test_witness_RegisterWritesTakeEffect (addr : Addr) (v : Word) :
    (hosted [.write addr v]).engine = .idle ∧ (hosted [.write addr v]).inbox = .write addr v :: [] ∧
    (0x3#64).getLsbD 8 = false := ⟨rfl, rfl, by decide⟩

theorem test_witness_AccessesWhileRunning (addr : Addr) (v : Word) :
    (running 0 1 [.read addr]).engine = .run 0 (0 + 1) ∧ (running 0 1 [.read addr]).inbox = .read addr :: [] ∧
    (running 0 1 [.write addr v]).inbox = .write addr v :: [] ∧ isReadable 0x044 = false ∧ isReadable 0x08000 = true ∧
    isWritable 0x02000 = false ∧ isWritable 0x040 = true ∧ (0x3#64).getLsbD 8 = false := by
  refine ⟨rfl, rfl, rfl, ?_⟩
  decide

/-- Each part: the reset input, a soft reset of a running block, a dropped write, the two reads, the end. -/
theorem test_witness_ResetSequence :
    ((hosted [.powerOn]).isHostTurn = true ∧ (hosted [.powerOn]).inbox = .powerOn :: []) ∧
    ((running 0 1 [.write 0x010 0x100]).isHostTurn = true ∧
      (running 0 1 [.write 0x010 0x100]).inbox = .write 0x010 0x100 :: [] ∧ (0x100#64).getLsbD 8 = true) ∧
    ((resetting 1 [.write 0x020 0]).engine = .reset (0 + 1) ∧
      (resetting 1 [.write 0x020 0]).inbox = .write 0x020 0 :: [] ∧ (0x020#18 ≠ 0x010 ∨ (0#64).getLsbD 8 = false)) ∧
    ((resetting 1 [.read 0x018]).Inv ∧ (resetting 1 [.read 0x018]).engine = .reset (0 + 1) ∧
      (resetting 1 [.read 0x018]).inbox = .read 0x018 :: [] ∧ (resetting 1 [.read 0x010]).Inv ∧
      (resetting 1 [.read 0x010]).inbox = .read 0x010 :: [] ∧ (0x044#18 ≠ 0x000 ∧ 0x044#18 ≠ 0x018)) ∧
    ((resetting 0 []).Inv ∧ (resetting 0 []).engine = .reset 0) :=
  ⟨⟨rfl, rfl⟩, ⟨rfl, rfl, by decide⟩, ⟨rfl, rfl, by decide⟩,
    ⟨resetting_inv _ _, rfl, rfl, resetting_inv _ _, rfl, by decide⟩, resetting_inv _ _, rfl⟩

theorem test_witness_InterruptFollowsStatus :
    let s := { State.reset with ctrl := { ieDone := true, ieErr := false } }
    s.ctrl.ieDone = true ∧ exec .nop s = .next (completedFrom s 0) := ⟨rfl, rfl⟩

/-- No turn left, and some turns left with events that are no reset. -/
theorem test_witness_AcceptedCommandCompletes :
    ((running 0 0 [.powerOn]).engine = .run 0 0 ∧ ∀ e ∈ (running 0 0 [.powerOn]).inbox.take 0, e.isReset = false) ∧
    ((running 0x36000000 2 [.read 0x018, .wait, .powerOn]).engine = .run 0x36000000 2 ∧
      ∀ e ∈ (running 0x36000000 2 [.read 0x018, .wait, .powerOn]).inbox.take 2, e.isReset = false) ∧
    ((resetting 1 [.write 0x010 0]).engine = .reset 1 ∧
      ∀ e ∈ (resetting 1 [.write 0x010 0]).inbox.take 1, e.isReset = false) := by decide

theorem test_witness_WaitingHostRunsCommandsInOrder :
    (hosted (doCommands Machine.spectrum)).engine = .idle ∧ (hosted (doCommands Machine.spectrum)).inbox = doCommands Machine.spectrum ∧
    ∀ i ∈ Machine.spectrum, i.wellFormed = true := by decide

theorem test_witness_StepKeepsInvariant : (operand 5).Inv ∧ step (operand 5) = .next (operand 5) := ⟨operand_inv 5, rfl⟩

/-- The largest finite value and the least positive one. -/
theorem test_witness_SumsAndProductsRoundToNearest :
    fIsFinite 0x7FEFFFFFFFFFFFFF = true ∧ fIsFinite 0x0000000000000001 = true := by decide

theorem test_witness_QuotientsAndRootsRoundToNearest :
    (fIsFinite 0x7FEFFFFFFFFFFFFF = true ∧ fIsFinite 0x0000000000000001 = true ∧ fIsZero 0x0000000000000001 = false) ∧
    (fIsFinite 0 = true ∧ 0 ≤ fval 0) := by
  refine ⟨by decide, by decide, ?_⟩
  rw [fval_of 0 0 (-1074) (by decide) (by decide) (by decide)]
  norm_num

end Sys2Proof.Tests
end

section
/-! SUPPORT. Sums, differences and products of finite binary64 values are rounded once (00_scope.md R9). -/

namespace Sys2Proof.Machine

/-! ### Values and signs -/

/-- A value is its signed significand on its place. -/
theorem fval_eq_fsigned (x : F64) : fval x = (fsigned x : ℚ) * 2 ^ fscale x := by
  unfold fval fsigned
  cases fsign x <;> simp

@[simp] theorem fsign_fneg (x : F64) : fsign (fneg x) = !fsign x := by
  simp [fsign, fneg]

@[simp] theorem fexp_fneg (x : F64) : fexp (fneg x) = fexp x := by
  simp [fexp, fneg, BitVec.extractLsb'_xor]

@[simp] theorem ffrac_fneg (x : F64) : ffrac (fneg x) = ffrac x := by
  simp [ffrac, fneg, BitVec.extractLsb'_xor]

@[simp] theorem fmant_fneg (x : F64) : fmant (fneg x) = fmant x := by simp [fmant]

@[simp] theorem fscale_fneg (x : F64) : fscale (fneg x) = fscale x := by simp [fscale]

/-- R9: `−x` stands for the negative of the value. -/
theorem fval_fneg (x : F64) : fval (fneg x) = -fval x := by
  unfold fval
  rw [fsign_fneg, fmant_fneg, fscale_fneg]
  cases fsign x <;> simp

@[simp] theorem fIsNaN_fneg (x : F64) : fIsNaN (fneg x) = fIsNaN x := by simp [fIsNaN]

@[simp] theorem fIsInf_fneg (x : F64) : fIsInf (fneg x) = fIsInf x := by simp [fIsInf]

@[simp] theorem fIsFinite_fneg (x : F64) : fIsFinite (fneg x) = fIsFinite x := by simp [fIsFinite]

/-- A zero is a pattern whose significand is 0. -/
theorem fIsZero_iff (x : F64) : fIsZero x = true ↔ fmant x = 0 := by
  unfold fIsZero fmant
  split <;> simp_all

/-- The significand is 0 exactly at the value 0. -/
theorem fval_eq_zero_iff (x : F64) : fval x = 0 ↔ fmant x = 0 := by
  have hz : (2 : ℚ) ^ fscale x ≠ 0 := by positivity
  unfold fval
  cases fsign x <;> simp [hz]

/-! ### Exact results -/

/-- The least magnitude that is rounded to an infinity, as a multiple of its last place. -/
theorem overflow_bound_eq {K : Type} [Field K] : (2 : K) ^ 1024 - 2 ^ 970 = (2 ^ 54 - 1) * 2 ^ 970 := by
  rw [sub_one_mul, ← pow_add]

/-- A finite pattern of the value 0 is 0 rounded to nearest. -/
theorem nearestEven_zero {x : F64} (hfin : fIsFinite x = true) (hx : fval x = 0) : nearestEven 0 x := by
  have below : ¬ (2 : ℚ) ^ 1024 - 2 ^ 970 ≤ |(0 : ℚ)| := by
    rw [overflow_bound_eq, abs_zero, not_le]
    exact mul_pos (by norm_num) (by positivity)
  refine ⟨fun h => absurd rfl h, ?_⟩
  rw [if_neg below, hx]
  refine ⟨hfin, fun y _ => ⟨by simp, fun tie hne => absurd ?_ hne⟩⟩
  simpa using tie.symm

/-- `fround` of the significand 0 is a zero of the given sign. -/
theorem fround_zero (neg : Bool) (e : Int) : fround neg 0 e = fpack neg 0 := by simp [fround]

theorem fIsFinite_fpack_zero (neg : Bool) : fIsFinite (fpack neg 0) = true := by cases neg <;> decide

theorem fval_fpack_zero (neg : Bool) : fval (fpack neg 0) = 0 := by
  rw [fval_eq_zero_iff]; cases neg <;> decide

/-- `fround_nearestEven` with the significand 0 included. -/
theorem fround_nearestEven_all (neg : Bool) (m : Nat) (e : Int) :
    nearestEven ((if neg then -1 else 1) * (m : ℚ) * 2 ^ e) (fround neg m e) := by
  rcases Nat.eq_zero_or_pos m with rfl | hm
  · rw [fround_zero]
    simpa using nearestEven_zero (fIsFinite_fpack_zero neg) (fval_fpack_zero neg)
  · exact fround_nearestEven neg m e hm.ne'

/-- A signed significand is rounded by its magnitude and its sign; the sign given to a zero is free. -/
theorem fround_int_nearestEven (z : Bool) (t : Int) (e : Int) :
    nearestEven ((t : ℚ) * 2 ^ e) (fround (if t = 0 then z else decide (t < 0)) t.natAbs e) := by
  have signed : ((if (if t = 0 then z else decide (t < 0)) then -1 else 1 : ℚ)) * (t.natAbs : ℚ) = t := by
    rw [Nat.cast_natAbs]
    rcases lt_trichotomy t 0 with h | rfl | h
    · simp [h.ne, h, abs_of_neg h]
    · simp
    · simp [h.ne', h.le, abs_of_pos h]
  rw [← signed]
  exact fround_nearestEven_all _ _ _

/-! ### Sums, differences and products -/

/-- A significand moved to a lower place. -/
theorem shift_to_place {K : Type} [Field K] [CharZero K] {s e : Int} (h : e ≤ s) (t : Int) :
    ((t * 2 ^ (s - e).toNat : Int) : K) * 2 ^ e = t * 2 ^ s := by
  obtain ⟨d, rfl⟩ : ∃ d : Nat, s = e + d := ⟨(s - e).toNat, by omega⟩
  rw [zpow_add₀ two_ne_zero, zpow_natCast]
  push_cast
  rw [show (e + (d : Int) - e).toNat = d by omega]
  ring

theorem fsumFinite_nearestEven (a b : F64) : nearestEven (fval a + fval b) (fsumFinite a b) := by
  have exact_sum : fval a + fval b =
      ((fsigned a * 2 ^ (fscale a - min (fscale a) (fscale b)).toNat +
        fsigned b * 2 ^ (fscale b - min (fscale a) (fscale b)).toNat : Int) : ℚ) *
        2 ^ min (fscale a) (fscale b) := by
    rw [Int.cast_add, add_mul, shift_to_place (min_le_left _ _), shift_to_place (min_le_right _ _),
      fval_eq_fsigned, fval_eq_fsigned]
  rw [exact_sum]
  exact fround_int_nearestEven _ _ _

/-- Neither operand is an infinity, so the sum is the finite one. -/
theorem fsum_of_finite (nan : F64) {a b : F64} (ha : fIsFinite a = true) (hb : fIsFinite b = true) :
    fsum nan a b = fsumFinite a b := by
  simp [fsum, ((finite_iff a).mp ha).2, ((finite_iff b).mp hb).2]

theorem fadd_of_finite {a b : F64} (ha : fIsFinite a = true) (hb : fIsFinite b = true) :
    fadd a b = fsumFinite a b := by
  simp [fadd, ((finite_iff a).mp ha).1, ((finite_iff b).mp hb).1, fsum_of_finite _ ha hb]

theorem fsub_of_finite {a b : F64} (ha : fIsFinite a = true) (hb : fIsFinite b = true) :
    fsub a b = fsumFinite a (fneg b) := by
  have hb' : fIsFinite (fneg b) = true := by rwa [fIsFinite_fneg]
  simp [fsub, ((finite_iff a).mp ha).1, ((finite_iff b).mp hb).1, fsum_of_finite _ ha hb']

theorem fmul_of_finite {a b : F64} (ha : fIsFinite a = true) (hb : fIsFinite b = true) :
    fmul a b = fround (fsign a != fsign b) (fmant a * fmant b) (fscale a + fscale b) := by
  simp [fmul, (finite_iff a).mp ha, (finite_iff b).mp hb]

/-- The sign of a product or a quotient. -/
theorem sign_bne (p q : Bool) :
    (if (p != q) then -1 else 1 : ℚ) = (if p then -1 else 1) * (if q then -1 else 1) := by
  cases p <;> cases q <;> simp

theorem fmul_nearestEven {a b : F64} (ha : fIsFinite a = true) (hb : fIsFinite b = true) :
    nearestEven (fval a * fval b) (fmul a b) := by
  have exact_product : fval a * fval b =
      (if (fsign a != fsign b) then -1 else 1) * ((fmant a * fmant b : Nat) : ℚ) * 2 ^ (fscale a + fscale b) := by
    rw [sign_bne, zpow_add₀ two_ne_zero]
    unfold fval
    push_cast
    ring
  rw [fmul_of_finite ha hb, exact_product]
  exact fround_nearestEven_all _ _ _

/-- Settles O59: each operation hands the exact result to `fround`, which rounds it once. -/
theorem sumsAndProductsRoundToNearest : Obligations.SumsAndProductsRoundToNearest := by
  intro a b ha hb
  refine ⟨?_, ?_, fmul_nearestEven ha hb⟩
  · rw [fadd_of_finite ha hb]
    exact fsumFinite_nearestEven a b
  · rw [fsub_of_finite ha hb, sub_eq_add_neg, ← fval_fneg]
    exact fsumFinite_nearestEven a (fneg b)

end Sys2Proof.Machine
end

section
/-! SUPPORT. Quotients and roots: a significand whose last bit stands for a remainder is rounded as the exact value is
(00_scope.md R9, 43_fft.md R183). -/

namespace Sys2Proof.Machine

/-! ### Nearest to a real -/

/-- `nearestEven` for a real: `x` is `r` rounded to nearest, ties to even. -/
def nearestEvenReal (r : ℝ) (x : F64) : Prop :=
  (r ≠ 0 → (fsign x = true ↔ r < 0)) ∧
  ((2 : ℝ) ^ 1024 - 2 ^ 970 ≤ |r| → fIsInf x = true) ∧
  (¬ (2 : ℝ) ^ 1024 - 2 ^ 970 ≤ |r| → fIsFinite x = true ∧
    ∀ y, fIsFinite y = true →
      |((fval x : ℚ) : ℝ) - r| ≤ |((fval y : ℚ) : ℝ) - r| ∧
      (|((fval x : ℚ) : ℝ) - r| = |((fval y : ℚ) : ℝ) - r| → fval y ≠ fval x → ffrac x % 2 = 0))

/-- On rationals the two notions are the same. -/
theorem nearestEvenReal_ratCast (r : ℚ) (x : F64) : nearestEvenReal (r : ℝ) x ↔ nearestEven r x := by
  have bound : (2 : ℝ) ^ 1024 - 2 ^ 970 ≤ |(r : ℝ)| ↔ (2 : ℚ) ^ 1024 - 2 ^ 970 ≤ |r| := by
    rw [← Rat.cast_abs, ← Rat.cast_le (K := ℝ)]
    push_cast
    rfl
  have dist (y : F64) : |((fval y : ℚ) : ℝ) - r| = ((|fval y - r| : ℚ) : ℝ) := by push_cast; rfl
  unfold nearestEvenReal nearestEven
  simp only [bound, dist, Rat.cast_le, Rat.cast_inj, Rat.cast_lt_zero, ne_eq, Rat.cast_eq_zero]
  by_cases h : (2 : ℚ) ^ 1024 - 2 ^ 970 ≤ |r|
  · simp only [h, not_true_eq_false, false_imp_iff, true_imp_iff, and_true, if_true]
  · simp only [h, not_false_eq_true, false_imp_iff, true_imp_iff, true_and, if_false]

/-- Rounding commutes with the change of the sign. -/
theorem nearestEvenReal_neg {r : ℝ} {x : F64} (h : nearestEvenReal r x) : nearestEvenReal (-r) (fneg x) := by
  obtain ⟨sign, inf, near⟩ := h
  refine ⟨fun hr => ?_, fun hb => ?_, fun hb => ?_⟩
  · have hr : r ≠ 0 := neg_ne_zero.mp hr
    rw [fsign_fneg, Bool.not_eq_true', ← Bool.not_eq_true, sign hr, not_lt, neg_lt_zero]
    exact ⟨fun h => lt_of_le_of_ne h hr.symm, le_of_lt⟩
  · rw [fIsInf_fneg]
    exact inf (by rwa [abs_neg] at hb)
  · rw [abs_neg] at hb
    obtain ⟨hfin, hnear⟩ := near hb
    have mirror (z : F64) (c : ℝ) : |((fval (fneg z) : ℚ) : ℝ) - c| = |((fval z : ℚ) : ℝ) - -c| := by
      rw [fval_fneg, Rat.cast_neg, ← abs_neg]
      congr 1
      ring
    refine ⟨by rwa [fIsFinite_fneg], fun y hy => ?_⟩
    have hy' := hnear (fneg y) (by rwa [fIsFinite_fneg])
    rw [mirror y, fval_fneg y] at hy'
    rw [mirror x, fval_fneg x, ffrac_fneg, neg_neg]
    exact ⟨hy'.1, fun tie hne => hy'.2 tie fun h => hne (by rw [← h, neg_neg])⟩

/-- The value `x` stays the nearer one, now strictly, when the target moves from `c` to `r` without passing the midpoint of
`x` and `y`. -/
theorem nearer_of_same_side {x y c r : ℝ} (near : |x - c| ≤ |y - c|)
    (side : (x + y < 2 * c ∧ x + y < 2 * r) ∨ (2 * c < x + y ∧ 2 * r < x + y)) (hne : y ≠ x) :
    |x - r| < |y - r| := by
  rw [← sq_le_sq] at near
  rw [← sq_lt_sq]
  have factored : (x - y) * (x + y - 2 * c) ≤ 0 := by linarith
  rcases side with ⟨hc, hr⟩ | ⟨hc, hr⟩
  · have : y < x := lt_of_le_of_ne (by nlinarith) hne
    nlinarith
  · have : x < y := lt_of_le_of_ne (by nlinarith) hne.symm
    nlinarith

/-! ### Sticky significands -/

/-- `N·2^e` stands for the magnitude `v`: exactly, or with a last bit that is sticky and only says that `v` lies strictly
between the two even neighbours of `N`. -/
def Sticky (v : ℝ) (N : Nat) (e : Int) : Prop :=
  v = N * 2 ^ e ∨ ∃ q : Nat, N = 2 * q + 1 ∧ 2 * q * (2 : ℝ) ^ e < v ∧ v < 2 * (q + 1) * 2 ^ e

/-- The integer part `q` of `w`, with a sticky bit for what is left. -/
theorem sticky_of_floor {w : ℝ} {q : Nat} (lo : q ≤ w) (hi : w < q + 1) {exact : Prop} [Decidable exact]
    (hexact : exact ↔ w = q) (e : Int) :
    Sticky (w * 2 ^ (e + 1)) (2 * q + if exact then 0 else 1) e := by
  have pos : (0 : ℝ) < 2 ^ e := by positivity
  have place : w * (2 : ℝ) ^ (e + 1) = 2 * w * 2 ^ e := by rw [zpow_add_one₀ two_ne_zero]; ring
  rw [place]
  split
  · rename_i h
    left
    rw [hexact.mp h]
    push_cast
    ring
  · rename_i h
    have lt : (q : ℝ) < w := lt_of_le_of_ne lo fun h' => h (hexact.mpr h'.symm)
    exact .inr ⟨q, rfl, mul_lt_mul_of_pos_right (by linarith) pos, mul_lt_mul_of_pos_right (by linarith) pos⟩

/-- A finite result of `fround` is the rounded significand on its place. -/
theorem fval_fround (m : Nat) (e : Int) (hm : m ≠ 0) (hfin : fIsFinite (fround false m e) = true) :
    ∀ q n, q = max ((Nat.log2 m : Int) + e - 52) (-1074) → n = rneShift m (e - q) →
    fval (fround false m e) = (n : ℚ) * 2 ^ q := by
  rintro q n rfl rfl
  obtain ⟨hq, hn, hs, -⟩ := fround_parts m e hm _ _ rfl rfl
  unfold fround at hfin ⊢
  simp only [if_neg hm] at hfin ⊢
  rcases le_or_gt infMag ((max ((Nat.log2 m : Int) + e - 52) (-1074) + 1074).toNat * 2 ^ 52 +
      rneShift m (e - max ((Nat.log2 m : Int) + e - 52) (-1074))) with h | h
  · rw [min_eq_right h] at hfin
    exact absurd hfin (by decide)
  · rw [min_eq_left h.le, fval_fpack false _ _ hq hn (hs.imp id And.left) h]
    simp

section
variable {K : Type} [Field K] [LinearOrder K] [IsStrictOrderedRing K]

/-- A multiple of a place `2^p` is not strictly between two multiples of it that follow each other. -/
theorem no_multiple_between (q : Nat) (z p : Int) :
    ¬ ((q : K) * 2 ^ p < z * 2 ^ p ∧ (z : K) * 2 ^ p < (q + 1) * 2 ^ p) := by
  rintro ⟨lo, hi⟩
  have pos : (0 : K) < 2 ^ p := by positivity
  have lo : (q : Int) < z := by exact_mod_cast lt_of_mul_lt_mul_right lo pos.le
  have hi : z < (q : Int) + 1 := by exact_mod_cast lt_of_mul_lt_mul_right hi pos.le
  omega

/-- A value on a place at least `2^p` is an integer multiple of `2^p`. -/
theorem multiple_of_le {k p : Int} (h : p ≤ k) (j : Int) : ∃ z : Int, (j : K) * 2 ^ k = z * 2 ^ p :=
  ⟨j * 2 ^ (k - p).toNat, (shift_to_place h j).symm⟩

end

/-- The key fact about a sticky bit: with at least 56 bits in `2q + 1`, no midpoint of the packed value `n·2^Q` and another
value `j·2^k` lies strictly between `2q·2^e` and `2(q + 1)·2^e`. -/
theorem midpoint_outside (q : Nat) (e : Int) (hlarge : 2 ^ 54 ≤ q) (j k : Int) (hj : j < 2 ^ 53) (hk : -1074 ≤ k) :
    ∀ Q n, Q = max ((Nat.log2 (2 * q + 1) : Int) + e - 52) (-1074) → n = rneShift (2 * q + 1) (e - Q) →
    ¬ ((q : ℚ) * 2 ^ (e + 2) < n * 2 ^ Q + j * 2 ^ k ∧ (n : ℚ) * 2 ^ Q + j * 2 ^ k < (q + 1) * 2 ^ (e + 2)) := by
  intro Q n Qdef ndef
  have hlog : 55 ≤ Nat.log2 (2 * q + 1) := (Nat.le_log2 (by omega)).mpr (by omega)
  have hQ : e + 3 ≤ Q := by omega
  rcases le_or_gt (e + 2) k with h | h
  · obtain ⟨z₁, h₁⟩ := multiple_of_le (K := ℚ) (show e + 2 ≤ Q by omega) n
    obtain ⟨z₂, h₂⟩ := multiple_of_le (K := ℚ) h j
    rw [Int.cast_natCast] at h₁
    rw [h₁, h₂, ← add_mul, ← Int.cast_add]
    exact no_multiple_between q (z₁ + z₂) (e + 2)
  · rintro ⟨lo, -⟩
    obtain ⟨-, -, normal, -⟩ := fround_parts (2 * q + 1) e (by omega) Q n Qdef ndef
    have low : (2 : ℚ) ^ (Q + 52) ≤ (2 * q + 1 : Nat) * 2 ^ e := (normal.resolve_left (by omega)).2
    have half := (abs_le.mp (rneShift_spec (2 * q + 1) (e - Q)).1).2
    rw [← ndef, zpow_sub₀ two_ne_zero] at half
    have hT : (0 : ℚ) < 2 ^ e := by positivity
    have hU : (8 : ℚ) * 2 ^ e ≤ 2 ^ Q := by
      calc (8 : ℚ) * 2 ^ e = 2 ^ (e + 3) := by rw [zpow_add₀ two_ne_zero]; ring
        _ ≤ 2 ^ Q := zpow_le_zpow_right₀ (by norm_num) hQ
    have small : (j : ℚ) * 2 ^ k ≤ 2 ^ 51 * 2 ^ Q := by
      have hjQ : (j : ℚ) ≤ 2 ^ 53 := by exact_mod_cast hj.le
      calc (j : ℚ) * 2 ^ k ≤ 2 ^ 53 * 2 ^ k := mul_le_mul_of_nonneg_right hjQ (by positivity)
        _ = 2 ^ (k + 53) := by rw [zpow_add₀ two_ne_zero]; ring
        _ ≤ 2 ^ (Q + 51) := zpow_le_zpow_right₀ (by norm_num) (by omega)
        _ = 2 ^ 51 * 2 ^ Q := by rw [zpow_add₀ two_ne_zero]; ring
    have packed : (n : ℚ) * 2 ^ Q ≤ (2 * q + 1) * 2 ^ e + 2 ^ Q / 2 := by
      have hU0 : (0 : ℚ) < 2 ^ Q := by positivity
      have := mul_le_mul_of_nonneg_right half hU0.le
      field_simp at this
      push_cast at this
      linarith
    have e2 : (2 : ℚ) ^ (e + 2) = 4 * 2 ^ e := by rw [zpow_add₀ two_ne_zero]; ring
    have e52 : (2 : ℚ) ^ (Q + 52) = 2 ^ 52 * 2 ^ Q := by rw [zpow_add₀ two_ne_zero]; ring
    rw [e52] at low
    rw [e2] at lo
    push_cast at low
    generalize (2 : ℚ) ^ e = T at *
    generalize (2 : ℚ) ^ Q = U at *
    linarith

/-- The overflow bound is not strictly inside the interval of a sticky bit either. -/
theorem overflow_bound_outside (q : Nat) (e : Int) (hlarge : 2 ^ 54 ≤ q) :
    (2 : ℝ) ^ 1024 - 2 ^ 970 ≤ q * 2 ^ (e + 1) ∨ (q + 1) * (2 : ℝ) ^ (e + 1) ≤ 2 ^ 1024 - 2 ^ 970 := by
  rw [overflow_bound_eq]
  have hz970 : (2 : ℝ) ^ (970 : Int) = 2 ^ 970 := zpow_natCast 2 970
  rcases le_or_gt (e + 1) 970 with h | h
  · obtain ⟨z, hz⟩ := multiple_of_le (K := ℝ) h (2 ^ 54 - 1)
    have outside := no_multiple_between (K := ℝ) q z (e + 1)
    rwa [← hz, hz970, Int.cast_sub, Int.cast_pow, Int.cast_one, Int.cast_ofNat, not_and_or, not_lt, not_lt] at outside
  · left
    have hq : (2 : ℝ) ^ 54 - 1 ≤ q := by
      have : (2 : ℝ) ^ 54 ≤ q := by exact_mod_cast hlarge
      linarith
    have hp : (2 : ℝ) ^ 970 ≤ 2 ^ (e + 1) := hz970 ▸ zpow_le_zpow_right₀ (by norm_num) h.le
    exact mul_le_mul hq hp (by positivity) (by positivity)

/-- So a value between the even neighbours of an odd significand overflows exactly when that significand does. -/
theorem overflow_iff_of_between {q : Nat} {e : Int} (hlarge : 2 ^ 54 ≤ q) {v : ℝ}
    (lo : 2 * q * (2 : ℝ) ^ e < v) (hi : v < 2 * (q + 1) * 2 ^ e) :
    (2 : ℝ) ^ 1024 - 2 ^ 970 ≤ v ↔ (2 : ℝ) ^ 1024 - 2 ^ 970 ≤ (2 * q + 1) * 2 ^ e := by
  have pos : (0 : ℝ) < 2 ^ e := by positivity
  have outside := overflow_bound_outside q e hlarge
  rw [zpow_add_one₀ two_ne_zero] at outside
  generalize (2 : ℝ) ^ 1024 - 2 ^ 970 = bound at outside ⊢
  rcases outside with h | h
  · exact ⟨fun _ => by linarith, fun _ => by linarith⟩
  · exact ⟨fun _ => by linarith, fun _ => by linarith⟩

/-! ### Rounding a sticky significand -/

/-- Between the even neighbours of an odd significand, the value that `fround` gives is strictly nearer to every real than
any other value. -/
theorem fround_strictly_nearer {q : Nat} {e : Int} (hlarge : 2 ^ 54 ≤ q) {v : ℝ}
    (lo : 2 * q * (2 : ℝ) ^ e < v) (hi : v < 2 * (q + 1) * 2 ^ e) {x y : F64} (hx : x = fround false (2 * q + 1) e)
    (hfin : fIsFinite x = true) (hne : fval y ≠ fval x)
    (near : |((fval x : ℚ) : ℝ) - (2 * q + 1) * 2 ^ e| ≤ |((fval y : ℚ) : ℝ) - (2 * q + 1) * 2 ^ e|) :
    |((fval x : ℚ) : ℝ) - v| < |((fval y : ℚ) : ℝ) - v| := by
  obtain ⟨hmant, hplace, -⟩ := fmant_bounds y
  have hsigned : fsigned y < 2 ^ 53 := by unfold fsigned; split <;> omega
  have outside := midpoint_outside q e hlarge (fsigned y) (fscale y) hsigned hplace _ _ rfl rfl
  rw [← fval_fround _ _ (by omega) (hx ▸ hfin) _ _ rfl rfl, ← hx, ← fval_eq_fsigned,
    not_and_or, not_lt, not_lt] at outside
  have pos : (0 : ℝ) < 2 ^ e := by positivity
  have place : (2 : ℝ) ^ (e + 2) = 4 * 2 ^ e := by rw [zpow_add₀ two_ne_zero]; ring
  refine nearer_of_same_side near ?_ (Rat.cast_injective.ne hne)
  rcases outside with h | h
  · have h := (Rat.cast_le (K := ℝ)).mpr h
    push_cast [place] at h
    exact .inl ⟨by linarith, by linarith⟩
  · have h := (Rat.cast_le (K := ℝ)).mpr h
    push_cast [place] at h
    exact .inr ⟨by linarith, by linarith⟩

/-- An exact significand in the reals. -/
theorem fround_nearestEvenReal (m : Nat) (e : Int) : nearestEvenReal (m * 2 ^ e) (fround false m e) := by
  have h := (nearestEvenReal_ratCast _ _).mpr (fround_nearestEven_all false m e)
  simpa using h

/-- A significand of at least 56 bits, its last one perhaps sticky, is rounded as the value it stands for. -/
theorem fround_of_sticky {v : ℝ} {N : Nat} {e : Int} (h : Sticky v N e) (hN : N = 0 ∨ 2 ^ 55 ≤ N) :
    nearestEvenReal v (fround false N e) := by
  rcases h with rfl | ⟨q, rfl, lo, hi⟩
  · exact fround_nearestEvenReal N e
  have hlarge : 2 ^ 54 ≤ q := by omega
  have vpos : 0 < v := lt_of_le_of_lt (by positivity) lo
  obtain ⟨sign, inf, near⟩ := fround_nearestEvenReal (2 * q + 1) e
  have cpos : (0 : ℝ) < ((2 * q + 1 : Nat) : ℝ) * 2 ^ e := by positivity
  have odd : ((2 * q + 1 : Nat) : ℝ) = 2 * q + 1 := by push_cast; rfl
  rw [abs_of_pos cpos, odd, ← overflow_iff_of_between hlarge lo hi] at inf near
  unfold nearestEvenReal
  rw [abs_of_pos vpos]
  refine ⟨fun _ => ?_, inf, fun hb => ?_⟩
  · rw [sign cpos.ne']
    exact ⟨fun h => absurd h cpos.not_gt, fun h => absurd h vpos.not_gt⟩
  · obtain ⟨hfin, hnear⟩ := near hb
    refine ⟨hfin, fun y hy => ?_⟩
    by_cases hne : fval y = fval (fround false (2 * q + 1) e)
    · rw [hne]
      exact ⟨le_rfl, fun _ h => absurd rfl h⟩
    · have strict := fround_strictly_nearer hlarge lo hi rfl hfin hne (hnear y hy).1
      exact ⟨strict.le, fun tie => absurd tie strict.ne⟩

/-! ### Quotients -/

/-- Setting the sign bit of a packed magnitude. -/
theorem fpack_true (mag : Nat) : fpack true mag = fneg (fpack false mag) := by
  have signMask : (0x8000000000000000#64 : F64) = BitVec.twoPow 64 63 := by decide
  unfold fneg
  rw [signMask]
  ext i hi
  rcases Nat.lt_or_eq_of_le (Nat.le_of_lt_succ hi) with h | rfl
  · simp [-Nat.reducePow, fpack, BitVec.getElem_eq_testBit_toNat, Nat.testBit_two_pow_add_gt h,
      Nat.testBit_two_pow_of_ne h.ne']
  · simp [-Nat.reducePow, fpack, BitVec.getElem_eq_testBit_toNat, Nat.testBit_two_pow_add_eq]

theorem fround_true (m : Nat) (e : Int) : fround true m e = fneg (fround false m e) := by
  unfold fround
  split <;> exact fpack_true _

/-- `fround_of_sticky` for both signs. -/
theorem fround_signed_of_sticky (neg : Bool) {v : ℝ} {N : Nat} {e : Int} (h : Sticky v N e) (hN : N = 0 ∨ 2 ^ 55 ≤ N) :
    nearestEvenReal (if neg then -v else v) (fround neg N e) := by
  have pos := fround_of_sticky h hN
  cases neg
  · simpa using pos
  · rw [fround_true]
    simpa using nearestEvenReal_neg pos

theorem fdiv_of_finite {a b : F64} (ha : fIsFinite a = true) (hb : fIsFinite b = true) (hz : fIsZero b = false) :
    fdiv a b = fround (fsign a != fsign b)
      (2 * (fmant a * 2 ^ divShift / fmant b) + if fmant a * 2 ^ divShift % fmant b = 0 then 0 else 1)
      (fscale a - fscale b - divShift - 1) := by
  simp [fdiv, (finite_iff a).mp ha, (finite_iff b).mp hb, hz]

/-- The quotient of natural numbers with a sticky bit for the remainder. -/
theorem sticky_div (n : Nat) {d : Nat} (hd : d ≠ 0) (e : Int) :
    Sticky ((n : ℝ) / d * 2 ^ (e + 1)) (2 * (n / d) + if n % d = 0 then 0 else 1) e := by
  have hdR : (d : ℝ) ≠ 0 := Nat.cast_ne_zero.mpr hd
  have floor : ⌊(n : ℝ) / d⌋₊ = n / d := Nat.floor_div_eq_div n d
  have exact_iff : n % d = 0 ↔ (n : ℝ) / d = (n / d : Nat) := by
    rw [div_eq_iff hdR, ← Nat.cast_mul, Nat.cast_inj, ← Nat.dvd_iff_mod_eq_zero]
    exact ⟨fun h => (Nat.div_mul_cancel h).symm, fun h => Dvd.intro_left _ h.symm⟩
  refine sticky_of_floor ?_ ?_ exact_iff e
  · exact floor ▸ Nat.floor_le (by positivity)
  · exact floor ▸ Nat.lt_floor_add_one _

/-- The quotient that `fdiv` hands to `fround` is 0 or has at least 56 bits. -/
theorem quotient_large (a b : F64) (hb : fmant b ≠ 0) (sticky : Nat) (h0 : fmant a = 0 → sticky = 0) :
    2 * (fmant a * 2 ^ divShift / fmant b) + sticky = 0 ∨ 2 ^ 55 ≤ 2 * (fmant a * 2 ^ divShift / fmant b) + sticky := by
  rcases Nat.eq_zero_or_pos (fmant a) with h | h
  · left
    simp [h, h0 h]
  · right
    have hlt := (fmant_bounds b).1
    have : 2 ^ 57 ≤ fmant a * 2 ^ divShift / fmant b := by
      rw [Nat.le_div_iff_mul_le (Nat.pos_of_ne_zero hb)]
      unfold divShift
      omega
    omega

/-- The exact quotient of two values in terms of their significands. -/
theorem fval_div (a b : F64) :
    ((fval a / fval b : ℚ) : ℝ) =
      if (fsign a != fsign b) then -(((fmant a * 2 ^ divShift : Nat) : ℝ) / fmant b * 2 ^ (fscale a - fscale b - divShift))
      else ((fmant a * 2 ^ divShift : Nat) : ℝ) / fmant b * 2 ^ (fscale a - fscale b - divShift) := by
  have shifted : ((fmant a * 2 ^ divShift : Nat) : ℝ) / fmant b * 2 ^ (fscale a - fscale b - divShift) =
      (fmant a * 2 ^ fscale a) / (fmant b * 2 ^ fscale b) := by
    rw [zpow_sub₀ two_ne_zero, zpow_sub₀ two_ne_zero, zpow_natCast]
    push_cast
    field_simp
  rw [shifted]
  unfold fval
  cases fsign a <;> cases fsign b <;> simp [neg_div, div_neg]

theorem fdiv_nearestEven {a b : F64} (ha : fIsFinite a = true) (hb : fIsFinite b = true) (hz : fIsZero b = false) :
    nearestEven (fval a / fval b) (fdiv a b) := by
  have hm : fmant b ≠ 0 := fun h => by simp [(fIsZero_iff b).mpr h] at hz
  have sticky := sticky_div (fmant a * 2 ^ divShift) hm (fscale a - fscale b - divShift - 1)
  rw [sub_add_cancel] at sticky
  rw [← nearestEvenReal_ratCast, fdiv_of_finite ha hb hz, fval_div]
  exact fround_signed_of_sticky _ sticky (quotient_large a b hm _ fun h => by simp [h])

/-! ### Roots -/

/-- The bits found so far and those still to come: `isqrtFrom` keeps the root between `r` and `r + 2^n`. -/
theorem isqrtFrom_spec (n m r : Nat) (lo : r * r ≤ m) (hi : m < (r + 2 ^ n) * (r + 2 ^ n)) :
    isqrtFrom n m r * isqrtFrom n m r ≤ m ∧ m < (isqrtFrom n m r + 1) * (isqrtFrom n m r + 1) := by
  induction n generalizing r with
  | zero => exact ⟨lo, by simpa [isqrtFrom] using hi⟩
  | succ n ih =>
    rw [pow_succ, mul_two, ← add_assoc] at hi
    unfold isqrtFrom
    split
    · rename_i h
      exact ih _ h hi
    · rename_i h
      exact ih _ lo (not_le.mp h)

theorem isqrt_spec {m : Nat} (h : m < 2 ^ 168) : isqrt m * isqrt m ≤ m ∧ m < (isqrt m + 1) * (isqrt m + 1) :=
  isqrtFrom_spec 84 m 0 (by simp) (by simpa [← pow_add] using h)

/-- The integer root with a sticky bit for what is left. -/
theorem sticky_isqrt {n : Nat} (h : n < 2 ^ 168) (e : Int) :
    Sticky (√(n : ℝ) * 2 ^ (e + 1)) (2 * isqrt n + if isqrt n * isqrt n = n then 0 else 1) e := by
  obtain ⟨lo, hi⟩ := isqrt_spec h
  have root_eq : isqrt n * isqrt n = n ↔ √(n : ℝ) = isqrt n := by
    rw [Real.sqrt_eq_iff_mul_self_eq (by positivity) (by positivity), eq_comm]
    exact_mod_cast Iff.rfl
  refine sticky_of_floor ?_ ?_ root_eq e
  · exact Real.le_sqrt_of_sq_le (by rw [sq]; exact_mod_cast lo)
  · rw [Real.sqrt_lt' (by positivity), sq]
    exact_mod_cast hi

/-- What `fsqrt` hands to `fround`: the place left for the root is a whole number. -/
theorem fsqrt_of_pos {x : F64} (hfin : fIsFinite x = true) (hz : fmant x ≠ 0) (hs : fsign x = false) :
    ∃ (k : Nat) (h : Int), 110 ≤ k ∧ k ≤ 111 ∧ fscale x = k + 2 * h ∧
      fsqrt x = fround false
        (2 * isqrt (fmant x * 2 ^ k) + if isqrt (fmant x * 2 ^ k) * isqrt (fmant x * 2 ^ k) = fmant x * 2 ^ k then 0 else 1)
        (h - 1) := by
  have hzero : fIsZero x = false := by rwa [← Bool.not_eq_true, fIsZero_iff]
  refine ⟨if fscale x % 2 = 0 then 110 else 111,
    (fscale x - (if fscale x % 2 = 0 then 110 else 111 : Nat)) / 2, ?_, ?_, ?_, ?_⟩
  · split <;> omega
  · split <;> omega
  · split <;> push_cast <;> omega
  · simp [fsqrt, (finite_iff x).mp hfin, hzero, hs]

/-- The real root of a value, its place taken out. -/
theorem sqrt_fval {x : F64} (hs : fsign x = false) {k : Nat} {h : Int} (hk : fscale x = k + 2 * h) :
    √((fval x : ℚ) : ℝ) = √((fmant x * 2 ^ k : Nat) : ℝ) * 2 ^ h := by
  have square : ((fval x : ℚ) : ℝ) = ((fmant x * 2 ^ k : Nat) : ℝ) * ((2 : ℝ) ^ h * 2 ^ h) := by
    unfold fval
    rw [hs, hk, zpow_add₀ two_ne_zero, two_mul, zpow_add₀ two_ne_zero]
    push_cast
    simp [mul_assoc]
  rw [square, Real.sqrt_mul (by positivity), Real.sqrt_mul_self (by positivity)]

/-- The integer root of a significand shifted by at least 110 places has at least 56 bits. -/
theorem isqrt_large {n : Nat} (hn : n < 2 ^ 168) (h : 2 ^ 110 ≤ n) : 2 ^ 55 ≤ isqrt n := by
  obtain ⟨-, hi⟩ := isqrt_spec hn
  by_contra hlt
  have : (isqrt n + 1) * (isqrt n + 1) ≤ 2 ^ 55 * 2 ^ 55 := Nat.mul_le_mul (by omega) (by omega)
  omega

theorem fsqrt_nearest_of_pos {x : F64} (hfin : fIsFinite x = true) (hz : fmant x ≠ 0) (hs : fsign x = false) :
    nearestEvenReal (√((fval x : ℚ) : ℝ)) (fsqrt x) := by
  obtain ⟨k, h, klo, khi, hk, root⟩ := fsqrt_of_pos hfin hz hs
  have hm := (fmant_bounds x).1
  have nlt : fmant x * 2 ^ k < 2 ^ 168 :=
    calc fmant x * 2 ^ k ≤ 2 ^ 53 * 2 ^ 111 := Nat.mul_le_mul hm.le (Nat.pow_le_pow_right two_pos khi)
      _ < 2 ^ 168 := by norm_num
  have nge : 2 ^ 110 ≤ fmant x * 2 ^ k :=
    calc 2 ^ 110 = 1 * 2 ^ 110 := (one_mul _).symm
      _ ≤ fmant x * 2 ^ k := Nat.mul_le_mul (Nat.pos_of_ne_zero hz) (Nat.pow_le_pow_right two_pos klo)
  have sticky := sticky_isqrt nlt (h - 1)
  rw [sub_add_cancel, ← sqrt_fval hs hk] at sticky
  rw [root]
  exact fround_of_sticky sticky (.inr (by have := isqrt_large nlt nge; omega))

/-- The sign of a value. -/
theorem fval_nonneg_of_fsign {x : F64} (h : fsign x = false) : 0 ≤ fval x := by
  unfold fval
  rw [h]
  simp only [Bool.false_eq_true, if_false, one_mul]
  positivity

theorem fsign_of_fval_pos {x : F64} (h : 0 < fval x) : fsign x = false := by
  by_contra hs
  rw [Bool.not_eq_false] at hs
  unfold fval at h
  rw [hs, if_pos rfl, mul_assoc, neg_one_mul, neg_pos] at h
  exact absurd h (not_lt.mpr (by positivity))

/-- The root of a value that is not negative is correctly rounded, and is not negative. -/
theorem fsqrt_nearest {x : F64} (hfin : fIsFinite x = true) (hx : 0 ≤ fval x) :
    nearestEvenReal (√((fval x : ℚ) : ℝ)) (fsqrt x) ∧ 0 ≤ fval (fsqrt x) := by
  rcases hx.eq_or_lt with h0 | hpos
  · have hzero : fIsZero x = true := (fIsZero_iff x).mpr ((fval_eq_zero_iff x).mp h0.symm)
    have root : fsqrt x = x := by simp [fsqrt, ((finite_iff x).mp hfin).1, hzero]
    have near := (nearestEvenReal_ratCast 0 x).mpr (nearestEven_zero hfin h0.symm)
    rw [root, ← h0]
    simpa using near
  · have hz : fmant x ≠ 0 := mt (fval_eq_zero_iff x).mpr hpos.ne'
    have near := fsqrt_nearest_of_pos hfin hz (fsign_of_fval_pos hpos)
    have rootPos : 0 < √((fval x : ℚ) : ℝ) := Real.sqrt_pos.mpr (by exact_mod_cast hpos)
    refine ⟨near, fval_nonneg_of_fsign ?_⟩
    rw [← Bool.not_eq_true, near.1 rootPos.ne', not_lt]
    exact rootPos.le

/-- Every finite value is below 2^1024. -/
theorem fval_lt {x : F64} (hfin : fIsFinite x = true) : fval x < 2 ^ (1024 : Int) := by
  obtain ⟨hm, -, -⟩ := fmant_bounds x
  have hexp : fexp x ≠ 2047 := by simpa [fIsFinite] using hfin
  have hs : fscale x ≤ 971 := by
    have := fexp_lt x
    unfold fscale
    split <;> omega
  have hmQ : (fmant x : ℚ) < 2 ^ 53 := by exact_mod_cast hm
  calc fval x ≤ |fval x| := le_abs_self _
    _ = fmant x * 2 ^ fscale x := abs_fval x
    _ < 2 ^ 53 * 2 ^ fscale x := mul_lt_mul_of_pos_right hmQ (by positivity)
    _ = 2 ^ (fscale x + 53) := by rw [zpow_add₀ two_ne_zero, mul_comm]; norm_num
    _ ≤ 2 ^ (1024 : Int) := zpow_le_zpow_right₀ (by norm_num) (by omega)

/-- A root never reaches the overflow bound. -/
theorem sqrt_fval_lt {x : F64} (hfin : fIsFinite x = true) : √((fval x : ℚ) : ℝ) < (2 : ℝ) ^ 1024 - 2 ^ 970 := by
  have hlt : ((fval x : ℚ) : ℝ) < (2 : ℝ) ^ (1024 : Int) := by exact_mod_cast fval_lt hfin
  have square : (2 : ℝ) ^ (1024 : Int) = (2 ^ 512) ^ 2 := by rw [← pow_mul]; exact zpow_natCast 2 1024
  calc √((fval x : ℚ) : ℝ) < 2 ^ 512 := (Real.sqrt_lt' (by positivity)).mpr (square ▸ hlt)
    _ ≤ 1 * 2 ^ 970 := by rw [one_mul]; exact pow_le_pow_right₀ one_le_two (by norm_num)
    _ ≤ (2 ^ 54 - 1) * 2 ^ 970 := mul_le_mul_of_nonneg_right (by norm_num) (by positivity)
    _ = 2 ^ 1024 - 2 ^ 970 := overflow_bound_eq.symm

/-- Settles O60: the significand that `fdiv` or `fsqrt` hands to `fround` ends in a sticky bit, and `fround` rounds it as it
would the exact quotient or root. -/
theorem quotientsAndRootsRoundToNearest : Obligations.QuotientsAndRootsRoundToNearest := by
  refine ⟨fun a b ha hb hz => fdiv_nearestEven ha hb hz, fun a ha hpos => ?_⟩
  obtain ⟨⟨-, -, near⟩, nonneg⟩ := fsqrt_nearest ha hpos
  rw [abs_of_nonneg (Real.sqrt_nonneg _)] at near
  obtain ⟨finite, nearest⟩ := near (not_le.mpr (sqrt_fval_lt ha))
  exact ⟨finite, nonneg, nearest⟩

end Sys2Proof.Machine
end

section
/-! SUPPORT. What a command does to the state, said once for all commands: `exec` runs one rule, and a rule that raises no
fault writes what its family of commands writes. -/

namespace Sys2Proof.Machine

/-! ### The rule of a command -/

/-- The rule that `exec` runs for a command, between acceptance and completion. -/
def ruleOf : Instr → State → Except FaultCode State
  | .nop => .ok
  | .kfdecM len => kfdecRule 16 len
  | .kfdecB len => kfdecRule 15 len
  | .kfencM => kfencRule 16
  | .kfencB => kfencRule 15
  | .xfdec len => xfdecRule Config.xfLayout.layout len
  | .rngdec len => fun s => withLength 1 len s { s with res0 := rangeWord (s.opaByte 0) }
  | .errtok len => errtokRule Config.errTokenMap len
  | .bcpush => bcpushRule
  | .bcclr => fun s => .ok { s with mem := clearRing s.mem, bcWptr := 0, bcFill := 0 }
  | .rpclr => fun s => .ok { s.storeRipple (List.replicate Config.nMax fzero) with rpFill := 0 }
  | .rppush => rppushRule
  | .load => loadRule
  | .win => winRule Config.cos64
  | .fftF => fftRule Config.sin64 .forward
  | .fftI => fftRule Config.sin64 .inverse
  | .mag => magRule
  | .norm => normRule
  | .peaks => peaksRule
  | .bitrev => bitrevRule
  | .stageF n => stageRule Config.sin64 .forward n
  | .stageI n => stageRule Config.sin64 .inverse n

theorem exec_eq_runCommand (i : Instr) (s : State) : exec i s = runCommand (ruleOf i) s := by
  cases i <;> rfl

/-- A rule under the size check ends in a state only at a legal size (R171). -/
theorem withSize_eq_ok {s u : State} {rule : Except FaultCode State} :
    withSize s rule = .ok u ↔ s.sizeOk = true ∧ rule = .ok u := by
  rcases withSize_cases s rule with ⟨size, same⟩ | ⟨size, fault⟩
  · simp [size, same]
  · simp [size, fault]

/-- A codec rule ends in a state, whatever LEN is (R111). -/
theorem withLength_eq_ok {expected len : Nat} {s v u : State} :
    withLength expected len s v = .ok u ↔ u = if len = expected then v else { s.flag parseFail with res0 := 0 } := by
  unfold withLength
  split <;> simp [eq_comm]

/-! ### Buffers keep their length -/

theorem length_foldl_of_keeps {α β : Type} (f : List β → α → List β) (keeps : ∀ buf a, (f buf a).length = buf.length)
    (l : List α) (buf : List β) : (l.foldl f buf).length = buf.length :=
  List.foldlRecOn (motive := fun b => b.length = buf.length) l f rfl fun b hb a _ => (keeps b a).trans hb

@[simp] theorem length_bitrev (log2n : Nat) (buf : List Cplx) : (bitrev log2n buf).length = buf.length := by
  refine length_foldl_of_keeps _ (fun b i => ?_) _ _
  split <;> simp [swapAt]

@[simp] theorem length_stageBody (n : Nat) (tw buf : List Cplx) : (stageBody n tw buf).length = buf.length :=
  length_foldl_of_keeps _ (fun b _ => length_foldl_of_keeps _ (fun _ _ => by simp [bfly]) _ b) _ _

@[simp] theorem length_fftBody (sin : F64 → F64) (d : Dir) (log2n : Nat) (buf : List Cplx) :
    (fftBody sin d log2n buf).length = buf.length :=
  (length_foldl_of_keeps _ (fun b _ => length_stageBody _ _ b) _ _).trans (length_bitrev _ _)

/-- The ripple window keeps its length, since a legal size holds at least one burst (R173). -/
theorem length_pushBurst {s : State} (size : s.sizeOk = true) : (pushBurst s.rippleBuf s.burstBuf).length = s.fftSize := by
  have atLeast : 2 ^ 6 ≤ s.fftSize := Nat.pow_le_pow_right two_pos ((sizeOk_iff s).mp size).1
  simp only [pushBurst, List.length_append, List.length_drop, length_rippleBuf, State.burstBuf, length_readWords,
    Config.burst]
  omega

/-- The table never holds more than K entries (R201). -/
theorem length_findPeaks_le (K : Nat) (fs : F64) (n : Nat) (series : List F64) : (findPeaks K fs n series).length ≤ K := by
  refine List.foldlRecOn (motive := fun table : List Peak => table.length ≤ K) _ _ (Nat.zero_le K) fun table h k _ => ?_
  split
  · simp [insertPeak]
  · exact h

/-! ### What a rule writes -/

/-- The commands that write RES0 (R31): the codec. -/
def writesRes0 : Instr → Bool
  | .kfdecM _ | .kfdecB _ | .kfencM | .kfencB | .xfdec _ | .rngdec _ | .errtok _ => true
  | .nop | .bcpush | .bcclr | .rpclr | .rppush | .load | .win | .fftF | .fftI | .mag | .norm | .peaks | .bitrev
  | .stageF _ | .stageI _ => false

/-- What the rule of a command makes of a state when it raises no fault, by the part of the block it writes. -/
inductive Effect : Instr → State → State → Prop
  /-- NOP (R102) -/
  | nothing (s : State) : Effect .nop s s
  /-- RES0 and a condition: the codec -/
  | res0 {i : Instr} {s : State} (codec : writesRes0 i = true) (w : Word) (mask : BitVec 4) :
      Effect i s { s with res0 := w, cmask := mask }
  /-- WORK[0..N−1], and a condition of LOAD -/
  | work {i : Instr} {s : State} (own : windowOf i = (workBase, 0x8000)) (size : s.sizeOk = true)
      (cs : List Cplx) (len : cs.length = s.fftSize) (mask : BitVec 4) :
      Effect i s { s.storeWork cs with cmask := mask }
  /-- SERIES[0..L−1]: MAG, NORM -/
  | series {i : Instr} {s : State} (own : windowOf i = (seriesBase, 0x2000)) (size : s.sizeOk = true)
      (vs : List F64) (len : vs.length = s.seriesLen) :
      Effect i s (s.storeSeries vs)
  /-- the whole of RIPPLE (R172) -/
  | rippleClear (s : State) :
      Effect .rpclr s { s.storeRipple (List.replicate Config.nMax fzero) with rpFill := 0 }
  /-- RIPPLE[0..N−1] (R173) -/
  | ripplePush {s : State} (size : s.sizeOk = true) (vs : List F64) (len : vs.length = s.fftSize) :
      Effect .rppush s { s.storeRipple vs with rpFill := BitVec.ofNat 12 (min (s.rpFill.toNat + Config.burst) s.fftSize) }
  /-- the ring, its pointers and the box-car results (R149) -/
  | boxcarPush {s : State} (legal : s.boxcarOk = true) :
      Effect .bcpush s (s.ringPush.boxcarReport s.ringPush.boxcarFold)
  /-- the ring and its pointers (R150) -/
  | boxcarClear (s : State) : Effect .bcclr s { s with mem := clearRing s.mem, bcWptr := 0, bcFill := 0 }
  /-- PEAK and PK_COUNT (R201) -/
  | peaks {s : State} (legal : s.peakCountOk = true) :
      Effect .peaks s { s with mem := writePeakTable s.mem s.peaks, pkCount := BitVec.ofNat 8 s.peaks.length }

theorem Effect.res0_flagIf {i : Instr} (codec : writesRes0 i = true) (s : State) (w : Word) (c : Bool) (bit : BitVec 4) :
    Effect i s (State.flagIf c bit { s with res0 := w }) := by
  cases c
  · exact .res0 codec w s.cmask
  · exact .res0 codec w (s.cmask ||| bit)

/-- The effect of a codec command under the length check (R111). -/
theorem Effect.of_withLength {i : Instr} (codec : writesRes0 i = true) {expected len : Nat} {s v u : State}
    (right : Effect i s v) (h : withLength expected len s v = .ok u) : Effect i s u := by
  rw [withLength_eq_ok.mp h]
  split
  · exact right
  · exact .res0 codec 0 (s.cmask ||| parseFail)

/-- The effect of a command that stores the whole work buffer and flags nothing. -/
theorem Effect.of_storeWork {i : Instr} {s u : State} {cs : List Cplx} (own : windowOf i = (workBase, 0x8000))
    (size : s.sizeOk = true) (len : cs.length = s.workBuf.length)
    (h : Except.ok (ε := FaultCode) (s.storeWork cs) = .ok u) : Effect i s u := by
  cases h
  exact .work own size cs (len.trans (length_workBuf s)) s.cmask

/-- The one inversion of all rules: a rule that raises no fault has its command's effect. -/
theorem ruleOf_effect {i : Instr} {s u : State} (h : ruleOf i s = .ok u) : Effect i s u := by
  cases i with
  | nop => cases h; exact .nothing s
  | kfdecM len | kfdecB len | rngdec len | errtok len => exact .of_withLength rfl (.res0 rfl _ s.cmask) h
  | xfdec len => exact .of_withLength rfl (.res0_flagIf rfl s _ _ _) h
  | kfencM | kfencB => cases h; exact .res0_flagIf rfl s _ _ _
  | bcpush =>
    simp only [ruleOf, bcpushRule] at h
    split at h
    · rename_i legal
      cases h
      exact .boxcarPush legal
    · cases h
  | bcclr => cases h; exact .boxcarClear s
  | rpclr => cases h; exact .rippleClear s
  | rppush =>
    obtain ⟨size, h⟩ := withSize_eq_ok.mp h
    cases h
    exact .ripplePush size _ (length_pushBurst size)
  | load =>
    obtain ⟨size, h⟩ := withSize_eq_ok.mp h
    cases h
    have len : (s.rippleBuf.map (fun v => Cplx.mk v fzero)).length = s.fftSize := by simp [length_rippleBuf]
    cases Nat.blt s.rpFill.toNat s.fftSize
    · exact .work rfl size _ len s.cmask
    · exact .work rfl size _ len (s.cmask ||| insufficientData)
  | win =>
    obtain ⟨size, h⟩ := withSize_eq_ok.mp h
    exact .of_storeWork rfl size (by simp [applyWindow]) h
  | fftF | fftI | bitrev =>
    obtain ⟨size, h⟩ := withSize_eq_ok.mp h
    exact .of_storeWork rfl size (by simp) h
  | stageF n | stageI n =>
    obtain ⟨size, h⟩ := withSize_eq_ok.mp h
    split at h
    · exact .of_storeWork rfl size (by simp) h
    · cases h
  | mag =>
    obtain ⟨size, h⟩ := withSize_eq_ok.mp h
    cases h
    exact .series rfl size _ (by simp)
  | norm =>
    obtain ⟨size, h⟩ := withSize_eq_ok.mp h
    split at h
    · cases h
    · cases h
      exact .series rfl size _ (by simp [normalise, length_seriesBuf])
  | peaks =>
    obtain ⟨size, h⟩ := withSize_eq_ok.mp h
    split at h
    · rename_i legal
      cases h
      exact .peaks legal
    · cases h

/-- What a command does, start to end: its effect and the completion, or the fault entry (R101, R222). -/
theorem exec_cases {i : Instr} {s t : State} (h : exec i s = .next t) :
    (∃ u, Effect i { s with cmask := 0 } u ∧ t = u.completeOk) ∨ (∃ code : FaultCode, t = faultedFrom s code.number) := by
  rw [exec_eq_runCommand] at h
  rcases runCommand_cases _ _ _ h with ⟨u, rule, done⟩ | ⟨code, -, done⟩
  · exact .inl ⟨u, ruleOf_effect rule, done⟩
  · exact .inr ⟨code, done⟩

end Sys2Proof.Machine
end

section
/-! SUPPORT. The registers no command writes, and the flags no command reads (10_state.md R30 to R48). -/

namespace Sys2Proof.Machine

/-! ### The register frame -/

/-- The registers that belong to the host, and the host's own part of the state. -/
def SameHostPart (s t : State) : Prop :=
  t.opa = s.opa ∧ t.opb = s.opb ∧ t.opc = s.opc ∧ t.ctrl = s.ctrl ∧ t.cmd = s.cmd ∧ t.bcCfg = s.bcCfg ∧
  t.fftCfg = s.fftCfg ∧ t.pkK = s.pkK ∧ t.fs = s.fs ∧ t.inbox = s.inbox ∧ t.replies = s.replies ∧
  t.delays = s.delays ∧ t.freeIdx = s.freeIdx

theorem Effect.sameHostPart {i : Instr} {s u : State} (h : Effect i s u) : SameHostPart s u := by
  cases h <;> simp [SameHostPart, State.boxcarReport, State.ringPush]

theorem writesRes0_iff (i : Instr) : writesRes0 i = true ↔
    (∃ len, i = .kfdecM len ∨ i = .kfdecB len ∨ i = .xfdec len ∨ i = .rngdec len ∨ i = .errtok len) ∨
    i = .kfencM ∨ i = .kfencB := by
  cases i <;> simp [writesRes0]

/-- The registers with owners among the commands (R31, R36 to R38, R42, R44). -/
theorem Effect.ownedRegisters {i : Instr} {s u : State} (h : Effect i s u) :
    (u.res0 = s.res0 ∨ writesRes0 i = true) ∧
    (u.bcRes = s.bcRes ∨ i = .bcpush) ∧
    ((u.bcFill = s.bcFill ∧ u.bcWptr = s.bcWptr) ∨ i = .bcpush ∨ i = .bcclr) ∧
    (u.rpFill = s.rpFill ∨ i = .rpclr ∨ i = .rppush) ∧
    (u.pkCount = s.pkCount ∨ i = .peaks) := by
  cases h <;> simp [State.boxcarReport, State.ringPush, *]

/-- Settles O10: the completion and the fault entry write flags only, and the effect of a command leaves the rest. -/
theorem commandsLeaveOtherRegisters : Obligations.CommandsLeaveOtherRegisters := by
  intro i s t h
  rw [← writesRes0_iff]
  rcases exec_cases h with ⟨u, effect, rfl⟩ | ⟨code, rfl⟩
  · exact ⟨effect.sameHostPart, effect.ownedRegisters⟩
  · simp [faultedFrom]

/-! ### The flags -/

/-- A state with other flags (R48) and other interrupt enables (R25). -/
def State.withFlags (st : Status) (em es : BitVec 4) (ct : Ctrl) (s : State) : State :=
  { s with status := st, errmask := em, errsticky := es, ctrl := ct }

section
variable (st : Status) (em es : BitVec 4) (ct : Ctrl) (s : State)

theorem flagIf_withFlags (c : Bool) (bit : BitVec 4) :
    State.flagIf c bit (s.withFlags st em es ct) = (State.flagIf c bit s).withFlags st em es ct := by
  cases c <;> rfl

theorem withSize_withFlags {rule rule' : Except FaultCode State}
    (same : rule' = rule.map (State.withFlags st em es ct)) :
    withSize (s.withFlags st em es ct) rule' = (withSize s rule).map (State.withFlags st em es ct) := by
  have size : (s.withFlags st em es ct).sizeOk = s.sizeOk := rfl
  unfold withSize
  rw [size, same]
  split <;> rfl

theorem withLength_withFlags (expected len : Nat) {v v' : State} (same : v' = v.withFlags st em es ct) :
    withLength expected len (s.withFlags st em es ct) v' =
      (withLength expected len s v).map (State.withFlags st em es ct) := by
  unfold withLength
  rw [same]
  split <;> rfl

/-- No rule reads a flag: with other flags it ends the same way, the other flags still in place. -/
theorem ruleOf_withFlags (i : Instr) :
    ruleOf i (s.withFlags st em es ct) = (ruleOf i s).map (State.withFlags st em es ct) := by
  cases i with
  | nop | rpclr => rfl
  | bcclr =>
    have same : (s.withFlags st em es ct).mem = s.mem := rfl
    simp only [ruleOf, same]
    generalize clearRing s.mem = cleared
    rfl
  | kfdecM len | kfdecB len | rngdec len | errtok len => exact withLength_withFlags st em es ct s _ _ rfl
  | xfdec len =>
    exact withLength_withFlags st em es ct s _ _
      (flagIf_withFlags st em es ct { s with res0 := (xfDecode Config.xfLayout.layout s.opa).1 } _ _)
  | kfencM => exact congrArg Except.ok (flagIf_withFlags st em es ct { s with res0 := 0#40 ++ (kfenc 16 s.opa).1 } _ _)
  | kfencB => exact congrArg Except.ok (flagIf_withFlags st em es ct { s with res0 := 0#40 ++ (kfenc 15 s.opa).1 } _ _)
  | bcpush =>
    have legal : (s.withFlags st em es ct).boxcarOk = s.boxcarOk := rfl
    simp only [ruleOf, bcpushRule, legal]
    split
    · exact congrArg Except.ok
        (flagIf_withFlags st em es ct { s.ringPush with bcRes := s.ringPush.boxcarFold.result } _ _)
    · rfl
  | rppush | win | fftF | fftI | mag | bitrev => exact withSize_withFlags st em es ct s rfl
  | load =>
    exact withSize_withFlags st em es ct s (congrArg Except.ok
      (flagIf_withFlags st em es ct (s.storeWork (s.rippleBuf.map (fun v => ⟨v, fzero⟩))) _ _))
  | stageF n | stageI n =>
    refine withSize_withFlags st em es ct s ?_
    have bound : (s.withFlags st em es ct).log2n = s.log2n := rfl
    rw [bound]
    split <;> rfl
  | norm =>
    refine withSize_withFlags st em es ct s ?_
    have same : (s.withFlags st em es ct).mem = s.mem := rfl
    rw [same]
    split <;> rfl
  | peaks =>
    refine withSize_withFlags st em es ct s ?_
    have legal : (s.withFlags st em es ct).peakCountOk = s.peakCountOk := rfl
    rw [legal]
    split <;> rfl

end

theorem FaultCode.number_ne_zero (code : FaultCode) : code.number ≠ 0#8 := by
  cases code <;> decide

/-- Settles O12: both runs come to the same end of the same rule, and only then are the flags written. -/
theorem noCommandReadsAFlag : Obligations.NoCommandReadsAFlag := by
  intro i s st em es cm ct
  have rule := ruleOf_withFlags st em es ct { s with cmask := 0 } i
  cases h : ruleOf i { s with cmask := 0 } with
  | ok u =>
    rw [h] at rule
    refine ⟨completedFrom u u.cmask, ?_, ?_⟩
    · rw [exec_eq_runCommand, runCommand_ok _ _ _ h]
    · rw [exec_eq_runCommand, runCommand_ok _ _ _ rule]
      rfl
  | error code =>
    rw [h] at rule
    refine ⟨faultedFrom s code.number, ?_, ?_⟩
    · rw [exec_eq_runCommand, runCommand_error _ _ _ h]
    · rw [exec_eq_runCommand, runCommand_error _ _ _ rule]
      simp [faultedFrom, code.number_ne_zero]

end Sys2Proof.Machine
end

section
/-! SUPPORT. Which memory writes stay inside the memory elements and outside the peak table, and what the peak table holds
after PEAKS (20_memory.md R62, 43_fft.md R201). -/

namespace Sys2Proof.Machine

/-! ### Runs of storage -/

/-- Every byte of a run is a byte of a memory element (R62). -/
def IsStorageRun (base len : Nat) : Prop := ∀ a, base ≤ a → a < base + len → isStorage a = true

theorem isStorageRun_mono {base base' len len' : Nat} (h : IsStorageRun base len) (lo : base ≤ base')
    (hi : base' + len' ≤ base + len) : IsStorageRun base' len' :=
  fun a ha ha' => h a (by omega) (by omega)

/-- The whole of a window without reserved words is storage. -/
theorem isStorageRun_of_window {base len : Nat} (h : ∀ a, inWindow base len a = true → isStorage a = true) :
    IsStorageRun base len :=
  fun a lo hi => h a (by simp [inWindow, lo, hi])

theorem isStorageRun_series : IsStorageRun seriesBase 0x2000 :=
  isStorageRun_of_window fun a inside => by simp [isStorage, inside]

theorem isStorageRun_ripple : IsStorageRun rippleBase 0x4000 :=
  isStorageRun_of_window fun a inside => by simp [isStorage, inside]

theorem isStorageRun_work : IsStorageRun workBase 0x8000 :=
  isStorageRun_of_window fun a inside => by simp [isStorage, inside]

/-- The first 24 bytes of a 32-byte slot are no reserved word (R62). -/
theorem isReservedWord_slot (base r a : Nat) (aligned : base % 32 = 0) (lo : base + 32 * r ≤ a) (hi : a < base + 32 * r + 24) :
    isReservedWord a = false := by
  simp only [isReservedWord, Bool.eq_false_iff, ne_eq, Nat.ble_eq, not_le]
  omega

theorem isStorageRun_ringSlot {r : Nat} (h : r < Config.maxavgMax) : IsStorageRun (ringAddr r 0) 24 := fun a lo hi => by
  simp only [ringAddr, Nat.mul_zero, Nat.add_zero, Config.maxavgMax] at lo hi h
  have inside : inWindow ringBase 0x2000 a = true := by
    simp only [inWindow, Bool.and_eq_true, Nat.ble_eq, Nat.blt_eq]
    omega
  simp [isStorage, inside, isReservedWord_slot ringBase r a (by decide) lo hi]

theorem isStorageRun_peak {p : Nat} (h : p < Config.kMax) : IsStorageRun (peakAddr p 0) 24 := fun a lo hi => by
  simp only [peakAddr, Nat.mul_zero, Nat.add_zero, Config.kMax] at lo hi h
  have inside : inWindow peakBase 0x800 a = true := by
    simp only [inWindow, Bool.and_eq_true, Nat.ble_eq, Nat.blt_eq]
    omega
  simp [isStorage, inside, isReservedWord_slot peakBase p a (by decide) lo hi]

/-! ### Well-formed memory -/

/-- Memory in canonical form that stores bytes of memory elements only: two clauses of the invariant. -/
structure MemoryOk (m : List Host.Cell) : Prop where
  canonical : canonical m = true
  mapped : ∀ c ∈ m, isStorage c.1 = true

theorem MemoryOk.writeWords {m : List Host.Cell} (h : MemoryOk m) {base : Nat} {vs : List Word}
    (run : IsStorageRun base (8 * vs.length)) : MemoryOk (writeWords m base vs) where
  canonical := canonical_writeWords m base vs h.canonical
  mapped c hc := by
    rcases mem_writeBytes m base _ c hc with old | ⟨lo, hi⟩
    · exact h.mapped c old
    · rw [length_flatMap_wordBytes] at hi
      exact run c.1 lo hi

theorem MemoryOk.writeRing {m : List Host.Cell} (h : MemoryOk m) {r : Nat} (slot : r < Config.maxavgMax) (x : Sample) :
    MemoryOk (writeRing m r x) :=
  h.writeWords (isStorageRun_ringSlot slot)

theorem MemoryOk.clearRing {m : List Host.Cell} (h : MemoryOk m) : MemoryOk (clearRing m) :=
  List.foldlRecOn (motive := MemoryOk) _ _ h fun _ ok _ slot => ok.writeRing (List.mem_range.mp slot) _

/-! ### The peak table -/

/-- The entries from `n` on read as zeros: a clause of the invariant. -/
def PeaksZeroFrom (n : Nat) (m : List Host.Cell) : Prop := ∀ p f, n ≤ p → p < Config.kMax → f < 3 → peakAt m p f = 0

/-- The run of bytes does not meet the PEAK window. -/
def OutsidePeaks (base len : Nat) : Prop := base + len ≤ peakBase ∨ peakBase + 0x800 ≤ base

theorem peakAt_writeWords_of_outside {base : Nat} {vs : List Word} (apart : OutsidePeaks base (8 * vs.length))
    (m : List Host.Cell) {p f : Nat} (hp : p < Config.kMax) (hf : f < 3) :
    peakAt (writeWords m base vs) p f = peakAt m p f := by
  refine readWord_writeWords_outside m base vs _ ?_
  unfold OutsidePeaks at apart
  unfold peakAddr
  unfold Config.kMax at hp
  omega

theorem PeaksZeroFrom.writeWords {n : Nat} {m : List Host.Cell} (h : PeaksZeroFrom n m) {base : Nat} {vs : List Word}
    (apart : OutsidePeaks base (8 * vs.length)) : PeaksZeroFrom n (writeWords m base vs) := fun p f hn hp hf =>
  (peakAt_writeWords_of_outside apart m hp hf).trans (h p f hn hp hf)

theorem PeaksZeroFrom.writeRing {n : Nat} {m : List Host.Cell} (h : PeaksZeroFrom n m) (r : Nat) (x : Sample) :
    PeaksZeroFrom n (writeRing m r x) :=
  h.writeWords (.inr (by simp only [ringAddr, ringBase, peakBase]; omega))

theorem PeaksZeroFrom.clearRing {n : Nat} {m : List Host.Cell} (h : PeaksZeroFrom n m) : PeaksZeroFrom n (clearRing m) :=
  List.foldlRecOn (motive := PeaksZeroFrom n) _ _ h fun _ zero r _ => zero.writeRing r _

/-- Of the entries written one after the other each keeps its words. -/
theorem peakAt_writePeaks (entry : Nat → List Word) (len : ∀ p, (entry p).length = 3) (m : List Host.Cell)
    (n p f : Nat) (hp : p < n) (hf : f < 3) :
    peakAt ((List.range n).foldl (fun m p => writePeak m p (entry p)) m) p f = (entry p)[f]'(by rw [len]; exact hf) := by
  induction n with
  | zero => omega
  | succ n ih =>
    rw [List.range_succ, List.foldl_append, List.foldl_cons, List.foldl_nil]
    rcases Nat.lt_or_eq_of_le (Nat.le_of_lt_succ hp) with before | rfl
    · refine Eq.trans (readWord_writeWords_outside _ _ _ _ ?_) (ih before)
      left
      unfold peakAddr
      omega
    · exact readWord_writeWords_inside _ _ _ f _

/-- The words of entry `p` of a table, zeros past its end (R201). -/
theorem length_tableEntry (table : List Peak) (p : Nat) :
    ((table.map Peak.words).getD p [fzero, fzero, 0]).length = 3 := by
  rcases Nat.lt_or_ge p table.length with h | h
  · simp [List.getD, h, Peak.words]
  · simp [List.getD, h]

theorem MemoryOk.writePeakTable {m : List Host.Cell} (h : MemoryOk m) (table : List Peak) :
    MemoryOk (writePeakTable m table) := by
  refine List.foldlRecOn (motive := MemoryOk) _ _ h fun _ ok p inside => ok.writeWords ?_
  rw [length_tableEntry]
  exact isStorageRun_peak (List.mem_range.mp inside)

/-- PEAKS leaves zeros past the entries it found (R201). -/
theorem peaksZeroFrom_writePeakTable (m : List Host.Cell) (table : List Peak) :
    PeaksZeroFrom table.length (writePeakTable m table) := by
  intro p f past hp hf
  have zeros : (table.map Peak.words).getD p [fzero, fzero, 0] = [0, 0, 0] := by simp [List.getD, past, fzero]
  refine (peakAt_writePeaks _ (length_tableEntry table) m Config.kMax p f hp hf).trans ?_
  simp only [zeros]
  interval_cases f <;> rfl

end Sys2Proof.Machine
end

section
/-! SUPPORT. What each address of the host port names (20_memory.md R62, R66, 10_state.md R47). -/

namespace Sys2Proof.Machine

/-- The address of a register (R47). -/
def Reg.addr : Reg → Addr
  | .id => 0x000
  | .cap => 0x008
  | .ctrl => 0x010
  | .status => 0x018
  | .cmd => 0x020
  | .errmask => 0x028
  | .errsticky => 0x030
  | .opa => 0x040
  | .opb => 0x048
  | .opc => 0x050
  | .res0 => 0x058
  | .bcCfg => 0x060
  | .bcMaxavg => 0x068
  | .bcSens => 0x070
  | .bcSpeed => 0x078
  | .bcTol => 0x080
  | .bcFill => 0x088
  | .bcWptr => 0x090
  | .bcCount => 0x098
  | .bcMean0 => 0x0A0
  | .bcMean1 => 0x0A8
  | .bcMean2 => 0x0B0
  | .bcMin0 => 0x0B8
  | .bcMin1 => 0x0C0
  | .bcMin2 => 0x0C8
  | .bcMax0 => 0x0D0
  | .bcMax1 => 0x0D8
  | .bcMax2 => 0x0E0
  | .bcExit => 0x0E8
  | .fftCfg => 0x100
  | .rpFill => 0x108
  | .pkK => 0x110
  | .pkCount => 0x118
  | .fs => 0x120

theorem target_regAddr (r : Reg) : target r.addr = .reg r := by
  cases r <;> rfl

/-- The registers in the order of their addresses (R47). -/
def Reg.all : List Reg :=
  [.id, .cap, .ctrl, .status, .cmd, .errmask, .errsticky, .opa, .opb, .opc, .res0, .bcCfg, .bcMaxavg, .bcSens, .bcSpeed,
   .bcTol, .bcFill, .bcWptr, .bcCount, .bcMean0, .bcMean1, .bcMean2, .bcMin0, .bcMin1, .bcMin2, .bcMax0, .bcMax1, .bcMax2,
   .bcExit, .fftCfg, .rpFill, .pkK, .pkCount, .fs]

theorem isElement_iff (a : Nat) : isElement a = true ↔ a % 8 = 0 ∧
    (0x01000 ≤ a ∧ a < 0x01100 ∨ 0x04000 ≤ a ∧ a < 0x06000 ∨ 0x08000 ≤ a ∧ a < 0x0C000 ∨ 0x10000 ≤ a ∧ a < 0x18000 ∨
     (0x30000 ≤ a ∧ a < 0x32000) ∧ a % 32 ≠ 24) := by
  simp [isElement, or_assoc]

/-- The address map of R62 above the registers, in inequalities. -/
theorem target_eq_of_window {addr : Addr} (aligned : addr.toNat % 8 = 0) (window : 0x1000 ≤ addr.toNat) : target addr =
    if 0x01000 ≤ addr.toNat ∧ addr.toNat < 0x01100 then .cell addr.toNat
    else if 0x02000 ≤ addr.toNat ∧ addr.toNat < 0x02800 then
      if 24 ≤ addr.toNat % 32 then .peakReserved else .peak addr.toNat
    else if 0x04000 ≤ addr.toNat ∧ addr.toNat < 0x06000 then .cell addr.toNat
    else if 0x08000 ≤ addr.toNat ∧ addr.toNat < 0x0C000 then .cell addr.toNat
    else if 0x10000 ≤ addr.toNat ∧ addr.toNat < 0x18000 then .cell addr.toNat
    else if 0x20000 ≤ addr.toNat ∧ addr.toNat < 0x27FF0 then
      .twiddle .forward ((addr.toNat - twForwardBase) / 16) (addr.toNat % 16 == 8)
    else if 0x28000 ≤ addr.toNat ∧ addr.toNat < 0x2FFF0 then
      .twiddle .inverse ((addr.toNat - twInverseBase) / 16) (addr.toNat % 16 == 8)
    else if 0x30000 ≤ addr.toNat ∧ addr.toNat < 0x32000 then
      if 24 ≤ addr.toNat % 32 then .ringReserved else .cell addr.toNat
    else .unmapped := by
  simp only [target, aligned, if_true, alignedTarget, if_neg window.not_gt, inWindow, isReservedWord, Bool.and_eq_true,
    Nat.ble_eq, Nat.blt_eq]
  rfl

/-- A memory element that the host may write is a cell (R62). -/
theorem target_of_isElement {addr : Addr} (h : isElement addr.toNat = true) : target addr = .cell addr.toNat := by
  obtain ⟨aligned, window⟩ := (isElement_iff _).mp h
  rw [target_eq_of_window (by omega) (by omega)]
  rcases window with w | w | w | w | w
  all_goals simp (disch := omega) only [if_pos, if_neg]

/-- A field of the peak table (R67). -/
theorem target_of_peak {addr : Addr} {p f : Nat} (hp : p < 64) (hf : f < 3) (h : addr.toNat = 0x02000 + 32 * p + 8 * f) :
    target addr = .peak addr.toNat := by
  rw [target_eq_of_window (by omega) (by omega)]
  simp (disch := omega) only [if_pos, if_neg]

/-- The reserved word of a peak entry (R66). -/
theorem target_of_peakReserved {addr : Addr} {p : Nat} (hp : p < 64) (h : addr.toNat = 0x02000 + 32 * p + 24) :
    target addr = .peakReserved := by
  rw [target_eq_of_window (by omega) (by omega)]
  simp (disch := omega) only [if_pos, if_neg]

/-- The reserved word of a RING slot (R66). -/
theorem target_of_ringReserved {addr : Addr} {r : Nat} (hr : r < 256) (h : addr.toNat = 0x30000 + 32 * r + 24) :
    target addr = .ringReserved := by
  rw [target_eq_of_window (by omega) (by omega)]
  simp (disch := omega) only [if_pos, if_neg]

end Sys2Proof.Machine
end

section
/-! SUPPORT. Every step keeps the invariant of the block: what the commands keep of registers and memory, what the host keeps
of flags and engine, and the reset sequence. -/

namespace Sys2Proof.Machine

/-! ### The clauses about registers and memory -/

/-- The clauses of the invariant that name neither the engine nor a flag. -/
structure State.DataInv (s : State) : Prop where
  memory : MemoryOk s.mem
  rippleFill : s.rpFill.toNat ≤ s.fftSize
  rippleFillMax : s.rpFill.toNat ≤ Config.nMax
  ringFill : s.bcFill.toNat ≤ s.maxAvg
  ringFillMax : s.bcFill.toNat ≤ Config.maxavgMax
  ringPtr : s.bcWptr = 0 ∨ s.bcWptr.toNat < s.maxAvg
  ringPtrMax : s.bcWptr.toNat < Config.maxavgMax
  boxcarCount : s.bcRes.count.toNat ≤ Config.maxavgMax
  boxcarExit : s.bcRes.exit ≠ 3#2
  peakCount : s.pkCount.toNat ≤ Config.kMax
  peaksBeyond : PeaksZeroFrom s.pkCount.toNat s.mem

/-- The clauses about the flags and the engine. -/
structure State.ControlInv (s : State) : Prop where
  errcodeDefined : s.status.errcode.toNat ≤ 3
  faultNoCondition : s.status.errcode ≠ 0 → s.errmask = 0
  runningIsAccepted : ∀ c left, s.engine = .run c left → s.cmd = c
  cmaskClear : s.cmask = 0
  resetting : ∀ left, s.engine = .reset left →
    s = { State.reset with
      engine := .reset left, inbox := s.inbox, replies := s.replies, delays := s.delays, freeIdx := s.freeIdx }

theorem inv_iff (s : State) : s.Inv ↔ s.DataInv ∧ s.ControlInv :=
  ⟨fun h => ⟨{ h with memory := ⟨h.memCanonical, h.memMapped⟩ }, { h with }⟩,
    fun ⟨data, control⟩ =>
      { data with
        memCanonical := data.memory.canonical, memMapped := data.memory.mapped
        errcodeDefined := control.errcodeDefined, faultNoCondition := control.faultNoCondition
        runningIsAccepted := control.runningIsAccepted, cmaskClear := control.cmaskClear
        resetting := control.resetting }⟩

/-! ### What the commands keep -/

/-- Words stored outside the peak table leave every clause about data as it is. -/
theorem State.DataInv.storeWords {s : State} (h : s.DataInv) {base : Nat} {vs : List Word}
    (run : IsStorageRun base (8 * vs.length)) (apart : OutsidePeaks base (8 * vs.length)) :
    { s with mem := writeWords s.mem base vs }.DataInv :=
  { h with memory := h.memory.writeWords run, peaksBeyond := h.peaksBeyond.writeWords apart }

theorem State.DataInv.storeWork {s : State} (h : s.DataInv) {cs : List Cplx} (len : cs.length ≤ 2048) :
    (s.storeWork cs).DataInv := by
  have words := length_flatMap_pair cs
  exact h.storeWords (isStorageRun_mono isStorageRun_work le_rfl (by omega)) (.inr (by decide))

theorem State.DataInv.storeSeries {s : State} (h : s.DataInv) {vs : List F64} (len : vs.length ≤ 1024) :
    (s.storeSeries vs).DataInv :=
  h.storeWords (isStorageRun_mono isStorageRun_series le_rfl (by omega)) (.inr (by decide))

theorem State.DataInv.storeRipple {s : State} (h : s.DataInv) {vs : List F64} (len : vs.length ≤ 2048) :
    (s.storeRipple vs).DataInv :=
  h.storeWords (isStorageRun_mono isStorageRun_ripple le_rfl (by omega)) (.inr (by decide))

theorem boxcarOk_iff (s : State) :
    s.boxcarOk = true ↔ (1 ≤ s.maxAvg ∧ s.maxAvg ≤ Config.maxavgMax) ∧ s.bcCfg.tch ≠ 3#2 := by
  simp [State.boxcarOk]

theorem toNat_ofNat_le (w n : Nat) : (BitVec.ofNat w n).toNat ≤ n := by
  rw [BitVec.toNat_ofNat]
  exact Nat.mod_le _ _

theorem maxavgMax_pos : 0 < Config.maxavgMax := by decide

/-- A push keeps the ring's pointers in range (R144). -/
theorem State.DataInv.ringPush {s : State} (h : s.DataInv) (legal : s.boxcarOk = true) : s.ringPush.DataInv := by
  obtain ⟨⟨pos, small⟩, -⟩ := (boxcarOk_iff s).mp legal
  have fill : s.ringPush.bcFill.toNat ≤ s.maxAvg := (toNat_ofNat_le _ _).trans (min_le_right _ _)
  have ptr : s.ringPush.bcWptr.toNat < s.maxAvg := (toNat_ofNat_le _ _).trans_lt (Nat.mod_lt _ pos)
  exact { h with
    memory := h.memory.writeRing h.ringPtrMax _
    ringFill := fill
    ringFillMax := fill.trans small
    ringPtr := .inr ptr
    ringPtrMax := ptr.trans_le small
    peaksBeyond := h.peaksBeyond.writeRing _ _ }

/-- The fold over the ring counts no more samples than there are and exits with 0, 1 or 2 (R40, R145). -/
theorem State.DataInv.boxcarReport {s : State} (h : s.DataInv) : (s.boxcarReport s.boxcarFold).DataInv := by
  obtain ⟨-, counted, -, exit⟩ := foldSamples_spec s.bcCfg s.ringSamples Fold.start
  have samples : s.ringSamples.length = s.bcFill.toNat := by simp [State.ringSamples, newestFirst]
  have count : s.boxcarFold.result.count.toNat ≤ Config.maxavgMax := by
    refine (toNat_ofNat_le _ _).trans (counted.trans ?_)
    simpa [samples, Fold.start] using h.ringFillMax
  have code : s.boxcarFold.result.exit ≠ 3#2 := by
    rcases exit with e | e | e
    all_goals
      intro bad
      exact absurd (e.symm.trans bad) (by decide)
  have report : { s with bcRes := s.boxcarFold.result }.DataInv := { h with boxcarCount := count, boxcarExit := code }
  unfold State.boxcarReport State.flagIf
  split
  · exact { report with }
  · exact report

/-- PEAKS counts at most K entries and leaves zeros after them (R201). -/
theorem State.DataInv.peaks {s : State} (h : s.DataInv) (legal : s.peakCountOk = true) :
    { s with mem := writePeakTable s.mem s.peaks, pkCount := BitVec.ofNat 8 s.peaks.length }.DataInv := by
  have bound : s.peaks.length ≤ 64 := (length_findPeaks_le _ _ _ _).trans ((peakCountOk_iff s).mp legal).2
  have count : (BitVec.ofNat 8 s.peaks.length).toNat = s.peaks.length := Nat.mod_eq_of_lt (by omega)
  have beyond : PeaksZeroFrom (BitVec.ofNat 8 s.peaks.length).toNat (writePeakTable s.mem s.peaks) := by
    rw [count]
    exact peaksZeroFrom_writePeakTable s.mem s.peaks
  exact { h with
    memory := h.memory.writePeakTable s.peaks
    peakCount := count.trans_le bound
    peaksBeyond := beyond }

/-- Whatever part of the block a command writes, the clauses about data stay. -/
theorem Effect.dataInv {i : Instr} {s u : State} (effect : Effect i s u) (h : s.DataInv) : u.DataInv := by
  cases effect with
  | nothing => exact h
  | res0 => exact { h with }
  | work _ size cs len mask => exact { h.storeWork (len.trans_le (fftSize_le s size)) with }
  | series _ size vs len =>
    refine h.storeSeries (len.trans_le ?_)
    have := fftSize_le s size
    unfold State.seriesLen
    omega
  | rippleClear =>
    have cleared := h.storeRipple (vs := List.replicate Config.nMax fzero) (List.length_replicate.trans_le (by decide))
    exact { cleared with rippleFill := Nat.zero_le _, rippleFillMax := Nat.zero_le _ }
  | ripplePush size vs len =>
    have small := fftSize_le s size
    have stored := h.storeRipple (len.trans_le small)
    have fill := (toNat_ofNat_le 12 _).trans (min_le_right (s.rpFill.toNat + Config.burst) s.fftSize)
    exact { stored with rippleFill := fill, rippleFillMax := fill.trans small }
  | boxcarPush legal => exact (h.ringPush legal).boxcarReport
  | boxcarClear =>
    have memory := h.memory.clearRing
    have beyond := h.peaksBeyond.clearRing
    generalize clearRing s.mem = cleared at *
    exact { h with
      memory := memory
      ringFill := Nat.zero_le _
      ringFillMax := Nat.zero_le _
      ringPtr := .inl rfl
      ringPtrMax := maxavgMax_pos
      peaksBeyond := beyond }
  | peaks legal => exact h.peaks legal

/-- A completion leaves ERRCODE 0 and the engine IDLE (R101). -/
theorem State.DataInv.completeOk {u : State} (h : u.DataInv) : u.completeOk.Inv :=
  (inv_iff _).mpr ⟨{ h with }, {
    errcodeDefined := Nat.zero_le _
    faultNoCondition := fun bad => absurd rfl bad
    runningIsAccepted := nofun
    cmaskClear := rfl
    resetting := nofun }⟩

/-- The fault entry leaves ERRMASK 0 beside a defined code (R222, R223). -/
theorem State.DataInv.faultedFrom {s : State} (h : s.DataInv) {code : BitVec 8} (defined : code.toNat ≤ 3) :
    (faultedFrom s code).Inv :=
  (inv_iff _).mpr ⟨{ h with }, {
    errcodeDefined := defined
    faultNoCondition := fun _ => rfl
    runningIsAccepted := nofun
    cmaskClear := rfl
    resetting := nofun }⟩

theorem FaultCode.number_le (code : FaultCode) : code.number.toNat ≤ 3 := by
  cases code <;> decide

theorem exec_inv {i : Instr} {s t : State} (h : s.Inv) (run : exec i s = .next t) : t.Inv := by
  obtain ⟨data, -⟩ := (inv_iff s).mp h
  rcases exec_cases run with ⟨u, effect, rfl⟩ | ⟨code, rfl⟩
  · exact (effect.dataInv { data with }).completeOk
  · exact data.faultedFrom code.number_le

/-! ### What the host keeps -/

/-- The engine's kind stays, and what belongs to the outside world is free: a tick, a reply and an event taken from the inbox
are of this form. -/
theorem State.Inv.outside {s : State} (h : s.Inv) (e : Engine) (inbox : List HostEvent) (replies : List Word) (freeIdx : Nat)
    (runs : ∀ c left, e = .run c left → ∃ before, s.engine = .run c before)
    (resets : ∀ left, e = .reset left → ∃ before, s.engine = .reset before) :
    { s with engine := e, inbox := inbox, replies := replies, freeIdx := freeIdx }.Inv := by
  obtain ⟨data, control⟩ := (inv_iff s).mp h
  refine (inv_iff _).mpr ⟨{ data with }, { control with runningIsAccepted := fun c left he => ?_, resetting := ?_ }⟩
  · obtain ⟨before, run⟩ := runs c left he
    exact control.runningIsAccepted c before run
  · intro left he
    change e = .reset left at he
    subst he
    obtain ⟨before, reset⟩ := resets left rfl
    exact congrArg
      (fun u : State => { u with engine := .reset left, inbox := inbox, replies := replies, freeIdx := freeIdx })
      (control.resetting before reset)

theorem State.Inv.reply {s : State} (h : s.Inv) (v : Word) : (s.reply v).Inv :=
  h.outside s.engine s.inbox (v :: s.replies) s.freeIdx (fun _ left he => ⟨left, he⟩) (fun left he => ⟨left, he⟩)

theorem State.Inv.replyFree {s : State} (h : s.Inv) : s.replyFree.Inv :=
  h.outside s.engine s.inbox (s.nextRead :: s.replies) (s.freeIdx + 1) (fun _ left he => ⟨left, he⟩)
    (fun left he => ⟨left, he⟩)

/-- A tick of the engine, with an event taken from the inbox or left in it. -/
theorem State.Inv.tick {s : State} (h : s.Inv) (inbox : List HostEvent) :
    { s with engine := s.engine.tick, inbox := inbox }.Inv := by
  refine h.outside s.engine.tick inbox s.replies s.freeIdx (fun c left he => ?_) (fun left he => ?_)
  all_goals
    cases hs : s.engine <;> simp_all [Engine.tick]

/-- Outside the reset sequence STATUS may change, but for ERRCODE. -/
theorem State.Inv.withStatus {s : State} (h : s.Inv) (active : ∀ left, s.engine ≠ .reset left) (st : Status)
    (same : st.errcode = s.status.errcode) : { s with status := st }.Inv := by
  obtain ⟨data, control⟩ := (inv_iff s).mp h
  exact (inv_iff _).mpr ⟨{ data with }, { control with
    errcodeDefined := same ▸ control.errcodeDefined
    faultNoCondition := same ▸ control.faultNoCondition
    resetting := fun left he => absurd he (active left) }⟩

/-- On an IDLE block a write that keeps the clauses about data, the flags and the hidden mask keeps the invariant. -/
theorem State.Inv.ofIdle {s t : State} (h : s.Inv) (data : t.DataInv) (idle : t.engine = .idle)
    (status : t.status = s.status) (errmask : t.errmask = s.errmask) (cmask : t.cmask = s.cmask) : t.Inv := by
  obtain ⟨-, control⟩ := (inv_iff s).mp h
  refine (inv_iff t).mpr ⟨data, ?_⟩
  refine ⟨?_, ?_, fun c left he => ?_, cmask.trans control.cmaskClear, fun left he => ?_⟩
  · rw [status]; exact control.errcodeDefined
  · rw [status, errmask]; exact control.faultNoCondition
  · simp [idle] at he
  · simp [idle] at he

theorem hostRead_inv {s : State} (h : s.Inv) (addr : Addr) : (s.hostRead addr).Inv := by
  unfold State.hostRead
  split
  · rename_i he
    unfold State.readIdle
    split
    · exact (h.reply 0).withStatus (by simp [State.reply, he]) _ rfl
    · exact h.reply _
  · rename_i he
    unfold State.readRunning
    split
    · exact (h.reply 0).withStatus (by simp [State.reply, he]) _ rfl
    · split
      · exact h.reply _
      · exact h.replyFree.withStatus (by simp [he]) _ rfl
  · unfold State.readResetting
    split
    · exact h.reply _
    · exact h.replyFree

theorem accept_inv {s : State} (h : s.Inv) (c : Word) : (s.accept c).Inv := by
  obtain ⟨data, control⟩ := (inv_iff s).mp h
  rcases accept_cases c s with ⟨-, accepted⟩ | ⟨-, accepted⟩
  all_goals
    rw [accepted]
    exact (inv_iff _).mpr ⟨{ data with }, { control with
      runningIsAccepted := fun _ _ he => (Engine.run.inj he).1
      cmaskClear := rfl
      resetting := nofun }⟩

theorem writeReg_inv {s : State} (h : s.Inv) (idle : s.engine = .idle) (v : Word) (r : Reg) : (s.writeReg v r).Inv := by
  obtain ⟨data, -⟩ := (inv_iff s).mp h
  cases r with
  | cmd => exact accept_inv h v
  | status => exact h.withStatus (by simp [idle]) _ rfl
  | bcMaxavg =>
    exact h.ofIdle { data with
      ringFill := Nat.zero_le _, ringFillMax := Nat.zero_le _, ringPtr := .inl rfl, ringPtrMax := maxavgMax_pos }
      idle rfl rfl rfl
  | fftCfg =>
    exact h.ofIdle { data with rippleFill := Nat.zero_le _, rippleFillMax := Nat.zero_le _ } idle rfl rfl rfl
  | ctrl | errsticky | opa | opb | opc | bcCfg | bcSens | bcSpeed | bcTol | pkK | fs =>
    exact h.ofIdle { data with } idle rfl rfl rfl
  | id | cap | errmask | res0 | bcFill | bcWptr | bcCount | bcMean0 | bcMean1 | bcMean2 | bcMin0 | bcMin1 | bcMin2
  | bcMax0 | bcMax1 | bcMax2 | bcExit | rpFill | pkCount => exact h

/-- A writable cell is no part of the peak table, whose access is RO (R62). -/
theorem target_cell_outsidePeaks {addr : Addr} {a : Nat} (h : target addr = .cell a) : OutsidePeaks a 8 := by
  obtain ⟨rfl, aligned, -⟩ := target_cell_storage addr a h
  by_contra meets
  unfold OutsidePeaks peakBase at meets
  rw [target_eq_of_window aligned (by omega)] at h
  simp (disch := omega) only [if_pos, if_neg] at h
  split at h <;> cases h

theorem writeTarget_inv {s : State} (h : s.Inv) (idle : s.engine = .idle) (addr : Addr) (v : Word) :
    (s.writeTarget v (target addr)).Inv := by
  cases ht : target addr with
  | reg r => exact writeReg_inv h idle v r
  | cell a =>
    obtain ⟨-, -, storage⟩ := target_cell_storage addr a ht
    have run : IsStorageRun a 8 := fun b lo hi => by
      have := storage (b - a) (by omega)
      rwa [Nat.add_sub_cancel' lo] at this
    obtain ⟨data, -⟩ := (inv_iff s).mp h
    exact h.ofIdle (data.storeWords (vs := [v]) run (target_cell_outsidePeaks ht)) idle rfl rfl rfl
  | ringReserved | peak | peakReserved | twiddle | unmapped => exact h

theorem readWord_nil (a : Nat) : readWord [] a = 0 := by
  simp only [readWord, readByte, unlistedByte]
  rfl

/-- What the reset sequence leaves, from its first step on (R252). -/
theorem startReset_inv (s : State) : s.startReset.Inv := by
  have data : s.startReset.DataInv := {
    memory := ⟨rfl, nofun⟩
    rippleFill := Nat.zero_le _
    rippleFillMax := Nat.zero_le _
    ringFill := Nat.zero_le _
    ringFillMax := Nat.zero_le _
    ringPtr := .inl rfl
    ringPtrMax := maxavgMax_pos
    boxcarCount := Nat.zero_le _
    boxcarExit := show 0#2 ≠ 3#2 by decide
    peakCount := Nat.zero_le _
    peaksBeyond := fun p f _ _ _ => readWord_nil (peakAddr p f) }
  exact (inv_iff _).mpr ⟨data, {
    errcodeDefined := Nat.zero_le _
    faultNoCondition := fun _ => rfl
    runningIsAccepted := nofun
    cmaskClear := rfl
    resetting := fun left he => by rw [← he]; rfl }⟩

theorem hostWrite_inv {s : State} (h : s.Inv) (addr : Addr) (v : Word) : (s.hostWrite addr v).Inv := by
  rcases hostWrite_cases addr v s with ⟨-, write⟩ | ⟨-, ⟨idle, write⟩ | ⟨c, left, run, write⟩ | ⟨left, -, write⟩⟩
  · rw [write]
    exact startReset_inv s
  · rw [write]
    unfold State.writeIdle
    split
    · exact h.withStatus (by simp [idle]) _ rfl
    · exact writeTarget_inv h idle addr v
  · have active : ∀ left, s.engine ≠ .reset left := by simp [run]
    obtain ⟨data, control⟩ := (inv_iff s).mp h
    rw [write]
    rcases writeRunning_cases (target addr) v s with w | w | w | w | w
    all_goals rw [w]
    · exact h.withStatus active _ rfl
    · exact (inv_iff _).mpr ⟨{ data with }, { control with resetting := fun left he => absurd he (active left) }⟩
    · exact h.withStatus active _ rfl
    · exact h.withStatus active _ rfl
    · exact h.withStatus active _ rfl
  · rw [write]
    exact h

theorem hostTurn_inv {s : State} (h : s.Inv) : s.hostTurn.Inv := by
  rcases hostTurn_cases s with ⟨-, turn⟩ | ⟨addr, rest, -, turn⟩ | ⟨addr, v, rest, -, turn⟩ | ⟨rest, -, turn⟩ | ⟨rest, -, turn⟩
  all_goals rw [turn]
  · exact h.tick s.inbox
  · exact hostRead_inv (h.tick rest) addr
  · exact hostWrite_inv (h.tick rest) addr v
  · exact (h.tick _).reply s.statusWord
  · exact startReset_inv _

theorem endReset_inv {s : State} (h : s.Inv) : s.endReset.Inv :=
  h.outside .idle s.inbox s.replies s.freeIdx nofun nofun

/-- Settles O57: a step completes a command, reports an illegal one, ends the reset sequence or is the host's turn. -/
theorem stepKeepsInvariant : Obligations.StepKeepsInvariant := by
  intro s t h run
  rcases step_cases s t run with ⟨c, i, -, -, done⟩ | ⟨c, r, -, -, rfl⟩ | ⟨-, rfl⟩ | ⟨-, -, rfl⟩
  · exact exec_inv h done
  · exact ((inv_iff s).mp h).1.faultedFrom (by decide)
  · exact endReset_inv h
  · exact hostTurn_inv h

end Sys2Proof.Machine
end

section
/-! SUPPORT. Host reads and writes on an IDLE block: what one access does, and the words of the registers (20_memory.md R65,
R66, R68, 10_state.md R22 to R47). -/

namespace Sys2Proof.Machine

/-! ### One access of the host -/

/-- On an IDLE block a step is the next event of the host. -/
theorem step_event_of_idle {s : State} (idle : s.engine = .idle) {e : HostEvent} {rest : List HostEvent}
    (event : s.inbox = e :: rest) : step s = .next ({ s with inbox := rest }.hostEvent e rest) := by
  have still : s.engine.tick = s.engine := by rw [idle]; rfl
  have turn : step s = .next s.hostTurn := by simp [step, idle]
  rw [turn, State.hostTurn, event]
  simp only [still]
  cases e <;> rfl

theorem readTarget_withInbox (s : State) (inbox : List HostEvent) (t : Target) :
    { s with inbox := inbox }.readTarget t = s.readTarget t := by
  cases t with
  | reg r => cases r <;> rfl
  | cell | peak | peakReserved | ringReserved | twiddle | unmapped => rfl

/-- A read that is no bus error adds the value read to the replies and changes nothing else (R65, R68). -/
theorem step_read_of_idle {s : State} (idle : s.engine = .idle) {addr : Addr} {rest : List HostEvent}
    (event : s.inbox = .read addr :: rest) (mapped : (target addr).readError = false) :
    step s = .next { s with inbox := rest, replies := s.readTarget (target addr) :: s.replies } := by
  rw [step_event_of_idle idle event, ← readTarget_withInbox s rest]
  simp [State.hostEvent, State.hostRead, State.readIdle, idle, mapped, State.reply]

/-- A read of a register returns it. -/
theorem step_readReg_of_idle {s : State} (idle : s.engine = .idle) {rest : List HostEvent} (r : Reg)
    (event : s.inbox = .read r.addr :: rest) :
    step s = .next { s with inbox := rest, replies := s.readReg r :: s.replies } := by
  have reads := step_read_of_idle idle event (by rw [target_regAddr]; rfl)
  rwa [target_regAddr] at reads

/-- A read of a memory element returns its word (R68). -/
theorem step_readWord_of_idle {s : State} (idle : s.engine = .idle) {addr : Addr} {rest : List HostEvent}
    (event : s.inbox = .read addr :: rest) (element : target addr = .cell addr.toNat ∨ target addr = .peak addr.toNat) :
    step s = .next { s with inbox := rest, replies := readWord s.mem addr.toNat :: s.replies } := by
  rcases element with h | h
  all_goals
    have reads := step_read_of_idle idle event (by rw [h]; rfl)
    rwa [h] at reads

/-- A write that is no bus error and asks for no reset acts on its target (R65, R68). -/
theorem step_write_of_idle {s : State} (idle : s.engine = .idle) {addr : Addr} {v : Word} {rest : List HostEvent}
    (event : s.inbox = .write addr v :: rest) (soft : isSoftReset (target addr) v = false)
    (mapped : (target addr).writeError = false) :
    step s = .next ({ s with inbox := rest }.writeTarget v (target addr)) := by
  rw [step_event_of_idle idle event]
  simp [State.hostEvent, State.hostWrite, State.writeIdle, idle, soft, mapped]

/-- A write to a writable register writes it (R25 to R45). -/
theorem step_writeReg_of_idle {s : State} (idle : s.engine = .idle) {v : Word} {rest : List HostEvent} (r : Reg)
    (event : s.inbox = .write r.addr v :: rest) (writable : r.readOnly = false) (soft : r = .ctrl → v.getLsbD 8 = false) :
    step s = .next ({ s with inbox := rest }.writeReg v r) := by
  have noReset : isSoftReset (target r.addr) v = false := by
    rw [target_regAddr, isSoftReset, Bool.and_eq_false_imp]
    intro isCtrl
    exact soft (Target.reg.inj (of_decide_eq_true isCtrl))
  have writes := step_write_of_idle idle event noReset (by rw [target_regAddr]; exact writable)
  rwa [target_regAddr] at writes

/-! ### The words of the registers -/

theorem toNat_append_eq_add {m n : Nat} (x : BitVec m) (y : BitVec n) : (x ++ y).toNat = x.toNat * 2 ^ n + y.toNat := by
  rw [BitVec.toNat_append, ← Nat.shiftLeft_add_eq_or_of_lt y.isLt, Nat.shiftLeft_eq]

/-- The reserved bits above a field read 0 (R66). -/
theorem zero_append_eq_setWidth {n : Nat} (k : Nat) (x : BitVec n) : 0#k ++ x = x.setWidth (k + n) := by
  apply BitVec.eq_of_toNat_eq
  rw [toNat_append_eq_add, BitVec.toNat_setWidth_of_le (Nat.le_add_left n k)]
  simp

/-- STATUS reads as R26 lays it out. -/
theorem statusWord_eq (s : State) : s.statusWord = statusBits s.busy s.status := by
  apply BitVec.eq_of_toNat_eq
  have code := s.status.errcode.isLt
  have bits : ∀ b : Bool, b.toNat ≤ 1 := Bool.toNat_le
  have := bits s.busy
  have := bits s.status.done
  have := bits s.status.err
  have := bits s.status.ovr
  have := bits s.status.haz
  have := bits s.status.berr
  simp only [State.statusWord, statusBits, toNat_append_eq_add, BitVec.toNat_ofBool, BitVec.toNat_ofNat]
  omega

/-- CTRL reads as R25 lays it out. -/
theorem ctrlWord_eq (c : Ctrl) : c.word = ctrlBits c := by
  obtain ⟨done, err⟩ := c
  cases done <;> cases err <;> rfl

/-- BC_CFG reads as R32 lays it out. -/
theorem bcCfgWord_eq (auto : Bool) (tch : BitVec 2) :
    0#61 ++ tch ++ BitVec.ofBool auto = BitVec.ofNat 64 (auto.toNat + 2 * tch.toNat) := by
  apply BitVec.eq_of_toNat_eq
  have := auto.toNat_le
  have := tch.isLt
  simp only [toNat_append_eq_add, BitVec.toNat_ofBool, BitVec.toNat_ofNat]
  omega

/-! ### What the host reads and writes -/

/-- A table of what the registers read as, checked entry by entry. -/
theorem step_readTable_of_idle {s : State} (idle : s.engine = .idle) {rest : List HostEvent} {table : List (Addr × Word)}
    (fields : table = Reg.all.map fun r => (r.addr, s.readReg r)) :
    ∀ p ∈ table, s.inbox = .read p.1 :: rest → step s = .next { s with inbox := rest, replies := p.2 :: s.replies } := by
  intro p hp event
  rw [fields, List.mem_map] at hp
  obtain ⟨r, -, rfl⟩ := hp
  exact step_readReg_of_idle idle r event

/-- Settles O48: each address names its register, element or reserved word, and an access acts on what it names. -/
theorem hostReadsReturnTheirFields : Obligations.HostReadsReturnTheirFields := by
  refine ⟨fun p hp => ?_, fun s rest idle => ⟨?_, fun addr w event element => ?_, fun addr k reserved event => ?_,
    fun addr k v hk ha event => ?_⟩⟩
  · refine step_readTable_of_idle (s := { State.reset with inbox := [.read p.1] }) rfl ?_ p hp rfl
    have same (r : Reg) := readTarget_withInbox State.reset [.read p.1] (.reg r)
    refine Eq.trans ?_ (List.map_congr_left fun r _ => congrArg (Prod.mk r.addr) (same r).symm)
    decide
  · refine step_readTable_of_idle idle ?_
    have status : s.statusWord = statusBits false s.status := by rw [statusWord_eq, State.busy, idle]
    simp only [Reg.all, List.map, Reg.addr, State.readReg, status, ctrlWord_eq, bcCfgWord_eq]
    simp only [zero_append_eq_setWidth]
    rfl
  · rcases element with ⟨p, f, hp, hf, ha, rfl⟩ | ⟨j, hj, ha, rfl⟩ | ⟨j, hj, ha, rfl⟩ | ⟨j, hj, ha, rfl⟩ | ⟨j, hj, ha, rfl⟩ |
      ⟨j, hj, ha, rfl⟩ | ⟨r, c, hr, hc, ha, rfl⟩
    · have reads := step_readWord_of_idle idle event (.inr (target_of_peak hp hf ha))
      rwa [ha] at reads
    all_goals
      have reads := step_readWord_of_idle idle event (.inl (target_of_isElement ((isElement_iff _).mpr (by omega))))
      rwa [ha] at reads
  · rcases reserved with ⟨hk, ha⟩ | ⟨hk, ha⟩
    · have named := target_of_peakReserved hk ha
      have reads := step_read_of_idle idle event (by rw [named]; rfl)
      rwa [named] at reads
    · have named := target_of_ringReserved hk ha
      have reads := step_read_of_idle idle event (by rw [named]; rfl)
      rwa [named] at reads
  · have named := target_of_ringReserved hk ha
    have writes := step_write_of_idle idle event (by rw [named]; rfl) (by rw [named]; rfl)
    rwa [named] at writes

/-- Settles O51: each address names its register, and a write to it is `State.writeReg`. -/
theorem registerWritesTakeEffect : Obligations.RegisterWritesTakeEffect := by
  intro s v rest idle
  have writes (r : Reg) (event : s.inbox = .write r.addr v :: rest) :=
    step_writeReg_of_idle idle r event
  exact ⟨fun noReset event => writes .ctrl event rfl fun _ => noReset, fun event => writes .status event rfl nofun,
    fun event => writes .errsticky event rfl nofun, fun event => writes .opa event rfl nofun,
    fun event => writes .opb event rfl nofun, fun event => writes .opc event rfl nofun,
    fun event => writes .bcCfg event rfl nofun, fun event => writes .bcMaxavg event rfl nofun,
    fun event => writes .bcSens event rfl nofun, fun event => writes .bcSpeed event rfl nofun,
    fun event => writes .bcTol event rfl nofun, fun event => writes .fftCfg event rfl nofun,
    fun event => writes .pkK event rfl nofun, fun event => writes .fs event rfl nofun⟩

end Sys2Proof.Machine
end

section
/-! SUPPORT. A command writes only the memory window it names (20_memory.md R74). -/

namespace Sys2Proof.Machine

/-! ### Writes inside a window -/

/-- Words stored inside a window leave every byte outside it as it was. -/
theorem sameOutside_writeWords {base len a : Nat} {vs : List Word} (lo : base ≤ a) (hi : a + 8 * vs.length ≤ base + len)
    (m : List Host.Cell) : sameOutside base len m (writeWords m a vs) := fun b outside =>
  readByte_writeWords_outside m a vs b (by omega)

/-- A loop of writes, each inside the window, leaves every byte outside it as it was. -/
theorem sameOutside_foldl {α : Type} {base len : Nat} (f : List Host.Cell → α → List Host.Cell) (l : List α)
    (m : List Host.Cell) (inside : ∀ m, ∀ x ∈ l, sameOutside base len m (f m x)) :
    sameOutside base len m (l.foldl f m) :=
  List.foldlRecOn (motive := sameOutside base len m) l f (fun _ _ => rfl) fun m' same x hx b outside =>
    (inside m' x hx b outside).trans (same b outside)

theorem sameOutside_writeRing {r : Nat} (slot : r < Config.maxavgMax) (x : Sample) (m : List Host.Cell) :
    sameOutside ringBase 0x2000 m (writeRing m r x) := by
  simp only [Config.maxavgMax] at slot
  refine sameOutside_writeWords ?_ ?_ m
  all_goals
    simp only [ringAddr, List.length_cons, List.length_nil]
    omega

theorem sameOutside_clearRing (m : List Host.Cell) : sameOutside ringBase 0x2000 m (clearRing m) :=
  sameOutside_foldl _ _ m fun m' _ slot => sameOutside_writeRing (List.mem_range.mp slot) _ m'

theorem sameOutside_writePeakTable (m : List Host.Cell) (table : List Peak) :
    sameOutside peakBase 0x800 m (writePeakTable m table) := by
  refine sameOutside_foldl _ _ m fun m' p inside => ?_
  have inside : p < 64 := List.mem_range.mp inside
  refine sameOutside_writeWords ?_ ?_ m'
  all_goals
    simp only [peakAddr, length_tableEntry]
    omega

/-! ### The window of each command -/

/-- Whatever part of the block a command writes, of memory it is its window: the buffers fit at a legal size, and the ring's
pointer is a slot. -/
theorem Effect.writesOwnWindow {i : Instr} {s u : State} (effect : Effect i s u) (slot : s.bcWptr.toNat < Config.maxavgMax) :
    sameOutside (windowOf i).1 (windowOf i).2 s.mem u.mem := by
  cases effect with
  | nothing | res0 => exact fun _ _ => rfl
  | work own size cs len mask =>
    have fits := fftSize_le s size
    have words := length_flatMap_pair cs
    rw [own]
    exact sameOutside_writeWords le_rfl (by omega) s.mem
  | series own size vs len =>
    have fits := fftSize_le s size
    unfold State.seriesLen at len
    rw [own]
    exact sameOutside_writeWords le_rfl (by omega) s.mem
  | rippleClear =>
    dsimp only [State.storeRipple, windowOf]
    exact sameOutside_writeWords le_rfl (by rw [List.length_replicate]; decide) s.mem
  | ripplePush size vs len =>
    have fits := fftSize_le s size
    exact sameOutside_writeWords le_rfl (by simp only [windowOf]; omega) s.mem
  | boxcarPush legal =>
    have stored : (s.ringPush.boxcarReport s.ringPush.boxcarFold).mem = writeRing s.mem s.bcWptr.toNat s.operandSample := by
      simp [State.boxcarReport, State.ringPush]
    rw [stored]
    exact sameOutside_writeRing slot _ s.mem
  | boxcarClear =>
    dsimp only [windowOf]
    exact sameOutside_clearRing s.mem
  | peaks legal => exact sameOutside_writePeakTable s.mem s.peaks

/-- Settles O11: a fault writes no memory, a completion none beyond the effect, and the effect stays in the window. -/
theorem commandsWriteOnlyTheirMemory : Obligations.CommandsWriteOnlyTheirMemory := by
  intro i s t inv run
  rcases exec_cases run with ⟨u, effect, rfl⟩ | ⟨code, rfl⟩
  · exact effect.writesOwnWindow inv.ringPtrMax
  · exact fun _ _ => rfl

end Sys2Proof.Machine
end


section
/-! SUPPORT. The address map that the statements write out is the model's, and a bus error sets BERR alone (20_memory.md R62,
R63, R65, R66). -/

namespace Sys2Proof.Machine

/-! ### The address map written out -/

theorem isRingReserved_iff (a : Nat) : isRingReserved a = true ↔ (0x30000 ≤ a ∧ a < 0x32000) ∧ a % 32 = 24 := by
  simp [isRingReserved]

theorem isReadOnlyWindow_iff (a : Nat) : isReadOnlyWindow a = true ↔ a % 8 = 0 ∧
    (0x02000 ≤ a ∧ a < 0x02800 ∨ 0x20000 ≤ a ∧ a < 0x27FF0 ∨ 0x28000 ≤ a ∧ a < 0x2FFF0) := by
  simp [isReadOnlyWindow, or_assoc]

theorem isWritable_iff (a : Nat) :
    isWritable a = true ↔ a ∈ writableRegisters ∨ isElement a = true ∨ isRingReserved a = true := by
  simp [isWritable, or_assoc]

theorem isReadable_iff (a : Nat) :
    isReadable a = true ↔ a ∈ readOnlyRegisters ∨ isWritable a = true ∨ isReadOnlyWindow a = true := by
  simp only [isReadable, isWritable, Bool.or_eq_true, List.contains_iff_mem]
  tauto

/-- The registers of the statements, writable or not, are those of R47. -/
theorem exists_reg_of_mem {a : Nat} (h : a ∈ writableRegisters ∨ a ∈ readOnlyRegisters) : ∃ r : Reg, a = r.addr.toNat := by
  have table : ∀ a ∈ writableRegisters ++ readOnlyRegisters, ∃ r ∈ Reg.all, a = r.addr.toNat := by decide
  obtain ⟨r, -, named⟩ := table a (List.mem_append.mpr h)
  exact ⟨r, named⟩

theorem isReadable_regAddr (r : Reg) : isReadable r.addr.toNat = true := by
  cases r <;> rfl

theorem isWritable_regAddr (r : Reg) : isWritable r.addr.toNat = !r.readOnly := by
  cases r <;> rfl

theorem regAddr_lt (r : Reg) : r.addr.toNat < 0x1000 := by
  cases r <;> decide

/-- The register at an address of the register window is the one with that address (R47). -/
theorem eq_addr_of_regAt {a : Nat} {r : Reg} (h : regAt a = some r) : a = r.addr.toNat := by
  unfold regAt at h
  split at h
  all_goals cases h
  all_goals rfl

/-! ### What an address names in the model -/

/-- The PEAK and TW windows are host RO (R62). -/
theorem target_errors_of_isReadOnlyWindow {addr : Addr} (h : isReadOnlyWindow addr.toNat = true) :
    (target addr).readError = false ∧ (target addr).writeError = true := by
  obtain ⟨aligned, window⟩ := (isReadOnlyWindow_iff _).mp h
  rw [target_eq_of_window aligned (by omega)]
  rcases window with w | w | w
  · simp (disch := omega) only [if_pos, if_neg]
    split <;> exact ⟨rfl, rfl⟩
  all_goals
    simp (disch := omega) only [if_pos, if_neg]
    exact ⟨rfl, rfl⟩

/-- The reserved word of a RING slot (R66). -/
theorem target_of_isRingReserved {addr : Addr} (h : isRingReserved addr.toNat = true) : target addr = .ringReserved := by
  obtain ⟨window, offset⟩ := (isRingReserved_iff _).mp h
  exact target_of_ringReserved (r := (addr.toNat - 0x30000) / 32) (by omega) (by omega)

/-- Every other address is unmapped or misaligned (R46, R63, R65). -/
theorem target_of_not_isReadable {addr : Addr} (h : isReadable addr.toNat = false) : target addr = .unmapped := by
  by_cases aligned : addr.toNat % 8 = 0
  · rcases Nat.lt_or_ge addr.toNat 0x1000 with low | window
    · have noReg : regAt addr.toNat = none := by
        cases found : regAt addr.toNat with
        | none => rfl
        | some r => simp [eq_addr_of_regAt found, isReadable_regAddr] at h
      simp [target, aligned, alignedTarget, low, noReg]
    · have outside := Bool.eq_false_iff.mp h
      simp only [ne_eq, isReadable_iff, isWritable_iff, isElement_iff, isRingReserved_iff, isReadOnlyWindow_iff,
        not_or] at outside
      rw [target_eq_of_window aligned window]
      simp (disch := omega) only [if_neg]
  · simp [target, aligned]

/-- What an address names, by the class the statements give it. -/
theorem target_cases (addr : Addr) :
    (∃ r : Reg, addr = r.addr) ∨
    (isElement addr.toNat = true ∧ target addr = .cell addr.toNat) ∨
    (isRingReserved addr.toNat = true ∧ target addr = .ringReserved) ∨
    (isReadOnlyWindow addr.toNat = true ∧ (target addr).readError = false ∧ (target addr).writeError = true) ∨
    (isReadable addr.toNat = false ∧ target addr = .unmapped) := by
  cases readable : isReadable addr.toNat with
  | false => exact .inr (.inr (.inr (.inr ⟨rfl, target_of_not_isReadable readable⟩)))
  | true =>
    have register (h : addr.toNat ∈ writableRegisters ∨ addr.toNat ∈ readOnlyRegisters) : ∃ r : Reg, addr = r.addr :=
      (exists_reg_of_mem h).imp fun _ => BitVec.eq_of_toNat_eq
    rw [isReadable_iff, isWritable_iff] at readable
    rcases readable with h | (h | h | h) | h
    · exact .inl (register (.inr h))
    · exact .inl (register (.inl h))
    · exact .inr (.inl ⟨h, target_of_isElement h⟩)
    · exact .inr (.inr (.inl ⟨h, target_of_isRingReserved h⟩))
    · exact .inr (.inr (.inr (.inl ⟨h, target_errors_of_isReadOnlyWindow h⟩)))

/-- A read-only window holds no register, no writable element and no reserved word of RING. -/
theorem not_isWritable_of_isReadOnlyWindow {a : Nat} (h : isReadOnlyWindow a = true) : isWritable a = false := by
  obtain ⟨aligned, window⟩ := (isReadOnlyWindow_iff a).mp h
  rw [Bool.eq_false_iff, ne_eq, isWritable_iff, isElement_iff, isRingReserved_iff]
  rintro (register | element | reserved)
  · obtain ⟨r, rfl⟩ := exists_reg_of_mem (.inl register)
    have := regAddr_lt r
    omega
  · omega
  · omega

/-- R65 in the terms of the statements: which reads are bus errors. -/
theorem readError_target (addr : Addr) : (target addr).readError = !isReadable addr.toNat := by
  rcases target_cases addr with ⟨r, rfl⟩ | ⟨element, named⟩ | ⟨reserved, named⟩ | ⟨window, reads, -⟩ | ⟨unmapped, named⟩
  · rw [target_regAddr, isReadable_regAddr]
    rfl
  · rw [named, (isReadable_iff _).mpr (.inr (.inl ((isWritable_iff _).mpr (.inr (.inl element)))))]
    rfl
  · rw [named, (isReadable_iff _).mpr (.inr (.inl ((isWritable_iff _).mpr (.inr (.inr reserved)))))]
    rfl
  · rw [reads, (isReadable_iff _).mpr (.inr (.inr window))]
    rfl
  · rw [named, unmapped]
    rfl

/-- R65 and R66 in the terms of the statements: which writes are bus errors. -/
theorem writeError_target (addr : Addr) : (target addr).writeError = !isWritable addr.toNat := by
  rcases target_cases addr with ⟨r, rfl⟩ | ⟨element, named⟩ | ⟨reserved, named⟩ | ⟨window, -, writes⟩ | ⟨unmapped, named⟩
  · rw [target_regAddr, isWritable_regAddr, Bool.not_not]
    rfl
  · rw [named, (isWritable_iff _).mpr (.inr (.inl element))]
    rfl
  · rw [named, (isWritable_iff _).mpr (.inr (.inr reserved))]
    rfl
  · rw [writes, not_isWritable_of_isReadOnlyWindow window]
    rfl
  · have unwritable : isWritable addr.toNat = false :=
      Bool.eq_false_iff.mpr fun h => Bool.eq_false_iff.mp unmapped ((isReadable_iff _).mpr (.inr (.inl h)))
    rw [named, unwritable]
    rfl

/-! ### The host's turn -/

theorem step_of_isHostTurn {s : State} (turn : s.isHostTurn = true) : step s = .next s.hostTurn := by
  cases engine : s.engine with
  | idle => simp [step, engine]
  | run c left | reset left =>
    cases left with
    | zero => simp [State.isHostTurn, engine] at turn
    | succ left => simp [step, engine]

theorem step_read_of_isHostTurn {s : State} (turn : s.isHostTurn = true) {addr : Addr} {rest : List HostEvent}
    (event : s.inbox = .read addr :: rest) :
    step s = .next ({ s with engine := s.engine.tick, inbox := rest }.hostRead addr) := by
  rw [step_of_isHostTurn turn, State.hostTurn, event]
  rfl

theorem step_write_of_isHostTurn {s : State} (turn : s.isHostTurn = true) {addr : Addr} {v : Word} {rest : List HostEvent}
    (event : s.inbox = .write addr v :: rest) :
    step s = .next ({ s with engine := s.engine.tick, inbox := rest }.hostWrite addr v) := by
  rw [step_of_isHostTurn turn, State.hostTurn, event]
  rfl

/-- A tick neither starts nor ends the reset sequence. -/
theorem isResetting_tick (s : State) (inbox : List HostEvent) :
    { s with engine := s.engine.tick, inbox := inbox }.isResetting = s.isResetting := by
  unfold State.isResetting
  cases s.engine <;> rfl

/-! ### Bus errors (R65) -/

theorem hostRead_of_readError {s : State} (active : s.isResetting = false) {addr : Addr}
    (error : (target addr).readError = true) : s.hostRead addr = (s.reply 0).setBerr := by
  cases engine : s.engine with
  | idle => simp [State.hostRead, State.readIdle, engine, error]
  | run c left => simp [State.hostRead, State.readRunning, engine, error]
  | reset left => simp [State.isResetting, engine] at active

/-- A bus error is no write to CTRL, so it asks for no reset (R251). -/
theorem isSoftReset_of_writeError {t : Target} (error : t.writeError = true) (v : Word) : isSoftReset t v = false := by
  rw [isSoftReset, Bool.and_eq_false_imp]
  intro isCtrl
  rw [of_decide_eq_true isCtrl] at error
  cases error

theorem hostWrite_of_writeError {s : State} (active : s.isResetting = false) {addr : Addr} (v : Word)
    (error : (target addr).writeError = true) : s.hostWrite addr v = s.setBerr := by
  rcases hostWrite_cases addr v s with ⟨soft, -⟩ | ⟨-, ⟨-, write⟩ | ⟨c, left, -, write⟩ | ⟨left, reset, -⟩⟩
  · simp [isSoftReset_of_writeError error v] at soft
  · simp [write, State.writeIdle, error]
  · simp [write, State.writeRunning, error]
  · simp [State.isResetting, reset] at active

/-- Settles O49: an address that is not readable, or not writable, is one whose target makes the access a bus error. -/
theorem busErrorsSetBerr : Obligations.BusErrorsSetBerr := by
  intro s addr v rest turn active
  have active (inbox : List HostEvent) : { s with engine := s.engine.tick, inbox := inbox }.isResetting = false :=
    (isResetting_tick s inbox).trans active
  constructor
  · intro unreadable event
    have error : (target addr).readError = true := by rw [readError_target, unreadable]; rfl
    rw [step_read_of_isHostTurn turn event, hostRead_of_readError (active rest) error]
    rfl
  · intro unwritable event
    have error : (target addr).writeError = true := by rw [writeError_target, unwritable]; rfl
    rw [step_write_of_isHostTurn turn event, hostWrite_of_writeError (active rest) v error]
    rfl

end Sys2Proof.Machine
end

section
/-! SUPPORT. A memory element written by the host reads back (20_memory.md R62, R68). -/

namespace Sys2Proof.Machine

theorem readWord_writeWord_same (m : List Host.Cell) (a : Nat) (v : Word) : readWord (writeWord m a v) a = v :=
  readWord_writeWords_inside m a [v] 0 Nat.zero_lt_one

theorem sameOutside_writeWord (m : List Host.Cell) (a : Nat) (v : Word) : sameOutside a 8 m (writeWord m a v) :=
  sameOutside_writeWords (vs := [v]) le_rfl le_rfl m

/-- A run takes its first step, then the others. -/
theorem run_succ_of_step {s t : State} (h : step s = .next t) (n : Nat) :
    Host.Core.run Sys2Proof.core (n + 1) s = Host.Core.run Sys2Proof.core n t := by
  have first : Sys2Proof.core.step s = .next t := h
  simp only [Host.Core.run, first]

/-- On an IDLE block a write to a memory element stores its word and changes nothing else (R68). -/
theorem step_writeElement_of_idle {s : State} (idle : s.engine = .idle) {addr : Addr} {v : Word} {rest : List HostEvent}
    (element : isElement addr.toNat = true) (event : s.inbox = .write addr v :: rest) :
    step s = .next { s with inbox := rest, mem := writeWord s.mem addr.toNat v } := by
  have named := target_of_isElement element
  have writes := step_write_of_idle idle event (by rw [named]; rfl) (by rw [named]; rfl)
  rwa [named] at writes

/-- Settles O50: the first step stores the word, the second reads it. -/
theorem elementWriteReadsBack : Obligations.ElementWriteReadsBack := by
  intro s addr v rest idle element events
  have write := step_writeElement_of_idle idle element events
  have read := step_readWord_of_idle (s := { s with inbox := .read addr :: rest, mem := writeWord s.mem addr.toNat v })
    idle rfl (.inl (target_of_isElement element))
  rw [readWord_writeWord_same] at read
  exact ⟨_, (run_succ_of_step write 1).trans (run_succ_of_step read 0), rfl, sameOutside_writeWord s.mem addr.toNat v⟩

end Sys2Proof.Machine
end

section
/-! SUPPORT. The fields of a command word (30_encoding.md R81 to R84). -/

namespace Sys2Proof

/-! ### Taking a word apart -/

theorem lenField_lt (w : BitVec 32) : lenField w < 16 := (w.extractLsb' 20 4).isLt

theorem stageField_lt (w : BitVec 32) : stageField w < 16 := (w.extractLsb' 0 4).isLt

@[simp] theorem opField_cmdWord (op : BitVec 8) (len : Nat) (mod : BitVec 4) (imm : BitVec 16) :
    opField (cmdWord op len mod imm) = op := by
  rw [opField, cmdWord, BitVec.extractLsb'_append_eq_of_le (by decide), BitVec.extractLsb'_append_eq_of_le (by decide),
    BitVec.extractLsb'_append_eq_of_le (by decide)]
  exact BitVec.extractLsb'_eq_self

@[simp] theorem lenField_cmdWord (op : BitVec 8) (len : Nat) (mod : BitVec 4) (imm : BitVec 16) :
    lenField (cmdWord op len mod imm) = len % 16 := by
  rw [lenField, cmdWord, BitVec.extractLsb'_append_eq_of_le (by decide), BitVec.extractLsb'_append_eq_of_le (by decide),
    BitVec.extractLsb'_append_eq_right, BitVec.toNat_ofNat]

@[simp] theorem modField_cmdWord (op : BitVec 8) (len : Nat) (mod : BitVec 4) (imm : BitVec 16) :
    modField (cmdWord op len mod imm) = mod := by
  rw [modField, cmdWord, BitVec.extractLsb'_append_eq_of_le (by decide)]
  exact BitVec.extractLsb'_append_eq_right

@[simp] theorem immField_cmdWord (op : BitVec 8) (len : Nat) (mod : BitVec 4) (imm : BitVec 16) :
    immField (cmdWord op len mod imm) = imm := BitVec.extractLsb'_append_eq_right

@[simp] theorem stageField_cmdWord (op : BitVec 8) (len : Nat) (mod : BitVec 4) (high : BitVec 12) (n : Nat) :
    stageField (cmdWord op len mod (high ++ BitVec.ofNat 4 n)) = n % 16 := by
  rw [stageField, cmdWord, BitVec.extractLsb'_append_eq_of_add_le (by decide), BitVec.extractLsb'_append_eq_right,
    BitVec.toNat_ofNat]

/-- The four fields of R81 are all of a word. -/
theorem cmdWord_fields (w : BitVec 32) : cmdWord (opField w) (lenField w) (modField w) (immField w) = w := by
  rw [cmdWord, opField, lenField, modField, immField, BitVec.ofNat_toNat, BitVec.setWidth_eq,
    BitVec.extractLsb'_append_extractLsb'_eq_extractLsb' (show 24 = 20 + 4 from rfl),
    BitVec.extractLsb'_append_extractLsb'_eq_extractLsb' (show 20 = 16 + 4 from rfl),
    BitVec.extractLsb'_append_extractLsb'_eq_extractLsb' (show 16 = 0 + 16 from rfl)]
  exact BitVec.extractLsb'_eq_self

/-- A word is known by its fields. -/
theorem eq_cmdWord_iff {w : BitVec 32} {op : BitVec 8} {len : Nat} {mod : BitVec 4} {imm : BitVec 16} (fits : len < 16) :
    w = cmdWord op len mod imm ↔ opField w = op ∧ lenField w = len ∧ modField w = mod ∧ immField w = imm := by
  constructor
  · rintro rfl
    simp [Nat.mod_eq_of_lt fits]
  · rintro ⟨rfl, rfl, rfl, rfl⟩
    exact (cmdWord_fields w).symm

/-- IMM of a STAGE command is its stage number below twelve zeros (R84). -/
theorem immField_eq_stage_iff (w : BitVec 32) :
    immField w = 0#12 ++ BitVec.ofNat 4 (stageField w) ↔ immField w &&& 0xFFF0#16 = 0 := by
  have split : immField w = w.extractLsb' 4 12 ++ w.extractLsb' 0 4 :=
    (BitVec.extractLsb'_append_extractLsb'_eq_extractLsb' (show 4 = 0 + 4 from rfl)).symm
  have mask : 0xFFF0#16 = BitVec.allOnes 12 ++ 0#4 := by decide
  have zero : (0 : BitVec 16) = 0#12 ++ 0#4 := by decide
  rw [split, mask, zero, BitVec.and_append, BitVec.and_allOnes, BitVec.and_zero, stageField, BitVec.ofNat_toNat,
    BitVec.setWidth_eq, BitVec.append_left_inj, BitVec.append_left_inj]

/-! ### The words a row matches (R85, R86) -/

theorem fixedRow_hits_iff (pat w : BitVec 32) (i : Instr) : (fixedRow pat i).hits w = true ↔ w = pat := by
  have mask : w &&& 0xFFFFFFFF#32 = w := BitVec.and_allOnes
  rw [OpcodeRow.hits, fixedRow, beq_iff_eq, mask]

/-- A row with a free LEN field matches the words that agree with it on the three other fields. -/
theorem lenRow_hits_iff (op : BitVec 8) (mod : BitVec 4) (build : Nat → Instr) (w : BitVec 32) :
    (lenRow (cmdWord op 0 mod 0) build).hits w = true ↔ w = cmdWord op (lenField w) mod 0 := by
  have op_mask : opField (w &&& 0xFF0FFFFF#32) = opField w := BitVec.extractLsb'_and.trans BitVec.and_allOnes
  have len_mask : lenField (w &&& 0xFF0FFFFF#32) = 0 := by
    rw [lenField, BitVec.extractLsb'_and]
    exact congrArg BitVec.toNat BitVec.and_zero
  have mod_mask : modField (w &&& 0xFF0FFFFF#32) = modField w := BitVec.extractLsb'_and.trans BitVec.and_allOnes
  have imm_mask : immField (w &&& 0xFF0FFFFF#32) = immField w := BitVec.extractLsb'_and.trans BitVec.and_allOnes
  rw [OpcodeRow.hits, lenRow, beq_iff_eq, eq_cmdWord_iff (by decide), eq_cmdWord_iff (lenField_lt w), op_mask, len_mask,
    mod_mask, imm_mask]
  simp

/-- A row with a free stage number matches the words that agree with it on all but IMM[3:0]. -/
theorem stageRow_hits_iff (op : BitVec 8) (mod : BitVec 4) (build : Nat → Instr) (w : BitVec 32) :
    (stageRow (cmdWord op 0 mod 0) build).hits w = true ↔
      w = cmdWord op 0 mod (0#12 ++ BitVec.ofNat 4 (stageField w)) := by
  have op_mask : opField (w &&& 0xFFFFFFF0#32) = opField w := BitVec.extractLsb'_and.trans BitVec.and_allOnes
  have len_mask : lenField (w &&& 0xFFFFFFF0#32) = lenField w :=
    congrArg BitVec.toNat (BitVec.extractLsb'_and.trans BitVec.and_allOnes)
  have mod_mask : modField (w &&& 0xFFFFFFF0#32) = modField w := BitVec.extractLsb'_and.trans BitVec.and_allOnes
  have imm_mask : immField (w &&& 0xFFFFFFF0#32) = immField w &&& 0xFFF0#16 := BitVec.extractLsb'_and
  rw [OpcodeRow.hits, stageRow, beq_iff_eq, eq_cmdWord_iff (by decide), eq_cmdWord_iff (by decide), op_mask, len_mask,
    mod_mask, imm_mask, immField_eq_stage_iff]

end Sys2Proof
end

section
/-! SUPPORT. The opcode map against the encoder: each row's word and command determine each other, and no word matches two
rows (30_encoding.md R85, R86, R90). -/

namespace Sys2Proof

/-! ### Each row agrees with the encoder -/

/-- The row's commands have encodings, it matches exactly the words that encode what it builds from them, and it builds a
command again from its encoding. -/
structure OpcodeRow.Agrees (r : OpcodeRow) : Prop where
  wellFormed : ∀ w, (r.build w).wellFormed = true
  hits_iff : ∀ w, r.hits w = true ↔ w = encode32 (r.build w)
  build_encode32 : ∀ w, r.build (encode32 (r.build w)) = r.build w

theorem OpcodeRow.Agrees.hits_encode32 {r : OpcodeRow} (agrees : r.Agrees) (w : BitVec 32) :
    r.hits (encode32 (r.build w)) = true :=
  (agrees.hits_iff _).mpr (congrArg encode32 (agrees.build_encode32 w)).symm

theorem fixedRow_agrees {i : Instr} (fits : i.wellFormed = true) : (fixedRow (encode32 i) i).Agrees where
  wellFormed _ := fits
  hits_iff w := fixedRow_hits_iff _ w i
  build_encode32 _ := rfl

theorem lenRow_agrees {op : BitVec 8} {mod : BitVec 4} {build : Nat → Instr}
    (fits : ∀ n, (build n).wellFormed = lenFits n) (word : ∀ n, encode32 (build n) = cmdWord op n mod 0) :
    (lenRow (cmdWord op 0 mod 0) build).Agrees where
  wellFormed w := (fits _).trans (decide_eq_true (lenField_lt w))
  hits_iff w := by
    rw [lenRow_hits_iff, lenRow, word]
  build_encode32 w := by
    simp only [lenRow, word, lenField_cmdWord, Nat.mod_eq_of_lt (lenField_lt w)]

theorem stageRow_agrees {op : BitVec 8} {mod : BitVec 4} {build : Nat → Instr}
    (fits : ∀ n, (build n).wellFormed = stageFits n)
    (word : ∀ n, encode32 (build n) = cmdWord op 0 mod (0#12 ++ BitVec.ofNat 4 n)) :
    (stageRow (cmdWord op 0 mod 0) build).Agrees where
  wellFormed w := (fits _).trans (decide_eq_true (stageField_lt w))
  hits_iff w := by
    rw [stageRow_hits_iff, stageRow, word]
  build_encode32 w := by
    simp only [stageRow, word, stageField_cmdWord, Nat.mod_eq_of_lt (stageField_lt w)]

/-- The map's rows, in its order, by the shape of each. -/
theorem opcodeRows_agree : ∀ r ∈ opcodeRows, r.Agrees := by
  simp only [opcodeRows, List.forall_mem_cons, List.not_mem_nil, false_imp_iff, implies_true, and_true]
  exact ⟨
    fixedRow_agrees (i := .nop) rfl,
    lenRow_agrees (op := 0x10) (mod := 0) (build := .kfdecM) (fun _ => rfl) (fun _ => rfl),
    lenRow_agrees (op := 0x10) (mod := 1) (build := .kfdecB) (fun _ => rfl) (fun _ => rfl),
    fixedRow_agrees (i := .kfencM) rfl,
    fixedRow_agrees (i := .kfencB) rfl,
    lenRow_agrees (op := 0x12) (mod := 0) (build := .xfdec) (fun _ => rfl) (fun _ => rfl),
    lenRow_agrees (op := 0x13) (mod := 0) (build := .rngdec) (fun _ => rfl) (fun _ => rfl),
    lenRow_agrees (op := 0x14) (mod := 0) (build := .errtok) (fun _ => rfl) (fun _ => rfl),
    fixedRow_agrees (i := .bcpush) rfl,
    fixedRow_agrees (i := .bcclr) rfl,
    fixedRow_agrees (i := .rpclr) rfl,
    fixedRow_agrees (i := .rppush) rfl,
    fixedRow_agrees (i := .load) rfl,
    fixedRow_agrees (i := .win) rfl,
    fixedRow_agrees (i := .fftF) rfl,
    fixedRow_agrees (i := .fftI) rfl,
    fixedRow_agrees (i := .mag) rfl,
    fixedRow_agrees (i := .norm) rfl,
    fixedRow_agrees (i := .peaks) rfl,
    fixedRow_agrees (i := .bitrev) rfl,
    stageRow_agrees (op := 0x39) (mod := 0) (build := .stageF) (fun _ => rfl) (fun _ => rfl),
    stageRow_agrees (op := 0x39) (mod := 1) (build := .stageI) (fun _ => rfl) (fun _ => rfl)⟩

/-! ### Every command has a row -/

theorem exists_build_lenField (build : Nat → Instr) {len : Nat} (fits : lenFits len = true) :
    ∃ w, build (lenField w) = build len :=
  ⟨cmdWord 0 len 0 0, by rw [lenField_cmdWord, Nat.mod_eq_of_lt (of_decide_eq_true fits)]⟩

theorem exists_build_stageField (build : Nat → Instr) {n : Nat} (fits : stageFits n = true) :
    ∃ w, build (stageField w) = build n :=
  ⟨cmdWord 0 0 0 (0#12 ++ BitVec.ofNat 4 n), by rw [stageField_cmdWord, Nat.mod_eq_of_lt (of_decide_eq_true fits)]⟩

/-- Every well-formed command is built by a row of the map; `i` below is the row's place in R85. -/
theorem exists_row_building {i : Instr} (fits : i.wellFormed = true) : ∃ r ∈ opcodeRows, ∃ w, r.build w = i := by
  cases i with
  | nop => exact ⟨_, List.mem_of_getElem? (i := 0) rfl, 0, rfl⟩
  | kfdecM len => exact ⟨_, List.mem_of_getElem? (i := 1) rfl, exists_build_lenField .kfdecM fits⟩
  | kfdecB len => exact ⟨_, List.mem_of_getElem? (i := 2) rfl, exists_build_lenField .kfdecB fits⟩
  | kfencM => exact ⟨_, List.mem_of_getElem? (i := 3) rfl, 0, rfl⟩
  | kfencB => exact ⟨_, List.mem_of_getElem? (i := 4) rfl, 0, rfl⟩
  | xfdec len => exact ⟨_, List.mem_of_getElem? (i := 5) rfl, exists_build_lenField .xfdec fits⟩
  | rngdec len => exact ⟨_, List.mem_of_getElem? (i := 6) rfl, exists_build_lenField .rngdec fits⟩
  | errtok len => exact ⟨_, List.mem_of_getElem? (i := 7) rfl, exists_build_lenField .errtok fits⟩
  | bcpush => exact ⟨_, List.mem_of_getElem? (i := 8) rfl, 0, rfl⟩
  | bcclr => exact ⟨_, List.mem_of_getElem? (i := 9) rfl, 0, rfl⟩
  | rpclr => exact ⟨_, List.mem_of_getElem? (i := 10) rfl, 0, rfl⟩
  | rppush => exact ⟨_, List.mem_of_getElem? (i := 11) rfl, 0, rfl⟩
  | load => exact ⟨_, List.mem_of_getElem? (i := 12) rfl, 0, rfl⟩
  | win => exact ⟨_, List.mem_of_getElem? (i := 13) rfl, 0, rfl⟩
  | fftF => exact ⟨_, List.mem_of_getElem? (i := 14) rfl, 0, rfl⟩
  | fftI => exact ⟨_, List.mem_of_getElem? (i := 15) rfl, 0, rfl⟩
  | mag => exact ⟨_, List.mem_of_getElem? (i := 16) rfl, 0, rfl⟩
  | norm => exact ⟨_, List.mem_of_getElem? (i := 17) rfl, 0, rfl⟩
  | peaks => exact ⟨_, List.mem_of_getElem? (i := 18) rfl, 0, rfl⟩
  | bitrev => exact ⟨_, List.mem_of_getElem? (i := 19) rfl, 0, rfl⟩
  | stageF n => exact ⟨_, List.mem_of_getElem? (i := 20) rfl, exists_build_stageField .stageF fits⟩
  | stageI n => exact ⟨_, List.mem_of_getElem? (i := 21) rfl, exists_build_stageField .stageI fits⟩

/-! ### No word matches two rows (R86) -/

/-- The rows fix a common bit to different values. -/
def OpcodeRow.clashes (r q : OpcodeRow) : Bool := r.pat &&& q.mask != q.pat &&& r.mask

theorem opcodeRows_clash : opcodeRows.Pairwise fun r q => r.clashes q = true := by
  decide

theorem not_clashes_of_hits {r q : OpcodeRow} {w : BitVec 32} (hr : r.hits w = true) (hq : q.hits w = true) :
    r.clashes q = false := by
  have hr : w &&& r.mask = r.pat := eq_of_beq hr
  have hq : w &&& q.mask = q.pat := eq_of_beq hq
  rw [OpcodeRow.clashes, bne_eq_false_iff_eq, ← hr, ← hq, BitVec.and_assoc, BitVec.and_assoc, BitVec.and_comm r.mask]

/-- At most one row of the map matches a word. -/
theorem row_unique {w : BitVec 32} {j k : Fin opcodeRows.length} (hj : (opcodeRows.get j).hits w = true)
    (hk : (opcodeRows.get k).hits w = true) : j = k := by
  have apart := List.pairwise_iff_get.mp opcodeRows_clash
  rcases lt_trichotomy j k with lt | eq | gt
  · exact absurd (apart j k lt) (Bool.eq_false_iff.mp (not_clashes_of_hits hj hk))
  · exact eq
  · exact absurd (apart k j gt) (Bool.eq_false_iff.mp (not_clashes_of_hits hk hj))

/-- The decoder's search finds whatever row matches. -/
theorem find?_hits_eq_some_iff {w : BitVec 32} {r : OpcodeRow} :
    opcodeRows.find? (OpcodeRow.hits · w) = some r ↔ r ∈ opcodeRows ∧ r.hits w = true := by
  constructor
  · exact fun found => ⟨List.mem_of_find?_eq_some found, List.find?_some (p := (OpcodeRow.hits · w)) found⟩
  · rintro ⟨mem, hits⟩
    have some_hits : (opcodeRows.find? (OpcodeRow.hits · w)).isSome = true := List.find?_isSome.mpr ⟨r, mem, hits⟩
    obtain ⟨q, found⟩ := Option.isSome_iff_exists.mp some_hits
    obtain ⟨j, rfl⟩ := List.mem_iff_get.mp mem
    obtain ⟨k, rfl⟩ := List.mem_iff_get.mp (List.mem_of_find?_eq_some found)
    rw [found, row_unique hits (List.find?_some (p := (OpcodeRow.hits · w)) found)]

end Sys2Proof
end

section
/-! SUPPORT. The decoder and the encoder are inverse to each other; what is legal (30_encoding.md R85 to R90). -/

namespace Sys2Proof

/-! ### The halves of a CMD value (R80) -/

@[simp] theorem low_encode (i : Instr) : (encode i).extractLsb' 0 32 = encode32 i := BitVec.extractLsb'_append_eq_right

@[simp] theorem high_encode (i : Instr) : (encode i).extractLsb' 32 32 = 0#32 := BitVec.extractLsb'_append_eq_left

theorem encode_eq_iff {i : Instr} {c : Word} :
    encode i = c ↔ c.extractLsb' 32 32 = 0#32 ∧ c.extractLsb' 0 32 = encode32 i := by
  constructor
  · rintro rfl
    exact ⟨high_encode i, low_encode i⟩
  · rintro ⟨high, low⟩
    rw [encode, ← high, ← low, BitVec.extractLsb'_append_extractLsb'_eq_extractLsb' (show 32 = 0 + 32 from rfl)]
    exact BitVec.extractLsb'_eq_self

/-! ### What a value decodes to -/

/-- A value decodes to what the row that matches its word builds from it (R86). -/
theorem decode_eq_ok_iff_row {c : Word} {i : Instr} : decode c = .ok i ↔
    c.extractLsb' 32 32 = 0#32 ∧
    ∃ r ∈ opcodeRows, r.hits (c.extractLsb' 0 32) = true ∧ r.build (c.extractLsb' 0 32) = i := by
  simp only [← and_assoc, ← find?_hits_eq_some_iff]
  by_cases high : c.extractLsb' 32 32 = 0#32
  · rw [decode, if_neg (not_not.mpr high)]
    cases opcodeRows.find? (OpcodeRow.hits · (c.extractLsb' 0 32)) <;> simp [high]
  · simp [decode, high]

/-- A value decodes to a command exactly when it is the encoding of that command (R85, R86, R90). -/
theorem decode_eq_ok_iff {c : Word} {i : Instr} : decode c = .ok i ↔ i.wellFormed = true ∧ encode i = c := by
  rw [decode_eq_ok_iff_row, encode_eq_iff]
  constructor
  · rintro ⟨high, r, mem, hits, rfl⟩
    have agrees := opcodeRows_agree r mem
    exact ⟨agrees.wellFormed _, high, (agrees.hits_iff _).mp hits⟩
  · rintro ⟨fits, high, low⟩
    obtain ⟨r, mem, w, rfl⟩ := exists_row_building fits
    have agrees := opcodeRows_agree r mem
    rw [low]
    exact ⟨high, r, mem, agrees.hits_encode32 w, agrees.build_encode32 w⟩

/-- Settles O1: the row that builds a command matches its word and builds it again. -/
theorem decodeUndoesEncode : Obligations.DecodeUndoesEncode :=
  fun _ fits => decode_eq_ok_iff.mpr ⟨fits, rfl⟩

/-- Settles O2: a row matches only the words of the commands it builds. -/
theorem encodeUndoesDecode : Obligations.EncodeUndoesDecode :=
  fun _ _ decoded => decode_eq_ok_iff.mp decoded

/-! ### Legal and illegal values (R86, R88) -/

theorem legalCmd_iff {c : Word} : legalCmd c = true ↔ ∃ i, decode c = .ok i := by
  cases decoded : decode c <;> simp [legalCmd, decoded]

theorem legalCmd_eq_false_iff {c : Word} : legalCmd c = false ↔ ∃ reason, decode c = .error reason := by
  cases decoded : decode c <;> simp [legalCmd, decoded]

/-- A value is legal when its upper half is 0 and some row matches its word. -/
theorem legalCmd_iff_row {c : Word} : legalCmd c = true ↔
    c.extractLsb' 32 32 = 0#32 ∧ ∃ k, (opcodeRows.get k).hits (c.extractLsb' 0 32) = true := by
  simp only [legalCmd_iff, decode_eq_ok_iff_row]
  constructor
  · rintro ⟨i, high, r, mem, hits, -⟩
    obtain ⟨k, rfl⟩ := List.mem_iff_get.mp mem
    exact ⟨high, k, hits⟩
  · rintro ⟨high, k, hits⟩
    exact ⟨_, high, _, List.get_mem opcodeRows k, hits, rfl⟩

/-- NOP alone has the opcode 0 (R85). -/
theorem eq_nop_of_opField {i : Instr} (op : opField (encode32 i) = 0) : i = .nop := by
  cases i with
  | nop => rfl
  | _ => simp [encode32] at op

/-- Settles O4: a legal word is the encoding of a command, and of the commands only NOP has OP = 0. -/
theorem onlyWordZeroIsNop : Obligations.OnlyWordZeroIsNop := by
  constructor
  · intro c
    exact decode_eq_ok_iff.trans ((and_iff_right rfl).trans eq_comm)
  · intro c op nonzero
    rw [← Bool.not_eq_true, legalCmd_iff]
    rintro ⟨i, decoded⟩
    obtain ⟨-, rfl⟩ := decode_eq_ok_iff.mp decoded
    rw [encode, BitVec.extractLsb'_append_eq_of_add_le (by decide)] at op
    rw [low_encode, eq_nop_of_opField op] at nonzero
    exact nonzero rfl

/-- Settles O5: each word is the encoding of its command. -/
theorem sampleWordsDecode : Obligations.SampleWordsDecode := by
  refine ⟨?_, ?_, ?_, ?_, ?_, ?_, ?_, ?_⟩ <;> exact decode_eq_ok_iff.mpr (by decide)

end Sys2Proof

namespace Sys2Proof.Machine

/-! ### The step that completes a command value -/

theorem step_of_completing {s : State} {c : Word} (completing : s.engine = .run c 0) : step s = s.engineTurn c := by
  simp only [step, completing]

theorem engineTurn_of_decode {c : Word} {i : Instr} (decoded : decode c = .ok i) (s : State) :
    s.engineTurn c = exec i s := by
  simp only [State.engineTurn, decoded]

/-- A value that is not legal completes with ILLEGAL_CMD (R86, R222). -/
theorem engineTurn_of_illegal {c : Word} (illegal : legalCmd c = false) (s : State) :
    s.engineTurn c = .next (faultedFrom s 1) := by
  obtain ⟨reason, decoded⟩ := legalCmd_eq_false_iff.mp illegal
  simp only [State.engineTurn, decoded]
  rfl

/-- Settles O3: the rows clash pairwise, so a row that matches is the only one. -/
theorem legalIffExactlyOneRow : Obligations.LegalIffExactlyOneRow := by
  constructor
  · intro c
    have hits_iff (r : OpcodeRow) (w : BitVec 32) : w &&& r.mask = r.pat ↔ r.hits w = true := beq_iff_eq.symm
    simp only [legalCmd_iff_row, hits_iff]
    exact and_congr_right fun _ => ⟨fun ⟨k, hits⟩ => ⟨k, hits, fun j hj => row_unique hj hits⟩, ExistsUnique.exists⟩
  · intro s c completing illegal
    rw [step_of_completing completing, engineTurn_of_illegal illegal]

/-- A table row's bits are the CMD value that holds them (R89). -/
theorem decode_of_decodeTableWord {nbits w : Nat} {i : Instr} (decoded : decodeTableWord nbits w = some i) :
    decode (BitVec.ofNat 64 (w % 2 ^ nbits)) = .ok i := by
  unfold decodeTableWord at decoded
  split at decoded
  · rename_i j found
    rw [found, Option.some.inj decoded]
  · cases decoded

/-- Settles O6: `withFetchWord` makes a state that is at the point of completing the decoded value. -/
theorem stepRunsDecodedCommand : Obligations.StepRunsDecodedCommand := by
  constructor
  · intro s c i completing decoded
    rw [step_of_completing completing, engineTurn_of_decode decoded]
  · intro s nbits w i decoded
    have completing : (s.withFetchWord nbits w).engine = .run (BitVec.ofNat 64 (w % 2 ^ nbits)) 0 := rfl
    rw [step_of_completing completing, engineTurn_of_decode (decode_of_decodeTableWord decoded)]

end Sys2Proof.Machine
end

section
/-! SUPPORT. A command's life from its CMD write to its completion fields, and NOP (40_control.md R100 to R102). -/

namespace Sys2Proof.Machine

/-! ### Acceptance (R100) -/

/-- On an IDLE block a write to CMD is an acceptance. -/
theorem step_submit_of_idle {s : State} (idle : s.engine = .idle) {c : Word} {rest : List HostEvent}
    (event : s.inbox = .write cmdAddr c :: rest) : step s = .next ({ s with inbox := rest }.accept c) :=
  step_writeReg_of_idle idle .cmd event rfl nofun

/-- Settles O7: `accept` draws the duration of a legal command only, and the inbox plays no part in it. -/
theorem acceptanceStartsTheEngine : Obligations.AcceptanceStartsTheEngine := by
  intro s c rest idle event
  rw [step_submit_of_idle idle event]
  rcases accept_cases c { s with inbox := rest } with ⟨legal, accepted⟩ | ⟨illegal, accepted⟩
  · exact ⟨fun _ => congrArg _ accepted, fun illegal => absurd (legal.symm.trans illegal) nofun⟩
  · exact ⟨fun legal => absurd (legal.symm.trans illegal) nofun, fun _ => congrArg _ accepted⟩

/-! ### Completion (R101) -/

/-- Before its completion a command touches neither STATUS nor ERRSTICKY. -/
theorem Effect.keepsStatusAndSticky {i : Instr} {s u : State} (effect : Effect i s u) :
    u.status = s.status ∧ u.errsticky = s.errsticky := by
  cases effect <;> simp [State.boxcarReport, State.ringPush]

/-- Settles O8: the completion fields are written once, by `completeOk` or by the fault entry, over STATUS and ERRSTICKY as
they were before the command. -/
theorem completionWritesItsFields : Obligations.CompletionWritesItsFields := by
  intro i s t run
  rcases exec_cases run with ⟨u, effect, rfl⟩ | ⟨code, rfl⟩
  · obtain ⟨status, sticky⟩ := effect.keepsStatusAndSticky
    simp [status, sticky]
  · exact ⟨rfl, rfl, rfl, rfl, rfl, rfl, .inr ⟨code.number_ne_zero, rfl, rfl, rfl⟩⟩

/-! ### NOP (R102) -/

/-- Settles O14: the rule of NOP ends where it starts, with the empty condition mask of its acceptance. -/
theorem nopOnlyCompletes : Obligations.NopOnlyCompletes := fun s =>
  runCommand_ok .ok s { s with cmask := 0 } rfl

end Sys2Proof.Machine
end

section
/-! SUPPORT. What the codec commands do to the state: each writes RES0 and its conditions, and nothing else (41_codec.md R110
to R128). -/

namespace Sys2Proof.Machine

/-! ### A command that writes RES0 -/

/-- A command whose rule writes only RES0 and the condition mask completes with them; everything else is as before. -/
theorem exec_of_writesRes0 {i : Instr} {s : State} {v : Word} {mask : BitVec 4}
    (writes : ruleOf i { s with cmask := 0 } = .ok { s with res0 := v, cmask := mask }) :
    exec i s = .next (completedFrom { s with res0 := v } mask) := by
  rw [exec_eq_runCommand]
  exact runCommand_ok _ s _ writes

/-- At another LEN than the expected one the rule is PARSE_FAIL with RES0 = 0 (R111). -/
theorem withLength_of_ne {expected len : Nat} (wrong : len ≠ expected) (s v : State) :
    withLength expected len { s with cmask := 0 } v = .ok { s with res0 := 0, cmask := 1#4 } := by
  simp [withLength, wrong, State.flag, parseFail]

/-- A condition flagged on the empty mask of a command's start. -/
theorem flagIf_of_start (s : State) (c : Bool) (bit : BitVec 4) :
    State.flagIf c bit { s with cmask := 0 } = { s with cmask := if c then bit else 0 } := by
  cases c
  · rfl
  · simp [State.flagIf, State.flag]

/-! ### Each command (R113 to R127) -/

/-- Settles O15: the rule of each of the five commands begins with the length check. -/
theorem wrongLengthSetsParseFail : Obligations.WrongLengthSetsParseFail := fun s _ =>
  ⟨fun wrong => ⟨exec_of_writesRes0 (withLength_of_ne wrong s _), exec_of_writesRes0 (withLength_of_ne wrong s _)⟩,
    fun wrong => exec_of_writesRes0 (withLength_of_ne wrong s _),
    fun wrong => ⟨exec_of_writesRes0 (withLength_of_ne wrong s _), exec_of_writesRes0 (withLength_of_ne wrong s _)⟩⟩

theorem exec_kfdecM (s : State) :
    exec (.kfdecM 3) s = .next (completedFrom { s with res0 := kfdec 16 s.opaKFloat } 0) := exec_of_writesRes0 rfl

theorem exec_kfdecB (s : State) :
    exec (.kfdecB 3) s = .next (completedFrom { s with res0 := kfdec 15 s.opaKFloat } 0) := exec_of_writesRes0 rfl

theorem kfencRule_of_start (F : Nat) (s : State) : kfencRule F { s with cmask := 0 } =
    .ok { s with res0 := (kfenc F s.opa).1.zeroExtend 64, cmask := if (kfenc F s.opa).2 then 8#4 else 0 } := by
  have zeros : 0#40 ++ (kfenc F s.opa).1 = (kfenc F s.opa).1.zeroExtend 64 := (BitVec.setWidth_eq_append (by decide)).symm
  rw [← zeros]
  exact congrArg Except.ok (flagIf_of_start { s with res0 := 0#40 ++ (kfenc F s.opa).1 } _ _)

theorem exec_kfencM (s : State) : exec .kfencM s = .next (completedFrom
    { s with res0 := (kfenc 16 s.opa).1.zeroExtend 64 } (if (kfenc 16 s.opa).2 then 8#4 else 0)) :=
  exec_of_writesRes0 (kfencRule_of_start 16 s)

theorem exec_kfencB (s : State) : exec .kfencB s = .next (completedFrom
    { s with res0 := (kfenc 15 s.opa).1.zeroExtend 64 } (if (kfenc 15 s.opa).2 then 8#4 else 0)) :=
  exec_of_writesRes0 (kfencRule_of_start 15 s)

/-- Settles O17: the rule of KFENC writes the encoding, with zeros above its three bytes. -/
theorem kfencWritesItsEncoding : Obligations.KfencWritesItsEncoding := fun s => ⟨exec_kfencM s, exec_kfencB s⟩

theorem exec_xfdec (s : State) : exec (.xfdec 8) s =
    .next (completedFrom { s with res0 := (xfDecode Config.xfLayout.layout s.opa).1 }
      (if (xfDecode Config.xfLayout.layout s.opa).2 then 8#4 else 0)) :=
  exec_of_writesRes0 (congrArg Except.ok
    (flagIf_of_start { s with res0 := (xfDecode Config.xfLayout.layout s.opa).1 } _ badValue))

theorem exec_rngdec (s : State) :
    exec (.rngdec 1) s = .next (completedFrom { s with res0 := rangeWord (s.opaByte 0) } 0) := exec_of_writesRes0 rfl

theorem exec_errtok (s : State) :
    exec (.errtok 1) s = .next (completedFrom { s with res0 := errTokenWord Config.errTokenMap (s.opaByte 0) } 0) :=
  exec_of_writesRes0 rfl

/-! ### The error token (R127, R128) -/

/-- Bit 7 of a byte says whether it is 0x80 or more. -/
theorem getLsbD_seven (t : Byte) : t.getLsbD 7 = decide (0x80 ≤ t.toNat) :=
  (BitVec.msb_eq_getLsbD_last t).symm.trans (BitVec.msb_eq_decide t)

theorem errToken_of_high (map : Byte → Option (Fin 64)) {t : Byte} (high : 0x80 ≤ t.toNat) : errToken map t = none := by
  rw [errToken, getLsbD_seven, decide_eq_true high, if_pos rfl]

theorem errToken_of_low (map : Byte → Option (Fin 64)) {t : Byte} (low : t.toNat < 0x80) : errToken map t = map t := by
  rw [errToken, getLsbD_seven, decide_eq_false low.not_ge, if_neg nofun]

theorem errTokenWord_of_none {map : Byte → Option (Fin 64)} {t : Byte} (unmapped : errToken map t = none) :
    errTokenWord map t = 0 := by
  rw [errTokenWord, unmapped]

theorem errTokenWord_of_some {map : Byte → Option (Fin 64)} {t : Byte} {k : Fin 64} (mapped : errToken map t = some k) :
    errTokenWord map t = BitVec.twoPow 64 k.val := by
  rw [errTokenWord, mapped, BitVec.twoPow]

/-- Settles O23: a code below 0x80 is looked up in the map, every other one is unmapped. -/
theorem errtokGivesOneBit : Obligations.ErrtokGivesOneBit := by
  refine ⟨exec_errtok, fun map t => ⟨fun high => ?_, fun unmapped => ?_, fun k low mapped j _ => ?_⟩⟩
  · exact errTokenWord_of_none (errToken_of_high map high)
  · rcases lt_or_ge t.toNat 0x80 with low | high
    · exact errTokenWord_of_none ((errToken_of_low map low).trans unmapped)
    · exact errTokenWord_of_none (errToken_of_high map high)
  · rw [errTokenWord_of_some ((errToken_of_low map low).trans mapped), BitVec.getLsbD_twoPow]
    simp [eq_comm]

/-! ### The range byte (R125, R126) -/

/-- A bit of a bit vector as a number. -/
theorem toNat_getLsbD {w : Nat} (b : BitVec w) (i : Nat) : (b.getLsbD i).toNat = b.toNat / 2 ^ i % 2 := by
  rw [← BitVec.testBit_toNat, Nat.toNat_testBit]

theorem rangeDigit_eq (b : Byte) (c : Nat) : rangeDigit b c = b.toNat % 32 / 3 ^ c % 3 := by
  rw [rangeDigit, BitVec.extractLsb'_toNat, Nat.shiftRight_zero]

/-- r_c as a number. -/
theorem rangeOf_eq (b : Byte) (c : Nat) :
    rangeOf b c = b.toNat % 32 / 3 ^ c % 3 + 1 + 3 * (b.toNat / 2 ^ (5 + c) % 2) := by
  rw [rangeOf, rangeDigit_eq, toNat_getLsbD]

/-- The law of R126: a digit and a flag give a range in 1..6. -/
theorem rangeOf_bounds (b : Byte) (c : Nat) : 1 ≤ rangeOf b c ∧ rangeOf b c ≤ 6 := by
  rw [rangeOf_eq]
  omega

theorem rangeWord_eq (b : Byte) : rangeWord b =
    BitVec.ofNat 64 (rangeOf b 0 + 2 ^ 8 * rangeOf b 1 + 2 ^ 16 * rangeOf b 2 + 2 ^ 24 * (b.toNat / 32)) := by
  have h0 := rangeOf_bounds b 0
  have h1 := rangeOf_bounds b 1
  have h2 := rangeOf_bounds b 2
  have hb := b.isLt
  apply BitVec.eq_of_toNat_eq
  simp only [rangeWord, toNat_append_eq_add, BitVec.toNat_ofNat, BitVec.extractLsb'_toNat, Nat.shiftRight_eq_div_pow]
  omega

theorem toNat_opaByte_zero (s : State) : (s.opaByte 0).toNat = s.opa.toNat % 256 := BitVec.extractLsb'_toNat 0 8 s.opa

/-- Settles O22: the base-3 digits of the range byte are those of its low five bits mod 27. -/
theorem rngdecGivesRanges : Obligations.RngdecGivesRanges := by
  intro s
  have byte := toNat_opaByte_zero s
  refine ⟨rangeOf (s.opaByte 0) 0, rangeOf (s.opaByte 0) 1, rangeOf (s.opaByte 0) 2, ?_,
    rangeOf_bounds _ 0, rangeOf_bounds _ 1, rangeOf_bounds _ 2, ?_, ?_, ?_⟩
  · rw [exec_rngdec, rangeWord_eq, byte]
  all_goals
    rw [rangeOf_eq, byte]
    norm_num only
    omega

/-! ### The OPEN layout (R121) -/

theorem getElem_injective_of_nodup {α : Type} {n : Nat} {v : Vector α n} (nodup : v.toList.Nodup) (i j : Fin n)
    (same : v[i] = v[j]) : i = j := by
  rw [Fin.getElem_fin, Fin.getElem_fin, ← Vector.getElem_toList (by simp), ← Vector.getElem_toList (by simp)] at same
  exact Fin.ext (nodup.getElem_inj_iff.mp same)

/-- The positions of a vector take the values of its list. -/
theorem mem_map_toList_iff {α β : Type} {n : Nat} {v : Vector α n} {f : α → β} {b : β} :
    b ∈ v.toList.map f ↔ ∃ i : Fin n, f v[i] = b := by
  rw [List.mem_map]
  constructor
  · rintro ⟨a, mem, rfl⟩
    obtain ⟨i, hi, rfl⟩ := Vector.mem_iff_getElem.mp (Vector.mem_toList_iff.mp mem)
    exact ⟨⟨i, hi⟩, rfl⟩
  · rintro ⟨i, rfl⟩
    exact ⟨v[i], Vector.mem_toList_iff.mpr (Vector.getElem_mem i.isLt), rfl⟩

/-- With two different values in the list, every position takes one of the two, and each is taken. -/
theorem exists_two_values {α β : Type} [DecidableEq β] {n : Nat} {v : Vector α n} {f : α → β}
    (two : (v.toList.map f).dedup.length = 2) :
    ∃ b1 b2, b1 ≠ b2 ∧ (∀ i : Fin n, f v[i] = b1 ∨ f v[i] = b2) ∧ (∃ i : Fin n, f v[i] = b1) ∧ ∃ i : Fin n, f v[i] = b2 := by
  obtain ⟨b1, b2, values⟩ := List.length_eq_two.mp two
  have distinct : [b1, b2].Nodup := values ▸ List.nodup_dedup _
  have taken (b : β) : (∃ i : Fin n, f v[i] = b) ↔ b = b1 ∨ b = b2 := by
    rw [← mem_map_toList_iff, ← List.mem_dedup, values, List.mem_pair]
  refine ⟨b1, b2, ?_, fun i => (taken _).mp ⟨i, rfl⟩, (taken b1).mpr (.inl rfl), (taken b2).mpr (.inr rfl)⟩
  simpa using distinct

/-- Settles O20: the constraints of R121 are those that every admissible layout meets. -/
theorem xfdecDecodesUnderTheLayout : Obligations.XfdecDecodesUnderTheLayout := by
  have meets := xfLayout_admissible
  simp only [Config.XfLayout.admissible, Bool.and_eq_true, decide_eq_true_eq, beq_iff_eq] at meets
  obtain ⟨⟨exponentBits, twoBytes⟩, mantissaBytes⟩ := meets
  refine ⟨fun s => ?_, getElem_injective_of_nodup exponentBits, exists_two_values twoBytes,
    getElem_injective_of_nodup mantissaBytes⟩
  rw [exec_xfdec, xfDecode_snd]
  cases fIsFinite (xfDecode Config.xfLayout.layout s.opa).1 <;> rfl

end Sys2Proof.Machine
end

section
/-! SUPPORT. The K-float decoder is exact: its fields, and the value `fround` gives them (41_codec.md R112 to R114). -/

namespace Sys2Proof.Machine

/-! ### Exact results of `fround` -/

/-- The sign of a rounded value is the given one, also at 0. -/
theorem fsign_fround (neg : Bool) (m : Nat) (e : Int) : fsign (fround neg m e) = neg := by
  unfold fround
  split
  · exact fsign_fpack neg 0 (by decide)
  · exact fsign_fpack _ _ (lt_of_le_of_lt (min_le_right _ _) (by decide))

/-- Nothing is rounded off by a shift to the left. -/
theorem rneShift_of_nonneg (m : Nat) {k : Int} (h : 0 ≤ k) : rneShift m k = m * 2 ^ k.toNat := by
  obtain ⟨n, rfl⟩ := Int.eq_ofNat_of_zero_le h
  rfl

/-- Below half a place past the largest finite value the result is finite. -/
theorem fIsFinite_fround (neg : Bool) (m : Nat) {e : Int} (small : (m : ℚ) * 2 ^ e < 2 ^ 1024 - 2 ^ 970) :
    fIsFinite (fround neg m e) = true := by
  obtain ⟨-, near⟩ := fround_nearestEven_all neg m e
  have magnitude : |(if neg then -1 else 1) * (m : ℚ) * 2 ^ e| = m * 2 ^ e := by
    have : (0 : ℚ) ≤ m * 2 ^ e := by positivity
    cases neg <;> simp [abs_of_nonneg this]
  rw [magnitude, if_neg small.not_ge] at near
  exact near.1

/-- A value of at most 53 significant bits, in the range of the finite ones, is not rounded. -/
theorem fround_exact (neg : Bool) {m : Nat} {e : Int} (bits : m < 2 ^ 53) (lo : -1074 ≤ e) (hi : e ≤ 970) :
    fIsFinite (fround neg m e) = true ∧ fval (fround neg m e) = (if neg then -1 else 1) * (m : ℚ) * 2 ^ e := by
  have small : (m : ℚ) * 2 ^ e < 2 ^ 1024 - 2 ^ 970 := by
    rw [overflow_bound_eq, ← zpow_natCast 2 970]
    have bits : (m : ℚ) < 2 ^ 54 - 1 := by
      have : (m : ℚ) < 2 ^ 53 := by exact_mod_cast bits
      linarith
    exact mul_lt_mul bits (zpow_le_zpow_right₀ one_le_two hi) (by positivity) (by norm_num)
  refine ⟨fIsFinite_fround neg m small, ?_⟩
  rcases Nat.eq_zero_or_pos m with rfl | pos
  · rw [fround_zero, fval_fpack_zero]
    simp
  · have log : Nat.log2 m < 53 := (Nat.log2_lt pos.ne').mpr bits
    have place : max ((Nat.log2 m : Int) + e - 52) (-1074) ≤ e := max_le (by omega) lo
    have unsigned : fval (fround false m e) = m * 2 ^ e := by
      rw [fval_fround m e pos.ne' (fIsFinite_fround false m small) _ _ rfl rfl, rneShift_of_nonneg m (sub_nonneg.mpr place)]
      exact_mod_cast shift_to_place (K := ℚ) place m
    cases neg
    · simpa using unsigned
    · rw [fround_true, fval_fneg, unsigned]
      simp

/-! ### The fields (R112) -/

/-- The ranges of the fields: 15 bits, and a byte in two's complement. -/
def KFloat.InRange (k : KFloat) : Prop := k.frac < 2 ^ 15 ∧ -128 ≤ k.exp ∧ k.exp ≤ 127

theorem kfloatOf_inRange (b0 b1 b2 : Byte) : (kfloatOf b0 b1 b2).InRange :=
  ⟨(b0.extractLsb' 0 7 ++ b1).isLt, BitVec.le_toInt b2, Int.le_of_lt_add_one BitVec.toInt_lt⟩

/-- The fraction as a number: seven bits of byte 0 above byte 1. -/
theorem kfloatOf_frac (b0 b1 b2 : Byte) : (kfloatOf b0 b1 b2).frac = (b0.extractLsb' 0 7).toNat * 256 + b1.toNat :=
  toNat_append_eq_add _ _

/-- The value of a K-float is exact under every divisor of the block (R113). -/
theorem kfdec_exact {F : Nat} (divisor : F ≤ 16) {k : KFloat} (range : k.InRange) :
    fIsFinite (kfdec F k) = true ∧ fsign (kfdec F k) = k.neg ∧
      fval (kfdec F k) = (if k.neg then -1 else 1) * (k.frac : ℚ) * 2 ^ (k.exp - F) := by
  obtain ⟨bits, lo, hi⟩ := range
  obtain ⟨finite, value⟩ := fround_exact k.neg (m := k.frac) (e := k.exp - F) (by omega) (by omega) (by omega)
  exact ⟨finite, fsign_fround _ _ _, value⟩

theorem opaKFloat_neg (s : State) : s.opaKFloat.neg = s.opa.getLsbD 7 := by
  simp [State.opaKFloat, kfloatOf, State.opaByte, wordByte]

theorem opaKFloat_frac (s : State) :
    s.opaKFloat.frac = (s.opa.extractLsb' 0 7).toNat * 256 + (s.opa.extractLsb' 8 8).toNat := by
  have low : (s.opaByte 0).extractLsb' 0 7 = s.opa.extractLsb' 0 7 := BitVec.extractLsb'_extractLsb'_of_le (by decide)
  rw [State.opaKFloat, kfloatOf_frac, low]
  rfl

theorem opaKFloat_exp (s : State) : s.opaKFloat.exp = (s.opa.extractLsb' 16 8).toInt := rfl

theorem opaKFloat_inRange (s : State) : s.opaKFloat.InRange := kfloatOf_inRange _ _ _

/-- Settles O16: a 15-bit fraction on a place between 2^-144 and 2^112 is a binary64 value. -/
theorem kfdecGivesExactValue : Obligations.KfdecGivesExactValue := by
  intro s
  have exact_M := kfdec_exact (F := 16) (by decide) (opaKFloat_inRange s)
  have exact_B := kfdec_exact (F := 15) (by decide) (opaKFloat_inRange s)
  rw [opaKFloat_neg, opaKFloat_frac, opaKFloat_exp] at exact_M exact_B
  exact ⟨⟨_, exec_kfdecM s, exact_M⟩, ⟨_, exec_kfdecB s, exact_B⟩⟩

end Sys2Proof.Machine
end

section
/-! SUPPORT. The K-float encoder: the magnitude on the place of its exponent, its one rounding, its overflow, its bytes
(41_codec.md R115). -/

namespace Sys2Proof.Machine

/-! ### The magnitude on a place -/

/-- `a·2^(F − e)` of R115: the magnitude `a` as it is rounded to the fraction when the exponent is `e`. -/
def kfScaled (F : Nat) (a : ℚ) (e : Int) : ℚ := a * 2 ^ ((F : Int) - e)

theorem kfScaled_abs_fval (F : Nat) (x : F64) (e : Int) :
    kfScaled F |fval x| e = fmant x * 2 ^ (fscale x + F - e) := by
  rw [kfScaled, abs_fval, mul_assoc, ← zpow_add₀ two_ne_zero, add_sub_assoc]

/-- The magnitude is its scaled form on the place of the exponent. -/
theorem kfScaled_mul (F : Nat) (a : ℚ) (e : Int) : kfScaled F a e * 2 ^ (e - F) = a := by
  rw [kfScaled, mul_assoc, ← zpow_add₀ two_ne_zero, sub_add_sub_cancel, sub_self, zpow_zero, mul_one]

theorem le_kfScaled_iff (F : Nat) (c a : ℚ) (e : Int) : c ≤ kfScaled F a e ↔ c * 2 ^ (e - F) ≤ a := by
  have unit : (0 : ℚ) < 2 ^ (e - F) := by positivity
  rw [← mul_le_mul_iff_left₀ unit, kfScaled_mul]

/-- One more in the exponent halves the scaled magnitude. -/
theorem kfScaled_eq_two_mul (F : Nat) (a : ℚ) (e : Int) : kfScaled F a e = 2 * kfScaled F a (e + 1) := by
  rw [kfScaled, kfScaled, ← sub_sub, zpow_sub_one₀ two_ne_zero]
  ring

/-- A larger exponent makes the scaled magnitude smaller. -/
theorem kfScaled_le {F : Nat} {a : ℚ} (nonneg : 0 ≤ a) {e e' : Int} (h : e ≤ e') : kfScaled F a e' ≤ kfScaled F a e := by
  unfold kfScaled
  gcongr
  exact one_le_two

/-- The exponent of R115 puts the magnitude into [2^14, 2^15). -/
theorem kfScaled_kfExponent (F : Nat) {x : F64} (nonzero : fmant x ≠ 0) :
    2 ^ 14 ≤ kfScaled F |fval x| (kfExponent F x) ∧ kfScaled F |fval x| (kfExponent F x) < 2 ^ 15 := by
  have place : fscale x + F - kfExponent F x = 14 - (Nat.log2 (fmant x) : Int) := by
    unfold kfExponent
    ring
  have lo : (2 : ℚ) ^ Nat.log2 (fmant x) ≤ fmant x := by exact_mod_cast Nat.log2_self_le nonzero
  have hi : (fmant x : ℚ) < 2 ^ (Nat.log2 (fmant x) + 1) := by exact_mod_cast Nat.lt_log2_self
  have pos : (0 : ℚ) < 2 ^ Nat.log2 (fmant x) := by positivity
  rw [kfScaled_abs_fval, place, zpow_sub₀ two_ne_zero, zpow_natCast, mul_div_assoc', le_div_iff₀ pos, div_lt_iff₀ pos]
  rw [pow_succ] at hi
  constructor
  · linarith
  · linarith

/-- The overflow bound in terms of the magnitude on the largest exponent. -/
theorem kfOverflow_iff (F : Nat) (a : ℚ) : 65535 * (2 : ℚ) ^ ((126 : Int) - F) ≤ a ↔ 65535 / 2 ≤ kfScaled F a 127 := by
  have bound : (65535 : ℚ) * 2 ^ ((126 : Int) - F) = 65535 / 2 * 2 ^ ((127 : Int) - F) := by
    rw [show (127 : Int) - F = 126 - F + 1 by ring, zpow_add_one₀ two_ne_zero]
    ring
  rw [bound, le_kfScaled_iff]

/-- The smallest normal magnitude in terms of the magnitude on the smallest exponent. -/
theorem kfNormal_iff (F : Nat) (a : ℚ) : (2 : ℚ) ^ (-114 - (F : Int)) ≤ a ↔ 2 ^ 14 ≤ kfScaled F a (-128) := by
  have bound : (2 : ℚ) ^ (-114 - (F : Int)) = 2 ^ 14 * 2 ^ (-128 - (F : Int)) := by
    rw [← zpow_natCast, ← zpow_add₀ two_ne_zero]
    congr 1
    push_cast
    ring
  rw [bound, le_kfScaled_iff]

theorem kfencNearest_iff (F : Nat) (neg : Bool) (a : ℚ) (bytes : BitVec 24) : kfencNearest F neg a bytes ↔
    ∃ (q : Nat) (e : Int), -128 ≤ e ∧ kfScaled F a e < 2 ^ 15 ∧ (2 ^ 14 ≤ kfScaled F a e ∨ e = -128) ∧
      |(q : ℚ) - kfScaled F a e| ≤ 1 / 2 ∧ (|(q : ℚ) - kfScaled F a e| = 1 / 2 → q % 2 = 0) ∧
      bytes = if q = 0 then 0 else if q = 2 ^ 15 then kfloatBytes neg (2 ^ 14) (e + 1) else kfloatBytes neg q e := Iff.rfl

/-! ### The rounding -/

/-- The fraction before the carry: the scaled magnitude rounded to an integer. -/
theorem kfFraction_spec (F : Nat) (x : F64) (e : Int) :
    |(rneShift (fmant x) (fscale x + F - e) : ℚ) - kfScaled F |fval x| e| ≤ 1 / 2 ∧
    (|(rneShift (fmant x) (fscale x + F - e) : ℚ) - kfScaled F |fval x| e| = 1 / 2 →
      rneShift (fmant x) (fscale x + F - e) % 2 = 0) := by
  rw [kfScaled_abs_fval]
  exact rneShift_spec _ _

/-- A rounding below 2^15 carries out of the fifteen bits from half a unit below 2^15 on: a tie there goes to 2^15, which is
even. -/
theorem carry_iff {n : Nat} {v : ℚ} (near : |(n : ℚ) - v| ≤ 1 / 2) (even : |(n : ℚ) - v| = 1 / 2 → n % 2 = 0)
    (below : v < 2 ^ 15) : n ≤ 2 ^ 15 ∧ (n = 2 ^ 15 ↔ 65535 / 2 ≤ v) := by
  obtain ⟨lo, hi⟩ := abs_le.mp near
  have top : n < 2 ^ 15 + 1 := by exact_mod_cast (by linarith : (n : ℚ) < 2 ^ 15 + 1)
  refine ⟨by omega, ?_, fun large => ?_⟩
  · rintro rfl
    push_cast at hi
    linarith
  · by_contra ne
    have nQ : (n : ℚ) ≤ 32767 := by exact_mod_cast (by omega : n ≤ 32767)
    have tie : (n : ℚ) - v = -(1 / 2) := by linarith
    have odd : (n : ℚ) = 32767 := by linarith
    have odd : n = 32767 := by exact_mod_cast odd
    have := even (by rw [tie, abs_neg, abs_of_pos one_half_pos])
    omega

/-! ### The bytes -/

/-- The bytes of a fraction of at most fifteen bits are those of R112. -/
theorem kfBytes_eq (neg : Bool) {f : Nat} (bits : f < 2 ^ 15) (e : Int) : kfBytes neg f e = kfloatBytes neg f e := by
  have exponent : (e % 256).toNat < 256 := by omega
  have sign := neg.toNat_lt
  apply BitVec.eq_of_toNat_eq
  simp only [kfBytes, kfloatBytes, toNat_append_eq_add, BitVec.toNat_ofNat, BitVec.toNat_ofInt, BitVec.toNat_ofBool]
  norm_num only
  rw [Nat.mod_eq_of_lt (show f / 256 < 128 by omega), Nat.mod_eq_of_lt (b := 16777216) (by omega)]
  omega

theorem kfSat_eq (neg : Bool) : kfSat neg = if neg then 0x7FFFFF#24 else 0x7FFF7F#24 := by
  cases neg <;> rfl

theorem kfAssemble_of_le (neg : Bool) (f : Nat) {e : Int} (fits : e ≤ 127) :
    kfAssemble neg f e = (if f = 0 then 0 else kfBytes neg f e, false) := by
  rw [kfAssemble, if_neg fits.not_gt]
  split <;> rfl

theorem kfAssemble_of_gt (neg : Bool) (f : Nat) {e : Int} (beyond : 127 < e) : kfAssemble neg f e = (kfSat neg, true) := by
  rw [kfAssemble, if_pos beyond]

/-! ### The encoder -/

/-- What `kfenc` can give for a finite magnitude: the largest K-float with BAD_VALUE, from the overflow bound on, or below it
the nearest K-float. -/
def KfencOutcome (F : Nat) (x : F64) (r : BitVec 24 × Bool) : Prop :=
  r = (kfSat (fsign x), true) ∧ 65535 * (2 : ℚ) ^ ((126 : Int) - F) ≤ |fval x| ∨
  r.2 = false ∧ |fval x| < 65535 * (2 : ℚ) ^ ((126 : Int) - F) ∧ kfencNearest F (fsign x) |fval x| r.1

/-- An exponent in range that keeps the fraction below 2^15: the encoding overflows when the rounding carries at the exponent
127. -/
theorem kfencFinite_outcome {F : Nat} {x : F64} {e : Int} (lo : -128 ≤ e) (hi : e ≤ 127)
    (below : kfScaled F |fval x| e < 2 ^ 15) (normal : 2 ^ 14 ≤ kfScaled F |fval x| e ∨ e = -128) :
    KfencOutcome F x (kfencFinite F x e) := by
  obtain ⟨near, even⟩ := kfFraction_spec F x e
  obtain ⟨top, carry⟩ := carry_iff near even below
  have nearest (bytes : BitVec 24) := fun h : bytes = _ =>
    (kfencNearest_iff F (fsign x) _ bytes).mpr ⟨_, e, lo, below, normal, near, even, h⟩
  unfold KfencOutcome kfencFinite
  rw [← not_le, kfOverflow_iff]
  generalize rneShift (fmant x) (fscale x + F - e) = q at top carry nearest ⊢
  by_cases carried : q = 2 ^ 15
  · rw [if_pos carried]
    rcases hi.lt_or_eq with inside | rfl
    · have half := kfScaled_le (F := F) (abs_nonneg (fval x)) (show e + 1 ≤ 127 by omega)
      rw [kfScaled_eq_two_mul] at below
      rw [kfAssemble_of_le _ _ (by omega)]
      refine .inr ⟨rfl, by linarith, nearest _ ?_⟩
      rw [if_neg (by decide), if_neg (by omega), if_pos carried, kfBytes_eq _ (by decide)]
    · rw [kfAssemble_of_gt _ _ (by decide)]
      exact .inl ⟨rfl, carry.mp carried⟩
  · have small : ¬ 65535 / 2 ≤ kfScaled F |fval x| e := mt carry.mpr carried
    have smaller := kfScaled_le (F := F) (abs_nonneg (fval x)) hi
    rw [if_neg carried, kfAssemble_of_le _ _ hi]
    refine .inr ⟨rfl, by linarith, nearest _ ?_⟩
    rw [if_neg carried, kfBytes_eq _ (by omega)]

/-- The outcome for every finite value other than 0. -/
theorem kfenc_outcome (F : Nat) {x : F64} (hfin : fIsFinite x = true) (hz : fIsZero x = false) :
    KfencOutcome F x (kfenc F x) := by
  have nonzero : fmant x ≠ 0 := fun h => by simp [(fIsZero_iff x).mpr h] at hz
  obtain ⟨hnan, hinf⟩ := (finite_iff x).mp hfin
  obtain ⟨lo, hi⟩ := kfScaled_kfExponent F nonzero
  simp only [kfenc, hnan, hz, hinf, Bool.false_eq_true, if_false]
  split
  · rename_i beyond
    have twice := kfScaled_le (F := F) (abs_nonneg (fval x)) (show 128 ≤ kfExponent F x by omega)
    refine .inl ⟨rfl, (kfOverflow_iff F _).mpr ?_⟩
    rw [kfScaled_eq_two_mul, show (127 : Int) + 1 = 128 from rfl]
    linarith
  · rename_i fits
    rcases le_total (-128) (kfExponent F x) with ordinary | gradual
    · rw [max_eq_left ordinary]
      exact kfencFinite_outcome ordinary (by omega) hi (.inl lo)
    · rw [max_eq_right gradual]
      exact kfencFinite_outcome le_rfl (by decide) ((kfScaled_le (abs_nonneg _) gradual).trans_lt hi) (.inr rfl)

theorem kfenc_of_zero (F : Nat) {x : F64} (hz : fIsZero x = true) : kfenc F x = (0, false) := by
  have notNaN : fIsNaN x = false := by
    simp only [fIsZero, Bool.and_eq_true, beq_iff_eq] at hz
    simp [fIsNaN, hz.1]
  simp [kfenc, notNaN, hz]

theorem kfenc_of_inf (F : Nat) {x : F64} (hinf : fIsInf x = true) : kfenc F x = (kfSat (fsign x), true) := by
  simp only [fIsInf, Bool.and_eq_true, beq_iff_eq] at hinf
  simp [kfenc, fIsNaN, fIsZero, fIsInf, hinf]

/-- Settles O18: the three special cases, and the outcome of the rest. -/
theorem kfencRoundsOrSaturates : Obligations.KfencRoundsOrSaturates := by
  intro F x _
  refine ⟨fun hnan => by simp [kfenc, hnan], kfenc_of_zero F, fun hnan hz => ?_⟩
  rw [← kfSat_eq]
  cases hinf : fIsInf x with
  | true => simp [kfenc_of_inf F hinf]
  | false =>
    rcases kfenc_outcome F ((finite_iff x).mpr ⟨hnan, hinf⟩) hz with ⟨saturated, large⟩ | ⟨unflagged, small, nearest⟩
    · simp [saturated, large]
    · simp [unflagged, small, nearest]

end Sys2Proof.Machine
end

section
/-! SUPPORT. The K-float round trip: decoding the bytes of a fraction and an exponent gives them back, and an encoding that is
not subnormal is within half a unit of a fraction of at least 2^14 (41_codec.md R118). -/

namespace Sys2Proof.Machine

/-! ### Decoding encoded bytes -/

/-- The K-float in the low three bytes of a word (R112). -/
def kfloatOfWord (v : Word) : KFloat := kfloatOf (wordByte v 0) (wordByte v 1) (wordByte v 2)

theorem opaKFloat_eq (s : State) : s.opaKFloat = kfloatOfWord s.opa := rfl

theorem wordByte_zeroExtend (b : BitVec 24) {i : Nat} (inside : i < 3) :
    wordByte (b.zeroExtend 64) i = b.extractLsb' (8 * i) 8 := BitVec.extractLsb'_setWidth_of_le (by omega)

/-- The three bytes of R112, and what the decoder's byte 0 splits into. -/
theorem kfBytes_bytes (neg : Bool) (f : Nat) (e : Int) :
    (kfBytes neg f e).extractLsb' 16 8 = BitVec.ofInt 8 e ∧ (kfBytes neg f e).extractLsb' 8 8 = BitVec.ofNat 8 f ∧
    (kfBytes neg f e).extractLsb' 0 8 = BitVec.ofBool neg ++ BitVec.ofNat 7 (f / 256) := by
  refine ⟨?_, ?_, BitVec.extractLsb'_append_eq_right⟩
  · rw [kfBytes, BitVec.append_assoc, BitVec.cast_eq]
    exact BitVec.extractLsb'_append_eq_left
  · rw [kfBytes, BitVec.extractLsb'_append_eq_of_le (by decide)]
    exact BitVec.extractLsb'_append_eq_right

/-- Decoding the bytes of a K-float gives its fields back. -/
theorem kfloatOfWord_kfBytes {k : KFloat} (range : k.InRange) :
    kfloatOfWord ((kfBytes k.neg k.frac k.exp).zeroExtend 64) = k := by
  obtain ⟨bits, lo, hi⟩ := range
  obtain ⟨exponent, low, high⟩ := kfBytes_bytes k.neg k.frac k.exp
  rw [kfloatOfWord, wordByte_zeroExtend _ (by decide), wordByte_zeroExtend _ (by decide),
    wordByte_zeroExtend _ (by decide), exponent, low, high, kfloatOf, BitVec.extractLsb'_append_eq_right,
    toNat_append_eq_add, BitVec.toNat_ofNat, BitVec.toNat_ofNat, BitVec.toInt_ofInt]
  have sign : (BitVec.ofBool k.neg ++ BitVec.ofNat 7 (k.frac / 256)).getLsbD 7 = k.neg := by
    rw [BitVec.getLsbD_append, if_neg (by decide)]
    exact BitVec.getLsbD_ofBool k.neg 0
  have fraction : k.frac / 256 % 2 ^ 7 * 2 ^ 8 + k.frac % 2 ^ 8 = k.frac := by omega
  have twosComplement : k.exp.bmod (2 ^ 8) = k.exp := Int.bmod_eq_of_le (by omega) (by omega)
  rw [sign, fraction, twosComplement]

/-! ### The error of an encoding -/

/-- Half a unit is at most 2^-15 of a magnitude whose scaled form is at least 2^14. -/
theorem close_of_near {F : Nat} {a : ℚ} {e : Int} {q : Nat} (near : |(q : ℚ) - kfScaled F a e| ≤ 1 / 2)
    (large : 2 ^ 14 ≤ kfScaled F a e) : |(q : ℚ) * 2 ^ (e - F) - a| ≤ a / 2 ^ 15 := by
  have unit : (0 : ℚ) < 2 ^ (e - F) := by positivity
  have value := kfScaled_mul F a e
  rw [← value, ← sub_mul, abs_mul, abs_of_pos unit, mul_div_right_comm]
  exact mul_le_mul_of_nonneg_right (by linarith) unit.le

/-- From the smallest normal magnitude up to the overflow bound the encoding is a K-float within 2^-15 of its operand. -/
theorem kfencNearest_close {F : Nat} {neg : Bool} {a : ℚ} {bytes : BitVec 24} (nearest : kfencNearest F neg a bytes)
    (normal : 2 ^ (-114 - (F : Int)) ≤ a) (fits : a < 65535 * 2 ^ ((126 : Int) - F)) :
    ∃ (f : Nat) (e : Int), (KFloat.mk neg f e).InRange ∧ bytes = kfBytes neg f e ∧
      |(f : ℚ) * 2 ^ (e - F) - a| ≤ a / 2 ^ 15 := by
  obtain ⟨q, e, lo, below, atLeast, near, even, rfl⟩ := (kfencNearest_iff F neg a bytes).mp nearest
  obtain ⟨top, carry⟩ := carry_iff near even below
  have nonneg : 0 ≤ a := le_trans (by positivity) normal
  have large : 2 ^ 14 ≤ kfScaled F a e := atLeast.elim id fun lowest => lowest ▸ (kfNormal_iff F a).mp normal
  have close := close_of_near near large
  rw [← not_le, kfOverflow_iff, not_le] at fits
  have inside : e ≤ 127 := by
    by_contra beyond
    have := kfScaled_le (F := F) nonneg (show 128 ≤ e by omega)
    rw [kfScaled_eq_two_mul, show (127 : Int) + 1 = 128 from rfl] at fits
    linarith
  have nonzero : q ≠ 0 := by
    rintro rfl
    have := (abs_le.mp near).1
    linarith
  by_cases carried : q = 2 ^ 15
  · have notTop : e ≠ 127 := by
      rintro rfl
      exact absurd (carry.mp carried) fits.not_ge
    have same : ((2 ^ 14 : Nat) : ℚ) * 2 ^ (e + 1 - F) = q * 2 ^ (e - F) := by
      rw [carried, add_sub_right_comm, zpow_add_one₀ two_ne_zero]
      push_cast
      ring
    have range : (KFloat.mk neg (2 ^ 14) (e + 1)).InRange :=
      ⟨show 2 ^ 14 < 2 ^ 15 by decide, show -128 ≤ e + 1 by omega, show e + 1 ≤ 127 by omega⟩
    refine ⟨2 ^ 14, e + 1, range, ?_, same ▸ close⟩
    rw [if_neg nonzero, if_pos carried, kfBytes_eq _ (by decide)]
  · have bits : q < 2 ^ 15 := lt_of_le_of_ne top carried
    refine ⟨q, e, ⟨bits, lo, inside⟩, ?_, close⟩
    rw [if_neg nonzero, if_neg carried, kfBytes_eq _ bits]

/-! ### The round trip -/

/-- A value is its magnitude with its sign. -/
theorem fval_eq_signed_abs (x : F64) : fval x = (if fsign x then -1 else 1) * |fval x| := by
  rw [abs_fval, ← mul_assoc]
  rfl

/-- Encoding a value in the normal range of the divisor sets no condition, and decoding gives it back within 2^-15. -/
theorem kfdec_kfenc {F : Nat} (divisor : F ≤ 16) {x : F64} (hfin : fIsFinite x = true)
    (normal : 2 ^ (-114 - (F : Int)) ≤ |fval x|) (fits : |fval x| ≤ 32767 * 2 ^ ((127 : Int) - F)) :
    (kfenc F x).2 = false ∧ fIsFinite (kfdec F (kfloatOfWord ((kfenc F x).1.zeroExtend 64))) = true ∧
      |fval (kfdec F (kfloatOfWord ((kfenc F x).1.zeroExtend 64))) - fval x| ≤ |fval x| / 2 ^ 15 := by
  have below : |fval x| < 65535 * (2 : ℚ) ^ ((126 : Int) - F) := by
    have pos : (0 : ℚ) < 2 ^ ((126 : Int) - F) := by positivity
    rw [show (127 : Int) - F = 126 - F + 1 by ring, zpow_add_one₀ two_ne_zero] at fits
    linarith
  have hz : fIsZero x = false := by
    rw [← Bool.not_eq_true, fIsZero_iff, ← fval_eq_zero_iff]
    intro zero
    rw [zero, abs_zero] at normal
    exact absurd normal (not_le.mpr (by positivity))
  rcases kfenc_outcome F hfin hz with ⟨-, large⟩ | ⟨unflagged, -, nearest⟩
  · exact absurd large below.not_ge
  · obtain ⟨f, e, range, bytes, close⟩ := kfencNearest_close nearest normal below
    obtain ⟨finite, -, value⟩ := kfdec_exact divisor range
    rw [bytes, kfloatOfWord_kfBytes range]
    refine ⟨unflagged, finite, ?_⟩
    have signed : fval (kfdec F ⟨fsign x, f, e⟩) - fval x =
        (if fsign x then -1 else 1) * ((f : ℚ) * 2 ^ (e - F) - |fval x|) := by
      rw [value, mul_assoc, mul_sub, ← fval_eq_signed_abs]
    have unitSign : |(if fsign x then -1 else 1 : ℚ)| = 1 := by split <;> simp
    rwa [signed, abs_mul, unitSign, one_mul]

/-- Three zero bytes are a K-float of the value 0, with the sign of byte 0. -/
theorem kfdec_of_zeroBytes (F : Nat) {v : Word} (zero : v.extractLsb' 0 24 = 0#24) : kfdec F (kfloatOfWord v) = 0 := by
  have byte (i : Nat) (inside : i < 3) : wordByte v i = 0 := by
    have := congrArg (BitVec.extractLsb' (8 * i) 8) zero
    rwa [BitVec.extractLsb'_extractLsb'_of_le (by omega), BitVec.extractLsb'_zero] at this
  have fields : kfloatOf 0 0 0 = ⟨false, 0, 0⟩ := by decide
  rw [kfloatOfWord, byte 0 (by decide), byte 1 (by decide), byte 2 (by decide), fields, kfdec, fround_zero]
  rfl

/-- Settles O19: both commands run the encoder and the decoder of their divisor, whose round trip is close. -/
theorem kfloatRoundTrip : Obligations.KfloatRoundTrip := by
  refine ⟨fun s hfin normal fits => ?_, fun s hfin normal fits => ?_, fun s zero => ⟨?_, ?_⟩⟩
  · obtain ⟨unflagged, finite, close⟩ := kfdec_kfenc (F := 16) (by decide) hfin normal fits
    exact ⟨_, _, exec_kfencM s, by rw [unflagged]; rfl, exec_kfdecM _, finite, close⟩
  · obtain ⟨unflagged, finite, close⟩ := kfdec_kfenc (F := 15) (by decide) hfin normal fits
    exact ⟨_, _, exec_kfencB s, by rw [unflagged]; rfl, exec_kfdecB _, finite, close⟩
  · rw [exec_kfdecM, opaKFloat_eq, kfdec_of_zeroBytes 16 zero]
  · rw [exec_kfdecB, opaKFloat_eq, kfdec_of_zeroBytes 15 zero]

end Sys2Proof.Machine
end

section
/-! SUPPORT. The extended float: the fields under a layout are the operand's bits at its positions, and the reference layout
gives the binary64 number of the same fields (41_codec.md R121, R122). -/

namespace Sys2Proof.Machine

/-! ### The fields under a layout (R121) -/

theorem gatherBits_append_singleton (v : Word) (ps : List (Fin 64)) (p : Fin 64) :
    gatherBits v (ps ++ [p]) = 2 * gatherBits v ps + (v.getLsbD p.val).toNat := by
  rw [gatherBits, List.foldl_append]
  rfl

/-- The gathered bits, the last position the least significant. -/
theorem testBit_gatherBits (v : Word) (ps : List (Fin 64)) (k : Nat) (h : k < ps.length) :
    (gatherBits v ps).testBit (ps.length - 1 - k) = v.getLsbD ps[k].val := by
  induction ps using List.reverseRecOn with
  | nil => exact absurd h (Nat.not_lt_zero k)
  | append_singleton ps p ih =>
    rw [List.length_append, List.length_singleton] at h
    rw [gatherBits_append_singleton, List.length_append, List.length_singleton, Nat.add_sub_cancel]
    rcases Nat.lt_or_eq_of_le (Nat.le_of_lt_succ h) with earlier | rfl
    · rw [List.getElem_append_left earlier, ← ih earlier, show ps.length - k = ps.length - 1 - k + 1 by omega,
        Nat.testBit_succ]
      congr 1
      have := (v.getLsbD p.val).toNat_lt
      omega
    · rw [List.getElem_concat_length rfl]
      cases v.getLsbD p.val <;> simp [Nat.testBit_zero]

/-- An exponent field is the operand's bits at the layout's positions. -/
theorem eq_xfExponent (l : Config.XfLayout) (v : Word) {e : BitVec 11}
    (bits : ∀ k : Fin 11, e.getLsbD (10 - k.val) = v.getLsbD l.exponent[k].val) : e = xfExponent l v := by
  apply BitVec.eq_of_getLsbD_eq
  intro i hi
  have length : l.exponent.toList.length = 11 := Vector.length_toList
  have given := bits ⟨10 - i, by omega⟩
  have gathered := testBit_gatherBits v l.exponent.toList (10 - i) (by omega)
  rw [show l.exponent.toList.length - 1 - (10 - i) = i by omega, Vector.getElem_toList] at gathered
  rw [xfExponent, BitVec.getLsbD_ofNat, gathered, decide_eq_true hi, Bool.true_and]
  rw [show 10 - (10 - i) = i by omega] at given
  exact given

/-- A mantissa field is the operand's bytes at the layout's positions. -/
theorem eq_xfMantissa (l : Config.XfLayout) (v : Word) {m : BitVec 24}
    (bits : ∀ (k : Fin 3) (j : Nat), j < 8 → m.getLsbD (8 * (2 - k.val) + j) = v.getLsbD (8 * l.mantissa[k].val + j)) :
    m = xfMantissa l v := by
  have byte (k : Fin 3) : m.extractLsb' (8 * (2 - k.val)) 8 = wordByte v l.mantissa[k].val := by
    apply BitVec.eq_of_getLsbD_eq
    intro j hj
    rw [wordByte, BitVec.getLsbD_extractLsb', BitVec.getLsbD_extractLsb', bits k j hj]
  have whole : m.extractLsb' 16 8 ++ m.extractLsb' 8 8 ++ m.extractLsb' 0 8 = m := by
    rw [BitVec.extractLsb'_append_extractLsb'_eq_extractLsb' (show 16 = 8 + 8 from rfl),
      BitVec.extractLsb'_append_extractLsb'_eq_extractLsb' (show 8 = 0 + 8 from rfl)]
    exact BitVec.extractLsb'_eq_self
  rw [← whole]
  exact congrArg₂ _ (congrArg₂ _ (byte 0) (byte 1)) (byte 2)

/-! ### The value (R121) -/

/-- The value formula rounds the layout's fraction on the place of the exponent once. -/
theorem xfValue_nearestEven (l : Config.XfLayout) (neg : Bool) {e : BitVec 11} (m : BitVec 24) (h0 : e ≠ 0) (h1 : e ≠ 2047) :
    nearestEven ((if neg then -1 else 1) * (((l.fraction m).toNat : ℚ) / 2 ^ 25) * 2 ^ ((e.toNat : Int) - 1022))
      (xfValue l neg e m) := by
  have exact_value : (if neg then -1 else 1) * (((l.fraction m).toNat : ℚ) / 2 ^ 25) * 2 ^ ((e.toNat : Int) - 1022) =
      (if neg then -1 else 1) * ((l.fraction m).toNat : ℚ) * 2 ^ ((e.toNat : Int) - 1022 - 25) := by
    rw [zpow_sub₀ two_ne_zero _ 25, zpow_ofNat]
    ring
  rw [xfValue_ordinary l neg m h0 h1, exact_value]
  exact fround_nearestEven_all _ _ _

/-! ### The reference layout (R122) -/

theorem xfExponent_reference (v : Word) : xfExponent Config.xfReference v = v.extractLsb' 52 11 := by
  have place : ∀ k : Fin 11, Config.xfReference.exponent[k].val = 52 + (10 - k.val) := by decide
  refine (eq_xfExponent _ v fun k => ?_).symm
  rw [place, BitVec.getLsbD_extractLsb', decide_eq_true (by omega), Bool.true_and]

theorem xfMantissa_reference (v : Word) : xfMantissa Config.xfReference v = v.extractLsb' 24 24 := by
  have place : ∀ k : Fin 3, Config.xfReference.mantissa[k].val = 3 + (2 - k.val) := by decide
  refine (eq_xfMantissa _ v fun k j hj => ?_).symm
  rw [place, BitVec.getLsbD_extractLsb', decide_eq_true (by omega), Bool.true_and, mul_add, add_assoc]

/-- The sign of a word as a bit vector of width 1. -/
theorem ofBool_sign (v : Word) : BitVec.ofBool (v.getLsbD 63) = v.extractLsb' 63 1 := by
  apply BitVec.eq_of_getLsbD_eq
  intro i hi
  obtain rfl : i = 0 := by omega
  simp

/-- A significand of 25 bits needs no rounding: `fround` packs it under the exponent field. -/
theorem fround_25_bits (neg : Bool) {M E : Nat} (bits : M < 2 ^ 24) (lo : 1 ≤ E) (hi : E ≤ 2046) :
    fround neg (2 ^ 24 + M) ((E : Int) - 1047) = fpack neg (E * 2 ^ 52 + M * 2 ^ 28) := by
  have log : Nat.log2 (2 ^ 24 + M) = 24 := (Nat.log2_eq_iff (by omega)).mpr ⟨by omega, by omega⟩
  have place : max (((24 : Nat) : Int) + ((E : Int) - 1047) - 52) (-1074) = (E : Int) - 1075 := by omega
  have shift : (E : Int) - 1047 - ((E : Int) - 1075) = 28 := by ring
  have magnitude : ((E : Int) - 1075 + 1074).toNat * 2 ^ 52 + (2 ^ 24 + M) * 2 ^ 28 = E * 2 ^ 52 + M * 2 ^ 28 := by omega
  have finite : E * 2 ^ 52 + M * 2 ^ 28 ≤ infMag := by unfold infMag; omega
  unfold fround
  simp only [log, place, shift]
  rw [if_neg (by omega), rneShift_of_nonneg _ (by decide), show (28 : Int).toNat = 28 from rfl, magnitude,
    min_eq_left finite]

theorem fpack_fields (neg : Bool) {e : BitVec 11} (m : BitVec 24) :
    fpack neg (e.toNat * 2 ^ 52 + m.toNat * 2 ^ 28) = BitVec.ofBool neg ++ e ++ m ++ 0#28 := by
  have hm := m.isLt
  have he := e.isLt
  apply BitVec.eq_of_toNat_eq
  rw [toNat_fpack _ _ (by omega)]
  simp only [toNat_append_eq_add, BitVec.toNat_ofBool, BitVec.toNat_ofNat]
  cases neg <;> simp <;> omega

/-- The value of an ordinary exponent under the reference layout is the pattern of its fields. -/
theorem xfValue_reference (neg : Bool) {e : BitVec 11} (m : BitVec 24) (h0 : e ≠ 0) (h1 : e ≠ 2047) :
    xfValue Config.xfReference neg e m = BitVec.ofBool neg ++ e ++ m ++ 0#28 := by
  have significand : (Config.xfReference.fraction m).toNat = 2 ^ 24 + m.toNat := by
    rw [show Config.xfReference.fraction m = 1#2 ++ m from rfl, toNat_append_eq_add]
    rfl
  have place : (e.toNat : Int) - 1022 - 25 = e.toNat - 1047 := by ring
  have lo : e.toNat ≠ 0 := fun h => h0 (BitVec.eq_of_toNat_eq h)
  have hi : e.toNat ≠ 2047 := fun h => h1 (BitVec.eq_of_toNat_eq h)
  have := e.isLt
  rw [xfValue_ordinary _ neg m h0 h1, significand, place, fround_25_bits neg m.isLt (by omega) (by omega), fpack_fields]

/-- The exponent field of a pattern put together from its fields. -/
theorem fexp_append (sg : BitVec 1) (e : BitVec 11) (r : BitVec 52) : fexp (sg ++ e ++ r) = e.toNat := by
  rw [fexp, BitVec.extractLsb'_append_eq_of_le le_rfl, Nat.sub_self, BitVec.extractLsb'_append_eq_right]

theorem fexp_zero (sg : BitVec 1) : fexp (sg ++ 0#63) = 0 := by
  rw [fexp, BitVec.extractLsb'_append_eq_of_add_le (by decide), BitVec.extractLsb'_zero]
  rfl

theorem fexp_ordinary (sg : BitVec 1) (e : BitVec 11) (m : BitVec 24) : fexp (sg ++ e ++ m ++ 0#28) = e.toNat := by
  rw [BitVec.append_assoc]
  exact fexp_append sg e (m ++ 0#28)

/-- A decoded value with its BAD_VALUE verdict, which is read off its exponent field. -/
theorem xfDecode_eq {l : Config.XfLayout} {v : Word} {x : F64} {n : Nat} (value : (xfDecode l v).1 = x)
    (exponent : fexp x = n) : xfDecode l v = (x, n == 2047) := by
  have verdict : (xfDecode l v).2 = (n == 2047) := by
    rw [xfDecode_snd, value, fIsFinite, exponent, bne, Bool.not_not]
  exact Prod.ext value verdict

theorem xfDecode_reference_fst (v : Word) : (xfDecode Config.xfReference v).1 =
    xfValue Config.xfReference (v.getLsbD 63) (v.extractLsb' 52 11) (v.extractLsb' 24 24) := by
  rw [xfDecode_fst, xfExponent_reference, xfMantissa_reference]
  rfl

theorem xfDecode_reference_zero {v : Word} (zero : v.extractLsb' 52 11 = 0) :
    xfDecode Config.xfReference v = (v.extractLsb' 63 1 ++ 0#63, false) := by
  refine xfDecode_eq (n := 0) ?_ (fexp_zero _)
  rw [xfDecode_reference_fst, zero, xfValue_zero, ← ofBool_sign]
  rfl

theorem xfDecode_reference_top {v : Word} (top : v.extractLsb' 52 11 = 2047) :
    xfDecode Config.xfReference v = (v.extractLsb' 63 1 ++ 2047#11 ++ 0#52, true) := by
  refine xfDecode_eq (n := 2047) ?_ (fexp_append _ 2047#11 0#52)
  rw [xfDecode_reference_fst, top, xfValue_top, ← ofBool_sign]
  rfl

theorem xfDecode_reference_ordinary {v : Word} (h0 : v.extractLsb' 52 11 ≠ 0) (h1 : v.extractLsb' 52 11 ≠ 2047) :
    xfDecode Config.xfReference v =
      (v.extractLsb' 63 1 ++ v.extractLsb' 52 11 ++ v.extractLsb' 24 24 ++ 0#28, false) := by
  have notTop : ((v.extractLsb' 52 11).toNat == 2047) = false :=
    beq_eq_false_iff_ne.mpr fun h => h1 (BitVec.eq_of_toNat_eq h)
  rw [← notTop]
  refine xfDecode_eq ?_ (fexp_ordinary _ _ _)
  rw [xfDecode_reference_fst, xfValue_reference _ _ h0 h1, ofBool_sign]

/-- Settles O21: the fields determine the value formula, which rounds once; the reference layout's significand of 25 bits is
not rounded at all. -/
theorem extendedFloatValue : Obligations.ExtendedFloatValue := by
  refine ⟨fun l v e m exponentBits mantissaBits => ?_, fun v =>
    ⟨xfDecode_reference_zero, xfDecode_reference_top, xfDecode_reference_ordinary⟩⟩
  rw [xfDecode_fst, ← eq_xfExponent l v exponentBits, ← eq_xfMantissa l v mantissaBits]
  refine ⟨?_, ?_, xfValue_nearestEven l _ m⟩
  · rintro rfl
    exact xfValue_zero l _ m
  · rintro rfl
    exact xfValue_top l _ m

end Sys2Proof.Machine
end

section
/-! SUPPORT. The box-car ring: which slot holds which sample, what a push and a clear do to it, and the commands that clear a
buffer or refuse a configuration (42_boxcar.md R140 to R144, R150, 43_fft.md R172). -/

namespace Sys2Proof.Machine

/-! ### A rule that raises no fault (R101) -/

/-- A command whose rule ends in a state completes with its condition mask. -/
theorem exec_of_rule_ok {i : Instr} {s u : State} (rule : ruleOf i { s with cmask := 0 } = .ok u) :
    exec i s = .next (completedFrom u u.cmask) := by
  rw [exec_eq_runCommand]
  exact runCommand_ok _ s u rule

/-! ### One slot of the ring -/

/-- A slot written leaves every byte outside its three elements as it was. -/
theorem sameOutside_writeRing_slot (m : List Host.Cell) (r : Nat) (x : Sample) :
    sameOutside (ringAddr r 0) 24 m (writeRing m r x) :=
  sameOutside_writeWords (vs := [x.y0, x.y1, x.y2]) le_rfl le_rfl m

theorem ringAt_eq_zero_of_readRing {m : List Host.Cell} {r c : Nat} (zero : readRing m r = Sample.zero) (hc : c < 3) :
    ringAt m r c = 0 := by
  obtain ⟨h0, h1, h2⟩ := Sample.mk.inj zero
  interval_cases c
  · exact h0
  · exact h1
  · exact h2

/-! ### The clear commands (R150, R172) -/

/-- Of the slots zeroed one after the other each reads as zeros. -/
theorem readRing_zeroed (m : List Host.Cell) {n r : Nat} (hr : r < n) :
    readRing ((List.range n).foldl (fun m r => writeRing m r Sample.zero) m) r = Sample.zero := by
  induction n with
  | zero => omega
  | succ n ih =>
    rw [List.range_succ, List.foldl_append, List.foldl_cons, List.foldl_nil]
    rcases Nat.lt_succ_iff_lt_or_eq.mp hr with earlier | rfl
    · rw [readRing_writeRing_other _ _ _ _ earlier.ne, ih earlier]
    · exact readRing_writeRing_same _ _ _

/-- Clearing the ring leaves every byte alone that is in none of its elements. -/
theorem readByte_clearRing (m : List Host.Cell) {a : Nat}
    (outside : ∀ r c, r < 256 → c < 3 → ¬ (ringAddr r c ≤ a ∧ a < ringAddr r c + 8)) :
    readByte (clearRing m) a = readByte m a := by
  refine List.foldlRecOn (motive := fun m' => readByte m' a = readByte m a) _ _ rfl fun m' same r hr => ?_
  have slot : r < 256 := List.mem_range.mp hr
  have out0 := outside r 0 slot (by decide)
  have out1 := outside r 1 slot (by decide)
  have out2 := outside r 2 slot (by decide)
  simp only [ringAddr] at out0 out1 out2
  exact (sameOutside_writeRing_slot m' r _ a (by simp only [ringAddr]; omega)).trans same

theorem rippleAt_zeroed (m : List Host.Cell) {n i : Nat} (hi : i < n) :
    rippleAt (writeWords m rippleBase (List.replicate n fzero)) i = 0 := by
  rw [rippleAt_writeWords m _ i (by simpa using hi), List.getElem_replicate]
  rfl

theorem exec_bcclr (s : State) :
    exec .bcclr s = .next (completedFrom { s with mem := clearRing s.mem, bcWptr := 0, bcFill := 0 } 0) :=
  exec_of_rule_ok (u := { s with mem := clearRing s.mem, bcWptr := 0, bcFill := 0, cmask := 0 }) rfl

theorem exec_rpclr (s : State) : exec .rpclr s = .next (completedFrom
    { s with mem := writeWords s.mem rippleBase (List.replicate Config.nMax fzero), rpFill := 0 } 0) := by
  refine exec_of_rule_ok (u :=
    { s with mem := writeWords s.mem rippleBase (List.replicate Config.nMax fzero), rpFill := 0, cmask := 0 }) ?_
  dsimp only [ruleOf, State.storeRipple]

/-- Settles O29: BCCLR writes each slot of the ring once, RPCLR the ripple buffer in one run; neither flags anything. -/
theorem clearCommandsZeroTheirBuffer : Obligations.ClearCommandsZeroTheirBuffer := by
  refine ⟨fun s => ?_, fun s => ?_⟩
  · have run := exec_bcclr s
    have zero : ∀ r c, r < 256 → c < 3 → ringAt (clearRing s.mem) r c = 0 := fun r c hr =>
      ringAt_eq_zero_of_readRing (readRing_zeroed s.mem hr)
    have frame := fun a => readByte_clearRing s.mem (a := a)
    generalize clearRing s.mem = m at run zero frame
    exact ⟨_, run, rfl, zero, frame⟩
  · have run := exec_rpclr s
    have zero := fun i => rippleAt_zeroed s.mem (n := Config.nMax) (i := i)
    have frame : sameOutside rippleBase (8 * 2048) s.mem (writeWords s.mem rippleBase (List.replicate Config.nMax fzero)) :=
      sameOutside_writeWords le_rfl (by rw [List.length_replicate]; decide) s.mem
    generalize writeWords s.mem rippleBase (List.replicate Config.nMax fzero) = m at run zero frame
    exact ⟨_, run, rfl, zero, frame⟩

/-! ### The configuration check of BCPUSH (R143) -/

/-- Settles O24: the check comes before the rule writes anything. -/
theorem bcpushConfigCheck : Obligations.BcpushConfigCheck := by
  intro s illegal
  have refused : s.boxcarOk ≠ true := fun legal => by
    obtain ⟨⟨pos, small⟩, channel⟩ := (boxcarOk_iff s).mp legal
    simp only [State.maxAvg, Config.maxavgMax] at pos small
    rcases illegal with h | h | h
    · omega
    · omega
    · exact channel h
  rw [exec_eq_runCommand]
  exact runCommand_error _ s .badConfig (if_neg refused)

/-! ### A push under a legal configuration (R144, R147, R148) -/

theorem boxcarOk_of_bounds {s : State} (pos : 1 ≤ s.bcCfg.maxavg.toNat) (small : s.bcCfg.maxavg.toNat ≤ 256)
    (channel : s.bcCfg.tch ≠ 3#2) : s.boxcarOk = true := (boxcarOk_iff s).mpr ⟨⟨pos, small⟩, channel⟩

/-- The state that the rule of BCPUSH leaves, but for LOW_LIGHT: the sample pushed, the fold over the ring reported. -/
def State.pushed (s : State) : State := { s.ringPush with bcRes := s.ringPush.boxcarFold.result }

/-- The condition mask of BCPUSH for an exit code (R147). -/
def lowLightMask (exit : BitVec 2) : BitVec 4 := if exit = 2 then 0 else 2#4

/-- The state after a BCPUSH under a legal configuration. -/
def State.afterPush (s : State) : State := completedFrom s.pushed (lowLightMask s.pushed.bcRes.exit)

theorem exec_bcpush {s : State} (legal : s.boxcarOk = true) : exec .bcpush s = .next s.afterPush := by
  have rule : ruleOf .bcpush { s with cmask := 0 } =
      .ok (State.boxcarReport s.ringPush.boxcarFold { s.ringPush with cmask := 0 }) := if_pos legal
  have flagged : State.boxcarReport s.ringPush.boxcarFold { s.ringPush with cmask := 0 } =
      { s.pushed with cmask := lowLightMask s.pushed.bcRes.exit } := by
    refine (flagIf_of_start s.pushed (s.pushed.bcRes.exit != 2#2) lowLight).trans ?_
    simp [lowLightMask, lowLight]
  exact exec_of_rule_ok (rule.trans (congrArg _ flagged))

/-! ### The slots of the valid samples (R140) -/

/-- The slot of the k-th newest sample, counted up from the pointer. -/
theorem ringSlot_eq (w : Nat) {maxAvg k : Nat} (hk : k < maxAvg) :
    ringSlot w maxAvg k = (w + (maxAvg - 1 - k)) % maxAvg := by
  have up : (w : Int) - 1 - k = ((w + (maxAvg - 1 - k) : Nat) : Int) - maxAvg := by omega
  rw [ringSlot, up, Int.sub_emod_right, ← Int.natCast_mod, Int.toNat_natCast]

/-- The newest sample after a push is in the slot that was written. -/
theorem ringSlot_newest {w maxAvg : Nat} (hw : w < maxAvg) : ringSlot ((w + 1) % maxAvg) maxAvg 0 = w := by
  rw [ringSlot_eq _ (by omega), Nat.mod_add_mod, show w + 1 + (maxAvg - 1 - 0) = w + maxAvg by omega, Nat.add_mod_right,
    Nat.mod_eq_of_lt hw]

/-- A push makes the k-th newest sample the one after it. -/
theorem ringSlot_older (w : Nat) {maxAvg k : Nat} (hk : k + 1 < maxAvg) :
    ringSlot ((w + 1) % maxAvg) maxAvg (k + 1) = ringSlot w maxAvg k := by
  rw [ringSlot_eq _ hk, ringSlot_eq _ (by omega), Nat.mod_add_mod,
    show w + 1 + (maxAvg - 1 - (k + 1)) = w + (maxAvg - 1 - k) by omega]

/-- No older valid sample is in the slot that a push writes. -/
theorem ringSlot_ne {w maxAvg k : Nat} (hw : w < maxAvg) (hk : k + 1 < maxAvg) : ringSlot w maxAvg k ≠ w := by
  rw [ringSlot_eq _ (by omega)]
  rcases Nat.lt_or_ge (w + (maxAvg - 1 - k)) maxAvg with inside | around
  · rw [Nat.mod_eq_of_lt inside]
    omega
  · rw [Nat.mod_eq_sub_mod around, Nat.mod_eq_of_lt (by omega)]
    omega

/-! ### The ring after a push (R144) -/

theorem toNat_ringPush_bcWptr {s : State} (legal : s.boxcarOk = true) :
    s.ringPush.bcWptr.toNat = (s.bcWptr.toNat + 1) % s.maxAvg := by
  obtain ⟨⟨pos, small⟩, -⟩ := (boxcarOk_iff s).mp legal
  have small : s.maxAvg ≤ 256 := small
  have below := Nat.mod_lt (s.bcWptr.toNat + 1) pos
  exact Nat.mod_eq_of_lt (by omega)

theorem toNat_ringPush_bcFill {s : State} (legal : s.boxcarOk = true) :
    s.ringPush.bcFill.toNat = min (s.bcFill.toNat + 1) s.maxAvg := by
  obtain ⟨-, small⟩ := ((boxcarOk_iff s).mp legal).1
  have small : s.maxAvg ≤ 256 := small
  exact Nat.mod_eq_of_lt (by omega)

/-- From a pointer that is a slot of the ring, a push puts its sample before the valid ones and drops what no longer fits. -/
theorem ringPush_ringSamples {s : State} (legal : s.boxcarOk = true) (slot : s.bcWptr.toNat < s.maxAvg) :
    s.ringPush.ringSamples = s.operandSample :: s.ringSamples.take (s.maxAvg - 1) := by
  have newest : readRing s.ringPush.mem (ringSlot s.ringPush.bcWptr.toNat s.maxAvg 0) = s.operandSample := by
    rw [toNat_ringPush_bcWptr legal, ringSlot_newest slot]
    exact readRing_writeRing_same _ _ _
  have older : ∀ k, k + 1 < s.maxAvg → readRing s.ringPush.mem (ringSlot s.ringPush.bcWptr.toNat s.maxAvg (k + 1)) =
      readRing s.mem (ringSlot s.bcWptr.toNat s.maxAvg k) := fun k hk => by
    rw [toNat_ringPush_bcWptr legal, ringSlot_older _ hk]
    exact readRing_writeRing_other _ _ _ _ (ringSlot_ne slot hk)
  have fill : s.ringPush.bcFill.toNat = min (s.maxAvg - 1) s.bcFill.toNat + 1 := by
    rw [toNat_ringPush_bcFill legal]
    omega
  change newestFirst s.ringPush.mem s.ringPush.bcWptr.toNat s.ringPush.bcFill.toNat s.maxAvg = _
  rw [newestFirst, fill, List.range_succ_eq_map, List.map_cons, newest, List.map_map, State.ringSamples, newestFirst,
    ← List.map_take, List.take_range]
  refine congrArg _ (List.map_congr_left fun k hk => older k ?_)
  have := List.mem_range.mp hk
  omega

end Sys2Proof.Machine
end

section
/-! SUPPORT. The walk of BCPUSH over the ring: where it stops, and the sums and the envelope of the samples it has folded
(42_boxcar.md R145 to R149, R152). -/

namespace Sys2Proof.Machine

/-! ### Where a walk stops (R145, R146) -/

/-- The fold over the first samples of a sequence, with no stop. -/
def foldedAfter (y : Nat → Sample) : Nat → Fold
  | 0 => Fold.start
  | n + 1 => (foldedAfter y n).add (y n)

@[simp] theorem foldedAfter_n (y : Nat → Sample) (n : Nat) : (foldedAfter y n).n = n := by
  induction n with
  | zero => rfl
  | succ n ih => exact congrArg (· + 1) ih

@[simp] theorem foldedAfter_exit (y : Nat → Sample) (n : Nat) : (foldedAfter y n).exit = 0 := by
  induction n with
  | zero => rfl
  | succ n ih => exact ih

/-- The guard lets the first two samples pass. -/
theorem two_le_of_diverges {cfg : BcConfig} {a : Fold} {y : Sample} (far : diverges cfg a y = true) : 2 ≤ a.n := by
  unfold diverges at far
  exact Nat.le_of_ble_eq_true (Bool.and_eq_true_iff.mp far).1

/-- Neither test has stopped the walk over the first `n` samples. -/
def Unstopped (cfg : BcConfig) (y : Nat → Sample) (n : Nat) : Prop :=
  ∀ k < n, diverges cfg (foldedAfter y k) (y k) = false ∧ crosses cfg (foldedAfter y (k + 1)) = false

theorem Unstopped.succ {cfg : BcConfig} {y : Nat → Sample} {n : Nat} (before : Unstopped cfg y n)
    (near : diverges cfg (foldedAfter y n) (y n) = false) (below : crosses cfg (foldedAfter y (n + 1)) = false) :
    Unstopped cfg y (n + 1) := fun k hk => by
  rcases Nat.lt_succ_iff_lt_or_eq.mp hk with earlier | rfl
  · exact before k earlier
  · exact ⟨near, below⟩

/-- The three ends of a walk over `len` samples: the auto test passes, the next sample diverges, no sample is left. -/
inductive WalkEnds (cfg : BcConfig) (y : Nat → Sample) (len : Nat) : Fold → Prop
  | passes {n : Nat} (left : n < len) (before : Unstopped cfg y n) (near : diverges cfg (foldedAfter y n) (y n) = false)
      (above : crosses cfg (foldedAfter y (n + 1)) = true) : WalkEnds cfg y len { foldedAfter y (n + 1) with exit := 2 }
  | diverges {n : Nat} (left : n < len) (before : Unstopped cfg y n) (far : diverges cfg (foldedAfter y n) (y n) = true) :
      WalkEnds cfg y len { foldedAfter y n with exit := 1 }
  | exhausts (before : Unstopped cfg y len) : WalkEnds cfg y len (foldedAfter y len)

theorem foldSamples_ends {cfg : BcConfig} {y : Nat → Sample} (m : Nat) {i : Nat} (before : Unstopped cfg y i) :
    WalkEnds cfg y (i + m) (foldSamples cfg ((List.range' i m).map y) (foldedAfter y i)) := by
  induction m generalizing i with
  | zero => exact .exhausts before
  | succ m ih =>
    rw [List.range'_succ, List.map_cons, foldSamples]
    cases far : diverges cfg (foldedAfter y i) (y i) with
    | true => exact .diverges (by omega) before far
    | false =>
      cases above : crosses cfg ((foldedAfter y i).add (y i)) with
      | true => exact .passes (by omega) before far above
      | false =>
        rw [Nat.add_succ, ← Nat.succ_add]
        exact ih (before.succ far above)

/-- What the end of a walk says about its count and its exit code. -/
structure WalkReport (cfg : BcConfig) (y : Nat → Sample) (len : Nat) (r : Fold) : Prop where
  folded : r = { foldedAfter y r.n with exit := r.exit }
  pos : 1 ≤ r.n
  le : r.n ≤ len
  unstopped : ∀ k, 1 ≤ k → k < r.n → crosses cfg (foldedAfter y k) = false ∧ diverges cfg (foldedAfter y k) (y k) = false
  exit2 : r.exit = 2 ↔ crosses cfg (foldedAfter y r.n) = true
  exit1 : r.exit = 1 ↔ crosses cfg (foldedAfter y r.n) = false ∧ r.n < len ∧ diverges cfg (foldedAfter y r.n) (y r.n) = true
  exit0 : r.exit = 0 ↔ crosses cfg (foldedAfter y r.n) = false ∧ r.n = len

theorem Unstopped.crosses_eq_false {cfg : BcConfig} {y : Nat → Sample} {n k : Nat} (before : Unstopped cfg y n) (pos : 1 ≤ k)
    (le : k ≤ n) : crosses cfg (foldedAfter y k) = false := by
  obtain ⟨j, rfl⟩ := Nat.exists_eq_add_of_le' pos
  exact (before j le).2

theorem WalkEnds.report {cfg : BcConfig} {y : Nat → Sample} {len : Nat} {r : Fold} (ends : WalkEnds cfg y len r)
    (nonempty : 1 ≤ len) : WalkReport cfg y len r := by
  cases ends with
  | @passes n left before near above =>
    have unstopped : ∀ k, 1 ≤ k → k < n + 1 →
        crosses cfg (foldedAfter y k) = false ∧ Machine.diverges cfg (foldedAfter y k) (y k) = false := fun k pos lt => by
      refine ⟨before.crosses_eq_false pos (by omega), ?_⟩
      rcases Nat.lt_succ_iff_lt_or_eq.mp lt with earlier | rfl
      · exact (before k earlier).1
      · exact near
    exact {
      folded := by simp
      pos := by simp
      le := by simpa using left
      unstopped := by simpa using unstopped
      exit2 := by simp [above]
      exit1 := by simp [above]
      exit0 := by simp [above] }
  | @diverges n left before far =>
    have two : 2 ≤ n := by simpa using two_le_of_diverges far
    have below := before.crosses_eq_false (by omega : 1 ≤ n) le_rfl
    have unstopped := fun k (pos : 1 ≤ k) (lt : k < n) => And.intro (before.crosses_eq_false pos lt.le) (before k lt).1
    exact {
      folded := by simp
      pos := by simpa using (by omega : 1 ≤ n)
      le := by simpa using left.le
      unstopped := by simpa using unstopped
      exit2 := by simp [below]
      exit1 := by simp [below, far, left]
      exit0 := by simp [below, left.ne] }
  | exhausts before =>
    have below := before.crosses_eq_false nonempty le_rfl
    have unstopped := fun k (pos : 1 ≤ k) (lt : k < len) => And.intro (before.crosses_eq_false pos lt.le) (before k lt).1
    exact {
      folded := by rw [foldedAfter_n]
      pos := by simpa using nonempty
      le := by simp
      unstopped := by simpa using unstopped
      exit2 := by simp [below]
      exit1 := by simp
      exit0 := by simp [below] }

/-! ### The samples of the ring, in the terms of the statements -/

/-- The k-th newest valid sample. -/
def walkTriple (s : State) (k : Nat) : Sample := ⟨walkSample s k 0, walkSample s k 1, walkSample s k 2⟩

/-- The valid samples of the ring are those of the statements' walk. -/
theorem ringSamples_eq_map {s : State} (fits : s.bcFill.toNat ≤ s.maxAvg) :
    s.ringSamples = (List.range' 0 s.bcFill.toNat).map (walkTriple s) := by
  rw [State.ringSamples, newestFirst, ← List.range_eq_range']
  refine List.map_congr_left fun k hk => ?_
  rw [ringSlot_eq _ ((List.mem_range.mp hk).trans_le fits)]
  rfl

/-- A channel of a sample whose channels are given by number (R141). -/
theorem channel_mk (f : Nat → F64) {t : BitVec 2} (channel : t ≠ 3#2) :
    (⟨f 0, f 1, f 2⟩ : Sample).channel t = f t.toNat := by
  have cases4 : t = 0 ∨ t = 1 ∨ t = 2 ∨ t = 3 := by bv_omega
  rcases cases4 with rfl | rfl | rfl | rfl
  · rfl
  · rfl
  · rfl
  · exact absurd rfl channel

theorem channel_readRing (m : List Host.Cell) (r : Nat) {t : BitVec 2} (channel : t ≠ 3#2) :
    (readRing m r).channel t = ringAt m r t.toNat := channel_mk (ringAt m r) channel

theorem channel_zip (f : F64 → F64 → F64) (x y : Sample) (t : BitVec 2) :
    (x.zip f y).channel t = f (x.channel t) (y.channel t) := by
  unfold Sample.channel
  split
  · rfl
  · split <;> rfl

theorem channel_zero (t : BitVec 2) : Sample.zero.channel t = 0 := by
  simp [Sample.channel, Sample.zero]

/-- The fold of the n newest samples, in the terms of the statements. -/
def walkFold (s : State) (n : Nat) : Fold where
  sum := ⟨walkSum s n 0, walkSum s n 1, walkSum s n 2⟩
  mn := ⟨walkMin (walkValues s n 0), walkMin (walkValues s n 1), walkMin (walkValues s n 2)⟩
  mx := ⟨walkMax (walkValues s n 0), walkMax (walkValues s n 1), walkMax (walkValues s n 2)⟩
  n := n
  exit := 0

theorem walkValues_succ (s : State) (n c : Nat) : walkValues s (n + 1) c = walkValues s n c ++ [walkSample s n c] := by
  simp [walkValues, List.range_succ]

theorem walkSum_succ (s : State) (n c : Nat) : walkSum s (n + 1) c = fadd (walkSum s n c) (walkSample s n c) := by
  simp [walkSum, walkValues_succ]

theorem walkMin_append {ys : List F64} (nonempty : ys ≠ []) (v : F64) :
    walkMin (ys ++ [v]) = if flt v (walkMin ys) then v else walkMin ys := by
  cases ys with
  | nil => exact absurd rfl nonempty
  | cons y ys => exact List.foldl_concat _ _ _ _

theorem walkMax_append {ys : List F64} (nonempty : ys ≠ []) (v : F64) :
    walkMax (ys ++ [v]) = if fgt v (walkMax ys) then v else walkMax ys := by
  cases ys with
  | nil => exact absurd rfl nonempty
  | cons y ys => exact List.foldl_concat _ _ _ _

theorem foldedAfter_walkTriple (s : State) (n : Nat) : foldedAfter (walkTriple s) n = walkFold s n := by
  induction n with
  | zero => rfl
  | succ n ih =>
    rw [foldedAfter, ih]
    rcases Nat.eq_zero_or_pos n with rfl | pos
    · rfl
    · have nonempty : ∀ c, walkValues s n c ≠ [] := fun c => by simp [walkValues, pos.ne']
      simp only [Fold.add, walkFold, walkTriple, Sample.zip, pos.ne', if_false, walkSum_succ, walkValues_succ,
        walkMin_append (nonempty _), walkMax_append (nonempty _)]
      rfl

theorem crosses_walkFold {s : State} (channel : s.bcCfg.tch ≠ 3#2) (n : Nat) :
    crosses s.bcCfg (walkFold s n) = walkPasses s n := by
  have sum : (walkFold s n).sum.channel s.bcCfg.tch = walkSum s n s.bcCfg.tch.toNat := channel_mk (walkSum s n) channel
  have three : fofNat 3 = 0x4008000000000000#64 := by decide
  rw [crosses, sum, walkPasses, autoThreshold, three]
  rfl

theorem diverges_walkFold {s : State} (channel : s.bcCfg.tch ≠ 3#2) (n : Nat) :
    diverges s.bcCfg (walkFold s n) (walkTriple s n) = walkDiverges s n := by
  have sum : (walkFold s n).sum.channel s.bcCfg.tch = walkSum s n s.bcCfg.tch.toNat := channel_mk (walkSum s n) channel
  have next : (walkTriple s n).channel s.bcCfg.tch = walkSample s n s.bcCfg.tch.toNat := channel_mk (walkSample s n) channel
  have two : Nat.ble 2 n = decide (2 ≤ n) := by rw [Bool.eq_iff_iff, Nat.ble_eq, decide_eq_true_iff]
  rw [diverges, sum, next, walkDiverges, ← two]
  rfl

/-- The fold over the ring reports on the statements' walk. -/
theorem boxcarFold_report {s : State} (pos : 1 ≤ s.bcFill.toNat) (fits : s.bcFill.toNat ≤ s.maxAvg) :
    WalkReport s.bcCfg (walkTriple s) s.bcFill.toNat s.boxcarFold := by
  have ends := foldSamples_ends (cfg := s.bcCfg) (y := walkTriple s) s.bcFill.toNat (i := 0) fun k hk => absurd hk k.not_lt_zero
  rw [Nat.zero_add, ← ringSamples_eq_map fits] at ends
  exact ends.report pos

/-! ### What BCPUSH leaves (R144, R147, R148) -/

/-- The results are those of the fold over the ring as it is, and LOW_LIGHT follows their exit code. -/
def State.ReportsRing (s : State) : Prop :=
  s.bcRes = s.boxcarFold.result ∧ s.errmask = lowLightMask s.bcRes.exit

theorem afterPush_reportsRing (s : State) : s.afterPush.ReportsRing := ⟨rfl, rfl⟩

theorem afterPush_ringSamples (s : State) : s.afterPush.ringSamples = s.ringPush.ringSamples := rfl

theorem toNat_afterPush_bcFill {s : State} (legal : s.boxcarOk = true) :
    s.afterPush.bcFill.toNat = min (s.bcFill.toNat + 1) s.maxAvg := toNat_ringPush_bcFill legal

/-- Settles O25: the ring after the push holds the sample, and the results are those of the walk over that ring. -/
theorem bcpushPushesAndFolds : Obligations.BcpushPushesAndFolds := by
  intro s pos small channel
  have legal := boxcarOk_of_bounds pos small channel
  have stored : readRing s.afterPush.mem s.bcWptr.toNat = ⟨s.opa, s.opb, s.opc⟩ := readRing_writeRing_same _ _ _
  obtain ⟨stored0, stored1, stored2⟩ := Sample.mk.inj stored
  refine ⟨s.afterPush, exec_bcpush legal, rfl, stored0, stored1, stored2, sameOutside_writeRing_slot _ _ _, ?_⟩
  have fill := toNat_afterPush_bcFill legal
  have results := (afterPush_reportsRing s).1
  have config : s.afterPush.bcCfg = s.bcCfg := rfl
  have average : s.afterPush.maxAvg = s.bcCfg.maxavg.toNat := rfl
  have start : s.maxAvg = s.bcCfg.maxavg.toNat := rfl
  generalize s.afterPush = t at fill results config average
  obtain ⟨folded, one, le, unstopped, exit2, exit1, exit0⟩ := boxcarFold_report (s := t) (by omega) (by omega)
  have channel : t.bcCfg.tch ≠ 3#2 := config ▸ channel
  simp only [foldedAfter_walkTriple, crosses_walkFold channel, diverges_walkFold channel] at folded unstopped exit2 exit1 exit0
  have count : t.bcRes.count.toNat = t.boxcarFold.n := by
    rw [results]
    exact Nat.mod_eq_of_lt (by omega)
  have exit : t.bcRes.exit = t.boxcarFold.exit := by rw [results]; rfl
  simp only [count, exit]
  refine ⟨one, le, unstopped, exit2, exit1, exit0, ?_, ?_, ?_⟩
  all_goals
    rw [results, folded]
    rfl

/-! ### Short rings (R149, R152) -/

/-- The channel of the pushed sample that the tests look at (R141, R142). -/
theorem channel_operandSample (s : State) (t : BitVec 2) :
    s.operandSample.channel t = if t = 0 then s.opa else if t = 1 then s.opb else s.opc := rfl

theorem foldSamples_singleton (cfg : BcConfig) (x : Sample) : foldSamples cfg [x] Fold.start =
    { Fold.start.add x with exit := if crosses cfg (Fold.start.add x) then 2 else 0 } := by
  have near : diverges cfg Fold.start x = false := rfl
  rw [foldSamples, near]
  cases crosses cfg (Fold.start.add x) <;> rfl

/-- The threshold of R146 for one sample is 1.5·SENS·SPEED. -/
theorem autoThreshold_one (cfg : BcConfig) : autoThreshold cfg 1 = fmul (fmul cfg.sens cfg.speed) 0x3FF8000000000000#64 := by
  have factor : fdiv (fmul (fofNat 3) (fofNat 1)) (fadd (fofNat 1) fone) = 0x3FF8000000000000#64 := by decide
  rw [autoThreshold, factor]

/-- The fold of a push is over the pushed sample and the valid ones before it, as far as they fit. -/
theorem afterPush_boxcarFold {s : State} (legal : s.boxcarOk = true) (slot : s.bcWptr.toNat < s.maxAvg) :
    s.afterPush.boxcarFold =
      foldSamples s.bcCfg (s.operandSample :: s.ringSamples.take (s.maxAvg - 1)) Fold.start := by
  rw [← ringPush_ringSamples legal slot]
  rfl

/-- Settles O26: the ring after the push holds the pushed sample alone. -/
theorem firstPushFoldsOneSample : Obligations.FirstPushFoldsOneSample := by
  intro s pos small channel empty slot x passes
  have legal := boxcarOk_of_bounds pos small channel
  have noSample : s.ringSamples = [] := by rw [State.ringSamples, empty]; rfl
  have crossing : crosses s.bcCfg (Fold.start.add s.operandSample) = passes := by
    change (s.bcCfg.auto && fgt ((Sample.zero.zip fadd s.operandSample).channel s.bcCfg.tch) (autoThreshold s.bcCfg 1)) = passes
    rw [channel_zip, channel_zero, channel_operandSample, autoThreshold_one]
  have fold : s.afterPush.boxcarFold = { Fold.start.add s.operandSample with exit := if passes then 2 else 0 } := by
    rw [afterPush_boxcarFold legal slot, noSample, List.take_nil, foldSamples_singleton, crossing]
  have average : fofNat 1 = fone := by decide
  obtain ⟨results, flagged⟩ := afterPush_reportsRing s
  refine ⟨s.afterPush, exec_bcpush legal, ?_, ?_, ?_⟩
  · have fill := toNat_afterPush_bcFill legal
    rw [empty] at fill
    exact BitVec.eq_of_toNat_eq (fill.trans (min_eq_left pos))
  · rw [results, fold, ← average]
    rfl
  · rw [flagged, results, fold]
    cases passes <;> rfl

/-- In manual mode no sum passes a threshold (R146). -/
theorem crosses_of_manual {cfg : BcConfig} (manual : cfg.auto = false) (a : Fold) : crosses cfg a = false := by
  rw [crosses, manual, Bool.false_and]

/-- In manual mode two samples are folded, and a diverging third one stops the walk. -/
theorem foldSamples_of_third_diverges {cfg : BcConfig} (manual : cfg.auto = false) {x y z : Sample} (rest : List Sample)
    (far : diverges cfg ((Fold.start.add x).add y) z = true) :
    foldSamples cfg (x :: y :: z :: rest) Fold.start = { (Fold.start.add x).add y with exit := 1 } := by
  have first : diverges cfg Fold.start x = false := rfl
  have second : diverges cfg (Fold.start.add x) y = false := rfl
  simp [foldSamples, first, second, crosses_of_manual manual, far]

/-- The guard after two samples: the mean is half their sum. -/
theorem diverges_after_two (cfg : BcConfig) (x y z : Sample) (m : F64)
    (mean : m = fdiv (fadd (fadd 0 (x.channel cfg.tch)) (y.channel cfg.tch)) 0x4000000000000000#64) :
    diverges cfg ((Fold.start.add x).add y) z = fgt (fabs (fsub (z.channel cfg.tch) m)) (fmul cfg.tol (fabs m)) := by
  have two : fofNat 2 = 0x4000000000000000#64 := by decide
  have sum : ((Fold.start.add x).add y).sum.channel cfg.tch = fadd (fadd 0 (x.channel cfg.tch)) (y.channel cfg.tch) := by
    have sums : ((Fold.start.add x).add y).sum = (Sample.zero.zip fadd x).zip fadd y := rfl
    rw [sums, channel_zip, channel_zip, channel_zero]
  have count : ((Fold.start.add x).add y).n = 2 := rfl
  rw [diverges, sum, count, two, ← mean]
  rfl

/-- The two newest valid samples come first. -/
theorem ringSamples_take_two {s : State} (three : 3 ≤ s.maxAvg) (fill : 2 ≤ s.bcFill.toNat) :
    ∃ rest, s.ringSamples.take (s.maxAvg - 1) =
      readRing s.mem ((s.bcWptr.toNat + s.maxAvg - 1) % s.maxAvg) ::
      readRing s.mem ((s.bcWptr.toNat + s.maxAvg - 2) % s.maxAvg) :: rest := by
  have newest : ringSlot s.bcWptr.toNat s.maxAvg 0 = (s.bcWptr.toNat + s.maxAvg - 1) % s.maxAvg := by
    rw [ringSlot_eq _ (by omega), show s.bcWptr.toNat + (s.maxAvg - 1 - 0) = s.bcWptr.toNat + s.maxAvg - 1 by omega]
  have second : ringSlot s.bcWptr.toNat s.maxAvg 1 = (s.bcWptr.toNat + s.maxAvg - 2) % s.maxAvg := by
    rw [ringSlot_eq _ (by omega), show s.bcWptr.toNat + (s.maxAvg - 1 - 1) = s.bcWptr.toNat + s.maxAvg - 2 by omega]
  obtain ⟨f, hf⟩ := Nat.exists_eq_add_of_le' fill
  obtain ⟨a, ha⟩ : ∃ a, s.maxAvg - 1 = a + 2 := Nat.exists_eq_add_of_le' (by omega)
  rw [← newest, ← second, State.ringSamples, newestFirst, hf, ha, List.range_succ_eq_map, List.range_succ_eq_map]
  exact ⟨_, rfl⟩

/-- Settles O27: the pushed sample and the two newest before it are the first three of the walk. -/
theorem divergingSampleStopsTheFold : Obligations.DivergingSampleStopsTheFold := by
  intro s three small manual fill slot channel n x y1 y2 m far
  have legal := boxcarOk_of_bounds (by omega) small channel
  obtain ⟨rest, samples⟩ := ringSamples_take_two three fill
  have stops := afterPush_boxcarFold legal slot
  rw [samples, foldSamples_of_third_diverges manual] at stops
  swap
  · rw [diverges_after_two s.bcCfg _ _ _ m, channel_readRing _ _ channel]
    · exact far
    · rw [channel_readRing _ _ channel]
      rfl
  obtain ⟨results, flagged⟩ := afterPush_reportsRing s
  refine ⟨s.afterPush, exec_bcpush legal, ?_, ?_, ?_⟩
  · rw [results, stops]
    rfl
  · rw [results, stops]
    rfl
  · rw [flagged, results, stops]
    rfl

end Sys2Proof.Machine
end

section
/-! SUPPORT. Exact results of the binary64 operations, and comparisons with a zero (00_scope.md R9). -/

namespace Sys2Proof.Machine

/-! ### Values determine patterns -/

/-- A finite value is below the bound from which a result is an infinity. -/
theorem abs_fval_lt_overflow {x : F64} (hfin : fIsFinite x = true) : |fval x| < 2 ^ 1024 - 2 ^ 970 := by
  obtain ⟨bits, -, -⟩ := fmant_bounds x
  have ordinary : fexp x ≠ 2047 := by simpa [fIsFinite] using hfin
  have place : fscale x ≤ 971 := by
    have := fexp_lt x
    unfold fscale
    split <;> omega
  have bits : (fmant x : ℚ) ≤ 2 ^ 53 - 1 := by
    have : (fmant x : ℚ) + 1 ≤ 2 ^ 53 := by exact_mod_cast bits
    linarith
  calc |fval x| = fmant x * 2 ^ fscale x := abs_fval x
    _ ≤ (2 ^ 53 - 1) * 2 ^ (971 : Int) :=
      mul_le_mul bits (zpow_le_zpow_right₀ one_le_two place) (by positivity) (by norm_num)
    _ = (2 ^ 54 - 2) * 2 ^ (970 : Int) := by rw [show (971 : Int) = 970 + 1 by rfl, zpow_add_one₀ two_ne_zero]; ring
    _ < (2 ^ 54 - 1) * 2 ^ (970 : Int) := mul_lt_mul_of_pos_right (by norm_num) (by positivity)
    _ = (2 ^ 54 - 1) * 2 ^ 970 := by rw [← zpow_natCast 2 970]; rfl
    _ = 2 ^ 1024 - 2 ^ 970 := overflow_bound_eq.symm

/-- Of two patterns of one magnitude neither has the higher place. -/
theorem fscale_le_of_abs_fval_eq {a b : F64} (same : |fval a| = |fval b|) : fscale b ≤ fscale a := by
  by_contra! lower
  obtain ⟨bits, low, -⟩ := fmant_bounds a
  obtain ⟨-, -, normal⟩ := fmant_bounds b
  have normal : ((2 ^ 52 : Nat) : ℚ) ≤ fmant b := by
    rcases normal with least | normal
    · omega
    · exact_mod_cast normal
  have bits : (fmant a : ℚ) < 2 ^ 53 := by exact_mod_cast bits
  refine same.not_lt ?_
  calc |fval a| = fmant a * 2 ^ fscale a := abs_fval a
    _ < 2 ^ 53 * 2 ^ fscale a := mul_lt_mul_of_pos_right bits (by positivity)
    _ = 2 ^ 52 * 2 ^ (fscale a + 1) := by rw [zpow_add_one₀ two_ne_zero]; ring
    _ ≤ fmant b * 2 ^ fscale b :=
      mul_le_mul (by exact_mod_cast normal) (zpow_le_zpow_right₀ one_le_two lower) (by positivity) (by positivity)
    _ = |fval b| := (abs_fval b).symm

/-- A magnitude determines its exponent field and its fraction. -/
theorem fields_eq_of_abs_fval_eq {a b : F64} (same : |fval a| = |fval b|) : fexp a = fexp b ∧ ffrac a = ffrac b := by
  have place : fscale a = fscale b := le_antisymm (fscale_le_of_abs_fval_eq same.symm) (fscale_le_of_abs_fval_eq same)
  have bits : fmant a = fmant b := by
    rw [abs_fval, abs_fval, place] at same
    exact_mod_cast mul_right_cancel₀ (by positivity) same
  have fracA := ffrac_lt a
  have fracB := ffrac_lt b
  unfold fscale at place
  unfold fmant at bits
  split_ifs at place bits
  all_goals omega

theorem eq_of_fields {a b : F64} (sign : fsign a = fsign b) (exp : fexp a = fexp b) (frac : ffrac a = ffrac b) : a = b := by
  rw [fsign_eq, fsign_eq, decide_eq_decide] at sign
  rw [fexp_eq, fexp_eq] at exp
  rw [ffrac_eq, ffrac_eq] at frac
  have := a.isLt
  have := b.isLt
  exact BitVec.eq_of_toNat_eq (by omega)

/-- Patterns of one value are the same but for the sign of a zero. -/
theorem sameValue_of_fval_eq {a b : F64} (same : fval a = fval b) : sameValue a b := by
  obtain ⟨exp, frac⟩ := fields_eq_of_abs_fval_eq (congrArg abs same)
  rcases lt_trichotomy (fval a) 0 with neg | zero | pos
  · have sign : ∀ x, fval x < 0 → fsign x = true := fun x hx => by
      by_contra h
      exact hx.not_ge (fval_nonneg_of_fsign (Bool.not_eq_true _ ▸ h))
    exact .inl (eq_of_fields ((sign a neg).trans (sign b (same ▸ neg)).symm) exp frac)
  · exact .inr ⟨(fIsZero_iff a).mpr ((fval_eq_zero_iff a).mp zero),
      (fIsZero_iff b).mpr ((fval_eq_zero_iff b).mp (same ▸ zero))⟩
  · exact .inl (eq_of_fields ((fsign_of_fval_pos pos).trans (fsign_of_fval_pos (same ▸ pos)).symm) exp frac)

/-! ### Exact results -/

/-- The pattern stands for the value: finite, and of that value. -/
def IsExactly (x : F64) (r : ℚ) : Prop := fIsFinite x = true ∧ fval x = r

/-- Rounding leaves a value that some finite pattern stands for as it is. -/
theorem nearestEven.exact {r : ℚ} {x y : F64} (near : nearestEven r x) (value : IsExactly y r) : IsExactly x r := by
  obtain ⟨hy, rfl⟩ := value
  obtain ⟨-, near⟩ := near
  rw [if_neg (abs_fval_lt_overflow hy).not_ge] at near
  have dist := (near.2 y hy).1
  rw [sub_self, abs_zero] at dist
  exact ⟨near.1, sub_eq_zero.mp (abs_nonpos_iff.mp dist)⟩

theorem isExactly_zero : IsExactly 0 0 := ⟨by decide, (fval_eq_zero_iff 0).mpr (by decide)⟩

theorem fadd_exact {a b y : F64} {r u : ℚ} (ha : IsExactly a r) (hb : IsExactly b u) (hy : IsExactly y (r + u)) :
    IsExactly (fadd a b) (r + u) := by
  obtain ⟨hfa, rfl⟩ := ha
  obtain ⟨hfb, rfl⟩ := hb
  exact (sumsAndProductsRoundToNearest a b hfa hfb).1.exact hy

theorem fdiv_exact {a b y : F64} {r u : ℚ} (ha : IsExactly a r) (hb : IsExactly b u) (nonzero : u ≠ 0)
    (hy : IsExactly y (r / u)) : IsExactly (fdiv a b) (r / u) := by
  obtain ⟨hfa, rfl⟩ := ha
  obtain ⟨hfb, rfl⟩ := hb
  have hz : fIsZero b = false := by
    rw [← Bool.not_eq_true, fIsZero_iff, ← fval_eq_zero_iff]
    exact nonzero
  exact (fdiv_nearestEven hfa hfb hz).exact hy

/-- The difference of two patterns of one finite value is a zero. -/
theorem fIsZero_fsub {a b : F64} {r : ℚ} (ha : IsExactly a r) (hb : IsExactly b r) : fIsZero (fsub a b) = true := by
  have near := (sumsAndProductsRoundToNearest a b ha.1 hb.1).2.1
  rw [ha.2, hb.2, sub_self] at near
  rw [fIsZero_iff, ← fval_eq_zero_iff]
  exact (near.exact isExactly_zero).2

theorem fofNat_exact {n : Nat} (bits : n < 2 ^ 53) : IsExactly (fofNat n) n := by
  obtain ⟨hfin, value⟩ := fround_exact false bits (by decide) (e := 0) (by decide)
  exact ⟨hfin, value.trans (by simp)⟩

/-! ### Magnitudes and comparisons with a zero -/

theorem toNat_fabs (x : F64) : (fabs x).toNat = x.toNat % 2 ^ 63 := by
  rw [fabs, BitVec.toNat_and]
  exact Nat.and_two_pow_sub_one_eq_mod _ 63

theorem fsign_fabs (x : F64) : fsign (fabs x) = false := by
  rw [fsign_eq, toNat_fabs, decide_eq_false_iff_not]
  omega

@[simp] theorem fexp_fabs (x : F64) : fexp (fabs x) = fexp x := by
  rw [fexp_eq, fexp_eq, toNat_fabs]
  omega

@[simp] theorem ffrac_fabs (x : F64) : ffrac (fabs x) = ffrac x := by
  rw [ffrac_eq, ffrac_eq, toNat_fabs]
  omega

theorem fkey_eq (x : F64) : fkey x = if fsign x then -((x.toNat % 2 ^ 63 : Nat) : Int) else (x.toNat % 2 ^ 63 : Nat) := by
  simp [fkey, BitVec.extractLsb'_toNat]

theorem fIsZero_iff_toNat (x : F64) : fIsZero x = true ↔ x.toNat % 2 ^ 63 = 0 := by
  rw [fIsZero, Bool.and_eq_true, beq_iff_eq, beq_iff_eq, fexp_eq, ffrac_eq]
  omega

theorem fkey_eq_zero_iff (x : F64) : fkey x = 0 ↔ fIsZero x = true := by
  rw [fkey_eq, fIsZero_iff_toNat]
  split <;> omega

theorem fkey_nonneg_of_fsign {x : F64} (pos : fsign x = false) : 0 ≤ fkey x := by
  rw [fkey_eq, pos]
  exact Int.natCast_nonneg _

theorem fsign_or_fIsZero_of_fkey {x : F64} (nonneg : 0 ≤ fkey x) : fsign x = false ∨ fIsZero x = true := by
  rw [fkey_eq] at nonneg
  rw [fIsZero_iff_toNat]
  split at nonneg
  · omega
  · rename_i pos
    exact .inl (Bool.not_eq_true _ ▸ pos)

/-- Not below zero: a NaN, or a position from 0 on. -/
theorem flt_zero_eq_false_iff (x : F64) : flt x 0 = false ↔ fIsNaN x = true ∨ 0 ≤ fkey x := by
  have key : fkey 0 = 0 := by decide
  have nan : fIsNaN 0 = false := by decide
  rw [flt, key, nan]
  cases fIsNaN x <;> simp

/-- The product with a finite magnitude is not below zero if the other factor is not. -/
theorem fmul_fabs_not_lt_zero {a b : F64} (notNeg : flt a 0 = false) (hb : fIsFinite b = true) :
    flt (fmul a (fabs b)) 0 = false := by
  have hb' : fIsFinite (fabs b) = true := by simpa [fIsFinite] using hb
  rw [flt_zero_eq_false_iff] at notNeg ⊢
  rcases notNeg with nan | nonneg
  · left
    simp [fmul, nan, fIsNaN_fnan]
  rcases fsign_or_fIsZero_of_fkey nonneg with pos | zero
  · have sign : (fsign a != fsign (fabs b)) = false := by rw [pos, fsign_fabs]; rfl
    unfold fmul
    rw [sign]
    split_ifs
    · exact .inl (fIsNaN_fnan _ _ _)
    · exact .inl (fIsNaN_fnan _ _ _)
    · exact .inr (fkey_nonneg_of_fsign (fsign_fpack _ _ (by decide)))
    · exact .inr (fkey_nonneg_of_fsign (fsign_fround _ _ _))
  · have exp : fexp a = 0 := by simpa using (Bool.and_eq_true_iff.mp zero).1
    have ha : fIsFinite a = true := by simp [fIsFinite, exp]
    right
    rw [fmul_of_finite ha hb', (fIsZero_iff a).mp zero, Nat.zero_mul, fround_zero]
    exact ((fkey_eq_zero_iff _).mpr ((fIsZero_iff _).mpr ((fval_eq_zero_iff _).mp (fval_fpack_zero _)))).ge

/-- The magnitude of a zero is above nothing that is not below zero. -/
theorem fgt_fabs_of_fIsZero {z p : F64} (zero : fIsZero z = true) (notNeg : flt p 0 = false) : fgt (fabs z) p = false := by
  have key : fkey (fabs z) = 0 := (fkey_eq_zero_iff _).mpr (by simpa [fIsZero] using zero)
  rw [flt_zero_eq_false_iff] at notNeg
  rw [fgt, flt, key]
  rcases notNeg with nan | nonneg
  · simp [nan]
  · simp [nonneg.not_gt]

end Sys2Proof.Machine
end

section
/-! SUPPORT. Repeated pushes of one sample: the ring fills with it, and with exact sums its mean is the sample (42_boxcar.md
R151). -/

namespace Sys2Proof.Machine

/-! ### Pushes of one sample -/

/-- A ring whose valid samples are `k` times the sample in the operands, under a legal configuration. -/
structure ConstantRing (cfg : BcConfig) (x : Sample) (k : Nat) (s : State) : Prop where
  legal : s.boxcarOk = true
  config : s.bcCfg = cfg
  operands : s.operandSample = x
  slot : s.bcWptr.toNat < s.maxAvg
  samples : s.ringSamples = List.replicate k x

theorem ConstantRing.withCmd {cfg : BcConfig} {x : Sample} {k : Nat} {s : State} (h : ConstantRing cfg x k s) (c : Word) :
    ConstantRing cfg x k { s with cmd := c } :=
  ⟨h.legal, h.config, h.operands, h.slot, h.samples⟩

/-- While the window is not full a push adds the sample once more. -/
theorem ConstantRing.afterPush {cfg : BcConfig} {x : Sample} {k : Nat} {s : State} (h : ConstantRing cfg x k s)
    (room : k < s.maxAvg) : ConstantRing cfg x (k + 1) s.afterPush where
  legal := h.legal
  config := h.config
  operands := h.operands
  slot := by
    have moved : s.afterPush.bcWptr.toNat = (s.bcWptr.toNat + 1) % s.maxAvg := toNat_ringPush_bcWptr h.legal
    rw [moved]
    exact Nat.mod_lt _ (Nat.zero_lt_of_lt room)
  samples := by
    rw [afterPush_ringSamples, ringPush_ringSamples h.legal h.slot, h.samples, h.operands, List.take_replicate,
      min_eq_right (Nat.le_sub_one_of_lt room)]
    rfl

theorem runInOrder_cons {i : Instr} {is : List Instr} {s t : State} (first : exec i { s with cmd := encode i } = .next t) :
    runInOrder (i :: is) s = runInOrder is t := by
  rw [runInOrder, first]

/-- After one push or more, as many as there is room for, the ring holds them and the results are those of its fold. -/
theorem runInOrder_pushes {cfg : BcConfig} {x : Sample} (n : Nat) {k : Nat} {s : State} (h : ConstantRing cfg x k s)
    (room : k + n < s.maxAvg) : ∃ t, runInOrder (repeatCommand .bcpush (n + 1)) s = .next t ∧
      ConstantRing cfg x (k + n + 1) t ∧ t.ReportsRing := by
  induction n generalizing k s with
  | zero =>
    refine ⟨_, runInOrder_cons (exec_bcpush h.legal), (h.withCmd _).afterPush room, afterPush_reportsRing _⟩
  | succ n ih =>
    have pushed := (h.withCmd (encode .bcpush)).afterPush (show k < s.maxAvg by omega)
    obtain ⟨t, run, ring, reports⟩ := ih pushed (by rw [Nat.add_right_comm]; exact room)
    refine ⟨t, (runInOrder_cons (exec_bcpush h.legal)).trans run, ?_, reports⟩
    rwa [Nat.add_right_comm k 1 n] at ring

/-! ### The walk over one sample repeated -/

/-- In manual mode a walk in which no sample diverges folds them all. -/
theorem foldSamples_replicate {cfg : BcConfig} (manual : cfg.auto = false) {x : Sample} {len : Nat}
    (near : ∀ k < len, diverges cfg (foldedAfter (fun _ => x) k) x = false) :
    foldSamples cfg (List.replicate len x) Fold.start = foldedAfter (fun _ => x) len := by
  have ends := foldSamples_ends (cfg := cfg) (y := fun _ => x) len (i := 0) fun k hk => absurd hk k.not_lt_zero
  rw [Nat.zero_add, List.map_const', List.length_range'] at ends
  generalize walked : foldSamples cfg (List.replicate len x) (foldedAfter (fun _ => x) 0) = r at ends
  have folded : r = foldedAfter (fun _ => x) len := by
    cases ends with
    | passes _ _ _ above => exact absurd above (by simp [crosses_of_manual manual])
    | diverges left _ far => exact absurd far (by simp [near _ left])
    | exhausts => rfl
  exact walked.trans folded

/-- One value on every channel. -/
def Sample.all (v : F64) : Sample := ⟨v, v, v⟩

theorem Sample.channel_all (v : F64) (t : BitVec 2) : (Sample.all v).channel t = v := by
  simp [Sample.channel, Sample.all]

theorem Sample.zip_all (f : F64 → F64 → F64) (v w : F64) : (Sample.all v).zip f (Sample.all w) = Sample.all (f v w) := rfl

section
variable {x : F64} {N : Nat} (hx : IsExactly x (fval x)) (bound : N ≤ 256)
  (multiples : ∀ k ≤ N, ∃ y, IsExactly y (k * fval x))
include hx multiples

/-- With exact sums the fold of `n` times the sample sums to `n` times its value. -/
theorem foldedAfter_sum_exact {n : Nat} (le : n ≤ N) :
    ∃ v, (foldedAfter (fun _ => Sample.all x) n).sum = Sample.all v ∧ IsExactly v (n * fval x) := by
  induction n with
  | zero => exact ⟨0, rfl, by simpa using isExactly_zero⟩
  | succ n ih =>
    obtain ⟨v, sum, exact⟩ := ih (by omega)
    obtain ⟨y, hy⟩ := multiples (n + 1) le
    have next : ((n + 1 : Nat) : ℚ) * fval x = n * fval x + fval x := by push_cast; ring
    rw [next] at hy ⊢
    refine ⟨fadd v x, ?_, fadd_exact exact hx hy⟩
    change (foldedAfter (fun _ => Sample.all x) n).sum.zip fadd (Sample.all x) = Sample.all (fadd v x)
    rw [sum, Sample.zip_all]

include bound

/-- The running mean is the sample's value. -/
theorem foldedAfter_mean_exact {n : Nat} (pos : 1 ≤ n) (le : n ≤ N) :
    ∃ v, (foldedAfter (fun _ => Sample.all x) n).sum = Sample.all v ∧ IsExactly (fdiv v (fofNat n)) (fval x) := by
  obtain ⟨v, sum, exact⟩ := foldedAfter_sum_exact hx multiples le
  have nonzero : (n : ℚ) ≠ 0 := by exact_mod_cast (by omega : n ≠ 0)
  have quotient : n * fval x / n = fval x := mul_div_cancel_left₀ _ nonzero
  have mean := fdiv_exact (y := x) exact (fofNat_exact (n := n) (by omega)) nonzero
  rw [quotient] at mean
  exact ⟨v, sum, mean hx⟩

/-- No repeated sample diverges from its mean. -/
theorem not_diverges_of_constant {cfg : BcConfig} (tolerance : flt cfg.tol 0 = false) {n : Nat} (lt : n < N) :
    diverges cfg (foldedAfter (fun _ => Sample.all x) n) (Sample.all x) = false := by
  rcases Nat.lt_or_ge n 2 with few | two
  · rw [← Bool.not_eq_true]
    intro far
    have := two_le_of_diverges far
    rw [foldedAfter_n] at this
    omega
  · obtain ⟨v, sum, mean⟩ := foldedAfter_mean_exact hx bound multiples (n := n) (by omega) lt.le
    have same := fIsZero_fsub hx mean
    rw [diverges, sum, foldedAfter_n, Sample.channel_all, Sample.channel_all,
      fgt_fabs_of_fIsZero same (fmul_fabs_not_lt_zero tolerance mean.1), Bool.and_false]

end

/-- Settles O28: the window fills with the sample, no sample diverges, and the mean of exact sums is the sample. -/
theorem constantInputAveragesToItself : Obligations.ConstantInputAveragesToItself := by
  rintro s x pos small channel manual empty slot opa opb opc finite tolerance multiples
  have operands : s.operandSample = Sample.all x := by rw [State.operandSample, opa, opb, opc]; rfl
  have noSample : s.ringSamples = [] := by rw [State.ringSamples, empty]; rfl
  have ring : ConstantRing s.bcCfg (Sample.all x) 0 s :=
    ⟨boxcarOk_of_bounds pos small channel, rfl, operands, slot, noSample⟩
  obtain ⟨n, window⟩ := Nat.exists_eq_add_of_le' pos
  obtain ⟨t, run, filled, results, flagged⟩ := runInOrder_pushes n ring (by rw [Nat.zero_add]; exact window.ge)
  have hx : IsExactly x (fval x) := ⟨finite, rfl⟩
  have fold : t.boxcarFold = foldedAfter (fun _ => Sample.all x) (n + 1) := by
    rw [State.boxcarFold, filled.config, filled.samples, Nat.zero_add]
    exact foldSamples_replicate manual fun k lt =>
      not_diverges_of_constant hx small multiples tolerance (window ▸ lt)
  obtain ⟨v, sum, mean⟩ := foldedAfter_mean_exact hx small multiples pos le_rfl
  have value : sameValue (fdiv v (fofNat s.bcCfg.maxavg.toNat)) x := sameValue_of_fval_eq mean.2
  rw [← window] at fold
  have means : t.bcRes.mean = Sample.all (fdiv v (fofNat s.bcCfg.maxavg.toNat)) := by
    rw [results, fold, Fold.result, foldedAfter_n, sum]
    rfl
  refine ⟨t, window ▸ run, ?_, ?_, ?_, ?_⟩
  · rw [results, fold, Fold.result, foldedAfter_n]
    exact Nat.mod_eq_of_lt (by omega)
  · rw [results, fold, Fold.result, foldedAfter_exit]
  · rw [flagged, results, fold, Fold.result, foldedAfter_exit]
    rfl
  · rw [means]
    exact ⟨value, value, value⟩

end Sys2Proof.Machine
end

section
/-! SUPPORT. The checks that the FFT commands make before they write anything (43_fft.md R171, R180, R200). -/

namespace Sys2Proof.Machine

/-! ### The size check (R171) -/

theorem sizeOk_of_bounds {s : State} (lo : 6 ≤ s.fftCfg.toNat) (hi : s.fftCfg.toNat ≤ 11) : s.sizeOk = true :=
  (sizeOk_iff s).mpr ⟨lo, hi⟩

theorem sizeOk_of_outside {s : State} (outside : s.fftCfg.toNat < 6 ∨ 11 < s.fftCfg.toNat) : s.sizeOk = false := by
  rw [← Bool.not_eq_true, sizeOk_iff, State.log2n]
  omega

theorem withSize_of_legal {s : State} (size : s.sizeOk = true) (rule : Except FaultCode State) : withSize s rule = rule :=
  if_pos size

theorem withSize_of_illegal {s : State} (size : s.sizeOk = false) (rule : Except FaultCode State) :
    withSize s rule = .error .badConfig :=
  if_neg (Bool.not_eq_true _ ▸ size)

/-- A command whose rule raises BAD_CONFIG has the fault recorded and changes nothing else (R222). -/
theorem exec_of_badConfig {i : Instr} {s : State} (rule : ruleOf i { s with cmask := 0 } = .error .badConfig) :
    exec i s = .next (faultedFrom s 2) := by
  rw [exec_eq_runCommand]
  exact runCommand_error _ s .badConfig rule

/-- The commands that make the size check. -/
def checksSize : Instr → Bool
  | .rppush | .load | .win | .fftF | .fftI | .mag | .norm | .peaks | .bitrev | .stageF _ | .stageI _ => true
  | .nop | .kfdecM _ | .kfdecB _ | .kfencM | .kfencB | .xfdec _ | .rngdec _ | .errtok _ | .bcpush | .bcclr | .rpclr => false

/-- The rule of a command that checks the size is, at every state, something under that check. -/
theorem ruleOf_eq_withSize {i : Instr} (checks : checksSize i = true) (s : State) : ∃ rule, ruleOf i s = withSize s rule := by
  cases i with
  | rppush | load | win | fftF | fftI | mag | norm | peaks | bitrev | stageF n | stageI n => exact ⟨_, rfl⟩
  | nop | kfdecM | kfdecB | kfencM | kfencB | xfdec | rngdec | errtok | bcpush | bcclr | rpclr => cases checks

theorem exec_of_illegalSize {i : Instr} {s : State} (checks : checksSize i = true) (size : s.sizeOk = false) :
    exec i s = .next (faultedFrom s 2) := by
  obtain ⟨rule, eq⟩ := ruleOf_eq_withSize checks { s with cmask := 0 }
  exact exec_of_badConfig (eq.trans (withSize_of_illegal (s := { s with cmask := 0 }) size rule))

/-- Settles O46: the size check comes before all else in the nine commands, and RPCLR has none. -/
theorem sizeCheckFaults : Obligations.SizeCheckFaults := by
  intro s outside
  have size := sizeOk_of_outside outside
  refine ⟨fun i named => exec_of_illegalSize ?_ size, _, exec_rpclr s, rfl⟩
  rcases named with rfl | rfl | rfl | rfl | ⟨n, rfl | rfl⟩ | rfl | rfl | rfl | rfl | rfl
  all_goals rfl

/-! ### The stage check (R180) and the K check (R200) -/

theorem stageRule_of_illegalStage (sin : F64 → F64) (d : Dir) {n : Nat} {s : State} (size : s.sizeOk = true)
    (illegal : n = 0 ∨ s.fftCfg.toNat < n) : stageRule sin d n s = .error .badConfig := by
  rw [stageRule, withSize_of_legal size, if_neg]
  rw [State.log2n]
  omega

theorem peaksRule_of_illegalCount {s : State} (size : s.sizeOk = true) (illegal : s.pkK.toNat = 0 ∨ 64 < s.pkK.toNat) :
    peaksRule s = .error .badConfig := by
  rw [peaksRule, withSize_of_legal size, if_neg]
  rw [peakCountOk_iff]
  omega

/-- Settles O47: the stage check and the K check come before anything is written. -/
theorem stageAndPeakCountFaults : Obligations.StageAndPeakCountFaults := by
  intro s lo hi
  have size : { s with cmask := 0 }.sizeOk = true := sizeOk_of_bounds lo hi
  exact ⟨fun n illegal =>
      ⟨exec_of_badConfig (stageRule_of_illegalStage Config.sin64 .forward size illegal),
        exec_of_badConfig (stageRule_of_illegalStage Config.sin64 .inverse size illegal)⟩,
    fun illegal => exec_of_badConfig (peaksRule_of_illegalCount size illegal)⟩

end Sys2Proof.Machine
end

section
/-! SUPPORT. The FFT commands that compute each element on its own: the ripple push, LOAD, WIN, MAG and NORM (43_fft.md R173
to R175, R183, R184). -/

namespace Sys2Proof.Machine

/-! ### Commands that store one buffer (R101) -/

/-- A command completes with what its rule leaves, whatever that holds in `cmask` before completion. -/
theorem exec_of_completes {i : Instr} {s u : State} {mask : BitVec 4}
    (rule : ruleOf i { s with cmask := 0 } = .ok { u with cmask := mask }) : exec i s = .next (completedFrom u mask) :=
  exec_of_rule_ok rule

/-- A command whose rule stores WORK and flags nothing. -/
theorem exec_of_storesWork {i : Instr} {s : State} {cs : List Cplx}
    (rule : ruleOf i { s with cmask := 0 } = .ok (State.storeWork cs { s with cmask := 0 })) :
    exec i s = .next (completedFrom { s with mem := writeCplx s.mem workBase cs } 0) :=
  exec_of_completes rule

/-- A command whose rule stores SERIES and flags nothing. -/
theorem exec_of_storesSeries {i : Instr} {s : State} {vs : List F64}
    (rule : ruleOf i { s with cmask := 0 } = .ok (State.storeSeries vs { s with cmask := 0 })) :
    exec i s = .next (completedFrom { s with mem := writeWords s.mem seriesBase vs } 0) :=
  exec_of_completes rule

/-- A state with WORK[0..N−1] stored, told from outside: its elements, and nothing else. -/
theorem outcome_of_storesWork {i : Instr} {s : State} {cs : List Cplx} {mask : BitVec 4}
    (run : exec i s = .next (completedFrom { s with mem := writeCplx s.mem workBase cs } mask))
    (len : cs.length = 2 ^ s.fftCfg.toNat) :
    ∃ t, exec i s = .next t ∧ t = completedFrom { s with mem := t.mem } mask ∧
      (∀ k, k < 2 ^ s.fftCfg.toNat → workAt t.mem k = cs.getD k czero) ∧
      sameOutside workBase (16 * 2 ^ s.fftCfg.toNat) s.mem t.mem := by
  refine ⟨_, run, rfl, fun k hk => ?_, fun a outside => readByte_writeCplx_outside s.mem workBase cs a ?_⟩
  · rw [← len] at hk
    exact (workAt_writeCplx s.mem cs k hk).trans (List.getElem_eq_getD czero)
  · rwa [len]

/-- The same for SERIES[0..L−1]. -/
theorem outcome_of_storesSeries {i : Instr} {s : State} {vs : List F64}
    (run : exec i s = .next (completedFrom { s with mem := writeWords s.mem seriesBase vs } 0))
    (len : vs.length = 2 ^ s.fftCfg.toNat / 2) :
    ∃ t, exec i s = .next t ∧ t = completedFrom { s with mem := t.mem } 0 ∧
      (∀ k, k < 2 ^ s.fftCfg.toNat / 2 → seriesAt t.mem k = vs.getD k fzero) ∧
      sameOutside seriesBase (8 * (2 ^ s.fftCfg.toNat / 2)) s.mem t.mem := by
  refine ⟨_, run, rfl, fun k hk => ?_, fun a outside => readByte_writeWords_outside s.mem seriesBase vs a ?_⟩
  · rw [← len] at hk
    exact (seriesAt_writeWords s.mem vs k hk).trans (List.getElem_eq_getD fzero)
  · rwa [len]

/-! ### The buffers, element by element -/

theorem getD_workBuf {s : State} {k : Nat} (hk : k < s.fftSize) : s.workBuf.getD k czero = workAt s.mem k := by
  rw [← length_workBuf] at hk
  exact (List.getElem_eq_getD czero).symm.trans (workBuf_getElem s k hk)

theorem getD_rippleBuf {s : State} {k : Nat} (hk : k < s.fftSize) : s.rippleBuf.getD k fzero = rippleAt s.mem k := by
  rw [← length_rippleBuf] at hk
  exact (List.getElem_eq_getD fzero).symm.trans (rippleBuf_getElem s k hk)

theorem getD_seriesBuf {s : State} {k : Nat} (hk : k < s.seriesLen) : s.seriesBuf.getD k fzero = seriesAt s.mem k := by
  rw [← length_seriesBuf] at hk
  exact (List.getElem_eq_getD fzero).symm.trans (seriesBuf_getElem s k hk)

theorem getD_burstBuf {s : State} {j : Nat} (hj : j < 32) : s.burstBuf.getD j fzero = burstAt s.mem j := by
  simp [State.burstBuf, readWords, burstAt, Config.burst, hj]

/-! ### The ripple push (R173) -/

/-- What was 32 places further on moves down. -/
theorem getD_pushBurst_of_lt {s : State} {i : Nat} (hi : i + 32 < s.fftSize) :
    (pushBurst s.rippleBuf s.burstBuf).getD i fzero = rippleAt s.mem (i + 32) := by
  have room : i < (s.rippleBuf.drop 32).length := by
    rw [List.length_drop, length_rippleBuf]
    omega
  rw [pushBurst, Config.burst, List.getD_append _ _ _ _ room, ← getD_rippleBuf hi]
  simp [List.getD, Nat.add_comm]

/-- The burst is appended. -/
theorem getD_pushBurst_tail {s : State} {j : Nat} (hj : j < 32) :
    (pushBurst s.rippleBuf s.burstBuf).getD (s.fftSize - 32 + j) fzero = burstAt s.mem j := by
  have kept : (s.rippleBuf.drop 32).length = s.fftSize - 32 := by rw [List.length_drop, length_rippleBuf]
  rw [pushBurst, Config.burst, List.getD_append_right _ _ _ _ (by omega), kept, Nat.add_sub_cancel_left, getD_burstBuf hj]

theorem exec_rppush {s : State} (size : s.sizeOk = true) : exec .rppush s = .next (completedFrom
    { s with
      mem := writeWords s.mem rippleBase (pushBurst s.rippleBuf s.burstBuf)
      rpFill := BitVec.ofNat 12 (min (s.rpFill.toNat + 32) (2 ^ s.fftCfg.toNat)) } 0) :=
  exec_of_completes (withSize_of_legal (s := { s with cmask := 0 }) size _)

/-- Settles O30: the window without its first 32 entries, then the burst, is stored in one run. -/
theorem rppushShiftsAndAppends : Obligations.RppushShiftsAndAppends := by
  intro s lo hi N
  have size := sizeOk_of_bounds lo hi
  have atLeast : 2 ^ 6 ≤ s.fftSize := Nat.pow_le_pow_right two_pos lo
  have len := length_pushBurst size
  have stored (i : Nat) (h : i < N) := (rippleAt_writeWords s.mem (pushBurst s.rippleBuf s.burstBuf) i (len ▸ h)).trans
    (List.getElem_eq_getD fzero)
  refine ⟨_, exec_rppush size, rfl, fun i hi => ?_, fun j hj => ?_, sameOutside_writeWords le_rfl (by rw [len]; rfl) s.mem⟩
  · exact (stored i (by omega)).trans (getD_pushBurst_of_lt hi)
  · have atLeast : 2 ^ 6 ≤ N := atLeast
    exact (stored (N - 32 + j) (by omega)).trans (getD_pushBurst_tail hj)

/-! ### LOAD (R174) -/

theorem exec_load {s : State} (size : s.sizeOk = true) : exec .load s = .next (completedFrom
    { s with mem := writeCplx s.mem workBase (s.rippleBuf.map fun v => ⟨v, fzero⟩) }
    (if s.rpFill.toNat < 2 ^ s.fftCfg.toNat then 4#4 else 0)) := by
  have flagged := flagIf_of_start (s.storeWork (s.rippleBuf.map fun v => ⟨v, fzero⟩)) (Nat.blt s.rpFill.toNat s.fftSize)
    insufficientData
  simp only [Nat.blt_eq] at flagged
  exact exec_of_completes ((withSize_of_legal (s := { s with cmask := 0 }) size _).trans (congrArg Except.ok flagged))

/-- Settles O31: the real series is stored with zero imaginary parts. -/
theorem loadCopiesTheRipple : Obligations.LoadCopiesTheRipple := by
  intro s lo hi N
  obtain ⟨t, run, shape, elements, frame⟩ := outcome_of_storesWork (exec_load (sizeOk_of_bounds lo hi))
    (by rw [List.length_map, length_rippleBuf]; rfl)
  refine ⟨t, run, shape, fun i hi => ?_, frame⟩
  have entry : i < s.rippleBuf.length := hi.trans_eq (length_rippleBuf s).symm
  rw [elements i hi, ← List.getElem_eq_getD (h := by rwa [List.length_map]), List.getElem_map, rippleBuf_getElem s i entry]
  rfl

/-! ### WIN (R175) -/

theorem exec_win {s : State} (size : s.sizeOk = true) : exec .win s = .next (completedFrom
    { s with mem := writeCplx s.mem workBase (applyWindow Config.cos64 s.workBuf) } 0) :=
  exec_of_storesWork (withSize_of_legal (s := { s with cmask := 0 }) size _)

theorem getD_applyWindow (cos : F64 → F64) {buf : List Cplx} {i : Nat} (hi : i < buf.length) :
    (applyWindow cos buf).getD i czero = winScale (winCoeff cos buf.length i) (buf.getD i czero) := by
  simp [applyWindow, List.getD, hi]

/-- Settles O32: each element is scaled by the window value of its index. -/
theorem winScalesByTheWindow : Obligations.WinScalesByTheWindow := by
  intro s lo hi N
  obtain ⟨t, run, shape, elements, frame⟩ := outcome_of_storesWork (exec_win (sizeOk_of_bounds lo hi))
    (by rw [applyWindow, List.length_mapIdx, length_workBuf]; rfl)
  refine ⟨t, run, shape, fun i hi => ?_, frame⟩
  rw [elements i hi, getD_applyWindow _ (hi.trans_eq (length_workBuf s).symm), getD_workBuf hi, length_workBuf]
  rfl

/-! ### MAG (R183) -/

theorem exec_mag {s : State} (size : s.sizeOk = true) : exec .mag s = .next (completedFrom
    { s with mem := writeWords s.mem seriesBase ((readCplx s.mem workBase s.seriesLen).map magnitude) } 0) :=
  exec_of_storesSeries (withSize_of_legal (s := { s with cmask := 0 }) size _)

theorem getD_magnitudes (m : List Host.Cell) {n k : Nat} (hk : k < n) :
    ((readCplx m workBase n).map magnitude).getD k fzero = magnitude (workAt m k) := by
  simp [readCplx, workAt, hk]

/-- Settles O41: each bin of the series is the magnitude of its element. -/
theorem magWritesMagnitudes : Obligations.MagWritesMagnitudes := by
  intro s lo hi L
  obtain ⟨t, run, shape, elements, frame⟩ := outcome_of_storesSeries (exec_mag (sizeOk_of_bounds lo hi))
    (by rw [List.length_map, length_readCplx]; rfl)
  exact ⟨t, run, shape, fun k hk => (elements k hk).trans (getD_magnitudes s.mem hk), frame⟩

/-! ### NORM (R184) -/

theorem feq_fzero (x : F64) : feq x fzero = fIsZero x := by
  have key : fkey fzero = 0 := by decide
  have nan : fIsNaN fzero = false := by decide
  rw [feq, key, nan, Bool.eq_iff_iff, ← fkey_eq_zero_iff]
  simp only [Bool.not_false, Bool.and_true, Bool.and_eq_true, Bool.not_eq_true', decide_eq_true_eq, and_iff_right_iff_imp]
  intro zero
  have exp := (Bool.and_eq_true_iff.mp ((fkey_eq_zero_iff x).mp zero)).1
  simp [fIsNaN, beq_iff_eq.mp exp]

theorem exec_norm {s : State} (size : s.sizeOk = true) : exec .norm s =
    .next (if fIsZero (seriesAt s.mem 0) then faultedFrom s 3 else completedFrom
      { s with mem := writeWords s.mem seriesBase (normalise (seriesAt s.mem 0) s.seriesBuf) } 0) := by
  have rule : ruleOf .norm { s with cmask := 0 } = if fIsZero (seriesAt s.mem 0) then .error .dcZero
      else .ok (State.storeSeries (normalise (seriesAt s.mem 0) s.seriesBuf) { s with cmask := 0 }) := by
    rw [← feq_fzero]
    exact withSize_of_legal (s := { s with cmask := 0 }) size _
  split at rule
  · rename_i zero
    rw [if_pos zero, exec_eq_runCommand]
    exact runCommand_error _ s .dcZero rule
  · rename_i nonzero
    rw [if_neg nonzero]
    exact exec_of_storesSeries rule

theorem getD_normalise (d : F64) {series : List F64} {k : Nat} (hk : k < series.length) :
    (normalise d series).getD k fzero = if k = 0 then fone else fdiv (series.getD k fzero) d := by
  simp [normalise, List.getD, hk]

/-- Settles O42: the DC bin decides between the fault and the division. -/
theorem normDividesByDc : Obligations.NormDividesByDc := by
  intro s lo hi L
  have run := exec_norm (sizeOk_of_bounds lo hi)
  have atLeast : 2 ^ 6 ≤ 2 ^ s.fftCfg.toNat := Nat.pow_le_pow_right two_pos lo
  refine ⟨fun zero => by rwa [zero] at run, fun nonzero => ?_⟩
  rw [nonzero] at run
  obtain ⟨t, run, shape, elements, frame⟩ := outcome_of_storesSeries run
    (by rw [normalise, List.length_mapIdx, length_seriesBuf]; rfl)
  have value (k : Nat) (hk : k < L) :=
    (elements k hk).trans (getD_normalise _ (hk.trans_eq (length_seriesBuf s).symm))
  refine ⟨t, run, shape, value 0 (by omega), fun k pos hk => ?_, frame⟩
  rw [value k hk, if_neg (by omega), getD_seriesBuf hk]

end Sys2Proof.Machine
end

section
/-! SUPPORT. What bit reversal and a stage make of each element of a buffer (43_fft.md R178 to R180): loops whose steps work
on different elements, so that each step sees the old values of its own. -/

namespace Sys2Proof.Machine

/-! ### Loops of independent steps -/

/-- The steps of a loop over a buffer keep its length, leave alone what they do not touch, and no two of the `m` steps touch
one element. -/
structure IndependentSteps (step : List Cplx → Nat → List Cplx) (touches : Nat → Nat → Prop) (m : Nat) : Prop where
  length : ∀ buf p, (step buf p).length = buf.length
  frame : ∀ buf p k, p < m → ¬ touches p k → (step buf p).getD k czero = buf.getD k czero
  apart : ∀ p q k, p < m → q < m → touches p k → touches q k → p = q

section
variable {step : List Cplx → Nat → List Cplx} {touches : Nat → Nat → Prop} {m : Nat} (h : IndependentSteps step touches m)
  (buf : List Cplx)
include h

theorem IndependentSteps.length_foldl (n : Nat) : ((List.range n).foldl step buf).length = buf.length :=
  length_foldl_of_keeps step h.length _ buf

/-- An element that no step touches stays. -/
theorem IndependentSteps.getD_untouched {n k : Nat} (le : n ≤ m) (none : ∀ p < n, ¬ touches p k) :
    ((List.range n).foldl step buf).getD k czero = buf.getD k czero :=
  List.foldlRecOn (motive := fun b : List Cplx => b.getD k czero = buf.getD k czero) _ _ rfl fun b same p hp =>
    (h.frame b p k ((List.mem_range.mp hp).trans_le le) (none p (List.mem_range.mp hp))).trans same

/-- An element that step `q` touches is what that step makes of a buffer with the old values of all it touches. -/
theorem IndependentSteps.getD_touched {q : Nat} (hq : q < m) : ∃ b, b.length = buf.length ∧
    (∀ k, touches q k → b.getD k czero = buf.getD k czero) ∧
    ∀ k, touches q k → ((List.range m).foldl step buf).getD k czero = (step b q).getD k czero := by
  refine ⟨(List.range q).foldl step buf, h.length_foldl buf q, fun k hk => h.getD_untouched buf hq.le fun p hp touch =>
    hp.ne (h.apart p q k (hp.trans hq) hq touch hk), fun k hk => ?_⟩
  have after (n : Nat) (le : n ≤ m) (lt : q < n) : ((List.range n).foldl step buf).getD k czero =
      (step ((List.range q).foldl step buf) q).getD k czero := by
    induction n with
    | zero => omega
    | succ n ih =>
      rw [List.range_succ, List.foldl_append, List.foldl_cons, List.foldl_nil]
      rcases Nat.lt_succ_iff_lt_or_eq.mp lt with earlier | rfl
      · refine (h.frame _ n k (by omega) fun touch => ?_).trans (ih (by omega) earlier)
        exact earlier.ne (h.apart q n k hq (by omega) hk touch)
      · rfl
  exact after m le_rfl hq

end

/-- Buffers of one length with the same elements are the same. -/
theorem eq_of_getD_eq {a b : List Cplx} (len : a.length = b.length)
    (same : ∀ k < b.length, a.getD k czero = b.getD k czero) : a = b := by
  refine List.ext_getElem len fun k ha hb => ?_
  rw [List.getElem_eq_getD czero, List.getElem_eq_getD czero]
  exact same k hb

theorem getD_set (buf : List Cplx) {i : Nat} (hi : i < buf.length) (z : Cplx) (k : Nat) :
    (buf.set i z).getD k czero = if i = k then z else buf.getD k czero := by
  simp only [List.getD_eq_getElem?_getD, List.getElem?_set, hi, if_true]
  split <;> rfl

/-! ### Bit reversal of an index (R178) -/

theorem revBits_lt (n i : Nat) : revBits n i < 2 ^ n := by
  induction n generalizing i with
  | zero => exact Nat.one_pos
  | succ n ih =>
    have := ih (i / 2)
    have bit : 2 ^ n * (i % 2) ≤ 2 ^ n * 1 := Nat.mul_le_mul_left _ (by omega)
    rw [revBits, Nat.pow_succ]
    omega

theorem testBit_revBits {n j : Nat} (hj : j < n) (i : Nat) : (revBits n i).testBit j = i.testBit (n - 1 - j) := by
  induction n generalizing i with
  | zero => omega
  | succ n ih =>
    rw [revBits, Nat.testBit_two_pow_mul_add _ (revBits_lt n _)]
    rcases Nat.lt_succ_iff_lt_or_eq.mp hj with low | rfl
    · rw [if_pos low, ih low, Nat.testBit_div_two]
      congr 1
      omega
    · simp [Nat.testBit_zero]

/-- An index below 2^n is given by its n low bits. -/
theorem eq_of_low_bits {n a b : Nat} (ha : a < 2 ^ n) (hb : b < 2 ^ n) (bits : ∀ j < n, a.testBit j = b.testBit j) :
    a = b := by
  refine Nat.eq_of_testBit_eq fun j => ?_
  rcases Nat.lt_or_ge j n with low | high
  · exact bits j low
  · have zero {x : Nat} (hx : x < 2 ^ n) : x.testBit j = false :=
      Nat.testBit_lt_two_pow (hx.trans_le (Nat.pow_le_pow_right two_pos high))
    rw [zero ha, zero hb]

theorem revBits_revBits {n i : Nat} (hi : i < 2 ^ n) : revBits n (revBits n i) = i :=
  eq_of_low_bits (revBits_lt n _) hi fun j hj => by
    rw [testBit_revBits hj, testBit_revBits (by omega)]
    congr 1
    omega

/-! ### Bit reversal of a buffer (R178) -/

@[simp] theorem length_swapAt (buf : List Cplx) (i r : Nat) : (swapAt buf i r).length = buf.length := by simp [swapAt]

theorem getD_swapAt {buf : List Cplx} {i r : Nat} (hi : i < buf.length) (hr : r < buf.length) (k : Nat) :
    (swapAt buf i r).getD k czero =
      if r = k then buf.getD i czero else if i = k then buf.getD r czero else buf.getD k czero := by
  rw [swapAt, getD_set _ (by rwa [List.length_set]), getD_set _ hi]

/-- The swaps of the loop are independent: each exchanges one index with its reverse, once. -/
theorem independentSteps_bitrev (n : Nat) : IndependentSteps
    (fun buf i => if i < revBits n i then swapAt buf i (revBits n i) else buf)
    (fun i k => i < revBits n i ∧ (k = i ∨ k = revBits n i)) (2 ^ n) where
  length buf i := by split <;> simp
  frame buf i k _ outside := by
    split
    · rename_i swaps
      have : k ≠ i ∧ k ≠ revBits n i := by
        constructor <;> rintro rfl <;> exact outside ⟨swaps, by simp⟩
      simp only [swapAt, List.getD_eq_getElem?_getD, List.getElem?_set_ne this.1.symm, List.getElem?_set_ne this.2.symm]
    · rfl
  apart i j k hi hj := by
    rintro ⟨swapsI, rfl | rfl⟩ ⟨swapsJ, eq | eq⟩
    · exact eq
    · rw [eq, revBits_revBits hj] at swapsI
      omega
    · rw [← eq, revBits_revBits hi] at swapsJ
      omega
    · rw [← revBits_revBits hi, eq, revBits_revBits hj]

/-- The element at an index comes from the reversed one. -/
theorem getD_bitrev {n : Nat} {buf : List Cplx} (len : buf.length = 2 ^ n) {k : Nat} (hk : k < 2 ^ n) :
    (bitrev n buf).getD k czero = buf.getD (revBits n k) czero := by
  have steps := independentSteps_bitrev n
  have hr := revBits_lt n k
  have back := revBits_revBits hk
  rcases Nat.lt_trichotomy k (revBits n k) with lt | fixed | gt
  · obtain ⟨b, blen, old, new⟩ := steps.getD_touched buf hk
    rw [bitrev, new k ⟨lt, .inl rfl⟩, if_pos lt, getD_swapAt (by omega) (by omega), if_neg lt.ne', if_pos rfl]
    exact old _ ⟨lt, .inr rfl⟩
  · rw [← fixed]
    refine steps.getD_untouched buf le_rfl fun p hp ⟨swaps, touch⟩ => ?_
    rcases touch with rfl | rfl
    · omega
    · rw [revBits_revBits hp] at fixed
      omega
  · obtain ⟨b, blen, old, new⟩ := steps.getD_touched buf hr
    rw [back] at old new
    rw [bitrev, new k ⟨gt, .inr rfl⟩, if_pos gt, getD_swapAt (by omega) (by omega), if_pos rfl]
    exact old _ ⟨gt, .inl rfl⟩

theorem bitrev_bitrev {n : Nat} {buf : List Cplx} (len : buf.length = 2 ^ n) : bitrev n (bitrev n buf) = buf := by
  refine eq_of_getD_eq (by simp) fun k hk => ?_
  rw [len] at hk
  rw [getD_bitrev (by simpa using len) hk, getD_bitrev len (revBits_lt n k), revBits_revBits hk]

/-! ### The butterflies of a stage (R179, R180) -/

/-- The lower index of the butterfly of offset `j` in block `q`; the upper one is 2^(n−1) above it. -/
def bflyLow (n q j : Nat) : Nat := q * 2 ^ n + j

/-- The upper index. -/
def bflyHigh (n q j : Nat) : Nat := bflyLow n q j + 2 ^ (n - 1)

theorem two_pow_eq_double {n : Nat} (pos : 1 ≤ n) : 2 ^ n = 2 * 2 ^ (n - 1) := by
  rw [← Nat.pow_succ', Nat.succ_eq_add_one, Nat.sub_add_cancel pos]

/-- A butterfly lies in its block. -/
theorem bfly_in_block {n q j : Nat} (pos : 1 ≤ n) (hj : j < 2 ^ (n - 1)) :
    q * 2 ^ n ≤ bflyLow n q j ∧ bflyLow n q j < bflyHigh n q j ∧ bflyHigh n q j < (q + 1) * 2 ^ n := by
  rw [bflyHigh, bflyLow, Nat.succ_mul, two_pow_eq_double pos]
  omega

theorem bflyHigh_lt {n q j N : Nat} (pos : 1 ≤ n) (hj : j < 2 ^ (n - 1)) (hq : q < N / 2 ^ n) : bflyHigh n q j < N := by
  have inside := (bfly_in_block (q := q) pos hj).2.2
  have blocks : (q + 1) * 2 ^ n ≤ N := (Nat.mul_le_mul_right _ hq).trans (Nat.div_mul_le_self N _)
  omega

/-- Every index is the lower or the upper one of a butterfly. -/
theorem exists_butterfly {n k N : Nat} (pos : 1 ≤ n) (whole : N / 2 ^ n * 2 ^ n = N) (hk : k < N) :
    ∃ q j, q < N / 2 ^ n ∧ j < 2 ^ (n - 1) ∧ (k = bflyLow n q j ∨ k = bflyHigh n q j) := by
  have half := two_pow_eq_double pos
  have block : k / 2 ^ n < N / 2 ^ n := by rwa [Nat.div_lt_iff_lt_mul (by positivity), whole]
  have split := Nat.div_add_mod' k (2 ^ n)
  have rest : k % 2 ^ n < 2 ^ n := Nat.mod_lt _ (by positivity)
  rcases Nat.lt_or_ge (k % 2 ^ n) (2 ^ (n - 1)) with low | high
  · exact ⟨_, k % 2 ^ n, block, low, .inl split.symm⟩
  · refine ⟨_, k % 2 ^ n - 2 ^ (n - 1), block, by omega, .inr ?_⟩
    rw [bflyHigh, bflyLow]
    omega

/-- One block holds one butterfly of each offset. -/
theorem bfly_block_unique {n j k p q : Nat} (pos : 1 ≤ n) (hj : j < 2 ^ (n - 1))
    (hp : k = bflyLow n p j ∨ k = bflyHigh n p j) (hq : k = bflyLow n q j ∨ k = bflyHigh n q j) : p = q := by
  have inP := bfly_in_block (q := p) pos hj
  have inQ := bfly_in_block (q := q) pos hj
  have ordered {a b : Nat} (lt : a < b) : (a + 1) * 2 ^ n ≤ b * 2 ^ n := Nat.mul_le_mul_right _ lt
  rcases Nat.lt_trichotomy p q with lt | eq | gt
  · have := ordered lt
    omega
  · exact eq
  · have := ordered gt
    omega

/-- An index has one offset. -/
theorem bfly_offset_unique {n i j k p q : Nat} (pos : 1 ≤ n) (hi : i < 2 ^ (n - 1)) (hj : j < 2 ^ (n - 1))
    (hp : k = bflyLow n p i ∨ k = bflyHigh n p i) (hq : k = bflyLow n q j ∨ k = bflyHigh n q j) : i = j := by
  have offset {i p : Nat} (hi : i < 2 ^ (n - 1)) (hp : k = bflyLow n p i ∨ k = bflyHigh n p i) : k % 2 ^ (n - 1) = i := by
    rcases hp with rfl | rfl <;>
      simp [bflyHigh, bflyLow, two_pow_eq_double pos, ← Nat.mul_assoc, Nat.mod_eq_of_lt hi]
  rw [← offset hi hp, offset hj hq]

@[simp] theorem length_bfly (w : Cplx) (a b : Nat) (buf : List Cplx) : (bfly w a b buf).length = buf.length := by simp [bfly]

@[simp] theorem length_stageOffset (n j : Nat) (w : Cplx) (buf : List Cplx) : (stageOffset n j w buf).length = buf.length :=
  length_foldl_of_keeps _ (fun _ _ => length_bfly _ _ _ _) _ _

theorem getD_bfly {w : Cplx} {a b : Nat} {buf : List Cplx} (apart : a ≠ b) (ha : a < buf.length) (hb : b < buf.length) :
    (bfly w a b buf).getD a czero = cadd (buf.getD a czero) (twMul w (buf.getD b czero)) ∧
    (bfly w a b buf).getD b czero = csub (buf.getD a czero) (twMul w (buf.getD b czero)) := by
  have ha' : a < (buf.set b (csub (buf.getD a czero) (twMul w (buf.getD b czero)))).length := by rwa [List.length_set]
  simp only [bfly, getD_set _ ha', getD_set _ hb, if_true, if_neg apart, and_self]

theorem getD_bfly_of_ne {w : Cplx} {a b k : Nat} {buf : List Cplx} (ha : k ≠ a) (hb : k ≠ b) :
    (bfly w a b buf).getD k czero = buf.getD k czero := by
  simp only [bfly, List.getD_eq_getElem?_getD, List.getElem?_set_ne ha.symm, List.getElem?_set_ne hb.symm]

/-- The butterflies of one offset are independent. -/
theorem independentSteps_offset {n j : Nat} (pos : 1 ≤ n) (hj : j < 2 ^ (n - 1)) (w : Cplx) (m : Nat) : IndependentSteps
    (fun buf q => bfly w (q * 2 ^ n + j) (q * 2 ^ n + j + 2 ^ (n - 1)) buf)
    (fun q k => k = bflyLow n q j ∨ k = bflyHigh n q j) m where
  length _ _ := length_bfly _ _ _ _
  frame _ _ _ _ outside := getD_bfly_of_ne (fun low => outside (.inl low)) fun high => outside (.inr high)
  apart _ _ _ _ _ := bfly_block_unique pos hj

/-- What the offset loop leaves alone. -/
theorem getD_stageOffset_untouched {n j k : Nat} (pos : 1 ≤ n) (hj : j < 2 ^ (n - 1)) (w : Cplx) (buf : List Cplx)
    (outside : ¬ ∃ q, k = bflyLow n q j ∨ k = bflyHigh n q j) : (stageOffset n j w buf).getD k czero = buf.getD k czero :=
  (independentSteps_offset pos hj w (buf.length / 2 ^ n)).getD_untouched buf le_rfl fun q _ touch => outside ⟨q, touch⟩

/-- Each butterfly of one offset works on the old values. -/
theorem getD_stageOffset {n q j : Nat} (pos : 1 ≤ n) (hj : j < 2 ^ (n - 1)) (w : Cplx) {buf : List Cplx}
    (hq : q < buf.length / 2 ^ n) :
    let x := buf.getD (bflyLow n q j) czero
    let y := buf.getD (bflyHigh n q j) czero
    (stageOffset n j w buf).getD (bflyLow n q j) czero = cadd x (twMul w y) ∧
    (stageOffset n j w buf).getD (bflyHigh n q j) czero = csub x (twMul w y) := by
  intro x y
  obtain ⟨b, len, old, new⟩ := (independentSteps_offset pos hj w _).getD_touched buf hq
  have ordered := (bfly_in_block (q := q) pos hj).2.1
  have high : bflyHigh n q j < b.length := by
    rw [len]
    exact bflyHigh_lt pos hj hq
  have step := getD_bfly (w := w) ordered.ne (ordered.trans high) high
  rw [old _ (.inl rfl), old _ (.inr rfl)] at step
  exact ⟨(new _ (.inl rfl)).trans step.1, (new _ (.inr rfl)).trans step.2⟩

/-- The offsets of a stage are independent. -/
theorem independentSteps_stage {n : Nat} (pos : 1 ≤ n) (tw : List Cplx) : IndependentSteps
    (fun buf j => stageOffset n j (tw.getD j czero) buf)
    (fun j k => ∃ q, k = bflyLow n q j ∨ k = bflyHigh n q j) (2 ^ (n - 1)) where
  length _ _ := length_stageOffset _ _ _ _
  frame _ _ _ hj outside := getD_stageOffset_untouched pos hj _ _ outside
  apart _ _ _ hi hj := fun ⟨_, hp⟩ ⟨_, hq⟩ => bfly_offset_unique pos hi hj hp hq

/-- A stage makes of each pair (x, y) the pair (x + w·y, x − w·y) of old values (R179, R180). -/
theorem getD_stageBody {n q j : Nat} (pos : 1 ≤ n) (hj : j < 2 ^ (n - 1)) (tw : List Cplx) {buf : List Cplx}
    (hq : q < buf.length / 2 ^ n) :
    let x := buf.getD (bflyLow n q j) czero
    let y := buf.getD (bflyHigh n q j) czero
    (stageBody n tw buf).getD (bflyLow n q j) czero = cadd x (twMul (tw.getD j czero) y) ∧
    (stageBody n tw buf).getD (bflyHigh n q j) czero = csub x (twMul (tw.getD j czero) y) := by
  intro x y
  obtain ⟨b, len, old, new⟩ := (independentSteps_stage pos tw).getD_touched buf hj
  have step := getD_stageOffset pos hj (tw.getD j czero) (len ▸ hq)
  rw [old _ ⟨q, .inl rfl⟩, old _ ⟨q, .inr rfl⟩] at step
  exact ⟨(new _ ⟨q, .inl rfl⟩).trans step.1, (new _ ⟨q, .inr rfl⟩).trans step.2⟩

end Sys2Proof.Machine
end

section
/-! SUPPORT. The twiddle table: each stage iterates the recurrence, an index names a stage and an offset, and the host reads
the entries (43_fft.md R176, 10_state.md R55, 20_memory.md R62). -/

namespace Sys2Proof.Machine

/-! ### The entries of a stage -/

/-- Entry `j` of stage `s`: the recurrence of R176 applied `j` times to (1.0, +0.0). -/
def twAt (sin : F64 → F64) (d : Dir) (s j : Nat) : Cplx := (twNext (twWpr sin d s) (twWpi sin d s))^[j] ⟨fone, fzero⟩

@[simp] theorem twAt_zero (sin : F64 → F64) (d : Dir) (s : Nat) : twAt sin d s 0 = ⟨fone, fzero⟩ := rfl

theorem twAt_succ (sin : F64 → F64) (d : Dir) (s j : Nat) :
    twAt sin d s (j + 1) = twNext (twWpr sin d s) (twWpi sin d s) (twAt sin d s j) :=
  Function.iterate_succ_apply' _ _ _

@[simp] theorem length_twList (wpr wpi : F64) (n : Nat) (w : Cplx) : (twList wpr wpi n w).length = n := by
  induction n generalizing w with
  | zero => rfl
  | succ n ih => rw [twList, List.length_cons, ih]

theorem getD_twList (wpr wpi : F64) {n j : Nat} (hj : j < n) (w : Cplx) :
    (twList wpr wpi n w).getD j czero = (twNext wpr wpi)^[j] w := by
  induction n generalizing j w with
  | zero => omega
  | succ n ih =>
    cases j with
    | zero => rfl
    | succ j => exact ih (by omega) _

theorem getD_twStage (sin : F64 → F64) (d : Dir) {s j : Nat} (hj : j < 2 ^ (s - 1)) :
    (twStage sin d s).getD j czero = twAt sin d s j :=
  getD_twList _ _ hj _

/-- The entry of an index of the table (R55): its stage, its offset. -/
theorem twEntry_eq_twAt (sin : F64 → F64) (d : Dir) {s j : Nat} (pos : 1 ≤ s) (hj : j < 2 ^ (s - 1)) :
    twEntry sin d (2 ^ (s - 1) - 1 + j) = twAt sin d s j := by
  have half := Nat.two_pow_pos (s - 1)
  have index : 2 ^ (s - 1) - 1 + j + 1 = 2 ^ (s - 1) + j := by omega
  have stage : (2 ^ (s - 1) + j).log2 = s - 1 := by
    rw [Nat.log2_eq_iff (by omega), Nat.pow_succ]
    omega
  rw [twEntry, index, stage, Nat.add_sub_cancel_left, Nat.sub_add_cancel pos]
  exact getD_twStage sin d hj

/-! ### The table at the host port -/

/-- The window of each direction (R62). -/
def twBase : Dir → Nat
  | .forward => 0x20000
  | .inverse => 0x28000

/-- The two words of an entry (R62). -/
theorem target_of_twiddle {addr : Addr} {d : Dir} {i : Nat} {im : Bool} (hi : i < 2047)
    (h : addr.toNat = twBase d + 16 * i + if im then 8 else 0) : target addr = .twiddle d i im := by
  cases d <;> cases im
  all_goals
    simp only [twBase, if_true, Bool.false_eq_true, if_false] at h
    rw [target_eq_of_window (by omega) (by omega)]
    simp (disch := omega) only [if_pos, if_neg]
    simp only [twForwardBase, twInverseBase, h, Target.twiddle.injEq, true_and, beq_eq_false_iff_ne, beq_iff_eq]
    omega

theorem step_readTwiddle_of_idle {s : State} (idle : s.engine = .idle) {addr : Addr} {rest : List HostEvent}
    (event : s.inbox = .read addr :: rest) {d : Dir} {i : Nat} {im : Bool} (hi : i < 2047)
    (h : addr.toNat = twBase d + 16 * i + if im then 8 else 0) :
    step s = .next { s with inbox := rest, replies := twWord Config.sin64 d i im :: s.replies } := by
  have named := target_of_twiddle hi h
  have reads := step_read_of_idle idle event (by rw [named]; rfl)
  rwa [named] at reads

/-- Settles O38: a stage iterates the recurrence, and each address names its part of an entry. -/
theorem twiddleTableIsTheRecurrence : Obligations.TwiddleTableIsTheRecurrence := by
  refine ⟨fun sin d s pos _ => ?_, fun s i addr rest hi idle event => ?_⟩
  · intro sigma theta wt wpr wpi
    refine ⟨twEntry_eq_twAt sin d (j := 0) pos (Nat.two_pow_pos _), fun j hj => ?_⟩
    rw [twEntry_eq_twAt sin d pos hj, twEntry_eq_twAt sin d pos (by omega), twAt_succ]
    cases d <;> rfl
  · have reads (d : Dir) (im : Bool) := step_readTwiddle_of_idle idle event (d := d) (im := im) hi
    exact ⟨reads .forward false, reads .forward true, reads .inverse false, reads .inverse true⟩

end Sys2Proof.Machine
end

section
/-! SUPPORT. BITREV, STAGE and FFT as commands on the work buffer, and FFT as BITREV followed by the stages (43_fft.md R178
to R181, 30_encoding.md R92). -/

namespace Sys2Proof.Machine

/-! ### The commands that work in place -/

/-- The state after a command that stores WORK and flags nothing. -/
def State.afterStore (s : State) (cs : List Cplx) : State := completedFrom { s with mem := writeCplx s.mem workBase cs } 0

/-- STAGE of a direction (R180). -/
def stageInstr : Dir → Nat → Instr
  | .forward => .stageF
  | .inverse => .stageI

/-- FFT of a direction (R181). -/
def fftInstr : Dir → Instr
  | .forward => .fftF
  | .inverse => .fftI

theorem exec_bitrev {s : State} (size : s.sizeOk = true) :
    exec .bitrev s = .next (s.afterStore (bitrev s.log2n s.workBuf)) :=
  exec_of_storesWork (withSize_of_legal (s := { s with cmask := 0 }) size _)

theorem exec_stage (d : Dir) {n : Nat} {s : State} (size : s.sizeOk = true) (pos : 1 ≤ n) (le : n ≤ s.log2n) :
    exec (stageInstr d n) s = .next (s.afterStore (stageBody n (twStage Config.sin64 d n) s.workBuf)) := by
  have rule : stageRule Config.sin64 d n { s with cmask := 0 } =
      .ok (State.storeWork (stageBody n (twStage Config.sin64 d n) s.workBuf) { s with cmask := 0 }) :=
    (withSize_of_legal (s := { s with cmask := 0 }) size _).trans (if_pos ⟨pos, le⟩)
  cases d <;> exact exec_of_storesWork rule

theorem exec_fft (d : Dir) {s : State} (size : s.sizeOk = true) :
    exec (fftInstr d) s = .next (s.afterStore (fftBody Config.sin64 d s.log2n s.workBuf)) := by
  have rule : fftRule Config.sin64 d { s with cmask := 0 } =
      .ok (State.storeWork (fftBody Config.sin64 d s.log2n s.workBuf) { s with cmask := 0 }) :=
    withSize_of_legal (s := { s with cmask := 0 }) size _
  cases d <;> exact exec_of_storesWork rule

/-! ### A buffer stored twice -/

theorem readByte_eq_wordByte (m : List Host.Cell) (a : Nat) {j : Nat} (hj : j < 8) :
    readByte m (a + j) = wordByte (readWord m a) j := by
  refine BitVec.eq_of_getLsbD_eq fun i hi => ?_
  rw [wordByte, BitVec.getLsbD_extractLsb', readWord]
  simp only [BitVec.getLsbD_append]
  interval_cases j <;> interval_cases i <;> rfl

/-- A memory that agrees on WORK[0..N−1] and outside it agrees on every byte. -/
theorem sameBytes_of_workAt {m m' : List Host.Cell} {N : Nat} (frame : sameOutside workBase (16 * N) m m')
    (elements : ∀ k < N, workAt m' k = workAt m k) : sameBytes m m' := by
  intro a
  by_cases inside : workBase ≤ a ∧ a < workBase + 16 * N
  · obtain ⟨re, im⟩ := Cplx.mk.inj (elements ((a - workBase) / 16) (by omega))
    have word (b : Nat) (same : readWord m' b = readWord m b) (lo : b ≤ a) (hi : a < b + 8) :
        readByte m' a = readByte m a := by
      obtain ⟨j, rfl⟩ := Nat.exists_eq_add_of_le lo
      rw [readByte_eq_wordByte m' b (by omega), same, ← readByte_eq_wordByte m b (by omega)]
    rcases Nat.lt_or_ge ((a - workBase) % 16) 8 with low | high
    · exact word _ re (by omega) (by omega)
    · exact word _ im (by omega) (by omega)
  · exact frame a inside

/-- A run of bytes stored over one of the same length replaces it. -/
theorem writeBytes_writeBytes (m : List Host.Cell) (base : Nat) {bs bs' : List Byte} (len : bs.length = bs'.length) :
    writeBytes (writeBytes m base bs) base bs' = writeBytes m base bs' := by
  have range := cellsOf_range base bs
  have below : (cellsOf base bs).filter (fun c => Nat.blt c.1 base) = [] := by
    refine List.filter_eq_nil_iff.mpr fun c hc => ?_
    rw [Nat.blt_eq]
    exact (range c hc).1.not_gt
  have above : (cellsOf base bs).filter (fun c => Nat.ble (base + bs'.length) c.1) = [] := by
    refine List.filter_eq_nil_iff.mpr fun c hc => ?_
    rw [Nat.ble_eq, ← len]
    exact (range c hc).2.not_ge
  have crossed (c : Host.Cell) : ¬ (Nat.blt c.1 base = true ∧ Nat.ble (base + bs'.length) c.1 = true) := by
    rw [Nat.blt_eq, Nat.ble_eq]
    omega
  have noneBelow : m.filter (fun c => Nat.blt c.1 base && Nat.ble (base + bs'.length) c.1) = [] :=
    List.filter_eq_nil_iff.mpr fun c _ both => crossed c (Bool.and_eq_true_iff.mp both)
  have noneAbove : m.filter (fun c => Nat.ble (base + bs'.length) c.1 && Nat.blt c.1 base) = [] :=
    List.filter_eq_nil_iff.mpr fun c _ both => crossed c (Bool.and_eq_true_iff.mp both).symm
  simp only [writeBytes, List.filter_append, List.filter_filter, below, above, len, noneBelow, noneAbove, Bool.and_self,
    List.append_nil, List.nil_append]

theorem writeCplx_writeCplx (m : List Host.Cell) (base : Nat) {cs cs' : List Cplx} (len : cs.length = cs'.length) :
    writeCplx (writeCplx m base cs) base cs' = writeCplx m base cs' :=
  writeBytes_writeBytes m base (by simp only [length_flatMap_wordBytes, length_flatMap_pair, len])

theorem afterStore_workBuf {s : State} {cs : List Cplx} (len : cs.length = s.fftSize) : (s.afterStore cs).workBuf = cs := by
  have stored := readCplx_writeCplx s.mem workBase cs
  rwa [len] at stored

theorem afterStore_afterStore {s : State} {c c' : Word} {cs cs' : List Cplx} (len : cs.length = cs'.length) :
    { ({ s with cmd := c }.afterStore cs) with cmd := c' }.afterStore cs' = { s with cmd := c' }.afterStore cs' := by
  have noCondition (sticky : BitVec 4) : sticky ||| 0 = sticky := BitVec.or_zero
  simp only [State.afterStore, completedFrom, writeCplx_writeCplx s.mem workBase len, noCondition]

/-! ### The obligations on one command -/

/-- Settles O33: the buffer is permuted by the reversal of indices, which is its own inverse. -/
theorem bitrevReversesIndices : Obligations.BitrevReversesIndices := by
  intro s lo hi n
  have size := sizeOk_of_bounds lo hi
  have len : s.workBuf.length = 2 ^ n := length_workBuf s
  obtain ⟨t, run, shape, elements, frame⟩ := outcome_of_storesWork (exec_bitrev size) ((length_bitrev _ _).trans len)
  obtain rfl : t = s.afterStore (bitrev n s.workBuf) := Host.Outcome.next.inj (run.symm.trans (exec_bitrev size))
  have back : exec .bitrev (s.afterStore (bitrev n s.workBuf)) = _ := exec_bitrev (s := s.afterStore _) size
  rw [afterStore_workBuf ((length_bitrev _ _).trans len)] at back
  obtain ⟨u, run', -, elements', frame'⟩ := outcome_of_storesWork back
    ((length_bitrev _ _).trans ((length_bitrev _ _).trans len))
  refine ⟨_, run, shape, fun i r hi hr bits => ?_, frame, u, run',
    sameBytes_of_workAt (fun a outside => (frame' a outside).trans (frame a outside)) fun k hk => ?_⟩
  · have reversed : r = revBits n i := eq_of_low_bits hr (revBits_lt n i) fun j hj =>
      (bits j hj).trans (testBit_revBits hj i).symm
    have value : (bitrev n s.workBuf).getD r czero = s.workBuf.getD (revBits n r) czero := getD_bitrev len hr
    rw [reversed, revBits_revBits hi, getD_workBuf hi] at value
    exact (elements r hr).trans (reversed ▸ value)
  · have twice : bitrev n (bitrev n s.workBuf) = s.workBuf := bitrev_bitrev len
    exact (elements' k hk).trans ((congrArg (List.getD · k czero) twice).trans (getD_workBuf hk))

/-- Settles O34: a stage's butterflies work on different pairs, so each sees the old values of its own. -/
theorem stageDoesItsButterflies : Obligations.StageDoesItsButterflies := by
  intro s n lo hi pos le i d named
  have size := sizeOk_of_bounds lo hi
  have instr : i = stageInstr d n := by rcases named with ⟨rfl, rfl⟩ | ⟨rfl, rfl⟩ <;> rfl
  subst instr
  have len : s.workBuf.length = 2 ^ s.fftCfg.toNat := length_workBuf s
  obtain ⟨t, run, shape, elements, frame⟩ := outcome_of_storesWork (exec_stage d size pos le)
    ((length_stageBody _ _ _).trans len)
  refine ⟨t, run, shape, fun q j hq hj => ?_, frame⟩
  rw [← Nat.pow_div le two_pos, ← len] at hq
  have high := bflyHigh_lt pos hj hq
  have low := (bfly_in_block (q := q) pos hj).2.1.trans high
  have pair := getD_stageBody pos hj (twStage Config.sin64 d n) hq
  rw [len] at high low
  rw [← elements _ low, ← elements _ high, getD_twStage _ _ hj, ← twEntry_eq_twAt _ _ pos hj, getD_workBuf low,
    getD_workBuf high] at pair
  exact pair

/-- Settles O35: the transform body is stored in one run. -/
theorem fftTransformsTheWorkBuffer : Obligations.FftTransformsTheWorkBuffer := by
  intro s lo hi n i d named
  have instr : i = fftInstr d := by rcases named with ⟨rfl, rfl⟩ | ⟨rfl, rfl⟩ <;> rfl
  subst instr
  exact outcome_of_storesWork (exec_fft d (sizeOk_of_bounds lo hi)) ((length_fftBody _ _ _ _).trans (length_workBuf s))

/-! ### FFT by its stages -/

/-- Stages run one after the other compose their bodies; CMD holds the last one's word. -/
theorem runInOrder_stages (d : Dir) {s : State} (size : s.sizeOk = true) (ks : List Nat) (le : ∀ k ∈ ks, k + 1 ≤ s.log2n)
    (c : Word) (cs : List Cplx) (len : cs.length = s.fftSize) :
    runInOrder (ks.map fun k => stageInstr d (k + 1)) ({ s with cmd := c }.afterStore cs) = .next
      ({ s with cmd := ks.foldl (fun _ k => encode (stageInstr d (k + 1))) c }.afterStore
        (ks.foldl (fun buf k => stageBody (k + 1) (twStage Config.sin64 d (k + 1)) buf) cs)) := by
  induction ks generalizing c cs with
  | nil => rfl
  | cons k ks ih =>
    have first := exec_stage d (s := { ({ s with cmd := c }.afterStore cs) with cmd := encode (stageInstr d (k + 1)) }) size
      k.succ_pos (le k List.mem_cons_self)
    have buffer : { ({ s with cmd := c }.afterStore cs) with cmd := encode (stageInstr d (k + 1)) }.workBuf = cs :=
      afterStore_workBuf (s := { s with cmd := c }) len
    rw [buffer, afterStore_afterStore (length_stageBody _ _ _).symm] at first
    rw [List.map_cons, runInOrder_cons first]
    exact ih (fun k hk => le k (List.mem_cons_of_mem _ hk)) _ _ ((length_stageBody _ _ _).trans len)

theorem runInOrder_fftByStages (d : Dir) {s : State} (size : s.sizeOk = true) :
    runInOrder (fftByStages (stageInstr d) s.log2n) s = .next
      ({ s with cmd := encode (stageInstr d s.log2n) }.afterStore (fftBody Config.sin64 d s.log2n s.workBuf)) := by
  have first : exec .bitrev { s with cmd := encode .bitrev } = _ := exec_bitrev (s := { s with cmd := encode .bitrev }) size
  have run := runInOrder_stages d size (List.range s.log2n) (fun k hk => List.mem_range.mp hk) (encode .bitrev)
    (bitrev s.log2n s.workBuf) ((length_bitrev _ _).trans (length_workBuf s))
  obtain ⟨n, last⟩ := Nat.exists_eq_add_of_le' (show 1 ≤ s.log2n by have := (sizeOk_iff s).mp size; omega)
  have word : (List.range s.log2n).foldl (fun _ k => encode (stageInstr d (k + 1))) (encode .bitrev) =
      encode (stageInstr d s.log2n) := by
    rw [last, List.range_succ, List.foldl_append]
    rfl
  rw [word] at run
  exact (runInOrder_cons first).trans run

/-- Settles O36: both ways store one and the same buffer over the old one. -/
theorem fftEqualsBitrevThenStages : Obligations.FftEqualsBitrevThenStages := by
  intro s lo hi
  have size := sizeOk_of_bounds lo hi
  exact ⟨⟨_, exec_fft .forward size, runInOrder_fftByStages .forward size⟩,
    ⟨_, exec_fft .inverse size, runInOrder_fftByStages .inverse size⟩⟩

end Sys2Proof.Machine
end

section
/-! SUPPORT. PEAKS: its bounded insertion keeps the first K of all peaks in their order, and its table of entries in memory
(43_fft.md R200 to R202). -/

namespace Sys2Proof.Machine

/-! ### Comparisons (R9) -/

theorem fgt_iff (a b : F64) : fgt a b = true ↔ fIsNaN a = false ∧ fIsNaN b = false ∧ fkey b < fkey a := by
  simp only [fgt, flt, Bool.and_eq_true, Bool.not_eq_true', decide_eq_true_eq]
  tauto

theorem feq_iff (a b : F64) : feq a b = true ↔ fIsNaN a = false ∧ fIsNaN b = false ∧ fkey a = fkey b := by
  simp only [feq, Bool.and_eq_true, Bool.not_eq_true', decide_eq_true_eq, and_assoc]

theorem fgt_asymm {a b : F64} (h : fgt a b = true) : fgt b a = false := by
  rw [← Bool.not_eq_true, fgt_iff]
  have := (fgt_iff a b).mp h
  omega

/-! ### The order of the table (R201) -/

/-- The value is strictly greater: what the insertion tests. -/
abbrev Peak.Beats (e t : Peak) : Prop := fgt e.value t.value = true

/-- Ranked above: the greater value, or the lower bin of equal values. Values are compared by their positions. -/
def Peak.Above (a b : Peak) : Prop := fkey b.value < fkey a.value ∨ (fkey a.value = fkey b.value ∧ a.bin < b.bin)

theorem Peak.Above.trans {a b c : Peak} (ab : a.Above b) (bc : b.Above c) : a.Above c := by
  unfold Peak.Above at *
  omega

theorem Peak.not_above_self (a : Peak) : ¬ a.Above a := by
  unfold Peak.Above
  omega

/-- Between values that are no NaN the rank is that of the comparisons of R9. -/
theorem Peak.Above.compares {a b : Peak} (h : a.Above b) (ha : fIsNaN a.value = false) (hb : fIsNaN b.value = false) :
    fgt a.value b.value = true ∨ (feq a.value b.value = true ∧ a.bin < b.bin) :=
  h.imp (fun greater => (fgt_iff _ _).mpr ⟨ha, hb, greater⟩)
    fun tied => ⟨(feq_iff _ _).mpr ⟨ha, hb, tied.1⟩, tied.2⟩

/-- Against an entry of a lower bin, an insertion that does not go before it ranks below it. -/
theorem Peak.above_of_not_beats {e t : Peak} (he : fIsNaN e.value = false) (ht : fIsNaN t.value = false)
    (bins : t.bin < e.bin) (not : ¬ e.Beats t) : t.Above e := by
  rw [Peak.Beats, fgt_iff] at not
  unfold Peak.Above
  simp only [he, ht, true_and] at not
  omega

/-- Inserting a peak of a higher bin keeps the table ranked. -/
theorem pairwise_above_orderedInsert {e : Peak} (he : fIsNaN e.value = false) {table : List Peak}
    (ranked : table.Pairwise Peak.Above) (earlier : ∀ t ∈ table, fIsNaN t.value = false ∧ t.bin < e.bin) :
    (table.orderedInsert Peak.Beats e).Pairwise Peak.Above := by
  induction table with
  | nil => exact List.pairwise_singleton _ _
  | cons t table ih =>
    obtain ⟨first, rest⟩ := List.pairwise_cons.mp ranked
    obtain ⟨ht, bins⟩ := earlier t List.mem_cons_self
    rw [List.orderedInsert_cons]
    split
    · rename_i beats
      have above : e.Above t := .inl ((fgt_iff _ _).mp beats).2.2
      refine List.pairwise_cons.mpr ⟨fun x hx => ?_, ranked⟩
      rcases List.mem_cons.mp hx with rfl | hx
      · exact above
      · exact above.trans (first x hx)
    · rename_i not
      refine List.pairwise_cons.mpr ⟨fun x hx => ?_, ih rest fun x hx => earlier x (List.mem_cons_of_mem _ hx)⟩
      rcases (List.mem_orderedInsert _).mp hx with rfl | hx
      · exact Peak.above_of_not_beats he ht bins not
      · exact first x hx

/-- Peaks of falling bins, inserted the last first, end up ranked. -/
theorem pairwise_above_insertionSort {es : List Peak} (values : ∀ e ∈ es, fIsNaN e.value = false)
    (bins : es.Pairwise fun a b => b.bin < a.bin) : (es.insertionSort Peak.Beats).Pairwise Peak.Above := by
  induction es with
  | nil => exact .nil
  | cons e es ih =>
    obtain ⟨first, rest⟩ := List.pairwise_cons.mp bins
    refine pairwise_above_orderedInsert (values e List.mem_cons_self)
      (ih (fun x hx => values x (List.mem_cons_of_mem _ hx)) rest) fun t ht => ?_
    have ht := (List.mem_insertionSort _).mp ht
    exact ⟨values t (List.mem_cons_of_mem _ ht), first t ht⟩

/-! ### The bounded insertion (R201) -/

/-- The insertion of R201 is an ordered insertion cut to K entries. -/
theorem insertPeak_eq_take (K : Nat) (table : List Peak) (e : Peak) :
    insertPeak K table e = (table.orderedInsert Peak.Beats e).take K := by
  rw [List.orderedInsert_eq_take_drop]
  simp [insertPeak]

/-- A cut table takes an insertion as the whole one does. -/
theorem insertPeak_take (K : Nat) (table : List Peak) (e : Peak) :
    insertPeak K (table.take K) e = (table.orderedInsert Peak.Beats e).take K := by
  rw [insertPeak_eq_take]
  induction table generalizing K with
  | nil => rw [List.take_nil]
  | cons t table ih =>
    cases K with
    | zero => rfl
    | succ K =>
      simp only [List.take_succ_cons, List.orderedInsert_cons]
      split
      · refine congrArg (e :: ·) ?_
        rw [← List.take_succ_cons, List.take_take, min_eq_left K.le_succ]
      · simp only [List.take_succ_cons, ih]

/-- The peaks of a series by rising bin. -/
def peakList (fs : F64) (n : Nat) (series : List F64) : List Peak :=
  ((List.range' 1 (series.length - 1)).filter (isPeak series)).map (peakOf fs n series)

/-- All peaks of a series in the order of the table. -/
def rankedPeaks (fs : F64) (n : Nat) (series : List F64) : List Peak :=
  (peakList fs n series).reverse.insertionSort Peak.Beats

/-- The scan keeps the first K of all peaks. -/
theorem findPeaks_eq_take (K : Nat) (fs : F64) (n : Nat) (series : List F64) :
    findPeaks K fs n series = (rankedPeaks fs n series).take K := by
  have scan : findPeaks K fs n series = (peakList fs n series).foldl (insertPeak K) [] := by
    rw [peakList, List.foldl_map, List.foldl_filter]
    rfl
  have whole : rankedPeaks fs n series = (peakList fs n series).foldl (fun t e => t.orderedInsert Peak.Beats e) [] := by
    rw [rankedPeaks, List.insertionSort, List.foldr_reverse]
  have cut := List.foldl_hom (List.take K) (l := peakList fs n series) (init := []) fun table e => insertPeak_take K table e
  rw [List.take_nil] at cut
  rw [scan, whole, cut]

theorem isPeak_iff {series : List F64} {k : Nat} : isPeak series k = true ↔
    fgt (binAt series k) (binAt series (k - 1)) = true ∧
    (k + 1 < series.length → fgt (binAt series k) (binAt series (k + 1)) = true) := by
  unfold isPeak
  split <;> simp [*]

/-- The ranked peaks are the entries of the bins that are peaks. -/
theorem mem_rankedPeaks {fs : F64} {n : Nat} {series : List F64} {e : Peak} : e ∈ rankedPeaks fs n series ↔
    ∃ k, 1 ≤ k ∧ k < series.length ∧ isPeak series k = true ∧ e = peakOf fs n series k := by
  simp only [rankedPeaks, List.mem_insertionSort, List.mem_reverse, peakList, List.mem_map, List.mem_filter,
    List.mem_range'_1]
  constructor
  · rintro ⟨k, ⟨bounds, peak⟩, rfl⟩
    exact ⟨k, by omega, by omega, peak, rfl⟩
  · rintro ⟨k, lo, hi, peak, rfl⟩
    exact ⟨k, ⟨by omega, peak⟩, rfl⟩

/-- The value of a peak is no NaN, since it compares. -/
theorem fIsNaN_of_mem_rankedPeaks {fs : F64} {n : Nat} {series : List F64} {e : Peak} (h : e ∈ rankedPeaks fs n series) :
    fIsNaN e.value = false := by
  obtain ⟨k, -, -, peak, rfl⟩ := mem_rankedPeaks.mp h
  exact ((fgt_iff _ _).mp (isPeak_iff.mp peak).1).1

theorem pairwise_above_rankedPeaks (fs : F64) (n : Nat) (series : List F64) :
    (rankedPeaks fs n series).Pairwise Peak.Above := by
  refine pairwise_above_insertionSort (fun e he => fIsNaN_of_mem_rankedPeaks ((List.mem_insertionSort _).mpr he)) ?_
  rw [List.pairwise_reverse, peakList, List.pairwise_map]
  exact (List.pairwise_lt_range' (s := 1)).filter _

/-! ### The table in memory (R67) -/

/-- The fields of an entry of the table, past its end zeros. -/
theorem peakAt_writePeakTable (m : List Host.Cell) {table : List Peak} {p : Nat} (hp : p < table.length) (fits : p < 64) :
    peakAt (writePeakTable m table) p 0 = table[p].value ∧ peakAt (writePeakTable m table) p 1 = table[p].freq ∧
    peakAt (writePeakTable m table) p 2 = BitVec.ofNat 64 (table[p].bin % 2 ^ 16) := by
  have field (f : Nat) (hf : f < 3) := peakAt_writePeaks _ (length_tableEntry table) m Config.kMax p f fits hf
  have words : (table.map Peak.words).getD p [fzero, fzero, 0] = table[p].words := by simp [List.getD, hp]
  simp only [words] at field
  exact ⟨field 0 (by decide), field 1 (by decide), field 2 (by decide)⟩

/-- Writing the table leaves every byte alone that is in none of its fields. -/
theorem readByte_writePeakTable (m : List Host.Cell) (table : List Peak) {a : Nat}
    (outside : ∀ p f, p < 64 → f < 3 → ¬ (peakAddr p f ≤ a ∧ a < peakAddr p f + 8)) :
    readByte (writePeakTable m table) a = readByte m a := by
  refine List.foldlRecOn (motive := fun m' => readByte m' a = readByte m a) _ _ rfl fun m' same p hp => ?_
  have entry : p < 64 := List.mem_range.mp hp
  have out0 := outside p 0 entry (by decide)
  have out1 := outside p 1 entry (by decide)
  have out2 := outside p 2 entry (by decide)
  refine (readByte_writeWords_outside m' _ _ a ?_).trans same
  rw [length_tableEntry]
  simp only [peakAddr] at out0 out1 out2 ⊢
  omega

/-! ### PEAKS (R201) -/

theorem exec_peaks {s : State} (size : s.sizeOk = true) (count : s.peakCountOk = true) : exec .peaks s = .next (completedFrom
    { s with mem := writePeakTable s.mem s.peaks, pkCount := BitVec.ofNat 8 s.peaks.length } 0) :=
  exec_of_completes ((withSize_of_legal (s := { s with cmask := 0 }) size _).trans (if_pos count))

theorem binAt_seriesBuf {s : State} {k : Nat} (hk : k < s.seriesLen) : binAt s.seriesBuf k = seriesAt s.mem k :=
  getD_seriesBuf hk

theorem peaks_eq_take (s : State) : s.peaks = (rankedPeaks s.fs s.fftSize s.seriesBuf).take s.pkK.toNat :=
  findPeaks_eq_take _ _ _ _

theorem peaks_sublist (s : State) : s.peaks.Sublist (rankedPeaks s.fs s.fftSize s.seriesBuf) :=
  peaks_eq_take s ▸ List.take_sublist _ _

theorem length_peaks_le (s : State) : s.peaks.length ≤ s.pkK.toNat := length_findPeaks_le _ _ _ _

theorem toNat_peakCount {s : State} (small : s.pkK.toNat ≤ 64) : (BitVec.ofNat 8 s.peaks.length).toNat = s.peaks.length := by
  have := length_peaks_le s
  exact Nat.mod_eq_of_lt (by omega)

/-- A bin of the series is a peak (R200). -/
theorem isPeak_seriesBuf_iff {s : State} {k : Nat} (hk : k < s.seriesLen) : isPeak s.seriesBuf k = true ↔
    fgt (seriesAt s.mem k) (seriesAt s.mem (k - 1)) = true ∧
    (k + 1 < s.seriesLen → fgt (seriesAt s.mem k) (seriesAt s.mem (k + 1)) = true) := by
  rw [isPeak_iff, length_seriesBuf, binAt_seriesBuf hk, binAt_seriesBuf (by omega)]
  refine and_congr_right fun _ => forall_congr' fun next => ?_
  rw [binAt_seriesBuf next]

/-- Each entry of the table is the one of a bin that is a peak. -/
theorem exists_bin_of_mem_rankedPeaks {s : State} {e : Peak} (h : e ∈ rankedPeaks s.fs s.fftSize s.seriesBuf) :
    ∃ k, 1 ≤ k ∧ k < s.seriesLen ∧ isPeak s.seriesBuf k = true ∧
      e.value = seriesAt s.mem k ∧ e.freq = fdiv (fmul (fofNat k) s.fs) (fofNat s.fftSize) ∧ e.bin = k := by
  obtain ⟨k, pos, lt, peak, rfl⟩ := mem_rankedPeaks.mp h
  rw [length_seriesBuf] at lt
  exact ⟨k, pos, lt, peak, binAt_seriesBuf lt, rfl, rfl⟩

theorem seriesLen_le {s : State} (size : s.sizeOk = true) : s.seriesLen ≤ 1024 := by
  have := fftSize_le s size
  unfold State.seriesLen
  omega

/-- The table after PEAKS, at a legal size and K: the value and the bin of each entry. -/
theorem peakAt_peaks {s : State} (size : s.sizeOk = true) (small : s.pkK.toNat ≤ 64) {p : Nat} (hp : p < s.peaks.length) :
    peakAt (writePeakTable s.mem s.peaks) p 0 = s.peaks[p].value ∧
    peakAt (writePeakTable s.mem s.peaks) p 1 = s.peaks[p].freq ∧
    peakAt (writePeakTable s.mem s.peaks) p 2 = BitVec.ofNat 64 s.peaks[p].bin ∧
    (peakAt (writePeakTable s.mem s.peaks) p 2).toNat = s.peaks[p].bin := by
  have bound := length_peaks_le s
  obtain ⟨value, freq, bin⟩ := peakAt_writePeakTable s.mem hp (by omega)
  obtain ⟨k, -, lt, -, -, -, named⟩ := exists_bin_of_mem_rankedPeaks ((peaks_sublist s).subset (List.getElem_mem hp))
  have := seriesLen_le size
  rw [Nat.mod_eq_of_lt (by omega)] at bin
  refine ⟨value, freq, bin, ?_⟩
  rw [bin, BitVec.toNat_ofNat, Nat.mod_eq_of_lt (by omega)]

/-- Settles O43: the table holds entries of peaks, zeros past them, and writes its fields only. -/
theorem peaksWritesItsTable : Obligations.PeaksWritesItsTable := by
  intro s lo hi pos small N
  have size := sizeOk_of_bounds lo hi
  have count := toNat_peakCount small
  refine ⟨_, exec_peaks size ((peakCountOk_iff s).mpr ⟨pos, small⟩), rfl, ?_, fun p hp => ?_, fun p f past hp hf => ?_,
    fun a outside => readByte_writePeakTable s.mem s.peaks outside⟩
  · exact count.trans_le (length_peaks_le s)
  · have hp : p < s.peaks.length := hp.trans_eq count
    obtain ⟨value, freq, bin, -⟩ := peakAt_peaks size small hp
    obtain ⟨k, first, lt, peak, value', freq', bin'⟩ :=
      exists_bin_of_mem_rankedPeaks ((peaks_sublist s).subset (List.getElem_mem hp))
    obtain ⟨left, right⟩ := (isPeak_seriesBuf_iff lt).mp peak
    exact ⟨k, first, lt, bin.trans (congrArg _ bin'), value.trans value', freq.trans freq', left, right⟩
  · exact peaksZeroFrom_writePeakTable s.mem s.peaks p f (count.symm.trans_le past) hp hf

/-- An entry is kept, or the table is full of entries that rank above it. -/
theorem mem_peaks_or_outranked {s : State} {e : Peak} (h : e ∈ rankedPeaks s.fs s.fftSize s.seriesBuf) :
    e ∈ s.peaks ∨ (s.peaks.length = s.pkK.toNat ∧ ∀ x ∈ s.peaks, x.Above e) := by
  have ranked := pairwise_above_rankedPeaks s.fs s.fftSize s.seriesBuf
  rw [← List.take_append_drop s.pkK.toNat (rankedPeaks _ _ _), ← peaks_eq_take] at h ranked
  refine (List.mem_append.mp h).imp_right fun dropped => ⟨?_, fun x hx => (List.pairwise_append.mp ranked).2.2 x hx e dropped⟩
  have more := List.length_pos_of_mem dropped
  rw [List.length_drop] at more
  rw [peaks_eq_take, List.length_take]
  omega

/-- Settles O44: the table is the first K of all peaks in their order. -/
theorem peakTableIsTheTopK : Obligations.PeakTableIsTheTopK := by
  intro s t lo hi pos small run L ranksAbove
  have size := sizeOk_of_bounds lo hi
  have count := toNat_peakCount small
  obtain rfl := Host.Outcome.next.inj (run.symm.trans (exec_peaks size ((peakCountOk_iff s).mpr ⟨pos, small⟩)))
  have number {e : Peak} (he : e ∈ s.peaks) := fIsNaN_of_mem_rankedPeaks ((peaks_sublist s).subset he)
  dsimp only [ranksAbove, completedFrom]
  rw [count]
  refine ⟨fun p q lt hq => ?_, fun k first inside left right => ?_⟩
  · have hp := lt.trans hq
    have above : s.peaks[p].Above s.peaks[q] := List.pairwise_iff_getElem.mp
      ((pairwise_above_rankedPeaks s.fs s.fftSize s.seriesBuf).sublist (peaks_sublist s)) p q hp hq lt
    obtain ⟨valueP, -, -, binP⟩ := peakAt_peaks size small hp
    obtain ⟨valueQ, -, -, binQ⟩ := peakAt_peaks size small hq
    rw [valueP, binP, valueQ, binQ]
    exact above.compares (number (List.getElem_mem hp)) (number (List.getElem_mem hq))
  · have inside : k < s.seriesLen := inside
    have mem : peakOf s.fs s.fftSize s.seriesBuf k ∈ rankedPeaks s.fs s.fftSize s.seriesBuf :=
      mem_rankedPeaks.mpr ⟨k, first, inside.trans_eq (length_seriesBuf s).symm,
        (isPeak_seriesBuf_iff inside).mpr ⟨left, right⟩, rfl⟩
    refine (mem_peaks_or_outranked mem).imp (fun kept => ?_) fun ⟨full, above⟩ => ⟨full, fun p hp => ?_⟩
    · obtain ⟨p, hp, named⟩ := List.getElem_of_mem kept
      obtain ⟨-, -, bin, -⟩ := peakAt_peaks size small hp
      exact ⟨p, hp, bin.trans (congrArg _ (congrArg Peak.bin named))⟩
    · obtain ⟨valueP, -, -, binP⟩ := peakAt_peaks size small hp
      have value : (peakOf s.fs s.fftSize s.seriesBuf k).value = seriesAt s.mem k := binAt_seriesBuf inside
      rw [valueP, binP, ← value]
      exact (above _ (List.getElem_mem hp)).compares (number (List.getElem_mem hp)) (fIsNaN_of_mem_rankedPeaks mem)

/-! ### One hill (R202) -/

/-- The top of a hill is its one peak. -/
theorem isPeak_of_hill {s : State} {m : Nat} (pos : 1 ≤ m) (inside : m < s.seriesLen - 1)
    (rise : ∀ k, k < m → fgt (seriesAt s.mem (k + 1)) (seriesAt s.mem k) = true)
    (fall : ∀ k, m ≤ k → k + 1 < s.seriesLen → fgt (seriesAt s.mem k) (seriesAt s.mem (k + 1)) = true)
    {k : Nat} (first : 1 ≤ k) (hk : k < s.seriesLen) : isPeak s.seriesBuf k = true ↔ k = m := by
  rw [isPeak_seriesBuf_iff hk]
  constructor
  · rintro ⟨left, right⟩
    rcases Nat.lt_trichotomy k m with lt | eq | gt
    · simp [fgt_asymm (rise k lt)] at right
      omega
    · exact eq
    · have falls := fall (k - 1) (by omega) (by omega)
      rw [Nat.sub_add_cancel first] at falls
      simp [fgt_asymm falls] at left
  · rintro rfl
    have rises := rise (k - 1) (by omega)
    rw [Nat.sub_add_cancel first] at rises
    exact ⟨rises, fall k le_rfl⟩

/-- Ranked entries that are all one entry are that entry once. -/
theorem eq_singleton_of_ranked {table : List Peak} {e : Peak} (ranked : table.Pairwise Peak.Above) (mem : e ∈ table)
    (only : ∀ x ∈ table, x = e) : table = [e] := by
  match table with
  | [] => cases mem
  | [x] => rw [only x List.mem_cons_self]
  | x :: y :: rest =>
    have above := (List.pairwise_cons.mp ranked).1 y List.mem_cons_self
    rw [only x (by simp), only y (by simp)] at above
    exact absurd above (Peak.not_above_self e)

/-- Settles O45: the top of the hill is the only bin that PEAKS finds. -/
theorem oneHillHasOnePeak : Obligations.OneHillHasOnePeak := by
  intro s m lo hi pos small L first inside rise fall
  have size := sizeOk_of_bounds lo hi
  have top {k : Nat} := isPeak_of_hill (s := s) first inside rise fall (k := k)
  have lt : m < s.seriesLen := inside.trans_le (Nat.sub_le _ _)
  have only : rankedPeaks s.fs s.fftSize s.seriesBuf = [peakOf s.fs s.fftSize s.seriesBuf m] := by
    refine eq_singleton_of_ranked (pairwise_above_rankedPeaks _ _ _)
      (mem_rankedPeaks.mpr ⟨m, first, lt.trans_eq (length_seriesBuf s).symm, (top first lt).mpr rfl, rfl⟩) fun x hx => ?_
    obtain ⟨k, one, bound, peak, rfl⟩ := mem_rankedPeaks.mp hx
    rw [(top one (bound.trans_eq (length_seriesBuf s))).mp peak]
  have table : s.peaks = [peakOf s.fs s.fftSize s.seriesBuf m] := by
    rw [peaks_eq_take, only, List.take_of_length_le (by simpa using pos)]
  have written {p : Nat} (hp : p < s.peaks.length) := peakAt_peaks size small hp
  have run := exec_peaks size ((peakCountOk_iff s).mpr ⟨pos, small⟩)
  simp only [table, List.length_singleton] at written run
  obtain ⟨value, -, bin, -⟩ := written Nat.one_pos
  exact ⟨_, run, rfl, bin, value.trans (binAt_seriesBuf lt)⟩

end Sys2Proof.Machine
end

section
/-! SUPPORT. How the binary64 operations take signs and zeros: a result that is no NaN depends on its operands' values only,
up to the sign of a zero, and changes its sign with them (00_scope.md R9). -/

namespace Sys2Proof.Machine

/-! ### Patterns of one value -/

theorem sameValue.refl (a : F64) : sameValue a a := .inl rfl

theorem sameValue.symm {a b : F64} (h : sameValue a b) : sameValue b a := h.imp Eq.symm And.symm

theorem sameValue.trans {a b c : F64} (ab : sameValue a b) (bc : sameValue b c) : sameValue a c := by
  rcases ab with rfl | ⟨za, zb⟩
  · exact bc
  · rcases bc with rfl | ⟨-, zc⟩
    · exact .inr ⟨za, zb⟩
    · exact .inr ⟨za, zc⟩

theorem fields_of_fIsZero {z : F64} (h : fIsZero z = true) : fexp z = 0 ∧ ffrac z = 0 := by
  simpa [fIsZero] using h

/-- Two patterns of one value differ in the sign at most. -/
theorem sameValue.fields {a b : F64} (h : sameValue a b) : fexp a = fexp b ∧ ffrac a = ffrac b := by
  rcases h with rfl | ⟨za, zb⟩
  · exact ⟨rfl, rfl⟩
  · obtain ⟨ea, fa⟩ := fields_of_fIsZero za
    obtain ⟨eb, fb⟩ := fields_of_fIsZero zb
    exact ⟨ea.trans eb.symm, fa.trans fb.symm⟩

theorem sameValue.fIsNaN_eq {a b : F64} (h : sameValue a b) : fIsNaN a = fIsNaN b := by
  simp [fIsNaN, h.fields]

theorem fIsNaN_of_fIsZero {z : F64} (h : fIsZero z = true) : fIsNaN z = false := by
  simp [fIsNaN, fields_of_fIsZero h]

theorem fIsFinite_of_fIsZero {z : F64} (h : fIsZero z = true) : fIsFinite z = true := by
  simp [fIsFinite, fields_of_fIsZero h]

theorem fIsZero_of_fIsInf {x : F64} (h : fIsInf x = true) : fIsZero x = false := by
  have top : fexp x = 2047 := by
    rw [fIsInf, Bool.and_eq_true, beq_iff_eq] at h
    exact h.1
  simp [fIsZero, top]

theorem fIsZero_iff_fval (x : F64) : fIsZero x = true ↔ fval x = 0 := (fIsZero_iff x).trans (fval_eq_zero_iff x).symm

theorem fIsZero_fpack (neg : Bool) : fIsZero (fpack neg 0) = true := (fIsZero_iff_fval _).mpr (fval_fpack_zero neg)

@[simp] theorem fIsZero_fneg (x : F64) : fIsZero (fneg x) = fIsZero x := by simp [fIsZero]

@[simp] theorem fneg_fneg (x : F64) : fneg (fneg x) = x := by
  rw [fneg, fneg, BitVec.xor_assoc, BitVec.xor_self, BitVec.xor_zero]

theorem fpack_not (neg : Bool) (mag : Nat) : fpack (!neg) mag = fneg (fpack neg mag) := by
  cases neg
  · exact fpack_true mag
  · rw [fpack_true, fneg_fneg]
    rfl

theorem fround_not (neg : Bool) (m : Nat) (e : Int) : fround (!neg) m e = fneg (fround neg m e) := by
  unfold fround
  split <;> exact fpack_not _ _

/-- A finite result of a value other than 0 is one pattern. -/
theorem eq_of_isExactly {x y : F64} {r : ℚ} (hx : IsExactly x r) (hy : IsExactly y r) (nonzero : fIsZero y = false) :
    x = y := by
  rcases sameValue_of_fval_eq (hx.2.trans hy.2.symm) with eq | ⟨-, zero⟩
  · exact eq
  · simp [nonzero] at zero

/-! ### Sign flips -/

/-- `x`, negated if the first argument says so. -/
def fflip : Bool → F64 → F64
  | false, x => x
  | true, x => fneg x

@[simp] theorem fflip_false (x : F64) : fflip false x = x := rfl

@[simp] theorem fflip_true (x : F64) : fflip true x = fneg x := rfl

@[simp] theorem fsign_fflip (c : Bool) (x : F64) : fsign (fflip c x) = (c != fsign x) := by cases c <;> simp

@[simp] theorem fexp_fflip (c : Bool) (x : F64) : fexp (fflip c x) = fexp x := by cases c <;> simp

@[simp] theorem ffrac_fflip (c : Bool) (x : F64) : ffrac (fflip c x) = ffrac x := by cases c <;> simp

@[simp] theorem fIsNaN_fflip (c : Bool) (x : F64) : fIsNaN (fflip c x) = fIsNaN x := by simp [fIsNaN]

@[simp] theorem fIsInf_fflip (c : Bool) (x : F64) : fIsInf (fflip c x) = fIsInf x := by simp [fIsInf]

@[simp] theorem fIsZero_fflip (c : Bool) (x : F64) : fIsZero (fflip c x) = fIsZero x := by simp [fIsZero]

@[simp] theorem fmant_fflip (c : Bool) (x : F64) : fmant (fflip c x) = fmant x := by simp [fmant]

@[simp] theorem fscale_fflip (c : Bool) (x : F64) : fscale (fflip c x) = fscale x := by simp [fscale]

theorem fflip_fneg (c : Bool) (x : F64) : fflip c (fneg x) = fneg (fflip c x) := by cases c <;> simp

theorem fpack_bne (c neg : Bool) (mag : Nat) : fpack (c != neg) mag = fflip c (fpack neg mag) := by
  cases c
  · simp
  · simpa using fpack_not neg mag

theorem fround_bne (c neg : Bool) (m : Nat) (e : Int) : fround (c != neg) m e = fflip c (fround neg m e) := by
  cases c
  · simp
  · simpa using fround_not neg m e

/-! ### NaN operands give NaN results -/

theorem fIsNaN_of_fadd {a b : F64} (h : fIsNaN (fadd a b) = false) : fIsNaN a = false ∧ fIsNaN b = false := by
  rw [← Bool.or_eq_false_iff, ← Bool.not_eq_true]
  intro nan
  simp [fadd, nan, fIsNaN_fnan] at h

theorem fIsNaN_of_fsub {a b : F64} (h : fIsNaN (fsub a b) = false) : fIsNaN a = false ∧ fIsNaN b = false := by
  rw [← Bool.or_eq_false_iff, ← Bool.not_eq_true]
  intro nan
  simp [fsub, nan, fIsNaN_fnan] at h

theorem fIsNaN_of_fmul {a b : F64} (h : fIsNaN (fmul a b) = false) : fIsNaN a = false ∧ fIsNaN b = false := by
  rw [← Bool.or_eq_false_iff, ← Bool.not_eq_true]
  intro nan
  simp [fmul, nan, fIsNaN_fnan] at h

/-! ### Products -/

/-- A product that is no NaN has the product of the signs. -/
theorem fsign_fmul {a b : F64} (ok : fIsNaN (fmul a b) = false) : fsign (fmul a b) = (fsign a != fsign b) := by
  unfold fmul at ok ⊢
  dsimp only at ok ⊢
  split_ifs at ok ⊢
  · simp [fIsNaN_fnan] at ok
  · simp [fIsNaN_fnan] at ok
  · exact fsign_fpack _ _ (by decide)
  · exact fsign_fround _ _ _

/-- The sign of a product flips with each of its factors. -/
theorem fmul_fflip {c d : Bool} {a b : F64} (ok : fIsNaN (fmul a b) = false) :
    fmul (fflip c a) (fflip d b) = fflip (c != d) (fmul a b) := by
  have signs : ((c != fsign a) != (d != fsign b)) = ((c != d) != (fsign a != fsign b)) := by
    cases c <;> cases d <;> cases fsign a <;> cases fsign b <;> rfl
  unfold fmul at ok ⊢
  simp only [fIsNaN_fflip, fIsInf_fflip, fIsZero_fflip, fmant_fflip, fscale_fflip, fsign_fflip, signs]
  split_ifs at ok ⊢
  · simp [fIsNaN_fnan] at ok
  · simp [fIsNaN_fnan] at ok
  · exact fpack_bne _ _ _
  · exact fround_bne _ _ _ _

theorem fmul_fneg_right {a b : F64} (ok : fIsNaN (fmul a b) = false) : fmul a (fneg b) = fneg (fmul a b) :=
  fmul_fflip (c := false) (d := true) ok

/-- Zero times a finite value is a zero, on either side. -/
theorem fIsZero_fmul {a b : F64} (ha : fIsFinite a = true) (hb : fIsFinite b = true)
    (zero : fIsZero a = true ∨ fIsZero b = true) : fIsZero (fmul a b) = true := by
  have product : fmant a * fmant b = 0 := by
    rw [Nat.mul_eq_zero]
    exact zero.imp (fIsZero_iff a).mp (fIsZero_iff b).mp
  rw [fmul_of_finite ha hb, product, fround_zero]
  exact fIsZero_fpack _

/-- A product with a zero that is no NaN has finite factors (R9: zero times infinity is a NaN). -/
theorem fIsFinite_of_fmul {a b : F64} (ok : fIsNaN (fmul a b) = false) (zero : fIsZero a = true ∨ fIsZero b = true) :
    fIsFinite a = true ∧ fIsFinite b = true := by
  obtain ⟨na, nb⟩ := fIsNaN_of_fmul ok
  have noInf : (fIsInf a || fIsInf b) = false := by
    by_contra inf
    simp [fmul, na, nb, Bool.not_eq_false _ ▸ inf, Bool.or_eq_true_iff.mpr zero, fIsNaN_fnan] at ok
  rw [Bool.or_eq_false_iff] at noInf
  exact ⟨(finite_iff a).mpr ⟨na, noInf.1⟩, (finite_iff b).mpr ⟨nb, noInf.2⟩⟩

/-- A product depends on the values of its factors only, up to the sign of a zero. -/
theorem fmul_sameValue {a a' b b' : F64} (ha : sameValue a' a) (hb : sameValue b' b) (ok : fIsNaN (fmul a b) = false) :
    sameValue (fmul a' b') (fmul a b) := by
  have finite {x x' : F64} (h : sameValue x' x) (hx : fIsFinite x = true) : fIsFinite x' = true := by
    rwa [fIsFinite, h.fields.1, ← fIsFinite]
  have zeros (z : fIsZero a = true ∨ fIsZero b = true) (z' : fIsZero a' = true ∨ fIsZero b' = true) :
      sameValue (fmul a' b') (fmul a b) := by
    obtain ⟨fa, fb⟩ := fIsFinite_of_fmul ok z
    exact .inr ⟨fIsZero_fmul (finite ha fa) (finite hb fb) z', fIsZero_fmul fa fb z⟩
  rcases ha with rfl | ⟨za', za⟩
  · rcases hb with rfl | ⟨zb', zb⟩
    · exact .refl _
    · exact zeros (.inr zb) (.inr zb')
  · exact zeros (.inl za) (.inl za')

/-- The square of a value that is no NaN does not depend on its sign. -/
theorem fmul_self_congr {a b : F64} (fields : fexp a = fexp b ∧ ffrac a = ffrac b) (ok : fIsNaN a = false) :
    fmul a a = fmul b b := by
  obtain ⟨exp, frac⟩ := fields
  have nan : fIsNaN a = fIsNaN b := by simp only [fIsNaN, exp, frac]
  have inf : fIsInf a = fIsInf b := by simp only [fIsInf, exp, frac]
  have zero : fIsZero a = fIsZero b := by simp only [fIsZero, exp, frac]
  have mant : fmant a = fmant b := by simp only [fmant, exp, frac]
  have scale : fscale a = fscale b := by simp only [fscale, exp]
  rw [nan] at ok
  cases top : fIsInf b with
  | true => simp [fmul, nan, inf, zero, ok, top, fIsZero_of_fIsInf top]
  | false => simp [fmul, nan, inf, ok, top, mant, scale]

/-! ### Sums and differences -/

theorem fsumFinite_comm (a b : F64) : fsumFinite a b = fsumFinite b a := by
  simp only [fsumFinite, min_comm (fscale b), add_comm (fsigned b * _), Bool.and_comm (fsign b)]

/-- A difference is the sum with the negative, but for the bits of a NaN. -/
theorem fsub_cases (a b : F64) :
    fsub a b = fadd a (fneg b) ∨ (fIsNaN (fsub a b) = true ∧ fIsNaN (fadd a (fneg b)) = true) := by
  unfold fsub fadd
  rw [fIsNaN_fneg]
  unfold fsum
  split_ifs
  · exact .inr ⟨fIsNaN_fnan _ _ _, fIsNaN_fnan _ _ _⟩
  · exact .inr ⟨fIsNaN_fnan _ _ _, fIsNaN_fnan _ _ _⟩
  all_goals exact .inl rfl

theorem fsub_eq_fadd {a b : F64} (ok : fIsNaN (fsub a b) = false) : fsub a b = fadd a (fneg b) :=
  (fsub_cases a b).resolve_right fun nan => by simp [nan.1] at ok

theorem fsub_eq_fadd_of_sum {a b : F64} (ok : fIsNaN (fadd a (fneg b)) = false) : fsub a b = fadd a (fneg b) :=
  (fsub_cases a b).resolve_right fun nan => by simp [nan.2] at ok

/-- The sum of two zeros is −0.0 only for two of them. -/
theorem fadd_zeros {a b : F64} (ha : fIsZero a = true) (hb : fIsZero b = true) : fadd a b = fpack (fsign a && fsign b) 0 := by
  have ma : fsigned a = 0 := by simp [fsigned, (fIsZero_iff a).mp ha]
  have mb : fsigned b = 0 := by simp [fsigned, (fIsZero_iff b).mp hb]
  rw [fadd_of_finite (fIsFinite_of_fIsZero ha) (fIsFinite_of_fIsZero hb), fsumFinite]
  simp [ma, mb, fround_zero]

/-- Adding a zero changes nothing, but for −0.0 + 0.0. -/
theorem fadd_zero {x z : F64} (hz : fIsZero z = true) (hx : fIsNaN x = false) (sign : fIsZero x = true → fsign x = false) :
    fadd x z = x ∧ fadd z x = x := by
  have fz := fIsFinite_of_fIsZero hz
  obtain ⟨nz, iz⟩ := (finite_iff z).mp fz
  by_cases inf : fIsInf x = true
  · simp [fadd, fsum, hx, nz, iz, inf]
  have fx : fIsFinite x = true := (finite_iff x).mpr ⟨hx, Bool.not_eq_true _ ▸ inf⟩
  have comm : fadd z x = fadd x z := by rw [fadd_of_finite fz fx, fadd_of_finite fx fz, fsumFinite_comm]
  rw [comm, and_self]
  by_cases zero : fIsZero x = true
  · rw [fadd_zeros zero hz, sign zero]
    exact eq_of_fields ((fsign_fpack _ _ (by decide)).trans (sign zero).symm)
      ((fields_of_fIsZero (fIsZero_fpack _)).1.trans (fields_of_fIsZero zero).1.symm)
      ((fields_of_fIsZero (fIsZero_fpack _)).2.trans (fields_of_fIsZero zero).2.symm)
  · have sum : fval x + fval z = fval x := by rw [(fIsZero_iff_fval z).mp hz, add_zero]
    have exact := fadd_exact (y := x) ⟨fx, rfl⟩ ⟨fz, rfl⟩ ⟨fx, sum.symm⟩
    rw [sum] at exact
    exact eq_of_isExactly exact ⟨fx, rfl⟩ (Bool.not_eq_true _ ▸ zero)

theorem fadd_zero_sameValue {x z : F64} (hz : fIsZero z = true) (hx : fIsNaN x = false) :
    sameValue (fadd x z) x ∧ sameValue (fadd z x) x := by
  by_cases zero : fIsZero x = true
  · rw [fadd_zeros zero hz, fadd_zeros hz zero]
    exact ⟨.inr ⟨fIsZero_fpack _, zero⟩, .inr ⟨fIsZero_fpack _, zero⟩⟩
  · obtain ⟨right, left⟩ := fadd_zero hz hx fun h => absurd h zero
    exact ⟨.inl right, .inl left⟩

/-- A sum depends on the values of its terms only, up to the sign of a zero. -/
theorem fadd_sameValue {a a' b b' : F64} (ha : sameValue a' a) (hb : sameValue b' b) (ok : fIsNaN (fadd a b) = false) :
    sameValue (fadd a' b') (fadd a b) := by
  obtain ⟨na, nb⟩ := fIsNaN_of_fadd ok
  have nb' : fIsNaN b' = false := hb.fIsNaN_eq.trans nb
  rcases ha with rfl | ⟨za', za⟩
  · rcases hb with rfl | ⟨zb', zb⟩
    · exact .refl _
    · exact (fadd_zero_sameValue zb' na).1.trans (fadd_zero_sameValue zb na).1.symm
  · exact ((fadd_zero_sameValue za' nb').2.trans hb).trans (fadd_zero_sameValue za nb).2.symm

/-- Negating both terms negates a sum in value. -/
theorem fadd_fneg {a b : F64} (ok : fIsNaN (fadd a b) = false) : sameValue (fadd (fneg a) (fneg b)) (fneg (fadd a b)) := by
  obtain ⟨na, nb⟩ := fIsNaN_of_fadd ok
  by_cases finite : fIsFinite a = true ∧ fIsFinite b = true
  · obtain ⟨fa, fb⟩ := finite
    have signed (x : F64) : fsigned (fneg x) = -fsigned x := by
      simp only [fsigned, fsign_fneg, fmant_fneg]
      cases fsign x <;> simp
    rw [fadd_of_finite fa fb, fadd_of_finite (by rwa [fIsFinite_fneg]) (by rwa [fIsFinite_fneg]), fsumFinite, fsumFinite]
    simp only [signed, fscale_fneg, neg_mul, ← neg_add, neg_eq_zero, Int.natAbs_neg]
    split_ifs with zero
    · rw [zero, Int.natAbs_zero, fround_zero, fround_zero, ← fpack_not]
      exact .inr ⟨fIsZero_fpack _, fIsZero_fpack _⟩
    · rw [← fround_not, ← decide_not]
      refine .inl (congrArg (fround · _ _) (decide_eq_decide.mpr ?_))
      omega
  · have signs : ((!fsign a) != (!fsign b)) = (fsign a != fsign b) := by cases fsign a <;> cases fsign b <;> rfl
    have inf : fIsInf a = true ∨ fIsInf b = true := by
      simp only [finite_iff, na, nb, true_and, ← Bool.not_eq_true] at finite
      tauto
    unfold fadd fsum at ok ⊢
    simp only [fIsNaN_fneg, fIsInf_fneg, fsign_fneg, signs]
    split_ifs at ok ⊢
    · simp [fIsNaN_fnan] at ok
    · simp [fIsNaN_fnan] at ok
    · exact .refl _
    · exact .refl _
    · tauto

/-! ### Values up to a change of sign -/

/-- `a'` is `a`, negated if `c`, up to the sign of a zero. -/
def AsFlipped (c : Bool) (a' a : F64) : Prop := sameValue a' (fflip c a)

theorem AsFlipped.fields {c : Bool} {a' a : F64} (h : AsFlipped c a' a) : fexp a' = fexp a ∧ ffrac a' = ffrac a := by
  simpa using sameValue.fields h

theorem asFlipped_fmul {c d : Bool} {a' a b' b : F64} (ha : AsFlipped c a' a) (hb : AsFlipped d b' b)
    (ok : fIsNaN (fmul a b) = false) : AsFlipped (c != d) (fmul a' b') (fmul a b) := by
  rw [AsFlipped, ← fmul_fflip ok]
  refine fmul_sameValue ha hb ?_
  rw [fmul_fflip ok, fIsNaN_fflip, ok]

/-- The sign of a sum flips with both its terms. -/
theorem asFlipped_fadd {c : Bool} {a' a b' b : F64} (ha : AsFlipped c a' a) (hb : AsFlipped c b' b)
    (ok : fIsNaN (fadd a b) = false) : AsFlipped c (fadd a' b') (fadd a b) := by
  have flipped : sameValue (fadd (fflip c a) (fflip c b)) (fflip c (fadd a b)) := by
    cases c
    · exact .refl _
    · exact fadd_fneg ok
  refine (fadd_sameValue ha hb ?_).trans flipped
  rw [flipped.fIsNaN_eq, fIsNaN_fflip, ok]

theorem asFlipped_fneg {c : Bool} {a' a : F64} (h : AsFlipped c a' a) : AsFlipped c (fneg a') (fneg a) := by
  rw [AsFlipped, fflip_fneg]
  rcases h with rfl | ⟨za', za⟩
  · exact .refl _
  · exact .inr ⟨(fIsZero_fneg _).trans za', (fIsZero_fneg _).trans za⟩

/-- The sign of a difference flips with both its terms. -/
theorem asFlipped_fsub {c : Bool} {a' a b' b : F64} (ha : AsFlipped c a' a) (hb : AsFlipped c b' b)
    (ok : fIsNaN (fsub a b) = false) : AsFlipped c (fsub a' b') (fsub a b) := by
  have sum := fsub_eq_fadd ok
  rw [sum] at ok ⊢
  have flipped := asFlipped_fadd ha (asFlipped_fneg hb) ok
  rwa [fsub_eq_fadd_of_sum]
  rw [sameValue.fIsNaN_eq flipped, fIsNaN_fflip, ok]

end Sys2Proof.Machine
end

section
/-! SUPPORT. The transform stage by stage, and the transform of an impulse (43_fft.md R181). -/

namespace Sys2Proof.Machine

/-! ### The transform up to a stage -/

/-- The buffer after bit reversal and the stages 1 to `m`. -/
def fftStages (sin : F64 → F64) (d : Dir) (n m : Nat) (buf : List Cplx) : List Cplx :=
  (List.range m).foldl (fun buf k => stageBody (k + 1) (twStage sin d (k + 1)) buf) (bitrev n buf)

theorem fftBody_eq_fftStages (sin : F64 → F64) (d : Dir) (n : Nat) (buf : List Cplx) :
    fftBody sin d n buf = fftStages sin d n n buf := rfl

theorem fftStages_zero (sin : F64 → F64) (d : Dir) (n : Nat) (buf : List Cplx) : fftStages sin d n 0 buf = bitrev n buf := rfl

theorem fftStages_succ (sin : F64 → F64) (d : Dir) (n m : Nat) (buf : List Cplx) :
    fftStages sin d n (m + 1) buf = stageBody (m + 1) (twStage sin d (m + 1)) (fftStages sin d n m buf) := by
  rw [fftStages, List.range_succ, List.foldl_append]
  rfl

@[simp] theorem length_fftStages (sin : F64 → F64) (d : Dir) (n m : Nat) (buf : List Cplx) :
    (fftStages sin d n m buf).length = buf.length :=
  (length_foldl_of_keeps _ (fun b _ => length_stageBody _ _ b) _ _).trans (length_bitrev _ _)

/-- The blocks of a stage fill the buffer. -/
theorem whole_blocks {m n : Nat} (le : m ≤ n) : 2 ^ n / 2 ^ m * 2 ^ m = 2 ^ n :=
  Nat.div_mul_cancel (Nat.pow_dvd_pow 2 le)

/-! ### Butterflies with a zero upper element -/

theorem isExactly_of_fIsZero {z : F64} (h : fIsZero z = true) : IsExactly z 0 :=
  ⟨fIsFinite_of_fIsZero h, (fIsZero_iff_fval z).mp h⟩

/-- A finite twiddle times zero is a zero. -/
theorem fIsZero_twMul_czero {w : Cplx} (re : fIsFinite w.re = true) (im : fIsFinite w.im = true) :
    fIsZero (twMul w czero).re = true ∧ fIsZero (twMul w czero).im = true := by
  have product {x : F64} (hx : fIsFinite x = true) : fIsZero (fmul x fzero) = true :=
    fIsZero_fmul hx (by decide) (.inr (by decide))
  refine ⟨fIsZero_fsub (isExactly_of_fIsZero (product re)) (isExactly_of_fIsZero (product im)), ?_⟩
  change fIsZero (fadd (fmul w.re fzero) (fmul w.im fzero)) = true
  rw [fadd_zeros (product re) (product im)]
  exact fIsZero_fpack _

theorem fsub_zero {x z : F64} (hz : fIsZero z = true) (hx : fIsNaN x = false) (sign : fIsZero x = true → fsign x = false) :
    fsub x z = x := by
  have sum : fadd x (fneg z) = x := (fadd_zero ((fIsZero_fneg z).trans hz) hx sign).1
  rw [fsub_eq_fadd_of_sum (by rw [sum, hx]), sum]

/-- Neither a NaN nor −0.0. -/
def AbsorbsZero (x : F64) : Prop := fIsNaN x = false ∧ (fIsZero x = true → fsign x = false)

theorem absorbsZero_fone : AbsorbsZero fone := ⟨by decide, by decide⟩

theorem absorbsZero_fzero : AbsorbsZero fzero := ⟨by decide, by decide⟩

/-- A butterfly with a finite twiddle and a zero upper element copies its lower one. -/
theorem getD_stageBody_of_zero_upper {n q j : Nat} (pos : 1 ≤ n) (hj : j < 2 ^ (n - 1)) {tw buf : List Cplx}
    (hq : q < buf.length / 2 ^ n) (upper : buf.getD (bflyHigh n q j) czero = czero)
    (finite : fIsFinite (tw.getD j czero).re = true ∧ fIsFinite (tw.getD j czero).im = true)
    (re : AbsorbsZero (buf.getD (bflyLow n q j) czero).re) (im : AbsorbsZero (buf.getD (bflyLow n q j) czero).im) :
    (stageBody n tw buf).getD (bflyLow n q j) czero = buf.getD (bflyLow n q j) czero ∧
    (stageBody n tw buf).getD (bflyHigh n q j) czero = buf.getD (bflyLow n q j) czero := by
  obtain ⟨sum, difference⟩ := getD_stageBody pos hj tw hq
  obtain ⟨zeroRe, zeroIm⟩ := fIsZero_twMul_czero finite.1 finite.2
  rw [upper, cadd, (fadd_zero zeroRe re.1 re.2).1, (fadd_zero zeroIm im.1 im.2).1] at sum
  rw [upper, csub, fsub_zero zeroRe re.1 re.2, fsub_zero zeroIm im.1 im.2] at difference
  exact ⟨sum, difference⟩

/-! ### The impulse -/

/-- (1, 0). -/
def cone : Cplx := ⟨fone, 0⟩

/-- The first `m` elements of a buffer of `N` are (1, 0), the others zero. -/
def OnesThenZeros (N m : Nat) (buf : List Cplx) : Prop :=
  buf.length = N ∧ ∀ k < N, buf.getD k czero = if k < m then cone else czero

theorem onesThenZeros_impulse (n : Nat) : OnesThenZeros (2 ^ n) 1 (cone :: List.replicate (2 ^ n - 1) czero) := by
  have pos := Nat.two_pow_pos n
  refine ⟨by simp only [List.length_cons, List.length_replicate]; omega, fun k hk => ?_⟩
  cases k with
  | zero => rfl
  | succ k => simp [List.getD, show k < 2 ^ n - 1 by omega]

theorem revBits_zero (n : Nat) : revBits n 0 = 0 := by
  induction n with
  | zero => rfl
  | succ n ih => simp [revBits, ih]

/-- Bit reversal leaves the impulse at index 0. -/
theorem OnesThenZeros.bitrev {n : Nat} {buf : List Cplx} (h : OnesThenZeros (2 ^ n) 1 buf) :
    OnesThenZeros (2 ^ n) 1 (bitrev n buf) := by
  obtain ⟨len, elements⟩ := h
  refine ⟨(length_bitrev _ _).trans len, fun k hk => ?_⟩
  rw [getD_bitrev len hk, elements _ (revBits_lt n k)]
  have fixed : revBits n k < 1 ↔ k < 1 := by
    simp only [Nat.lt_one_iff]
    constructor
    · intro zero
      rw [← revBits_revBits hk, zero, revBits_zero]
    · rintro rfl
      exact revBits_zero n
  simp only [fixed]

/-- A butterfly below 2^n is one of block 0, and its lower index is in the lower half. -/
theorem bfly_first_block {n q j : Nat} (pos : 1 ≤ n) (hj : j < 2 ^ (n - 1)) :
    (bflyLow n q j < 2 ^ n ↔ bflyLow n q j < 2 ^ (n - 1)) ∧ (bflyHigh n q j < 2 ^ n ↔ bflyLow n q j < 2 ^ (n - 1)) := by
  have half := two_pow_eq_double pos
  cases q with
  | zero =>
    rw [bflyHigh, bflyLow, Nat.zero_mul]
    omega
  | succ q =>
    have beyond : 2 ^ n ≤ (q + 1) * 2 ^ n := Nat.le_mul_of_pos_left _ q.succ_pos
    rw [bflyHigh, bflyLow]
    omega

/-- A stage with finite twiddles doubles the ones. -/
theorem OnesThenZeros.stageBody {n N : Nat} (pos : 1 ≤ n) (whole : N / 2 ^ n * 2 ^ n = N) {tw buf : List Cplx}
    (finite : ∀ j < 2 ^ (n - 1), fIsFinite (tw.getD j czero).re = true ∧ fIsFinite (tw.getD j czero).im = true)
    (h : OnesThenZeros N (2 ^ (n - 1)) buf) : OnesThenZeros N (2 ^ n) (stageBody n tw buf) := by
  obtain ⟨len, elements⟩ := h
  refine ⟨(length_stageBody _ _ _).trans len, fun k hk => ?_⟩
  obtain ⟨q, j, hq, hj, index⟩ := exists_butterfly pos whole hk
  have high := bflyHigh_lt pos hj hq
  have lower := elements _ ((bfly_in_block (q := q) pos hj).2.1.trans high)
  have beyond : 2 ^ (n - 1) ≤ bflyHigh n q j := Nat.le_add_left _ _
  have upper : buf.getD (bflyHigh n q j) czero = czero := by rw [elements _ high, if_neg beyond.not_gt]
  have copies := getD_stageBody_of_zero_upper pos hj (len.symm ▸ hq) upper (finite j hj)
  obtain ⟨lowFirst, highFirst⟩ := bfly_first_block (q := q) pos hj
  rw [lower] at copies
  obtain ⟨low, high⟩ := copies (by split <;> [exact absorbsZero_fone; exact absorbsZero_fzero])
    (by split <;> exact absorbsZero_fzero)
  rcases index with rfl | rfl
  · simp only [low, lowFirst]
  · simp only [high, highFirst]

/-- Settles O37: after stage m the first 2^m elements are (1, 0) and the others zero. -/
theorem fftOfImpulseIsFlat : Obligations.FftOfImpulseIsFlat := by
  intro sin d n _ _ finite
  have stages (m : Nat) (le : m ≤ n) :
      OnesThenZeros (2 ^ n) (2 ^ m) (fftStages sin d n m (cone :: List.replicate (2 ^ n - 1) czero)) := by
    induction m with
    | zero =>
      rw [fftStages_zero]
      exact (onesThenZeros_impulse n).bitrev
    | succ m ih =>
      rw [fftStages_succ]
      refine OnesThenZeros.stageBody m.succ_pos (whole_blocks le) (fun j hj => ?_) (ih (by omega))
      have inside : j < (twStage sin d (m + 1)).length := by rwa [twStage, length_twList]
      rw [← List.getElem_eq_getD (h := inside)]
      exact finite (m + 1) m.succ_pos le _ (List.getElem_mem inside)
  obtain ⟨len, elements⟩ := stages n le_rfl
  rw [fftBody_eq_fftStages]
  refine eq_of_getD_eq (len.trans List.length_replicate.symm) fun k hk => ?_
  rw [List.length_replicate] at hk
  rw [List.getD_replicate _ hk]
  exact (elements k hk).trans (if_pos hk)

end Sys2Proof.Machine
end

section
/-! SUPPORT. The inverse direction is the conjugate of the forward one, in the twiddle table and in the transform of real
input (43_fft.md R177, R182). -/

namespace Sys2Proof.Machine

/-! ### The seeds of the recurrence -/

theorem twTheta_inverse {s : Nat} (pos : 1 ≤ s) (le : s ≤ 11) : twTheta .inverse s = fneg (twTheta .forward s) := by
  interval_cases s <;> decide

theorem half_twTheta_inverse {s : Nat} (pos : 1 ≤ s) (le : s ≤ 11) :
    fmul fhalf (twTheta .inverse s) = fneg (fmul fhalf (twTheta .forward s)) := by
  interval_cases s <;> decide

section
variable {sin : F64 → F64} (odd : ∀ x, sin (fneg x) = fneg (sin x)) {s : Nat} (pos : 1 ≤ s) (le : s ≤ 11)
include odd pos le

theorem twWpi_inverse : twWpi sin .inverse s = fneg (twWpi sin .forward s) := by
  rw [twWpi, twTheta_inverse pos le, odd]
  rfl

/-- `wpr` holds the square of a sine, so the direction does not show in it. -/
theorem twWpr_inverse (ok : fIsNaN (twWpr sin .forward s) = false) : twWpr sin .inverse s = twWpr sin .forward s := by
  have inner := (fIsNaN_of_fmul ok).1
  rw [twWpr, half_twTheta_inverse pos le, odd, fmul_fneg_right inner]
  exact fmul_fflip (c := true) (d := true) ok

end

/-- `wpr` has its sign bit set. -/
theorem fsign_twWpr {sin : F64 → F64} {d : Dir} {s : Nat} (ok : fIsNaN (twWpr sin d s) = false) :
    fsign (twWpr sin d s) = true := by
  have minusTwo : fsign 0xC000000000000000#64 = true := by decide
  rw [twWpr] at ok ⊢
  rw [fsign_fmul ok, fsign_fmul (fIsNaN_of_fmul ok).1, minusTwo]
  cases fsign (sin (fmul fhalf (twTheta d s))) <;> rfl

/-! ### One step of the recurrence -/

theorem fsub_zeros {a b : F64} (ha : fIsZero a = true) (hb : fIsZero b = true) :
    fsub a b = fpack (fsign a && !fsign b) 0 := by
  have sum := fadd_zeros ha ((fIsZero_fneg b).trans hb)
  rw [fsub_eq_fadd_of_sum (by rw [sum, fIsNaN_of_fIsZero (fIsZero_fpack _)]), sum, fsign_fneg]

/-- The real part of the recurrence does not see the sign of a zero that it subtracts: with p negative, r·p − z is +0.0 where
r is −0.0. -/
theorem twRe_sameValue {r p b b' : F64} (sign : fsign p = true) (same : sameValue b' b)
    (ok : fIsNaN (fadd (fsub (fmul r p) b) r) = false) : fadd (fsub (fmul r p) b') r = fadd (fsub (fmul r p) b) r := by
  obtain ⟨okSub, okR⟩ := fIsNaN_of_fadd ok
  have okProduct := (fIsNaN_of_fsub okSub).1
  rcases same with rfl | ⟨zb', zb⟩
  · rfl
  by_cases zero : fIsZero (fmul r p) = true
  · by_cases absorbs : AbsorbsZero r
    · have sum {z : F64} (hz : fIsZero z = true) : fadd (fsub (fmul r p) z) r = r := by
        rw [fsub_zeros zero hz]
        exact (fadd_zero (fIsZero_fpack _) absorbs.1 absorbs.2).2
      rw [sum zb', sum zb]
    · have minusZero : fsign r = true := by
        by_contra plus
        exact absorbs ⟨okR, fun _ => Bool.not_eq_true _ ▸ plus⟩
      have plus : fsign (fmul r p) = false := by rw [fsign_fmul okProduct, minusZero, sign]; rfl
      rw [fsub_zeros zero zb', fsub_zeros zero zb, plus, Bool.false_and, Bool.false_and]
  · have nonzero (h : fIsZero (fmul r p) = true) : fsign (fmul r p) = false := absurd h zero
    rw [fsub_zero zb' okProduct nonzero, fsub_zero zb okProduct nonzero]

/-! ### Conjugates -/

/-- Zero is its own negative in value. -/
theorem asFlipped_fzero : AsFlipped true fzero fzero := .inr ⟨by decide, by decide⟩

/-- No part is a NaN. -/
def NoNaN (z : Cplx) : Prop := fIsNaN z.re = false ∧ fIsNaN z.im = false

/-- `z'` is the conjugate of `z`, up to the signs of zeros. -/
def IsConj (z' z : Cplx) : Prop := AsFlipped false z'.re z.re ∧ AsFlipped true z'.im z.im

theorem noNaN_of_twNext {wpr wpi : F64} {w : Cplx} (ok : NoNaN (twNext wpr wpi w)) :
    NoNaN w ∧ fIsNaN wpr = false ∧ fIsNaN wpi = false := by
  obtain ⟨re, nanRe⟩ := fIsNaN_of_fadd ok.1
  obtain ⟨rr, ii⟩ := fIsNaN_of_fsub re
  exact ⟨⟨nanRe, (fIsNaN_of_fadd ok.2).2⟩, (fIsNaN_of_fmul rr).2, (fIsNaN_of_fmul ii).2⟩

/-- The recurrence keeps conjugates: the real part bit for bit, the imaginary part negated in value. -/
theorem twNext_conj {wpr wpi : F64} {w w' : Cplx} (sign : fsign wpr = true) (re : w'.re = w.re)
    (im : AsFlipped true w'.im w.im) (ok : NoNaN (twNext wpr wpi w)) :
    (twNext wpr (fneg wpi) w').re = (twNext wpr wpi w).re ∧
    AsFlipped true (twNext wpr (fneg wpi) w').im (twNext wpr wpi w).im := by
  have wprSame : AsFlipped false wpr wpr := .refl _
  have wpiFlipped : AsFlipped true (fneg wpi) wpi := .refl _
  have reSame : AsFlipped false w'.re w.re := .inl re
  obtain ⟨okRe, okIm⟩ := ok
  have okSub := (fIsNaN_of_fadd okRe).1
  have okSum := (fIsNaN_of_fadd okIm).1
  obtain ⟨okLeft, okRight⟩ := fIsNaN_of_fadd okSum
  constructor
  · have product : sameValue (fmul w'.im (fneg wpi)) (fmul w.im wpi) :=
      asFlipped_fmul im wpiFlipped (fIsNaN_of_fsub okSub).2
    simp only [twNext, re]
    exact twRe_sameValue sign product okRe
  · exact asFlipped_fadd (asFlipped_fadd (asFlipped_fmul im wprSame okLeft) (asFlipped_fmul reSame wpiFlipped okRight) okSum)
      im okIm

/-- The entries of the inverse direction, as long as the forward ones are no NaN (R177). -/
theorem twAt_inverse {sin : F64 → F64} (odd : ∀ x, sin (fneg x) = fneg (sin x)) {s : Nat} (pos : 1 ≤ s) (le : s ≤ 11)
    {j : Nat} (ok : ∀ k ≤ j, NoNaN (twAt sin .forward s k)) :
    (twAt sin .inverse s j).re = (twAt sin .forward s j).re ∧
    AsFlipped true (twAt sin .inverse s j).im (twAt sin .forward s j).im := by
  induction j with
  | zero =>
    simp only [twAt_zero]
    exact ⟨trivial, asFlipped_fzero⟩
  | succ j ih =>
    obtain ⟨re, im⟩ := ih fun k hk => ok k (by omega)
    have next := ok (j + 1) le_rfl
    rw [twAt_succ] at next
    obtain ⟨-, okWpr, -⟩ := noNaN_of_twNext next
    rw [twAt_succ, twAt_succ, twWpr_inverse odd pos le okWpr, twWpi_inverse odd pos le]
    exact twNext_conj (fsign_twWpr okWpr) re im next

/-- Settles O39: the direction negates the angle, and the recurrence keeps conjugates. -/
theorem inverseTwiddlesAreConjugate : Obligations.InverseTwiddlesAreConjugate := by
  intro sin odd s j pos le hj ok
  have forward (k : Nat) (hk : k ≤ j) : NoNaN (twAt sin .forward s k) := by
    have entry := ok k hk
    rwa [twEntry_eq_twAt sin .forward pos (by omega)] at entry
  rw [twEntry_eq_twAt sin .forward pos hj, twEntry_eq_twAt sin .inverse pos hj]
  exact twAt_inverse odd pos le forward

/-! ### Butterflies of conjugates -/

theorem noNaN_of_twMul {w y : Cplx} (ok : NoNaN (twMul w y)) : NoNaN w ∧ NoNaN y := by
  obtain ⟨rr, ii⟩ := fIsNaN_of_fsub ok.1
  obtain ⟨wr, yr⟩ := fIsNaN_of_fmul rr
  obtain ⟨wi, yi⟩ := fIsNaN_of_fmul ii
  exact ⟨⟨wr, wi⟩, ⟨yr, yi⟩⟩

theorem noNaN_of_cadd {x t : Cplx} (ok : NoNaN (cadd x t)) : NoNaN x ∧ NoNaN t := by
  obtain ⟨xr, tr⟩ := fIsNaN_of_fadd ok.1
  obtain ⟨xi, ti⟩ := fIsNaN_of_fadd ok.2
  exact ⟨⟨xr, xi⟩, ⟨tr, ti⟩⟩

theorem isConj_twMul {w w' y y' : Cplx} (hw : IsConj w' w) (hy : IsConj y' y) (ok : NoNaN (twMul w y)) :
    IsConj (twMul w' y') (twMul w y) := by
  obtain ⟨rr, ii⟩ := fIsNaN_of_fsub ok.1
  obtain ⟨ri, ir⟩ := fIsNaN_of_fadd ok.2
  exact ⟨asFlipped_fsub (asFlipped_fmul hw.1 hy.1 rr) (asFlipped_fmul hw.2 hy.2 ii) ok.1,
    asFlipped_fadd (asFlipped_fmul hw.1 hy.2 ri) (asFlipped_fmul hw.2 hy.1 ir) ok.2⟩

theorem isConj_cadd {x x' t t' : Cplx} (hx : IsConj x' x) (ht : IsConj t' t) (ok : NoNaN (cadd x t)) :
    IsConj (cadd x' t') (cadd x t) :=
  ⟨asFlipped_fadd hx.1 ht.1 ok.1, asFlipped_fadd hx.2 ht.2 ok.2⟩

theorem isConj_csub {x x' t t' : Cplx} (hx : IsConj x' x) (ht : IsConj t' t) (ok : NoNaN (csub x t)) :
    IsConj (csub x' t') (csub x t) :=
  ⟨asFlipped_fsub hx.1 ht.1 ok.1, asFlipped_fsub hx.2 ht.2 ok.2⟩

/-! ### Stages of conjugates -/

section
variable {n N : Nat} (pos : 1 ≤ n) (whole : N / 2 ^ n * 2 ^ n = N) {tw buf : List Cplx} (len : buf.length = N)
  (ok : ∀ k < N, NoNaN ((stageBody n tw buf).getD k czero))
include pos len ok

/-- A butterfly whose sum is no NaN has no NaN in its operands and its twiddle. -/
theorem noNaN_of_butterfly {q j : Nat} (hq : q < N / 2 ^ n) (hj : j < 2 ^ (n - 1)) :
    NoNaN (buf.getD (bflyLow n q j) czero) ∧ NoNaN (twMul (tw.getD j czero) (buf.getD (bflyHigh n q j) czero)) := by
  have sum := ok _ ((bfly_in_block (q := q) pos hj).2.1.trans (bflyHigh_lt pos hj hq))
  rw [(getD_stageBody pos hj tw (len.symm ▸ hq)).1] at sum
  exact noNaN_of_cadd sum

include whole

/-- A stage whose result holds no NaN began with none. -/
theorem noNaN_of_stageBody {k : Nat} (hk : k < N) : NoNaN (buf.getD k czero) := by
  obtain ⟨q, j, hq, hj, rfl | rfl⟩ := exists_butterfly pos whole hk
  · exact (noNaN_of_butterfly pos len ok hq hj).1
  · exact (noNaN_of_twMul (noNaN_of_butterfly pos len ok hq hj).2).2

/-- Its twiddles hold none either. -/
theorem noNaN_twiddles_of_stageBody (nonempty : 0 < N) {j : Nat} (hj : j < 2 ^ (n - 1)) : NoNaN (tw.getD j czero) := by
  have block : 0 < N / 2 ^ n := Nat.pos_of_ne_zero fun none => by
    rw [none, Nat.zero_mul] at whole
    omega
  exact (noNaN_of_twMul (noNaN_of_butterfly pos len ok block hj).2).1

/-- A stage makes conjugates of conjugates. -/
theorem isConj_stageBody {tw' buf' : List Cplx} (len' : buf'.length = N)
    (twiddles : ∀ j < 2 ^ (n - 1), IsConj (tw'.getD j czero) (tw.getD j czero))
    (elements : ∀ k < N, IsConj (buf'.getD k czero) (buf.getD k czero)) {k : Nat} (hk : k < N) :
    IsConj ((stageBody n tw' buf').getD k czero) ((stageBody n tw buf).getD k czero) := by
  obtain ⟨q, j, hq, hj, index⟩ := exists_butterfly pos whole hk
  have high := bflyHigh_lt pos hj hq
  have low := (bfly_in_block (q := q) pos hj).2.1.trans high
  have product := isConj_twMul (twiddles j hj) (elements _ high) (noNaN_of_butterfly pos len ok hq hj).2
  have pair := getD_stageBody pos hj tw (len.symm ▸ hq)
  have pair' := getD_stageBody pos hj tw' (len'.symm ▸ hq)
  have okK := ok k hk
  rcases index with rfl | rfl
  · rw [pair.1] at okK
    rw [pair.1, pair'.1]
    exact isConj_cadd (elements _ low) product okK
  · rw [pair.2] at okK
    rw [pair.2, pair'.2]
    exact isConj_csub (elements _ low) product okK

end

/-! ### The transform of real input (R182) -/

/-- Real input is its own conjugate, also after bit reversal. -/
theorem isConj_bitrev_real {n : Nat} {xs : List F64} (len : xs.length = 2 ^ n) {k : Nat} (hk : k < 2 ^ n) :
    IsConj ((bitrev n (xs.map fun v => ⟨v, 0⟩)).getD k czero) ((bitrev n (xs.map fun v => ⟨v, 0⟩)).getD k czero) := by
  have inside : revBits n k < (xs.map fun v => Cplx.mk v 0).length := by
    rw [List.length_map, len]
    exact revBits_lt n k
  rw [getD_bitrev ((List.length_map _).trans len) hk, ← List.getElem_eq_getD (h := inside), List.getElem_map]
  exact ⟨.refl _, asFlipped_fzero⟩

/-- After every stage the inverse transform of real input is the conjugate of the forward one. -/
theorem isConj_fftStages {sin : F64 → F64} (odd : ∀ x, sin (fneg x) = fneg (sin x)) {n : Nat} (small : n ≤ 11)
    {xs : List F64} (len : xs.length = 2 ^ n) {m : Nat} (le : m ≤ n)
    (ok : ∀ k < 2 ^ n, NoNaN ((fftStages sin .forward n m (xs.map fun v => ⟨v, 0⟩)).getD k czero)) {k : Nat}
    (hk : k < 2 ^ n) :
    IsConj ((fftStages sin .inverse n m (xs.map fun v => ⟨v, 0⟩)).getD k czero)
      ((fftStages sin .forward n m (xs.map fun v => ⟨v, 0⟩)).getD k czero) := by
  induction m generalizing k with
  | zero =>
    rw [fftStages_zero, fftStages_zero]
    exact isConj_bitrev_real len hk
  | succ m ih =>
    have len (d : Dir) : (fftStages sin d n m (xs.map fun v => Cplx.mk v 0)).length = 2 ^ n := by
      rw [length_fftStages, List.length_map, len]
    have whole := whole_blocks le
    simp only [fftStages_succ] at ok ⊢
    have twiddle (j : Nat) (hj : j < 2 ^ m) : NoNaN (twAt sin .forward (m + 1) j) := by
      have entry := noNaN_twiddles_of_stageBody m.succ_pos whole (len .forward) ok (Nat.two_pow_pos n) hj
      rwa [getD_twStage sin .forward hj] at entry
    refine isConj_stageBody m.succ_pos whole (len .forward) ok (len .inverse) (fun j hj => ?_)
      (fun k hk => ih (by omega) (fun k hk => noNaN_of_stageBody m.succ_pos whole (len .forward) ok hk) hk) hk
    rw [getD_twStage sin .forward hj, getD_twStage sin .inverse hj]
    have conj := twAt_inverse odd m.succ_pos (le.trans small) (j := j) fun k hk => twiddle k (hk.trans_lt hj)
    exact ⟨.inl conj.1, conj.2⟩

/-- Conjugates have one magnitude, bit for bit. -/
theorem magnitude_of_isConj {z z' : Cplx} (h : IsConj z' z) (ok : NoNaN z) : magnitude z' = magnitude z := by
  obtain ⟨⟨exp, frac⟩, ⟨exp', frac'⟩⟩ := And.intro h.1.fields h.2.fields
  rw [magnitude, magnitude, fmul_self_congr ⟨exp.symm, frac.symm⟩ ok.1, fmul_self_congr ⟨exp'.symm, frac'.symm⟩ ok.2]

/-- Settles O40: the two transforms are conjugates, element by element. -/
theorem directionDoesNotChangeMagnitudes : Obligations.DirectionDoesNotChangeMagnitudes := by
  intro sin odd n xs _ small len ok
  simp only [fftBody_eq_fftStages] at ok ⊢
  have size (d : Dir) : (fftStages sin d n n (xs.map fun v => Cplx.mk v 0)).length = 2 ^ n := by
    rw [length_fftStages, List.length_map, len]
  have forward (k : Nat) (hk : k < 2 ^ n) :
      NoNaN ((fftStages sin .forward n n (xs.map fun v => ⟨v, 0⟩)).getD k czero) := by
    rw [← List.getElem_eq_getD (h := by rwa [size])]
    exact ok _ (List.getElem_mem _)
  refine List.ext_getElem (by simp) fun k _ hk => ?_
  rw [List.length_map, size] at hk
  rw [List.getElem_map, List.getElem_map, List.getElem_eq_getD czero, List.getElem_eq_getD czero]
  exact magnitude_of_isConj (isConj_fftStages odd small len le_rfl forward hk) (forward k hk)

end Sys2Proof.Machine
end

section
/-! SUPPORT. What the end of a command leaves the host to see: a fault and nothing else, or the command's own conditions, and
the interrupt line (60_exceptions.md R222 to R230). -/

namespace Sys2Proof.Machine

/-! ### Faults (R222) -/

/-- Settles O9: a completion leaves ERRCODE 0, so a state with another ERRCODE comes from the fault entry. -/
theorem faultedCommandChangesNothing : Obligations.FaultedCommandChangesNothing := by
  intro i s t run fault
  rcases exec_cases run with ⟨u, -, rfl⟩ | ⟨code, rfl⟩
  · exact absurd rfl fault
  · rfl

/-! ### Conditions (R224) -/

/-- On the way from `s` to `u` no condition was flagged but those of `own`. -/
def FlagsOnly (own : BitVec 4) (s u : State) : Prop := u.cmask &&& ~~~ own = s.cmask &&& ~~~ own

theorem FlagsOnly.of_cmask_eq {own : BitVec 4} {s u : State} (same : u.cmask = s.cmask) : FlagsOnly own s u :=
  congrArg (· &&& ~~~ own) same

theorem FlagsOnly.flag {own bit : BitVec 4} {s u : State} (h : FlagsOnly own s u) (owned : bit &&& ~~~ own = 0) :
    FlagsOnly own s (u.flag bit) := by
  rw [FlagsOnly, State.flag_cmask, BitVec.and_or_distrib_right, owned, h]
  exact BitVec.or_zero

theorem FlagsOnly.flagIf {own bit : BitVec 4} {s u : State} (h : FlagsOnly own s u) (owned : bit &&& ~~~ own = 0)
    (c : Bool) : FlagsOnly own s (u.flagIf c bit) := by
  cases c
  · exact h
  · exact h.flag owned

/-- A codec rule flags what it flags at the right length, and PARSE_FAIL at any other (R111). -/
theorem FlagsOnly.of_withLength {own : BitVec 4} {expected len : Nat} {s v u : State}
    (h : withLength expected len s v = .ok u) (owned : parseFail &&& ~~~ own = 0) (right : FlagsOnly own s v) :
    FlagsOnly own s u := by
  rw [withLength_eq_ok.mp h]
  split
  · exact right
  · exact FlagsOnly.flag (s := s) (u := s) rfl owned

/-- XFDEC owns both of its conditions. -/
theorem xfdec_owns (len : Nat) :
    parseFail &&& ~~~ conditionsOf (.xfdec len) = 0 ∧ badValue &&& ~~~ conditionsOf (.xfdec len) = 0 := by
  have both : conditionsOf (.xfdec len) = parseFail ||| badValue := rfl
  rw [both]
  decide

/-- The table of R224, rule by rule. -/
theorem ruleOf_flagsOnly {i : Instr} {s u : State} (h : ruleOf i s = .ok u) : FlagsOnly (conditionsOf i) s u := by
  cases i with
  | nop | bcclr | rpclr => cases h; exact .of_cmask_eq rfl
  | kfdecM len | kfdecB len | rngdec len | errtok len => exact .of_withLength h (BitVec.and_not_self parseFail) (.of_cmask_eq rfl)
  | xfdec len => exact .of_withLength h (xfdec_owns len).1 (FlagsOnly.flagIf (.of_cmask_eq rfl) (xfdec_owns len).2 _)
  | kfencM | kfencB => cases h; exact FlagsOnly.flagIf (.of_cmask_eq rfl) rfl _
  | bcpush =>
    simp only [ruleOf, bcpushRule] at h
    split at h
    · cases h
      exact FlagsOnly.flagIf (.of_cmask_eq rfl) rfl _
    · cases h
  | load =>
    obtain ⟨-, h⟩ := withSize_eq_ok.mp h
    cases h
    exact FlagsOnly.flagIf (.of_cmask_eq rfl) rfl _
  | rppush | win | fftF | fftI | mag | bitrev =>
    obtain ⟨-, h⟩ := withSize_eq_ok.mp h
    cases h
    exact .of_cmask_eq rfl
  | stageF n | stageI n | peaks =>
    obtain ⟨-, h⟩ := withSize_eq_ok.mp h
    split at h
    · cases h
      exact .of_cmask_eq rfl
    · cases h
  | norm =>
    obtain ⟨-, h⟩ := withSize_eq_ok.mp h
    split at h
    · cases h
    · cases h
      exact .of_cmask_eq rfl

/-- Settles O13: ERRMASK is the mask that the rule made of the empty one, or 0 after a fault. -/
theorem conditionsOnlyFromTheirCommands : Obligations.ConditionsOnlyFromTheirCommands := by
  intro i s t run
  rw [exec_eq_runCommand] at run
  rcases runCommand_cases _ _ _ run with ⟨u, rule, rfl⟩ | ⟨code, -, rfl⟩
  · exact (ruleOf_flagsOnly rule).trans BitVec.zero_and
  · exact BitVec.zero_and

/-! ### The interrupt (R230) -/

theorem irq_iff (s : State) : s.irq = true ↔ (s.status.done = true ∧ s.ctrl.ieDone = true) ∨
    ((s.status.err = true ∨ s.status.ovr = true ∨ s.status.haz = true ∨ s.status.berr = true) ∧ s.ctrl.ieErr = true) := by
  simp only [State.irq, Bool.or_eq_true, Bool.and_eq_true, or_assoc]

/-- Settles O54: every command sets DONE and leaves the enables. -/
theorem interruptFollowsStatus : Obligations.InterruptFollowsStatus := by
  refine ⟨irq_iff, rfl, fun i s t enabled run => (irq_iff t).mpr (.inl ?_)⟩
  obtain ⟨-, -, done, -⟩ := completionWritesItsFields i s t run
  obtain ⟨⟨-, -, -, ctrl, -⟩, -⟩ := commandsLeaveOtherRegisters i s t run
  exact ⟨done, ctrl ▸ enabled⟩

end Sys2Proof.Machine
end

section
/-! SUPPORT. Host accesses while the engine is busy: a running command and the reset sequence (20_memory.md R65,
70_reset_and_hazards.md R250 to R253, R260, R261). -/

namespace Sys2Proof.Machine

/-! ### The addresses that a busy engine treats apart -/

/-- Only a register's own address names it (R47). -/
theorem target_eq_reg_iff {addr : Addr} {r : Reg} : target addr = .reg r ↔ addr = r.addr := by
  refine ⟨fun named => ?_, fun h => h ▸ target_regAddr r⟩
  rcases target_cases addr with ⟨r', rfl⟩ | ⟨-, other⟩ | ⟨-, other⟩ | ⟨window, -, -⟩ | ⟨-, other⟩
  · rw [target_regAddr] at named
    rw [Target.reg.inj named]
  · exact absurd (named.symm.trans other) nofun
  · exact absurd (named.symm.trans other) nofun
  · obtain ⟨aligned, window⟩ := (isReadOnlyWindow_iff _).mp window
    rw [target_eq_of_window aligned (by omega)] at named
    rcases window with w | w | w
    · simp (disch := omega) only [if_pos, if_neg] at named
      split at named <;> cases named
    all_goals
      simp (disch := omega) only [if_pos, if_neg] at named
      cases named
  · exact absurd (named.symm.trans other) nofun

/-- The registers that read normally while the engine is busy (R252, R261). -/
theorem alwaysReadable_target_iff {addr : Addr} : (target addr).alwaysReadable = true ↔
    addr = 0x000 ∨ addr = 0x008 ∨ addr = 0x010 ∨ addr = 0x018 := by
  have registers (t : Target) : t.alwaysReadable = true ↔
      t = .reg .id ∨ t = .reg .cap ∨ t = .reg .ctrl ∨ t = .reg .status := by
    unfold Target.alwaysReadable
    split <;> simp_all
  rw [registers, target_eq_reg_iff, target_eq_reg_iff, target_eq_reg_iff, target_eq_reg_iff]
  rfl

theorem alwaysReadable_target_of_ne {addr : Addr} (id : addr ≠ 0x000) (cap : addr ≠ 0x008) (ctrl : addr ≠ 0x010)
    (status : addr ≠ 0x018) : (target addr).alwaysReadable = false := by
  rw [Bool.eq_false_iff, ne_eq, alwaysReadable_target_iff, not_or, not_or, not_or]
  exact ⟨id, cap, ctrl, status⟩

/-- A soft reset is a write to CTRL with SRST = 1 (R251). -/
theorem isSoftReset_target_iff {addr : Addr} {v : Word} :
    isSoftReset (target addr) v = true ↔ addr = 0x010 ∧ v.getLsbD 8 = true := by
  rw [isSoftReset, Bool.and_eq_true, decide_eq_true_iff, target_eq_reg_iff]
  rfl

theorem isSoftReset_target_eq_false {addr : Addr} {v : Word} (noReset : addr = 0x010 → v.getLsbD 8 = false) :
    isSoftReset (target addr) v = false := by
  rw [Bool.eq_false_iff, ne_eq, isSoftReset_target_iff, not_and, Bool.not_eq_true]
  exact noReset

/-! ### Reads -/

/-- ID, CAP, CTRL and STATUS read alike in every engine state (R252, R261). -/
theorem hostRead_of_alwaysReadable {r : Reg} (always : (Target.reg r).alwaysReadable = true) (s : State) :
    s.hostRead r.addr = s.reply (s.readReg r) := by
  unfold State.hostRead
  rw [target_regAddr]
  cases s.engine with
  | idle => rfl
  | run c left => exact if_pos always
  | reset left => exact if_pos always

/-- The step of such a read, with the engine state and the word it comes to. -/
theorem step_read_of_alwaysReadable {s : State} (turn : s.isHostTurn = true) {e : Engine} (tick : s.engine.tick = e)
    {r : Reg} (always : (Target.reg r).alwaysReadable = true) {rest : List HostEvent}
    (event : s.inbox = .read r.addr :: rest) {w : Word} (word : { s with engine := e, inbox := rest }.readReg r = w) :
    step s = .next { s with engine := e, inbox := rest, replies := w :: s.replies } := by
  rw [step_read_of_isHostTurn turn event, tick, hostRead_of_alwaysReadable always, word]
  rfl

/-! ### While a command runs (R260, R261) -/

theorem isHostTurn_of_running {s : State} {c : Word} {left : Nat} (running : s.engine = .run c (left + 1)) :
    s.isHostTurn = true := by
  rw [State.isHostTurn, running]

theorem tick_of_running {s : State} {c : Word} {left : Nat} (running : s.engine = .run c (left + 1)) :
    s.engine.tick = .run c left := by
  rw [running]
  rfl

/-- Any other read that is no bus error is a hazard and returns a free value (R261). -/
theorem step_hazardRead_of_running {s : State} {c : Word} {left : Nat} (running : s.engine = .run c (left + 1)) {addr : Addr}
    {rest : List HostEvent} (event : s.inbox = .read addr :: rest) (mapped : (target addr).readError = false)
    (other : (target addr).alwaysReadable = false) :
    step s = .next ({ s with engine := .run c left, inbox := rest }.replyFree.setHaz) := by
  rw [step_read_of_isHostTurn (isHostTurn_of_running running) event, tick_of_running running]
  simp [State.hostRead, State.readRunning, mapped, other]

/-- A write acts as the running engine lets it, unless it asks for a reset (R251, R260). -/
theorem step_write_of_running {s : State} {c : Word} {left : Nat} (running : s.engine = .run c (left + 1)) {addr : Addr}
    {v : Word} {rest : List HostEvent} (event : s.inbox = .write addr v :: rest)
    (noReset : addr = 0x010 → v.getLsbD 8 = false) :
    step s = .next ({ s with engine := .run c left, inbox := rest }.writeRunning (target addr) v) := by
  rw [step_write_of_isHostTurn (isHostTurn_of_running running) event, tick_of_running running]
  simp [State.hostWrite, isSoftReset_target_eq_false noReset]

/-- A write to anything but CTRL, STATUS and CMD that is no bus error is dropped as a hazard (R261). -/
theorem writeRunning_of_other {t : Target} (mapped : t.writeError = false) (ctrl : t ≠ .reg .ctrl)
    (status : t ≠ .reg .status) (cmd : t ≠ .reg .cmd) (v : Word) (s : State) : s.writeRunning t v = s.setHaz := by
  simp [State.writeRunning, mapped, ctrl, status, cmd]

/-- Settles O52: the four registers read as ever, and the other accesses are told apart by what their address names. -/
theorem accessesWhileRunning : Obligations.AccessesWhileRunning := by
  intro s c left addr v rest running s'
  have turn := isHostTurn_of_running running
  have tick := tick_of_running running
  have active : s.isResetting = false := by rw [State.isResetting, running]
  obtain ⟨readFails, writeFails⟩ := busErrorsSetBerr s addr v rest turn active
  rw [tick] at readFails writeFails
  constructor
  · intro event
    refine ⟨?_, ?_, ?_, ?_, fun unmapped => readFails unmapped event, fun mapped id cap ctrl status => ?_⟩
    · rintro rfl
      exact step_read_of_alwaysReadable turn tick (r := .id) rfl event rfl
    · rintro rfl
      exact step_read_of_alwaysReadable turn tick (r := .cap) rfl event rfl
    · rintro rfl
      exact step_read_of_alwaysReadable turn tick (r := .ctrl) rfl event (ctrlWord_eq s.ctrl)
    · rintro rfl
      exact step_read_of_alwaysReadable turn tick (r := .status) rfl event (statusWord_eq _)
    · exact ⟨_, step_hazardRead_of_running running event (by rw [readError_target, mapped]; rfl)
        (alwaysReadable_target_of_ne id cap ctrl status)⟩
  · intro event
    refine ⟨?_, ?_, ?_, fun unmapped => writeFails unmapped event, fun mapped ctrl status cmd => ?_⟩
    · rintro rfl noReset
      exact step_write_of_running running event fun _ => noReset
    · rintro rfl
      exact step_write_of_running running event nofun
    · rintro rfl
      exact step_write_of_running running event nofun
    · rw [step_write_of_running running event (absurd · ctrl),
        writeRunning_of_other (by rw [writeError_target, mapped]; rfl) (target_eq_reg_iff.not.mpr ctrl)
          (target_eq_reg_iff.not.mpr status) (target_eq_reg_iff.not.mpr cmd)]
      rfl

/-! ### The reset sequence (R250 to R253) -/

theorem isHostTurn_of_resetting {s : State} {left : Nat} (resetting : s.engine = .reset (left + 1)) :
    s.isHostTurn = true := by
  rw [State.isHostTurn, resetting]

theorem tick_of_resetting {s : State} {left : Nat} (resetting : s.engine = .reset (left + 1)) :
    s.engine.tick = .reset left := by
  rw [resetting]
  rfl

/-- The reset input or a soft reset starts the sequence in any engine state (R250, R251). -/
theorem step_of_isReset {s : State} (turn : s.isHostTurn = true) {e : HostEvent} {rest : List HostEvent}
    (event : s.inbox = e :: rest) (reset : e.isReset = true) :
    step s = .next { s with engine := s.engine.tick, inbox := rest }.startReset := by
  cases e with
  | read addr => cases reset
  | wait => cases reset
  | write addr v =>
    have soft : isSoftReset (target addr) v = true := reset
    rw [step_write_of_isHostTurn turn event, State.hostWrite, if_pos soft]
  | powerOn =>
    rw [step_of_isHostTurn turn, State.hostTurn, event]
    rfl

/-- During the sequence every other write is dropped (R252). -/
theorem step_write_of_resetting {s : State} {left : Nat} (resetting : s.engine = .reset (left + 1)) {addr : Addr}
    {v : Word} {rest : List HostEvent} (event : s.inbox = .write addr v :: rest)
    (noReset : addr = 0x010 → v.getLsbD 8 = false) :
    step s = .next { s with engine := .reset left, inbox := rest } := by
  rw [step_write_of_isHostTurn (isHostTurn_of_resetting resetting) event, tick_of_resetting resetting]
  simp [State.hostWrite, isSoftReset_target_eq_false noReset]

/-- During the sequence any read but ID, CAP, CTRL and STATUS returns a free value (R252). -/
theorem step_freeRead_of_resetting {s : State} {left : Nat} (resetting : s.engine = .reset (left + 1)) {addr : Addr}
    {rest : List HostEvent} (event : s.inbox = .read addr :: rest) (other : (target addr).alwaysReadable = false) :
    step s = .next { s with engine := .reset left, inbox := rest }.replyFree := by
  rw [step_read_of_isHostTurn (isHostTurn_of_resetting resetting) event, tick_of_resetting resetting]
  simp [State.hostRead, State.readResetting, other]

/-- Settles O53: the invariant fixes what CTRL and STATUS read during the sequence and what its end leaves. -/
theorem resetSequence : Obligations.ResetSequence := by
  refine ⟨fun s e rest turn event reset => ?_, fun s left addr v rest resetting event noReset => ?_,
    fun s left addr rest inv resetting event => ?_, fun s inv resetting => ?_⟩
  · have reset : e.isReset = true := by
      rcases reset with rfl | ⟨v, srst, rfl⟩
      · rfl
      · exact isSoftReset_target_iff.mpr ⟨rfl, srst⟩
    exact step_of_isReset turn event reset
  · exact step_write_of_resetting resetting event fun ctrl => noReset.resolve_left (not_not.mpr ctrl)
  · have turn := isHostTurn_of_resetting resetting
    have tick := tick_of_resetting resetting
    have values := inv.resetting _ resetting
    have ctrl : s.ctrl = Ctrl.reset := by rw [values]; rfl
    have status : s.status = Status.reset := by rw [values]; rfl
    refine ⟨?_, ?_, ?_, ?_, fun id cap ctrl status => ?_⟩
    · rintro rfl
      exact step_read_of_alwaysReadable turn tick (r := .id) rfl event rfl
    · rintro rfl
      exact step_read_of_alwaysReadable turn tick (r := .cap) rfl event rfl
    · rintro rfl
      exact step_read_of_alwaysReadable turn tick (r := .ctrl) rfl event (congrArg Ctrl.word ctrl)
    · rintro rfl
      exact step_read_of_alwaysReadable turn tick (r := .status) rfl event
        ((statusWord_eq _).trans (congrArg (statusBits true) status))
    · exact ⟨_, step_freeRead_of_resetting resetting event (alwaysReadable_target_of_ne id cap ctrl status)⟩
  · have values := inv.resetting 0 resetting
    simp only [step, resetting]
    rw [values]
    rfl

/-- Settles O58: reset is the end of the reset sequence that starts at it. -/
theorem resetMeetsInvariant : Obligations.ResetMeetsInvariant :=
  (startReset_inv State.reset).outside .idle [] [] 0 nofun nofun

end Sys2Proof.Machine
end

section
/-! SUPPORT. Bounded completion: no step stops, and a busy engine counts its host turns down to its completion (00_scope.md
R13, 40_control.md R101, 70_reset_and_hazards.md R264, R265). -/

namespace Sys2Proof.Machine

/-! ### No step stops -/

theorem exec_total (i : Instr) (s : State) : ∃ t, exec i s = .next t :=
  ⟨_, exec_eq_runCommand i s⟩

/-- The step at a command's last turn answers a state with the command completed, legal or not (R86, R101). -/
theorem step_completes {s : State} {c : Word} (completing : s.engine = .run c 0) :
    ∃ t, step s = .next t ∧ t.engine = .idle ∧ t.status.done = true ∧ t.cmd = s.cmd := by
  rw [step_of_completing completing]
  cases decoded : decode c with
  | ok i =>
    obtain ⟨t, run⟩ := exec_total i s
    obtain ⟨idle, -, done, -⟩ := completionWritesItsFields i s t run
    obtain ⟨⟨-, -, -, -, cmd, -⟩, -⟩ := commandsLeaveOtherRegisters i s t run
    exact ⟨t, (engineTurn_of_decode decoded s).trans run, idle, done, cmd⟩
  | error reason => exact ⟨_, engineTurn_of_illegal (legalCmd_eq_false_iff.mpr ⟨reason, decoded⟩) s, rfl, rfl, rfl⟩

theorem step_endsReset {s : State} (ending : s.engine = .reset 0) : step s = .next s.endReset := by
  simp only [step, ending]

/-- An engine whose time has come takes its own turn, and every other step is the host's (R13). -/
theorem step_total (s : State) : ∃ t, step s = .next t := by
  rcases engine : s.engine with - | ⟨c, - | left⟩ | (- | left)
  · exact ⟨_, step_of_isHostTurn (by rw [State.isHostTurn, engine])⟩
  · exact (step_completes engine).imp fun _ h => h.1
  · exact ⟨_, step_of_isHostTurn (isHostTurn_of_running engine)⟩
  · exact ⟨_, step_endsReset engine⟩
  · exact ⟨_, step_of_isHostTurn (isHostTurn_of_resetting engine)⟩

/-! ### One turn of the host at a busy engine -/

/-- What a host event other than a reset leaves of the engine, CMD and the events to come, while the engine is busy. -/
theorem hostTurn_of_busy {s : State} (busy : s.engine ≠ .idle) (noReset : ∀ e ∈ s.inbox.take 1, e.isReset = false) :
    s.hostTurn.engine = s.engine.tick ∧ s.hostTurn.cmd = s.cmd ∧
    (s.hostTurn.inbox = s.inbox ∨ s.hostTurn.inbox = s.inbox.tail) := by
  have busy (inbox : List HostEvent) : { s with engine := s.engine.tick, inbox := inbox }.engine ≠ .idle := by
    cases engine : s.engine with
    | idle => exact absurd engine busy
    | run c left => nofun
    | reset left => nofun
  rcases hostTurn_cases s with ⟨empty, turn⟩ | ⟨addr, rest, event, turn⟩ | ⟨addr, v, rest, event, turn⟩ |
    ⟨rest, event, turn⟩ | ⟨rest, event, turn⟩
  all_goals rw [turn]
  · exact ⟨rfl, rfl, .inl rfl⟩
  · rw [event]
    rcases hostRead_cases addr { s with engine := s.engine.tick, inbox := rest } with ⟨v, r⟩ | ⟨-, r⟩ | r | r
    all_goals
      rw [r]
      exact ⟨rfl, rfl, .inr rfl⟩
  · have noReset : isSoftReset (target addr) v = false := noReset (.write addr v) (by simp [event])
    rw [event]
    rcases hostWrite_cases addr v { s with engine := s.engine.tick, inbox := rest } with
      ⟨soft, -⟩ | ⟨-, ⟨idle, -⟩ | ⟨c, left, -, w⟩ | ⟨left, -, w⟩⟩
    · exact absurd (soft.symm.trans noReset) nofun
    · exact absurd idle (busy rest)
    · rw [w]
      rcases writeRunning_cases (target addr) v { s with engine := s.engine.tick, inbox := rest } with w | w | w | w | w
      all_goals
        rw [w]
        exact ⟨rfl, rfl, .inr rfl⟩
    · rw [w]
      exact ⟨rfl, rfl, .inr rfl⟩
  · rw [event]
    refine ⟨rfl, rfl, ?_⟩
    cases s.busy
    · exact .inr rfl
    · exact .inl rfl
  · exact absurd (noReset .powerOn (by simp [event])) nofun

/-! ### The count of host turns (R264) -/

/-- The states that the engine passes through while it is busy, by the host turns left: those of one command, or those of the
reset sequence (R56). -/
def IsCountdown (phase : Nat → Engine) : Prop := (∃ c, phase = .run c) ∨ phase = .reset

theorem isHostTurn_of_countdown {phase : Nat → Engine} (counts : IsCountdown phase) {s : State} {left : Nat}
    (engine : s.engine = phase (left + 1)) : s.isHostTurn = true := by
  rcases counts with ⟨c, rfl⟩ | rfl
  · exact isHostTurn_of_running engine
  · exact isHostTurn_of_resetting engine

theorem tick_of_countdown {phase : Nat → Engine} (counts : IsCountdown phase) (left : Nat) :
    (phase (left + 1)).tick = phase left := by
  rcases counts with ⟨c, rfl⟩ | rfl <;> rfl

theorem countdown_ne_idle {phase : Nat → Engine} (counts : IsCountdown phase) (left : Nat) : phase left ≠ .idle := by
  rcases counts with ⟨c, rfl⟩ | rfl <;> nofun

/-- A run of `m` steps, then the others. -/
theorem run_add {m : Nat} {s t : State} (first : Host.Core.run Sys2Proof.core m s = .next t) (n : Nat) :
    Host.Core.run Sys2Proof.core (m + n) s = Host.Core.run Sys2Proof.core n t := by
  induction m generalizing s with
  | zero =>
    cases first
    rw [Nat.zero_add]
  | succ m ih =>
    obtain ⟨u, step⟩ := step_total s
    rw [run_succ_of_step step] at first
    rw [Nat.succ_add, run_succ_of_step step]
    exact ih first

/-- With no reset among the next events, the engine comes to its completion after as many steps as it has host turns left. -/
theorem countdown {phase : Nat → Engine} (counts : IsCountdown phase) {s : State} {left : Nat}
    (engine : s.engine = phase left) (noReset : ∀ e ∈ s.inbox.take left, e.isReset = false) :
    ∃ t, Host.Core.run Sys2Proof.core left s = .next t ∧ t.engine = phase 0 ∧ t.cmd = s.cmd := by
  induction left generalizing s with
  | zero => exact ⟨s, rfl, engine, rfl⟩
  | succ left ih =>
    have first : ∀ e ∈ s.inbox.take 1, e.isReset = false := fun e he =>
      noReset e (List.take_subset_take_left _ (Nat.le_add_left 1 left) he)
    obtain ⟨ticked, cmd, inbox⟩ := hostTurn_of_busy (by rw [engine]; exact countdown_ne_idle counts _) first
    rw [engine, tick_of_countdown counts] at ticked
    have later : ∀ e ∈ s.hostTurn.inbox.take left, e.isReset = false := by
      intro e he
      rcases inbox with same | popped
      · rw [same] at he
        exact noReset e (List.take_subset_take_left _ (Nat.le_succ left) he)
      · rw [popped, ← List.drop_one, List.take_drop] at he
        exact noReset e (Nat.add_comm left 1 ▸ List.mem_of_mem_drop he)
    obtain ⟨t, run, completing, kept⟩ := ih ticked later
    exact ⟨t, (run_succ_of_step (step_of_isHostTurn (isHostTurn_of_countdown counts engine)) left).trans run, completing,
      kept.trans cmd⟩

/-- Settles O55: the host turns are counted down, and the step after them is the engine's own. -/
theorem acceptedCommandCompletes : Obligations.AcceptedCommandCompletes := by
  refine ⟨step_total, fun s c left running noReset => ?_, fun s left resetting noReset => ?_⟩
  · obtain ⟨u, run, completing, sameCmd⟩ := countdown (.inl ⟨c, rfl⟩) running noReset
    obtain ⟨t, last, idle, done, cmd⟩ := step_completes completing
    exact ⟨t, (run_add run 1).trans (run_succ_of_step last 0), idle, done, cmd.trans sameCmd⟩
  · obtain ⟨u, run, ending, -⟩ := countdown (.inr rfl) resetting noReset
    exact ⟨u.endReset, (run_add run 1).trans (run_succ_of_step (step_endsReset ending) 0), rfl⟩

end Sys2Proof.Machine
end

section
/-! SUPPORT. A host that waits for each of its commands: a rule reads neither the engine state nor the outside world, so the
block does not see how long a command took (20_memory.md R69, 30_encoding.md R91, 70_reset_and_hazards.md R263, R264). -/

namespace Sys2Proof.Machine

/-! ### The block as a rule sees it -/

/-- The block's own part with the engine IDLE: what a rule can depend on. -/
def State.atRest (s : State) : State := { s.block with engine := .idle }

theorem withSize_atRest {s : State} {rule rule' : Except FaultCode State} (same : rule' = rule.map State.atRest) :
    withSize s.atRest rule' = (withSize s rule).map State.atRest := by
  have size : s.atRest.sizeOk = s.sizeOk := rfl
  unfold withSize
  rw [size, same]
  split <;> rfl

theorem withLength_atRest {expected len : Nat} {s v v' : State} (same : v' = v.atRest) :
    withLength expected len s.atRest v' = (withLength expected len s v).map State.atRest := by
  unfold withLength
  rw [same]
  split <;> rfl

theorem flagIf_atRest (c : Bool) (bit : BitVec 4) (s : State) : s.atRest.flagIf c bit = (s.flagIf c bit).atRest := by
  cases c <;> rfl

/-- A check of the block that a rule makes before it ends in a state. -/
theorem check_atRest {p : Prop} [Decidable p] {v v' : State} (same : v' = v.atRest) (code : FaultCode) :
    (if p then .ok v' else .error code) = (if p then .ok v else .error code : Except FaultCode State).map State.atRest := by
  rw [same]
  split <;> rfl

/-- No rule reads the engine state, the events to come, the replies or the account of time. -/
theorem ruleOf_atRest (i : Instr) (s : State) : ruleOf i s.atRest = (ruleOf i s).map State.atRest := by
  cases i with
  | nop | rpclr => rfl
  | bcclr =>
    have same : s.atRest.mem = s.mem := rfl
    simp only [ruleOf, same]
    generalize clearRing s.mem = cleared
    rfl
  | kfdecM len | kfdecB len | rngdec len | errtok len => exact withLength_atRest rfl
  | xfdec len => exact withLength_atRest (flagIf_atRest _ _ { s with res0 := (xfDecode Config.xfLayout.layout s.opa).1 })
  | kfencM => exact congrArg Except.ok (flagIf_atRest _ _ { s with res0 := 0#40 ++ (kfenc 16 s.opa).1 })
  | kfencB => exact congrArg Except.ok (flagIf_atRest _ _ { s with res0 := 0#40 ++ (kfenc 15 s.opa).1 })
  | bcpush =>
    have push : s.atRest.ringPush = s.ringPush.atRest := rfl
    have fold : s.ringPush.atRest.boxcarFold = s.ringPush.boxcarFold := rfl
    refine check_atRest ?_ .badConfig
    rw [push, fold]
    exact flagIf_atRest _ _ { s.ringPush with bcRes := s.ringPush.boxcarFold.result }
  | rppush | win | fftF | fftI | mag | bitrev => exact withSize_atRest rfl
  | load =>
    exact withSize_atRest (congrArg Except.ok (flagIf_atRest _ _ (s.storeWork (s.rippleBuf.map (fun v => ⟨v, fzero⟩)))))
  | stageF n | stageI n | peaks =>
    refine withSize_atRest (check_atRest ?_ .badConfig)
    rfl
  | norm =>
    refine withSize_atRest ?_
    have same : s.atRest.mem = s.mem := rfl
    rw [same]
    split <;> rfl

/-- What a command can depend on: its start clears the hidden mask as well (R100). -/
def State.settled (s : State) : State := { s.atRest with cmask := 0 }

/-- Run on that part, a command leaves the same block: its completion writes the engine state and the mask anew (R101). -/
theorem exec_settled {i : Instr} {s t : State} (run : exec i s = .next t) : exec i s.settled = .next t.block := by
  have rule : ruleOf i { s.settled with cmask := 0 } = (ruleOf i { s with cmask := 0 }).map State.atRest :=
    ruleOf_atRest i { s with cmask := 0 }
  rw [exec_eq_runCommand] at run ⊢
  cases ended : ruleOf i { s with cmask := 0 } with
  | ok u =>
    rw [ended] at rule
    rw [runCommand_ok _ _ _ ended] at run
    rw [runCommand_ok _ _ _ rule, ← Host.Outcome.next.inj run]
    rfl
  | error code =>
    rw [ended] at rule
    rw [runCommand_error _ _ _ ended] at run
    rw [runCommand_error _ _ _ rule, ← Host.Outcome.next.inj run]
    rfl

/-- States that agree on that part come to the same block. -/
theorem exec_block_congr {i : Instr} {s s' t t' : State} (same : s.settled = s'.settled) (run : exec i s = .next t)
    (run' : exec i s' = .next t') : t.block = t'.block := by
  have rest := exec_settled run
  rw [same, exec_settled run'] at rest
  exact (Host.Outcome.next.inj rest).symm

/-! ### One command and its WAIT (R91) -/

/-- While the command runs, WAIT reads STATUS and stays: only the replies grow and the turns go by. -/
theorem step_wait_of_running {s : State} {c : Word} {left : Nat} (running : s.engine = .run c (left + 1))
    {rest : List HostEvent} (event : s.inbox = .wait :: rest) :
    step s = .next { s with engine := .run c left, replies := s.statusWord :: s.replies } := by
  have busy (e : Engine) (h : s.engine = e) : s.statusWord = { s with engine := e }.statusWord := by rw [← h]
  rw [step_of_isHostTurn (isHostTurn_of_running running), State.hostTurn, event, tick_of_running running, busy _ running]
  rfl

/-- The whole wait, up to the command's completion. -/
theorem run_wait {c : Word} {rest : List HostEvent} (left : Nat) {s : State} (running : s.engine = .run c left)
    (event : s.inbox = .wait :: rest) : ∃ t : State, Host.Core.run Sys2Proof.core left s = .next t ∧
      t.engine = .run c 0 ∧ t.inbox = s.inbox ∧ t.settled = s.settled := by
  induction left generalizing s with
  | zero => exact ⟨s, rfl, running, rfl, rfl⟩
  | succ left ih =>
    obtain ⟨t, run, completing, inbox, settled⟩ :=
      ih (s := { s with engine := .run c left, replies := s.statusWord :: s.replies }) rfl event
    exact ⟨t, (run_succ_of_step (step_wait_of_running running event) left).trans run, completing, inbox, settled⟩

/-- On an IDLE block WAIT reads BUSY = 0 and is done. -/
theorem step_wait_of_idle {s : State} (idle : s.engine = .idle) {rest : List HostEvent} (event : s.inbox = .wait :: rest) :
    step s = .next { s with inbox := rest, replies := s.statusWord :: s.replies } := by
  have ready : { s with inbox := rest }.busy = false := by rw [State.busy, idle]
  rw [step_event_of_idle idle event, State.hostEvent, ready]
  rfl

/-- A command that the host submits and waits for leaves the block that running it at once leaves, whatever its duration. -/
theorem run_doCommand {i : Instr} (fits : i.wellFormed = true) {s : State} (idle : s.engine = .idle) {rest : List HostEvent}
    (events : s.inbox = doCommand i ++ rest) : ∃ (n : Nat) (t u : State), Host.Core.run Sys2Proof.core n s = .next t ∧
      exec i { s with cmd := encode i } = .next u ∧ t.engine = .idle ∧ t.inbox = rest ∧ t.block = u.block := by
  have decoded := decodeUndoesEncode i fits
  obtain ⟨a, submit, running, waiting, accepted⟩ : ∃ a, step s = .next a ∧ a.engine = .run (encode i) s.nextDelay ∧
      a.inbox = .wait :: rest ∧ a.settled = { s with cmd := encode i }.settled :=
    ⟨_, (acceptanceStartsTheEngine s (encode i) (.wait :: rest) idle events).1 (legalCmd_iff.mpr ⟨i, decoded⟩),
      rfl, rfl, rfl⟩
  obtain ⟨b, wait, completing, inbox, unchanged⟩ := run_wait s.nextDelay running waiting
  obtain ⟨t, complete⟩ := exec_total i b
  obtain ⟨u, atOnce⟩ := exec_total i { s with cmd := encode i }
  obtain ⟨ended, -⟩ := completionWritesItsFields i b t complete
  obtain ⟨⟨-, -, -, -, -, -, -, -, -, kept, -⟩, -⟩ := commandsLeaveOtherRegisters i b t complete
  have same : t.block = u.block := exec_block_congr (unchanged.trans accepted) complete atOnce
  have completed := (stepRunsDecodedCommand.1 b (encode i) i completing decoded).trans complete
  have ready := step_wait_of_idle ended (kept.trans (inbox.trans waiting))
  refine ⟨s.nextDelay + 2 + 1, { t with inbox := rest, replies := t.statusWord :: t.replies }, u, ?_, atOnce, ended, rfl,
    same⟩
  rw [run_succ_of_step submit, run_add wait, run_succ_of_step completed, run_succ_of_step ready]
  rfl

/-! ### A program of commands -/

/-- Started from the same block, the waiting host and the commands in order end in the same block. -/
theorem run_doCommands {prog : List Instr} {s r : State} (idle : s.engine = .idle) (events : s.inbox = doCommands prog)
    (fits : ∀ i ∈ prog, i.wellFormed = true) (same : s.block = r.block) :
    ∃ (n : Nat) (t u : State), Host.Core.run Sys2Proof.core n s = .next t ∧ runInOrder prog r = .next u ∧
      t.inbox = [] ∧ t.engine = .idle ∧ t.block = u.block := by
  induction prog generalizing s r with
  | nil => exact ⟨0, s, r, rfl, rfl, events, idle, same⟩
  | cons i prog ih =>
    obtain ⟨n, s', u, run, atOnce, idle', inbox, left⟩ := run_doCommand (fits i List.mem_cons_self) idle events
    obtain ⟨r', inOrder⟩ := exec_total i { r with cmd := encode i }
    have submitted : { s with cmd := encode i }.settled = { r with cmd := encode i }.settled :=
      congrArg (fun b : State => { b with cmd := encode i, engine := .idle, cmask := 0 }) same
    have same' : s'.block = r'.block := left.trans (exec_block_congr submitted atOnce inOrder)
    obtain ⟨m, t, v, rest, program, final⟩ := ih idle' inbox (fun j hj => fits j (List.mem_cons_of_mem i hj)) same'
    refine ⟨n + m, t, v, (run_add run m).trans rest, ?_, final⟩
    simp only [runInOrder, inOrder, program]

/-- Settles O56: both sides start from the same state. -/
theorem waitingHostRunsCommandsInOrder : Obligations.WaitingHostRunsCommandsInOrder :=
  fun _ _ idle events fits => run_doCommands idle events fits rfl

end Sys2Proof.Machine
end
